-- ==== Sys2Proof/Word.lean ====
section
/-!
DEFINITION. The word types of the CORE, the small enumerations that command words carry, and the
two's-complement reading `wrap32` (spec/00_scope.md R11, R12).
-/
namespace Sys2Proof

/-- A byte of a stream (R11). -/
abbrev Byte := BitVec 8

/-- A 32-bit register, command word, coefficient or sample (R42, R128, R160). -/
abbrev Word := BitVec 32

/-- `wrap32(a)`: the 32-bit two's-complement value of an integer (R12). -/
def wrap32 (a : Int) : Word := BitVec.ofInt 32 a

/-- A stuffing mode of the BitChannel: MODE 0 byte-stuffing, MODE 1 bit-stuffing (R79, R220). -/
inductive Stuff where
  | byte
  | bit
  deriving DecidableEq, Repr, Inhabited

/-- A byte-stream port: STREAM 0 PRIMARY, STREAM 1 AUX (R79, R127). -/
inductive StreamSel where
  | primary
  | aux
  deriving DecidableEq, Repr, Inhabited

/-- A Huffman class: CLASS 0 DC, CLASS 1 AC (R169, R350). -/
inductive HufClass where
  | dc
  | ac
  deriving DecidableEq, Repr, Inhabited

/-- The assigned registers of the register space (R84); an index is a component number. -/
inductive Reg where
  | id | status | result | operand
  | scanCtrl | scanBand | scanNcomp | restartInterval | mcuGeom | mcuMap
  | compCfg (i : Fin 4) | compCond (i : Fin 4) | frameHeight
  | predDc (i : Fin 4) | predDiff (i : Fin 4) | biasB (i : Fin 4) | biasN (i : Fin 4)
  | rstState | rowState | eobrun | corrCount
  | qmA | qmC | qmCtrl | qmSt | qmZ
  | bcRbuf | bcCtrl
  deriving DecidableEq, Repr, Inhabited

end Sys2Proof
end

