-- ==== Sys2Proof/Syntax.lean ====
section
/-!
DEFINITION. The commands of the CORE: one constructor per row of spec/opcode_table.json
(spec/30_encoding.md R171), with the fields of its format (R161–R169).
-/
namespace Sys2Proof

/-- A command (R171). A register field is the register it names (R162): a number that names none is
refused by the decoder (R174), so no term stands for it. A field that may be well-formed and still name
nothing (CTX, INDEX) keeps its bits (R175), and so does the bit count N, whose range `WellFormed` checks. -/
inductive Instr where
  -- 40_control.md
  | nop
  | coreReset
  | cfgWrite (reg : Reg)
  | cfgRead (reg : Reg)
  -- 41_bitchannel.md
  | bcOpenRead (mode : Stuff) (stream : StreamSel)
  | bcOpenWrite (mode : Stuff) (stream : StreamSel)
  | bcGetBits (n : BitVec 6)
  | bcPutBits (n : BitVec 6)
  | bcFlush
  | bcSkipStuffing
  | bcFindMarker
  | bcGetByteZ
  -- 42_qmcoder.md
  | qmInitEnc
  | qmInitDec
  | qmEncode (ctx : BitVec 11) (d : Bool)
  | qmDecode (ctx : BitVec 11)
  | qmFlush (final : Bool)
  -- 43_context_models.md
  | ctxInit (ctx : BitVec 11) (index : BitVec 7) (mps : Bool)
  | ctxRead (ctx : BitVec 11)
  | ctxResetAll
  -- 44_huffman.md
  | hufPut (cls : HufClass) (tbl : Fin 4) (sym : Byte)
  | hufGet (cls : HufClass) (tbl : Fin 4)
  | hufCount (cls : HufClass) (tbl : Fin 4) (sym : Byte)
  -- 45_entropy_parser.md
  | epStartParse
  | epStartWrite
  | epStartMeasure
  | epStartMcuRow
  | epParseMcu
  | epWriteMcu
  | epFlush
  | epRestart
  | epWriteFrameType
  deriving DecidableEq, Repr, Inhabited

end Sys2Proof
end

