-- ==== Sys2Proof/Machine/Regs.lean ====
section
/-!
DEFINITION. The data State is made of: the register groups of spec/10_state.md (R46–R81, R85), the ports
of spec/20_memory.md (R121–R134), and the host's actions (spec/40_control.md R205,
spec/70_reset_and_hazards.md R704, R714).
-/
namespace Sys2Proof.Machine

/-- The parser states of STATUS.STATE, 0 to 5 in this order (R47). -/
inductive ScanState where
  | idle
  | parse
  | write
  | measure
  | flushed
  | dead
  deriving DecidableEq, Repr, Inhabited

/-- The error codes of STATUS.ERR, 0 to 8 in this order (R601). -/
inductive Err where
  | none
  | unexpectedEndOfStream
  | unexpectedMarker
  | malformedStream
  | invalidRestartMarker
  | contractViolation
  | illegalCommand
  | inputRange
  | internal
  deriving DecidableEq, Repr, Inhabited

/-- STATUS (R46–R52). -/
structure Status where
  state : ScanState
  err : Err
  rowActive : Bool
  segValid : Bool
  dnlFound : Bool
  rstWarn : Bool
  rstErrCnt : BitVec 8
  deriving DecidableEq, Repr, Inhabited

/-- The RW-config registers (R55–R64), each kept as its word: reserved bits are 0 because every write is
masked (R43, R203). -/
structure CfgRegs where
  scanCtrl : Word
  scanBand : Word
  scanNcomp : Word
  restartInterval : Word
  mcuGeom : Word
  mcuMap : Word
  compCfg : Vector Word 4
  compCond : Vector Word 4
  frameHeight : Word
  deriving DecidableEq, Repr, Inhabited

/-- The scan state (R65–R72), with the correction queue BE (R81) and EOB_TBL (R85). CORR_COUNT is the
length of `be` (R72). -/
structure ScanRegs where
  predDc : Vector Word 4
  predDiff : Vector Word 4
  biasB : Vector Word 4
  biasN : Vector Word 4
  mcusToGo : BitVec 16
  nextRst : BitVec 3
  mcuInRow : BitVec 16
  row : BitVec 16
  eobrun : BitVec 16
  be : List Bool
  eobTbl : Fin 4
  deriving DecidableEq, Repr, Inhabited

/-- QM_CTRL.QMODE: 0 closed, 1 encoding, 2 decoding (R75, R270). -/
inductive QMode where
  | closed
  | encoding
  | decoding
  deriving DecidableEq, Repr, Inhabited

/-- The QM-coder registers (R73–R77). `lost` is no register of the spec: it counts the bytes, the first of those held
back in Z, B and ST, that a BC_OPEN_* discarded and that R710 lets reach no stream (log entry 26). -/
structure QmRegs where
  a : BitVec 17
  c : BitVec 32
  ct : BitVec 4
  qmode : QMode
  bv : Bool
  b : Byte
  st : BitVec 32
  z : BitVec 32
  lost : Nat := 0
  deriving DecidableEq, Repr, Inhabited

/-- BC_CTRL.DIR: 0 closed, 1 open for read, 2 open for write (R79, R221). -/
inductive Dir where
  | closed
  | read
  | write
  deriving DecidableEq, Repr, Inhabited

/-- The BitChannel registers BC_RBUF and BC_CTRL (R78, R79). -/
structure BitChan where
  rbuf : BitVec 32
  cnt : BitVec 6
  dir : Dir
  mode : Stuff
  stream : StreamSel
  marker : Bool
  eof : Bool
  lastFF : Bool
  free : BitVec 4
  wacc : Byte
  deriving DecidableEq, Repr, Inhabited

/-- A context cell: INDEX 0 to 113, MPS, USED (R80, R271). -/
structure CtxCell where
  index : Fin 114
  mps : Bool
  used : Bool
  deriving DecidableEq, Repr, Inhabited

/-- A byte-stream port: the input `in_s` with its read position `pos_s`, and the output `out_s` (R121). The
last `unseen` bytes of the input were supplied after the CORE saw the end of the data on the open stream, and
the CORE does not see them before it opens the stream again (R713, 93 #24; log entry 11). -/
structure Stream where
  inp : List Byte
  pos : Nat
  out : List Byte
  unseen : Nat
  deriving DecidableEq, Repr, Inhabited

/-- A unit: 64 coefficients in natural order; DIFF_LOSSLESS uses only `u[0]` (R128). -/
abbrev Block := Vector Word 64

/-- One code of a Huffman table: the symbol, and its code as `len` bits (R133). -/
structure HufEntry where
  sym : Byte
  len : Nat
  code : Nat
  deriving DecidableEq, Repr, Inhabited

/-- A Huffman table of the port (R133). -/
abbrev HufTable := List HufEntry

/-- The ports of the CORE (R120): the two byte streams; the block port, with the units its provider still
holds for each component, the unit requested and not released, and the units released, oldest first; the
Huffman tables; and the statistics counters, keyed by `countKey`. -/
structure Ports where
  primary : Stream
  aux : Stream
  pending : Vector (List Block) 4
  current : Option (Fin 4 × Block)
  released : List (Fin 4 × Block)
  dcTables : Vector HufTable 4
  acTables : Vector HufTable 4
  counts : List (Nat × Nat)
  deriving DecidableEq, Repr, Inhabited

/-- What the HOST does between and with commands. `setOperand` and `exec` are the host interface of R41
(R205); the others are its access to the ports while no command runs (R704, R713, R714). -/
inductive HostAction where
  /-- `SetOperand(v)`: a write of OPERAND (R205). -/
  | setOperand (v : Word)
  /-- `Exec(w)`: a write of CMD (R41). -/
  | exec (w : Word)
  /-- LOADIN: supply the whole input of a stream, to be read from its first byte (R179, R704 step 3). -/
  | supplyIn (t : StreamSel) (bytes : List Byte)
  /-- Append bytes to the input of a stream (R713). -/
  | appendIn (t : StreamSel) (bytes : List Byte)
  /-- Move the read position of a stream (R714 H-9). -/
  | seekIn (t : StreamSel) (pos : Nat)
  /-- Leave these bytes as the output of a stream: what the CORE wrote taken, or the HOST's own bytes put around
  it (R714, H-8). -/
  | setOut (t : StreamSel) (bytes : List Byte)
  /-- Install a Huffman table (R704 step 2, R714 H-3). -/
  | installTable (cls : HufClass) (tbl : Fin 4) (table : HufTable)
  /-- Reset the statistics counters (R360, R714 H-4), in any state (log entry 27). -/
  | clearCounts
  /-- Say which units the provider hands over next for a component, in order (R128, R129, R714 H-5). -/
  | supplyUnits (c : Fin 4) (units : List Block)
  deriving DecidableEq, Repr, Inhabited

end Sys2Proof.Machine
end

