-- ==== Sys2Proof/Machine/Sparse.lean ====
section
/-!
DEFINITION. Sparse arrays in one canonical form: a list of (key, value) pairs with strictly rising keys
that lists no value an unlisted key reads as. The context bank (spec/10_state.md R80) and the statistics
counters (spec/20_memory.md R134) are held so, and equal arrays are equal lists.
-/
namespace Sys2Proof.Machine

/-- What key `k` reads as, `d` being what unlisted keys read as. -/
def sparseGet {α : Type} (d : Nat → α) : List (Nat × α) → Nat → α
  | [], k => d k
  | (j, w) :: m, k => if k = j then w else sparseGet d m k

/-- Write `v` at key `k`, keeping the canonical form. -/
def sparseSet {α : Type} [DecidableEq α] (d : Nat → α) (k : Nat) (v : α) :
    List (Nat × α) → List (Nat × α)
  | [] => if v = d k then [] else [(k, v)]
  | (j, w) :: m =>
    if k < j then (if v = d k then (j, w) :: m else (k, v) :: (j, w) :: m)
    else if k = j then (if v = d k then m else (k, v) :: m)
    else (j, w) :: sparseSet d k v m

/-- The canonical form from key `lo` on. -/
def sparseWfFrom {α : Type} [DecidableEq α] (d : Nat → α) : Nat → List (Nat × α) → Bool
  | _, [] => true
  | lo, (j, w) :: m => decide (lo ≤ j) && decide (w ≠ d j) && sparseWfFrom d (j + 1) m

/-- The canonical form: keys strictly rising, no listed value that an unlisted key reads as. -/
def sparseWf {α : Type} [DecidableEq α] (d : Nat → α) (m : List (Nat × α)) : Bool :=
  sparseWfFrom d 0 m

end Sys2Proof.Machine
end

