-- ==== Sys2Proof/Machine/State.lean ====
section
/-!
DEFINITION. The state of the machine (spec/10_state.md R85, spec/20_memory.md R120), the state after reset
(spec/70_reset_and_hazards.md R701), and the reasons a step can stop.
-/
namespace Sys2Proof.Machine

/-- Why the machine stops with a fault. No error of the spec is one of these: an error is a next state,
DEAD with its code in STATUS.ERR (R600, R603). -/
inductive Fault where
  /-- Raised by a command whose pseudocode loops for ever: Renorm_e and Renorm_d (R278, R285) on QM_A = 0,
  which a drawn QM_A of a DEAD CORE may hold and no command then reads, so no run reaches it (R282, R286,
  R730). The other bounded loops of the model carry it for the bound they cannot pass. SAFE: the model stops
  where the spec's procedure has no end. -/
  | loopWithoutEnd
  /-- Raised by EP_PARSE_MCU and EP_WRITE_MCU for a unit the spec gives no algorithm for: a unit of a reserved
  KIND 8 to 15 (R56), and the neutral unit of a residual kind (R406). EP_START_* refuses such a KIND (R384),
  CFG_WRITE is refused in an active state (R44), and a residual scan has no invalid segment (R406), so no run
  reaches it. SAFE: the model stops where the spec gives nothing. -/
  | noUnitAlgorithm
  deriving DecidableEq, Repr

/-- Why the machine refuses a step. No command is refused: the refusals below are of host actions that break
a duty of R714, for which 93_implementation_defined.md #22 and #23 say that no transition exists. -/
inductive Refusal where
  /-- Raised by an arm of `exec` that has no meaning yet; no arm of this model raises it. SAFE. -/
  | notModelled (mnemonic : String)
  /-- Raised by the host action that installs a Huffman table that is not prefix-free, lists a symbol or a
  code twice, or holds a code of no legal length (R133, H-3). SAFE: no run of the model has such tables. -/
  | hostTableIllFormed
  /-- Raised by the host action that installs a table in PARSE, WRITE or MEASURE (H-3). SAFE. -/
  | hostTableInUse
  /-- Raised by the host actions that change the unread input or the position of a stream the CORE has open
  for reading and uses, in IDLE after a BC_OPEN_READ and in PARSE (R713, H-2), or the output of one it has open for
  writing and uses, in IDLE after a BC_OPEN_WRITE and in WRITE (R714). SAFE. -/
  | hostStreamInUse
  deriving DecidableEq, Repr

/-- The state: the CORE's (R85), its ports' (R120), and the model's own `host` and `draws`. -/
structure State where
  /-- The MODEL's own: the host's actions still to come, the next first (log entry 1). -/
  host : List HostAction
  /-- STATUS (R46). -/
  status : Status
  /-- OPERAND (R54). -/
  operand : Word
  /-- RESULT (R53). -/
  result : Word
  /-- The RW-config registers (R55–R64). -/
  cfg : CfgRegs
  /-- The scan registers (R65–R72, R81, R85). -/
  scan : ScanRegs
  /-- The QM-coder registers (R73–R77). -/
  qm : QmRegs
  /-- The BitChannel registers (R78, R79). -/
  bc : BitChan
  /-- The context bank (R80): the cells that differ from their reset value. -/
  ctx : List (Nat × CtxCell)
  /-- The ports (R120). -/
  ports : Ports
  /-- The MODEL's own: how many draws of free values were made (log entry 2). -/
  draws : Nat
  deriving DecidableEq, Repr

/-- STATUS after reset: 0x00000200 (R46). -/
def Status.reset : Status :=
  { state := .idle, err := .none, rowActive := false, segValid := true, dnlFound := false,
    rstWarn := false, rstErrCnt := 0 }

/-- The RW-config registers after reset (R55–R64). -/
def CfgRegs.reset : CfgRegs :=
  { scanCtrl := 0, scanBand := 0, scanNcomp := 0, restartInterval := 0, mcuGeom := 0, mcuMap := 0,
    compCfg := #v[0x50, 0x50, 0x50, 0x50],
    compCond := #v[0x20000, 0x20000, 0x20000, 0x20000], frameHeight := 0 }

/-- The scan registers after reset (R65–R72, R81, R85). -/
def ScanRegs.reset : ScanRegs :=
  { predDc := #v[0, 0, 0, 0], predDiff := #v[0, 0, 0, 0], biasB := #v[0, 0, 0, 0],
    biasN := #v[0, 0, 0, 0], mcusToGo := 0, nextRst := 0, mcuInRow := 0, row := 0, eobrun := 0,
    be := [], eobTbl := 0 }

/-- The QM registers after reset (R73–R77). -/
def QmRegs.reset : QmRegs :=
  { a := 0, c := 0, ct := 0, qmode := .closed, bv := false, b := 0, st := 0, z := 0 }

/-- The BitChannel registers after reset: BC_RBUF 0, BC_CTRL 0x00080000 (R78, R79). -/
def BitChan.reset : BitChan :=
  { rbuf := 0, cnt := 0, dir := .closed, mode := .byte, stream := .primary, marker := false,
    eof := false, lastFF := false, free := 8, wacc := 0 }

/-- A stream with nothing to read and nothing written (log entry 3). -/
def Stream.empty : Stream := { inp := [], pos := 0, out := [], unseen := 0 }

/-- The ports at power-on, whose contents are the host's (R701; log entry 3). -/
def Ports.empty : Ports :=
  { primary := .empty, aux := .empty, pending := #v[[], [], [], []], current := none, released := [],
    dcTables := #v[[], [], [], []], acTables := #v[[], [], [], []], counts := [] }

/-- The machine right after power-on reset (R700, R701): the CORE waits for the host's first command (R702). -/
def State.reset : State :=
  { host := [], status := .reset, operand := 0, result := 0, cfg := .reset, scan := .reset,
    qm := .reset, bc := .reset, ctx := [], ports := .empty, draws := 0 }

end Sys2Proof.Machine
end

