-- ==== Sys2Proof/Machine/Operands.lean ====
section
/-!
DEFINITION. The operand forms: the fields of the configuration registers (spec/10_state.md R55–R63), the
values derived from them (spec/45_entropy_parser.md R387), the integer operations of spec/00_scope.md R12,
the categories and extra bits of spec/44_huffman.md R356, R357, and the coefficients of a unit
(spec/20_memory.md R131).
-/
namespace Sys2Proof.Machine

/-! ### Integers (R12, R356, R357) -/

/-- The field of `len` bits from bit `lo` of a word, zero-extended (R11). -/
def field (w : Word) (lo len : Nat) : Nat := w.toNat / 2 ^ lo % 2 ^ len

/-- Bit `i` of a word (R11). -/
def flag (w : Word) (i : Nat) : Bool := w.getLsbD i

/-- `a >> s`: the arithmetic shift, rounding toward minus infinity (R12). -/
def asr (a : Int) (s : Nat) : Int := a / 2 ^ s

/-- `halve(a)`: division by 2 rounded toward zero (R12, R561). -/
def halve (a : Int) : Int := a.tdiv 2

/-- `Category(v)`: the least s with |v| < 2^s (R356). -/
def category (v : Int) : Nat := if v = 0 then 0 else v.natAbs.log2 + 1

/-- `Bits(v, s)`: the extra bits of a value of category s (R357). -/
def extraBits (v : Int) (s : Nat) : Nat := if 0 < v then v.toNat else (v + 2 ^ s - 1).toNat

/-- `Extend(b, s)`: the value of s extra bits b (R357). -/
def extend (b s : Nat) : Int :=
  if s = 0 then 0 else if 2 ^ (s - 1) ≤ b then (b : Int) else (b : Int) - 2 ^ s + 1

/-! ### Configuration fields (R55–R63) -/

/-- The scan kinds of SCAN_CTRL.KIND, 0 to 7 in this order; the values 8 to 15 are reserved (R56). -/
inductive Kind where
  | seqHuff
  | seqAc
  | refHuff
  | refAc
  | diffLossless
  | residualAc
  | residualHuff
  | residualSeq
  | reserved
  deriving DecidableEq, Repr, Inhabited

/-- The kind a KIND value names (R56). -/
def Kind.ofField : Nat → Kind
  | 0 => .seqHuff
  | 1 => .seqAc
  | 2 => .refHuff
  | 3 => .refAc
  | 4 => .diffLossless
  | 5 => .residualAc
  | 6 => .residualHuff
  | 7 => .residualSeq
  | _ => .reserved

/-- The QM kinds: KIND 1, 3 and 5 (R56). -/
def Kind.isQm : Kind → Bool
  | .seqAc | .refAc | .residualAc => true
  | .seqHuff | .refHuff | .diffLossless | .residualHuff | .residualSeq | .reserved => false

/-- The residual kinds: KIND 5, 6 and 7 (R56). -/
def Kind.isResidual : Kind → Bool
  | .residualAc | .residualHuff | .residualSeq => true
  | .seqHuff | .seqAc | .refHuff | .refAc | .diffLossless | .reserved => false

/-- SCAN_CTRL.KIND (R55). -/
def CfgRegs.kind (c : CfgRegs) : Kind := Kind.ofField (field c.scanCtrl 0 4)

/-- SCAN_CTRL.PROGRESSIVE (R55). -/
def CfgRegs.progressive (c : CfgRegs) : Bool := flag c.scanCtrl 4

/-- SCAN_CTRL.DIFFERENTIAL (R55). -/
def CfgRegs.differential (c : CfgRegs) : Bool := flag c.scanCtrl 5

/-- SCAN_CTRL.HIDDEN (R55). -/
def CfgRegs.hidden (c : CfgRegs) : Bool := flag c.scanCtrl 6

/-- SCAN_CTRL.BASELINE (R55). -/
def CfgRegs.baseline (c : CfgRegs) : Bool := flag c.scanCtrl 7

/-- SCAN_CTRL.DNL_ENABLE (R55). -/
def CfgRegs.dnlEnable (c : CfgRegs) : Bool := flag c.scanCtrl 8

/-- SCAN_CTRL.HADAMARD (R55). -/
def CfgRegs.hadamard (c : CfgRegs) : Bool := flag c.scanCtrl 9

/-- SCAN_CTRL.QM_BYTESTUFF (R55). -/
def CfgRegs.qmByteStuff (c : CfgRegs) : Bool := flag c.scanCtrl 10

/-- SCAN_BAND.SS (R57). -/
def CfgRegs.ss (c : CfgRegs) : Nat := field c.scanBand 0 6

/-- SCAN_BAND.SE (R57). -/
def CfgRegs.se (c : CfgRegs) : Nat := field c.scanBand 8 6

/-- SCAN_BAND.AH (R57). -/
def CfgRegs.ah (c : CfgRegs) : Nat := field c.scanBand 16 4

/-- SCAN_BAND.AL (R57). -/
def CfgRegs.al (c : CfgRegs) : Nat := field c.scanBand 24 4

/-- The first AC position a unit codes, ks = max(SS, 1) (R450). -/
def CfgRegs.ks (c : CfgRegs) : Nat := max c.ss 1

/-- SCAN_NCOMP.NCOMP (R58). -/
def CfgRegs.ncomp (c : CfgRegs) : Nat := field c.scanNcomp 0 3

/-- RESTART_INTERVAL.RI (R59). -/
def CfgRegs.ri (c : CfgRegs) : Nat := field c.restartInterval 0 16

/-- MCU_GEOM.MCUS_PER_ROW (R60). -/
def CfgRegs.mcusPerRow (c : CfgRegs) : Nat := field c.mcuGeom 0 16

/-- MCU_GEOM.MCU_ROWS (R60). -/
def CfgRegs.mcuRows (c : CfgRegs) : Nat := field c.mcuGeom 16 16

/-- MCU_MAP.NBLK (R61). -/
def CfgRegs.nblk (c : CfgRegs) : Nat := field c.mcuMap 0 4

/-- MCU_MAP.MAP[j]: the component of the j-th unit of an MCU (R61). -/
def CfgRegs.mapOf (c : CfgRegs) (j : Nat) : Fin 4 := Fin.ofNat 4 (field c.mcuMap (4 + 2 * j) 2)

/-- COMP_CFG[i].DCTBL (R62). -/
def CfgRegs.dctbl (c : CfgRegs) (i : Fin 4) : Fin 4 := Fin.ofNat 4 (field c.compCfg[i] 0 2)

/-- COMP_CFG[i].ACTBL (R62). -/
def CfgRegs.actbl (c : CfgRegs) (i : Fin 4) : Fin 4 := Fin.ofNat 4 (field c.compCfg[i] 2 2)

/-- COMP_CFG[i].KX (R62). -/
def CfgRegs.kx (c : CfgRegs) (i : Fin 4) : Nat := field c.compCfg[i] 4 6

/-- COMP_COND[i].SMALL (R63). -/
def CfgRegs.small (c : CfgRegs) (i : Fin 4) : Nat := field c.compCond[i] 0 16

/-- COMP_COND[i].LARGE (R63). -/
def CfgRegs.large (c : CfgRegs) (i : Fin 4) : Nat := field c.compCond[i] 16 16

/-! ### Derived values (R387) -/

/-- The scan is routed to AUX: a residual kind, or HIDDEN (R387, R409). -/
def CfgRegs.routed (c : CfgRegs) : Bool := c.kind.isResidual || c.hidden

/-- `EffRI()` (R387). -/
def CfgRegs.effRI (c : CfgRegs) : Nat := if c.routed then 0 else c.ri

/-- `StreamSel()` (R387). -/
def CfgRegs.streamSel (c : CfgRegs) : StreamSel := if c.routed then .aux else .primary

/-- `StuffMode()` (R387). -/
def CfgRegs.stuffMode (c : CfgRegs) : Stuff :=
  if c.kind.isQm && !c.qmByteStuff then .bit else .byte

/-! ### Coefficients (R14, R131, R452) -/

/-- The zig-zag table ZZ, positions 0 to 31 (R131). -/
def zzLow : List (Fin 64) :=
  [0, 1, 8, 16, 9, 2, 3, 10, 17, 24, 32, 25, 18, 11, 4, 5,
   12, 19, 26, 33, 40, 48, 41, 34, 27, 20, 13, 6, 7, 14, 21, 28]

/-- The zig-zag table ZZ, positions 32 to 63 (R131). -/
def zzHigh : List (Fin 64) :=
  [35, 42, 49, 56, 57, 50, 43, 36, 29, 22, 15, 23, 30, 37, 44, 51,
   58, 59, 52, 45, 38, 31, 39, 46, 53, 60, 61, 54, 47, 55, 62, 63]

/-- `ZZ[k]`, the natural index of zig-zag position k (R14, R131). -/
def zz (k : Nat) : Fin 64 := (zzLow ++ zzHigh).getD k 0

/-- Coefficient k of a unit, as an integer (R14). -/
def coef (u : Block) (k : Nat) : Int := u[zz k].toInt

/-- Write coefficient k of a unit (R14). -/
def setCoef (u : Block) (k : Nat) (v : Int) : Block := u.set (zz k) (wrap32 v)

/-- The unit with all 64 coefficients 0. -/
def zeroBlock : Block := Vector.replicate 64 0

/-- The positions ks, ks+1, ..., se (empty when ks > se). -/
def band (ks se : Nat) : List Nat := List.range' ks (se + 1 - ks)

/-- The AC point transform `PT(x) = sign(x)·(|x| >> AL)`, rounding toward zero (R452). -/
def pointAc (al : Nat) (x : Int) : Int := x.tdiv (2 ^ al)

/-- The point-transformed AC values of a band (R453). -/
def bandVals (al : Nat) (u : Block) (ks se : Nat) : List Int :=
  (band ks se).map fun k => pointAc al (coef u k)

/-! ### Context addresses (R320–R323, R328) -/

/-- A valid context address (R321). -/
def ctxValid (a : Nat) : Bool :=
  if a < 256 then decide (a % 64 ≤ 48)
  else if a < 1280 then decide ((a - 256) % 256 ≤ 244)
  else decide (a = 1280)

/-- The uniform context (R324). -/
def uniformCtx : Nat := 1280

/-- The base of DC area t (R322). -/
def dcBase (t : Fin 4) : Nat := 64 * t

/-- The base of AC area t (R323). -/
def acBase (t : Fin 4) : Nat := 256 + 256 * t

/-- SE(k) of an AC area: the end-of-block bin (R323). -/
def acSe (t : Fin 4) (k : Nat) : Nat := acBase t + 3 * (k - 1)

/-- S0(k) of an AC area: the nonzero bin (R323). -/
def acS0 (t : Fin 4) (k : Nat) : Nat := acBase t + 3 * (k - 1) + 1

/-- SP(k), which is SC(k) in refinement scans (R323, R520). -/
def acSp (t : Fin 4) (k : Nat) : Nat := acBase t + 3 * (k - 1) + 2

/-- The DC category bin X(i) (R328). -/
def dcX (t : Fin 4) (i : Nat) : Nat := dcBase t + 20 + i

/-- The DC magnitude bin M(i) (R328). -/
def dcM (t : Fin 4) (i : Nat) : Nat := dcBase t + 34 + i

/-- The offset of the magnitude set of position k: the low set if k ≤ KX, else the high set (R326, R328). -/
def acSet (kx k : Nat) : Nat := if k ≤ kx then 189 else 217

/-- The AC category bin X(i) of position k (R328). -/
def acX (t : Fin 4) (kx k i : Nat) : Nat :=
  if i = 0 then acSp t k else acBase t + acSet kx k + i - 1

/-- The AC magnitude bin M(i) of position k (R328). -/
def acM (t : Fin 4) (kx k i : Nat) : Nat := acBase t + acSet kx k + 14 + i - 1

/-- `Classify`: the class base of the DC statistics set (R325). -/
def classify (da : Int) (small large : Nat) : Nat :=
  if da.natAbs ≤ small then 0
  else if da.natAbs ≤ large then (if 0 < da then 4 else 8)
  else if 0 < da then 12 else 16

/-! ### Context cells (R271, R327) -/

/-- The reset value of the cell at an address (R80, R327). -/
def cellReset (a : Nat) : CtxCell :=
  { index := if a = uniformCtx then 113 else 0, mps := false, used := false }

/-- The cell `ctx[a]` (R80). -/
def State.cell (s : State) (a : Nat) : CtxCell := sparseGet cellReset s.ctx a

/-- Write `ctx[a]` (R80). -/
def State.setCell (s : State) (a : Nat) (x : CtxCell) : State :=
  { s with ctx := sparseSet cellReset a x s.ctx }

/-- The addresses valid in the bank (R321). -/
def ctxAddrs : List Nat := (List.range 1281).filter ctxValid

end Sys2Proof.Machine
end

