-- ==== Sys2Proof/Machine/ResidualCoding.lean ====
section
/-!
DEFINITION. The OPEN parameter RESIDUAL_CODING (spec/00_scope.md R9, spec/48_scan_lossless_residual.md R550,
spec/92_eei_decisions.md D30): how the residual kinds code the DC and the AC values of a block.
-/
namespace Sys2Proof.Machine

/-- What a residual coding reads of the machine: the configuration but for the fields that R55 and R64 let no unit
algorithm read, the component of the unit, and the predictors its kind uses, PRED_DC for RESIDUAL_SEQ and PRED_DIFF
for RESIDUAL_AC, 0 for the others (R65, R66, R556). -/
structure ResidualView where
  cfg : CfgRegs
  c : Fin 4
  predDc : Int
  predDiff : Int

/-- A step of a residual coding that writes, in the primitives of the CORE: a symbol (R354), raw bits (R355), a
decision of the QM-coder (R277), or a write of the component's predictors, which changes nothing in a kind that
does not use the predictor (R65, R66, R556). -/
inductive PutStep where
  | symbol (cls : HufClass) (tbl : Fin 4) (sym : Byte)
  | bits (n : Fin 33) (v : Nat)
  | decision (ctx : BitVec 11) (d : Bool)
  | predDc (v : Int)
  | predDiff (v : Int)
  deriving DecidableEq, Repr, Inhabited

/-- A residual coding that reads, in the primitives of the CORE: its end, with the DC and the AC values
k = 1, 2, ... it read; MalformedStream; or one step, and what follows it by the value read. -/
inductive GetCode where
  | done (dc : Int) (vals : List Int)
  | malformed
  | symbol (cls : HufClass) (tbl : Fin 4) (next : Byte → GetCode)
  | bits (n : Fin 33) (next : Nat → GetCode)
  | decision (ctx : BitVec 11) (next : Bool → GetCode)
  | predDc (v : Int) (next : GetCode)
  | predDiff (v : Int) (next : GetCode)
  deriving Inhabited

/-- An item of the code of a block: a symbol, one raw bit, or a decision of the QM-coder. -/
inductive CodeItem where
  | symbol (cls : HufClass) (tbl : Fin 4) (sym : Byte)
  | bit (b : Bool)
  | decision (ctx : BitVec 11) (d : Bool)
  deriving DecidableEq, Repr

/-- What a block leaves on either side: its DC, and the predictors of its component, all 32-bit values (R13). -/
structure BlockEnd where
  dc : Word
  predDc : Word
  predDiff : Word
  deriving DecidableEq, Repr

/-- A DC, and the predictors a coding sees before the block. -/
def ResidualView.start (w : ResidualView) (dc : Int) : BlockEnd :=
  { dc := wrap32 dc, predDc := wrap32 w.predDc, predDiff := wrap32 w.predDiff }

/-- The `n` low bits of `v`, most significant first. -/
def bitsOf : Nat → Nat → List Bool
  | 0, _ => []
  | n + 1, v => v.testBit n :: bitsOf n v

/-- The items a step writes. -/
def PutStep.items : PutStep → List CodeItem
  | .symbol cls tbl sym => [.symbol cls tbl sym]
  | .bits n v => (bitsOf n v).map .bit
  | .decision ctx d => [.decision ctx d]
  | .predDc _ | .predDiff _ => []

/-- What a step does to the predictors. -/
def PutStep.leave (e : BlockEnd) : PutStep → BlockEnd
  | .predDc v => { e with predDc := wrap32 v }
  | .predDiff v => { e with predDiff := wrap32 v }
  | .symbol _ _ _ | .bits _ _ | .decision _ _ => e

/-- The value of the next `n` items, bits, the most significant first, after the bits of value `v`; and the rest. -/
def takeBits : Nat → Nat → List CodeItem → Option (Nat × List CodeItem)
  | 0, v, items => some (v, items)
  | n + 1, v, .bit b :: items => takeBits n (2 * v + b.toNat) items
  | _ + 1, _, _ => none

/-- A step of the backend of the kind (R550): decisions in valid contexts for a QM kind (R277, R321), symbols and raw
bits for a Huffman kind. -/
def PutStep.inBackend (qm : Bool) : PutStep → Bool
  | .symbol _ _ _ | .bits _ _ => !qm
  | .decision ctx _ => qm && ctxValid ctx.toNat
  | .predDc _ | .predDiff _ => true

/-- A coding that reads with steps of the backend of the kind alone (R550), whatever it reads. -/
def GetCode.inBackend (qm : Bool) : GetCode → Prop
  | .done _ _ | .malformed => True
  | .symbol _ _ next => qm = false ∧ ∀ v, (next v).inBackend qm
  | .bits _ next => qm = false ∧ ∀ v, (next v).inBackend qm
  | .decision ctx next => qm = true ∧ ctxValid ctx.toNat = true ∧ ∀ d, (next d).inBackend qm
  | .predDc _ next | .predDiff _ next => next.inBackend qm

/-- What a coding that reads leaves, where its steps read these items, each its own, and all of them. -/
def GetCode.readBack : GetCode → List CodeItem → BlockEnd → Option BlockEnd
  | .done dc _, items, e => if items.isEmpty then some { e with dc := wrap32 dc } else none
  | .malformed, _, _ => none
  | .symbol cls tbl next, items, e =>
    match items with
    | .symbol cls' tbl' sym :: rest =>
      if cls = cls' ∧ tbl = tbl' then (next sym).readBack rest e else none
    | _ => none
  | .bits n next, items, e =>
    match takeBits n 0 items with
    | some (v, rest) => (next v).readBack rest e
    | none => none
  | .decision ctx next, items, e =>
    match items with
    | .decision ctx' d :: rest => if ctx = ctx' then (next d).readBack rest e else none
    | _ => none
  | .predDc v next, items, e => next.readBack items { e with predDc := wrap32 v }
  | .predDiff v next, items, e => next.readBack items { e with predDiff := wrap32 v }

/-- A residual coding other than the reference one: the blocks it can code, the steps it writes for a DC and the
AC values, and how it reads them back. Its steps are of the backend of the kind, since R386 opens and R396 flushes the
QM-coder or the channel by KIND, so that a parser's coder is given what the writer's coder was (R550). It keeps R553,
where the decoder decodes the dc that the encoder coded, so that both sides keep equal B and N: the steps that read a
block give the 32-bit dc and the predictors that the steps that write it had. R551 to R553 do not say that the AC
values read are those written (log entry 9). -/
structure BlockCoding where
  codable : ResidualView → Int → List Int → Bool
  put : ResidualView → Int → List Int → List PutStep
  get : ResidualView → GetCode
  putBackend : ∀ w dc vals, ∀ x ∈ put w dc vals, x.inBackend w.cfg.kind.isQm = true
  getBackend : ∀ w, (get w).inBackend w.cfg.kind.isQm
  keepsDc : ∀ w dc vals, codable w dc vals = true →
    (get w).readBack ((put w dc vals).flatMap PutStep.items) (w.start 0) =
      some ((put w dc vals).foldl PutStep.leave (w.start dc))

/-- A value of RESIDUAL_CODING: the reference value, R553 to R556, or another coding. Either keeps what R551 to
R553 state: the CORE frames the scan, applies the Hadamard mode and runs the bias estimator around it, and another
coding reads back the dc it codes (R550; log entry 9). -/
inductive ResidualCoding where
  | reference
  | other (coding : BlockCoding)
  deriving Inhabited

end Sys2Proof.Machine
end

