-- ==== Sys2Proof/Config.lean ====
section
/-!
DEFINITION. What the spec leaves to the implementation: its OPEN parameters (spec/00_scope.md R9) and the
values it leaves free (spec/60_exceptions.md R607). All are opaque constants without a body, so a proof about them
holds for every choice.
-/
namespace Sys2Proof

open Sys2Proof.Machine

/-- CORR_BITS_MAX less its least value 63 (R505, D27). Log entry 4. -/
opaque Config.corrBitsExtra : Nat

/-- CORR_BITS_MAX, the OPEN parameter: an integer ≥ 63 (R9, R505). -/
def Config.corrBitsMax : Nat := 63 + Config.corrBitsExtra

/-- RESIDUAL_CODING, the OPEN parameter: the coding of the residual kinds (R9, R550, D30). Log entry 9. -/
opaque Config.residualCoding : ResidualCoding

/-- HadamardFwd, the OPEN parameter: a total function on units (R9, R135). Log entry 5. -/
opaque Config.hadamardFwd : Block → Block

/-- HadamardInv, the OPEN parameter: a total function on units (R9, R135). Log entry 5. -/
opaque Config.hadamardInv : Block → Block

/-- The host's duty H-10 on the two Hadamard parameters (R135, R714). -/
def Config.HadamardInverts : Prop := ∀ b, Config.hadamardInv (Config.hadamardFwd b) = b

/-- RESULT as the `n`-th draw leaves it (R607 item 4). Log entry 2. -/
opaque Config.freeResult : Nat → Word

/-- The scan registers as the `n`-th draw leaves them (R607 item 4). Log entry 2. -/
opaque Config.freeScan : Nat → ScanRegs

/-- The QM registers as the `n`-th draw leaves them (R607 item 4). Log entry 2. -/
opaque Config.freeQm : Nat → QmRegs

/-- The BitChannel registers as the `n`-th draw leaves them (R607 item 4). Log entry 2. -/
opaque Config.freeChan : Nat → BitChan

/-- The cell at an address as the `n`-th draw leaves it (R607 item 4). Log entry 2. -/
opaque Config.freeCell : Nat → Nat → CtxCell

/-- A unit the `n`-th draw gives: the coefficients of a unit not released when an error was raised (R607
item 3), and of a unit whose values the host has not said (93 #15). Log entries 2 and 3. -/
opaque Config.freeUnit : Nat → Block

/-- The frame marker EP_WRITE_FRAME_TYPE writes for a reserved KIND, which R410's table gives no row and
whose configuration the command does not validate, at the `n`-th draw. Log entry 8. -/
opaque Config.freeMarker : Nat → BitVec 16

end Sys2Proof
end

