-- ==== Sys2Proof/WellFormed.lean ====
section
/-!
DEFINITION. Which commands are well-formed (spec/30_encoding.md R164, R174): the bit count of a format B
command lies in 1 to 32. Every other check of R174 is one a term of `Instr` cannot fail.
-/
namespace Sys2Proof

/-- A legal bit count of format B: "1 ≤ n ≤ 32" (R164). -/
def bitCountOk (n : BitVec 6) : Bool := decide (1 ≤ n.toNat) && decide (n.toNat ≤ 32)

/-- A command that an encoding stands for (R174). -/
def Instr.wellFormed : Instr → Bool
  | .bcGetBits n => bitCountOk n
  | .bcPutBits n => bitCountOk n
  | .nop | .coreReset | .cfgWrite _ | .cfgRead _
  | .bcOpenRead _ _ | .bcOpenWrite _ _ | .bcFlush | .bcSkipStuffing | .bcFindMarker | .bcGetByteZ
  | .qmInitEnc | .qmInitDec | .qmEncode _ _ | .qmDecode _ | .qmFlush _
  | .ctxInit _ _ _ | .ctxRead _ | .ctxResetAll
  | .hufPut _ _ _ | .hufGet _ _ | .hufCount _ _ _
  | .epStartParse | .epStartWrite | .epStartMeasure | .epStartMcuRow | .epParseMcu | .epWriteMcu
  | .epFlush | .epRestart | .epWriteFrameType => true

/-- `wellFormed` as a proposition. -/
abbrev WellFormed (i : Instr) : Prop := i.wellFormed = true

end Sys2Proof
end

