-- ==== Sys2Proof/Decode.lean ====
section
/-!
DEFINITION. Command words: the decoder, total on 32-bit words and refusing by name (spec/30_encoding.md
R160–R177), and the encoder written from the same formats.
-/
namespace Sys2Proof

/-- Why a word is no command. All of these raise IllegalCommand (R173, R174). -/
inductive DecodeError where
  /-- The opcode is not in the table of R171 (R173). -/
  | reservedOpcode
  /-- A must-be-zero bit of the format is 1 (R174). -/
  | mustBeZero
  /-- Format B with N = 0 or N > 32 (R174). -/
  | bitCount
  /-- Format R naming an unassigned register (R42, R174). -/
  | unassignedRegister
  deriving DecidableEq, Repr

/-- The opcode OPC, bits [31:26] (R160). -/
def opcode (w : Word) : BitVec 6 := w.extractLsb' 26 6

/-- The number of a register (R84). -/
def Reg.number : Reg → BitVec 8
  | .id => 0x00 | .status => 0x01 | .result => 0x02 | .operand => 0x03
  | .scanCtrl => 0x04 | .scanBand => 0x05 | .scanNcomp => 0x06 | .restartInterval => 0x07
  | .mcuGeom => 0x08 | .mcuMap => 0x09
  | .compCfg i => 0x0A + BitVec.ofNat 8 i | .compCond i => 0x0E + BitVec.ofNat 8 i
  | .frameHeight => 0x12
  | .predDc i => 0x20 + BitVec.ofNat 8 i | .predDiff i => 0x24 + BitVec.ofNat 8 i
  | .biasB i => 0x28 + BitVec.ofNat 8 i | .biasN i => 0x2C + BitVec.ofNat 8 i
  | .rstState => 0x30 | .rowState => 0x31 | .eobrun => 0x32 | .corrCount => 0x33
  | .qmA => 0x40 | .qmC => 0x41 | .qmCtrl => 0x42 | .qmSt => 0x43 | .qmZ => 0x44
  | .bcRbuf => 0x48 | .bcCtrl => 0x49

/-- The register a number names, if it is assigned (R42, R84). -/
def Reg.ofNumber (n : BitVec 8) : Option Reg :=
  match n.toNat with
  | 0x00 => some .id | 0x01 => some .status | 0x02 => some .result | 0x03 => some .operand
  | 0x04 => some .scanCtrl | 0x05 => some .scanBand | 0x06 => some .scanNcomp
  | 0x07 => some .restartInterval | 0x08 => some .mcuGeom | 0x09 => some .mcuMap
  | 0x0A => some (.compCfg 0) | 0x0B => some (.compCfg 1)
  | 0x0C => some (.compCfg 2) | 0x0D => some (.compCfg 3)
  | 0x0E => some (.compCond 0) | 0x0F => some (.compCond 1)
  | 0x10 => some (.compCond 2) | 0x11 => some (.compCond 3)
  | 0x12 => some .frameHeight
  | 0x20 => some (.predDc 0) | 0x21 => some (.predDc 1)
  | 0x22 => some (.predDc 2) | 0x23 => some (.predDc 3)
  | 0x24 => some (.predDiff 0) | 0x25 => some (.predDiff 1)
  | 0x26 => some (.predDiff 2) | 0x27 => some (.predDiff 3)
  | 0x28 => some (.biasB 0) | 0x29 => some (.biasB 1)
  | 0x2A => some (.biasB 2) | 0x2B => some (.biasB 3)
  | 0x2C => some (.biasN 0) | 0x2D => some (.biasN 1)
  | 0x2E => some (.biasN 2) | 0x2F => some (.biasN 3)
  | 0x30 => some .rstState | 0x31 => some .rowState | 0x32 => some .eobrun
  | 0x33 => some .corrCount
  | 0x40 => some .qmA | 0x41 => some .qmC | 0x42 => some .qmCtrl | 0x43 => some .qmSt
  | 0x44 => some .qmZ
  | 0x48 => some .bcRbuf | 0x49 => some .bcCtrl
  | _ => none

/-- The MODE bit (R163). -/
def Stuff.toBool : Stuff → Bool
  | .byte => false
  | .bit => true

/-- The mode a MODE bit names (R163). -/
def Stuff.ofBool (b : Bool) : Stuff := if b then .bit else .byte

/-- The STREAM bit (R163). -/
def StreamSel.toBool : StreamSel → Bool
  | .primary => false
  | .aux => true

/-- The stream a STREAM bit names (R163). -/
def StreamSel.ofBool (b : Bool) : StreamSel := if b then .aux else .primary

/-- The CLASS bit (R169). -/
def HufClass.toBool : HufClass → Bool
  | .dc => false
  | .ac => true

/-- The class a CLASS bit names (R169). -/
def HufClass.ofBool (b : Bool) : HufClass := if b then .ac else .dc

/-- The check of R172 on one row: `w & mask = match`, and then the command. -/
def checked (w mask mtch : Word) (r : Except DecodeError Instr) : Except DecodeError Instr :=
  if w &&& mask = mtch then r else .error .mustBeZero

/-- A format B command, whose N must lie in 1 to 32 (R164, R174). -/
def withCount (n : BitVec 6) (i : BitVec 6 → Instr) : Except DecodeError Instr :=
  if bitCountOk n then .ok (i n) else .error .bitCount

/-- A format R command, whose REG must be assigned (R162, R174). -/
def withReg (n : BitVec 8) (i : Reg → Instr) : Except DecodeError Instr :=
  match Reg.ofNumber n with
  | some r => .ok (i r)
  | none => .error .unassignedRegister

/-- Bit `k` of a word. -/
def bitOf (w : Word) (k : Nat) : Bool := w.getLsbD k

/-- The CTX field, bits [18:8] (R165–R167). -/
def ctxOf (w : Word) : BitVec 11 := w.extractLsb' 8 11

/-- The TBL field, bits [9:8] (R169). -/
def tblOf (w : Word) : Fin 4 := (w.extractLsb' 8 2).toFin

/-- The SYMBOL field, bits [7:0] (R169). -/
def symOf (w : Word) : Byte := w.extractLsb' 0 8

/-- The decoder of R172: the opcode selects the row of R171, then the row's mask is checked, then the
fields are extracted (R161–R170). -/
def decode (w : Word) : Except DecodeError Instr :=
  match (opcode w).toNat with
  | 0x00 => checked w 0xFFFFFFFF 0x00000000 (.ok .nop)
  | 0x01 => checked w 0xFFFFFFFF 0x04000000 (.ok .coreReset)
  | 0x02 => checked w 0xFFFFFF00 0x08000000 (withReg (symOf w) .cfgWrite)
  | 0x03 => checked w 0xFFFFFF00 0x0C000000 (withReg (symOf w) .cfgRead)
  | 0x08 => checked w 0xFFFFFFFC 0x20000000
      (.ok (.bcOpenRead (.ofBool (bitOf w 0)) (.ofBool (bitOf w 1))))
  | 0x09 => checked w 0xFFFFFFFC 0x24000000
      (.ok (.bcOpenWrite (.ofBool (bitOf w 0)) (.ofBool (bitOf w 1))))
  | 0x0A => checked w 0xFFFFFFC0 0x28000000 (withCount (w.extractLsb' 0 6) .bcGetBits)
  | 0x0B => checked w 0xFFFFFFC0 0x2C000000 (withCount (w.extractLsb' 0 6) .bcPutBits)
  | 0x0C => checked w 0xFFFFFFFF 0x30000000 (.ok .bcFlush)
  | 0x0D => checked w 0xFFFFFFFF 0x34000000 (.ok .bcSkipStuffing)
  | 0x0E => checked w 0xFFFFFFFF 0x38000000 (.ok .bcFindMarker)
  | 0x0F => checked w 0xFFFFFFFF 0x3C000000 (.ok .bcGetByteZ)
  | 0x10 => checked w 0xFFFFFFFF 0x40000000 (.ok .qmInitEnc)
  | 0x11 => checked w 0xFFFFFFFF 0x44000000 (.ok .qmInitDec)
  | 0x12 => checked w 0xFFF800FE 0x48000000 (.ok (.qmEncode (ctxOf w) (bitOf w 0)))
  | 0x13 => checked w 0xFFF800FF 0x4C000000 (.ok (.qmDecode (ctxOf w)))
  | 0x14 => checked w 0xFFFFFFFE 0x50000000 (.ok (.qmFlush (bitOf w 0)))
  | 0x18 => checked w 0xFFF80000 0x60000000
      (.ok (.ctxInit (ctxOf w) (w.extractLsb' 1 7) (bitOf w 0)))
  | 0x19 => checked w 0xFFF800FF 0x64000000 (.ok (.ctxRead (ctxOf w)))
  | 0x1A => checked w 0xFFFFFFFF 0x68000000 (.ok .ctxResetAll)
  | 0x20 => checked w 0xFFFFF800 0x80000000
      (.ok (.hufPut (.ofBool (bitOf w 10)) (tblOf w) (symOf w)))
  | 0x21 => checked w 0xFFFFF8FF 0x84000000 (.ok (.hufGet (.ofBool (bitOf w 10)) (tblOf w)))
  | 0x22 => checked w 0xFFFFF800 0x88000000
      (.ok (.hufCount (.ofBool (bitOf w 10)) (tblOf w) (symOf w)))
  | 0x28 => checked w 0xFFFFFFFF 0xA0000000 (.ok .epStartParse)
  | 0x29 => checked w 0xFFFFFFFF 0xA4000000 (.ok .epStartWrite)
  | 0x2A => checked w 0xFFFFFFFF 0xA8000000 (.ok .epStartMeasure)
  | 0x2B => checked w 0xFFFFFFFF 0xAC000000 (.ok .epStartMcuRow)
  | 0x2C => checked w 0xFFFFFFFF 0xB0000000 (.ok .epParseMcu)
  | 0x2D => checked w 0xFFFFFFFF 0xB4000000 (.ok .epWriteMcu)
  | 0x2E => checked w 0xFFFFFFFF 0xB8000000 (.ok .epFlush)
  | 0x2F => checked w 0xFFFFFFFF 0xBC000000 (.ok .epRestart)
  | 0x30 => checked w 0xFFFFFFFF 0xC0000000 (.ok .epWriteFrameType)
  | _ => .error .reservedOpcode

/-- A word of formats N, F and O: the opcode and the low bits (R161, R163, R168). -/
def wordLow (op : BitVec 6) (b1 b0 : Bool) : Word :=
  op ++ (0#24 ++ (BitVec.ofBool b1 ++ BitVec.ofBool b0))

/-- A word of format R (R162). -/
def wordReg (op : BitVec 6) (r : BitVec 8) : Word := op ++ (0#18 ++ r)

/-- A word of format B (R164). -/
def wordCount (op : BitVec 6) (n : BitVec 6) : Word := op ++ (0#20 ++ n)

/-- A word of formats QE, QC and CI: CTX in [18:8], INDEX in [7:1], the low bit in [0] (R165–R167). -/
def wordCtx (op : BitVec 6) (ctx : BitVec 11) (index : BitVec 7) (b0 : Bool) : Word :=
  op ++ (0#7 ++ (ctx ++ (index ++ BitVec.ofBool b0)))

/-- A word of formats H and HG: CLASS in [10], TBL in [9:8], SYMBOL in [7:0] (R169). -/
def wordHuf (op : BitVec 6) (cls : HufClass) (tbl : Fin 4) (sym : Byte) : Word :=
  op ++ (0#15 ++ (BitVec.ofBool cls.toBool ++ (BitVec.ofFin (w := 2) tbl ++ sym)))

/-- The command word of a command (R161–R171). -/
def encode : Instr → Word
  | .nop => wordLow 0x00 false false
  | .coreReset => wordLow 0x01 false false
  | .cfgWrite r => wordReg 0x02 r.number
  | .cfgRead r => wordReg 0x03 r.number
  | .bcOpenRead m t => wordLow 0x08 t.toBool m.toBool
  | .bcOpenWrite m t => wordLow 0x09 t.toBool m.toBool
  | .bcGetBits n => wordCount 0x0A n
  | .bcPutBits n => wordCount 0x0B n
  | .bcFlush => wordLow 0x0C false false
  | .bcSkipStuffing => wordLow 0x0D false false
  | .bcFindMarker => wordLow 0x0E false false
  | .bcGetByteZ => wordLow 0x0F false false
  | .qmInitEnc => wordLow 0x10 false false
  | .qmInitDec => wordLow 0x11 false false
  | .qmEncode ctx d => wordCtx 0x12 ctx 0 d
  | .qmDecode ctx => wordCtx 0x13 ctx 0 false
  | .qmFlush final => wordLow 0x14 false final
  | .ctxInit ctx index mps => wordCtx 0x18 ctx index mps
  | .ctxRead ctx => wordCtx 0x19 ctx 0 false
  | .ctxResetAll => wordLow 0x1A false false
  | .hufPut cls tbl sym => wordHuf 0x20 cls tbl sym
  | .hufGet cls tbl => wordHuf 0x21 cls tbl 0
  | .hufCount cls tbl sym => wordHuf 0x22 cls tbl sym
  | .epStartParse => wordLow 0x28 false false
  | .epStartWrite => wordLow 0x29 false false
  | .epStartMeasure => wordLow 0x2A false false
  | .epStartMcuRow => wordLow 0x2B false false
  | .epParseMcu => wordLow 0x2C false false
  | .epWriteMcu => wordLow 0x2D false false
  | .epFlush => wordLow 0x2E false false
  | .epRestart => wordLow 0x2F false false
  | .epWriteFrameType => wordLow 0x30 false false

/-- The command word of `nbits` bits numbered as spec/opcode_table.json numbers them: the CORE's commands
are one 32-bit word each (R160), so bits above `nbits` are 0. -/
def tableWord (nbits w : Nat) : Word := BitVec.ofNat 32 (w % 2 ^ nbits)

/-- What the decoder reads from a row's word. -/
def decodeTableWord (nbits w : Nat) : Option Instr :=
  match decode (tableWord nbits w) with
  | .ok i => some i
  | .error _ => none

end Sys2Proof
end

