-- ==== Sys2Proof/Machine/Flags.lean ====
section
/-!
DEFINITION. The flags and the register words: every register of spec/10_state.md R84 assembled from its
fields with 0 in every reserved bit (R43, R204), the writable masks (R203), and the updates of the STATUS
flags (R83).
-/
namespace Sys2Proof.Machine

/-- A flag as one bit. -/
def bit1 (b : Bool) : BitVec 1 := BitVec.ofBool b

/-- The value of STATUS.STATE (R47). -/
def ScanState.code : ScanState → BitVec 4
  | .idle => 0
  | .parse => 1
  | .write => 2
  | .measure => 3
  | .flushed => 4
  | .dead => 5

/-- The value of STATUS.ERR (R601). -/
def Err.code : Err → BitVec 4
  | .none => 0
  | .unexpectedEndOfStream => 1
  | .unexpectedMarker => 2
  | .malformedStream => 3
  | .invalidRestartMarker => 4
  | .contractViolation => 5
  | .illegalCommand => 6
  | .inputRange => 7
  | .internal => 8

/-- The value of QM_CTRL.QMODE (R75). -/
def QMode.code : QMode → BitVec 2
  | .closed => 0
  | .encoding => 1
  | .decoding => 2

/-- The value of BC_CTRL.DIR (R79). -/
def Dir.code : Dir → BitVec 2
  | .closed => 0
  | .read => 1
  | .write => 2

/-- STATUS as its word (R46). -/
def Status.word (t : Status) : Word :=
  0#8 ++ (t.rstErrCnt ++ (0#4 ++ (bit1 t.rstWarn ++ (bit1 t.dnlFound ++ (bit1 t.segValid ++
    (bit1 t.rowActive ++ (t.err.code ++ t.state.code)))))))

/-- RST_STATE as its word (R69). -/
def ScanRegs.rstWord (r : ScanRegs) : Word := 0#13 ++ (r.nextRst ++ r.mcusToGo)

/-- ROW_STATE as its word (R70). -/
def ScanRegs.rowWord (r : ScanRegs) : Word := r.row ++ r.mcuInRow

/-- QM_CTRL as its word (R75). -/
def QmRegs.ctrlWord (q : QmRegs) : Word :=
  0#16 ++ (q.b ++ (0#1 ++ (bit1 q.bv ++ (q.qmode.code ++ q.ct))))

/-- BC_CTRL as its word (R79). -/
def BitChan.ctrlWord (b : BitChan) : Word :=
  b.wacc ++ (0#4 ++ (b.free ++ (0#3 ++ (bit1 b.lastFF ++ (bit1 b.eof ++ (bit1 b.marker ++
    (bit1 b.stream.toBool ++ (bit1 b.mode.toBool ++ (b.dir.code ++ b.cnt)))))))))

/-- ID, "QMEC" (R45). -/
def idWord : Word := 0x514D4543

/-- The 32-bit value of an assigned register (R84, R204). -/
def State.reg (s : State) : Reg → Word
  | .id => idWord
  | .status => s.status.word
  | .result => s.result
  | .operand => s.operand
  | .scanCtrl => s.cfg.scanCtrl
  | .scanBand => s.cfg.scanBand
  | .scanNcomp => s.cfg.scanNcomp
  | .restartInterval => s.cfg.restartInterval
  | .mcuGeom => s.cfg.mcuGeom
  | .mcuMap => s.cfg.mcuMap
  | .compCfg i => s.cfg.compCfg[i]
  | .compCond i => s.cfg.compCond[i]
  | .frameHeight => s.cfg.frameHeight
  | .predDc i => s.scan.predDc[i]
  | .predDiff i => s.scan.predDiff[i]
  | .biasB i => s.scan.biasB[i]
  | .biasN i => s.scan.biasN[i]
  | .rstState => s.scan.rstWord
  | .rowState => s.scan.rowWord
  | .eobrun => s.scan.eobrun.setWidth 32
  | .corrCount => BitVec.ofNat 32 s.scan.be.length
  | .qmA => s.qm.a.setWidth 32
  | .qmC => s.qm.c
  | .qmCtrl => s.qm.ctrlWord
  | .qmSt => s.qm.st
  | .qmZ => s.qm.z
  | .bcRbuf => s.bc.rbuf
  | .bcCtrl => s.bc.ctrlWord

/-- `writable_mask(REG)` of an RW-config register; an RO register has none (R84, R203). -/
def writableMask : Reg → Option Word
  | .scanCtrl => some 0x000007FF
  | .scanBand => some 0x0F0F3F3F
  | .scanNcomp => some 0x00000007
  | .restartInterval => some 0x0000FFFF
  | .mcuGeom => some 0xFFFFFFFF
  | .mcuMap => some 0x00FFFFFF
  | .compCfg _ => some 0x000003FF
  | .compCond _ => some 0xFFFFFFFF
  | .frameHeight => some 0x0000FFFF
  | .id | .status | .result | .operand | .predDc _ | .predDiff _ | .biasB _ | .biasN _
  | .rstState | .rowState | .eobrun | .corrCount
  | .qmA | .qmC | .qmCtrl | .qmSt | .qmZ | .bcRbuf | .bcCtrl => none

/-- The RW-config registers with one of them written; an RO register leaves them as they are (R42, R203). -/
def CfgRegs.put (c : CfgRegs) (r : Reg) (v : Word) : CfgRegs :=
  match r with
  | .scanCtrl => { c with scanCtrl := v }
  | .scanBand => { c with scanBand := v }
  | .scanNcomp => { c with scanNcomp := v }
  | .restartInterval => { c with restartInterval := v }
  | .mcuGeom => { c with mcuGeom := v }
  | .mcuMap => { c with mcuMap := v }
  | .compCfg i => { c with compCfg := c.compCfg.set i v }
  | .compCond i => { c with compCond := c.compCond.set i v }
  | .frameHeight => { c with frameHeight := v }
  | .id | .status | .result | .operand | .predDc _ | .predDiff _ | .biasB _ | .biasN _
  | .rstState | .rowState | .eobrun | .corrCount
  | .qmA | .qmC | .qmCtrl | .qmSt | .qmZ | .bcRbuf | .bcCtrl => c

/-- An active state: PARSE, WRITE or MEASURE (R15, R380). -/
def ScanState.active : ScanState → Bool
  | .parse | .write | .measure => true
  | .idle | .flushed | .dead => false

/-- An InvalidRestartMarker event: RST_WARN is set and RST_ERRCNT counts, stopping at 255 (R52, R608). -/
def Status.warn (t : Status) : Status :=
  { t with rstWarn := true, rstErrCnt := if t.rstErrCnt = 255 then 255 else t.rstErrCnt + 1 }

/-- STATUS as a successful EP_START_* leaves it (R385). -/
def Status.started (st : ScanState) : Status :=
  { state := st, err := .none, rowActive := false, segValid := true, dnlFound := false,
    rstWarn := false, rstErrCnt := 0 }

/-- A host read of STATUS: no side effect, the value CFG_READ 0x01 would give (R206). -/
def State.hostStatus (s : State) : Word := s.reg .status

/-- A host read of RESULT: no side effect, the value CFG_READ 0x02 would give (R206). -/
def State.hostResult (s : State) : Word := s.reg .result

end Sys2Proof.Machine
end

