-- ==== Sys2Proof/Machine/Ops.lean ====
section
/-!
DEFINITION. The shared operations: the port primitives of spec/20_memory.md (R121–R134), taking an error
and the one shell every command runs in (spec/60_exceptions.md R603–R607), and leaving DEAD's any-value
state behind.
-/
namespace Sys2Proof.Machine

/-! ### Byte streams (R121–R127) -/

/-- The input the CORE sees: not the bytes supplied after it saw the end (R713, 93 #24). -/
def Stream.seen (t : Stream) : List Byte := t.inp.take (t.inp.length - t.unseen)

/-- The stream opened for reading: its whole input is seen (R713). -/
def Stream.opened (t : Stream) : Stream := { t with unseen := 0 }

/-- `Get(s)`: the next input byte, or EOF (`none`) (R122). -/
def Stream.get (t : Stream) : Option Byte × Stream :=
  match t.seen[t.pos]? with
  | some b => (some b, { t with pos := t.pos + 1 })
  | none => (none, t)

/-- `Put(s, b)` (R123). -/
def Stream.put (t : Stream) (b : Byte) : Stream := { t with out := t.out ++ [b] }

/-- `PutWord(s, w)`: the high byte first (R123). -/
def Stream.putWord (t : Stream) (w : BitVec 16) : Stream :=
  (t.put (w.extractLsb' 8 8)).put (w.extractLsb' 0 8)

/-- `PeekWord(s)`: the next two bytes, the first the high one, or EOF (`none`) (R124). -/
def Stream.peekWord (t : Stream) : Option (BitVec 16) :=
  match t.seen[t.pos]?, t.seen[t.pos + 1]? with
  | some hi, some lo => some (hi ++ lo)
  | _, _ => none

/-- `GetWord(s)` (R125). -/
def Stream.getWord (t : Stream) : Option (BitVec 16) × Stream :=
  match t.peekWord with
  | some w => (some w, { t with pos := t.pos + 2 })
  | none => (none, t)

/-- `LastUnDo(s)` (R126). -/
def Stream.lastUnDo (t : Stream) : Stream := { t with pos := t.pos - 1 }

/-- The stream port a selector names (R127). -/
def Ports.stream (p : Ports) : StreamSel → Stream
  | .primary => p.primary
  | .aux => p.aux

/-- The ports with one stream changed. -/
def Ports.setStream (p : Ports) (sel : StreamSel) (t : Stream) : Ports :=
  match sel with
  | .primary => { p with primary := t }
  | .aux => { p with aux := t }

/-- The ports with a stream bound to the channel: opening it for reading lets the CORE see all of its input
(R713). -/
def Ports.opened (p : Ports) (dir : Dir) (sel : StreamSel) : Ports :=
  match dir with
  | .read => p.setStream sel (p.stream sel).opened
  | .closed | .write => p

/-! ### Huffman tables and statistics (R133, R134) -/

/-- `HufLookup`: the code of a symbol, as (len, code) (R133). -/
def hufLookup : HufTable → Byte → Option (Nat × Nat)
  | [], _ => none
  | e :: t, sym => if e.sym = sym then some (e.len, e.code) else hufLookup t sym

/-- `HufMatch`: the symbol of a code (R133). -/
def hufMatch : HufTable → Nat → Nat → Option Byte
  | [], _, _ => none
  | e :: t, len, code => if e.len = len ∧ e.code = code then some e.sym else hufMatch t len code

/-- A code of legal length and value (R133). -/
def HufEntry.legal (e : HufEntry) : Bool :=
  decide (1 ≤ e.len) && decide (e.len ≤ 16) && decide (e.code < 2 ^ e.len)

/-- The code of `e` is a prefix of the code of `f` (or equal to it). -/
def HufEntry.prefixOf (e f : HufEntry) : Bool :=
  decide (e.len ≤ f.len) && decide (f.code / 2 ^ (f.len - e.len) = e.code)

/-- Two entries of one table: different symbols, and neither code a prefix of the other (R133, H-3). -/
def HufEntry.apart (e f : HufEntry) : Bool :=
  decide (e.sym ≠ f.sym) && !(e.prefixOf f) && !(f.prefixOf e)

/-- A table the host may install: legal codes, prefix-free, each symbol once (R133, R714 H-3). -/
def hufTableOk : HufTable → Bool
  | [] => true
  | e :: t => e.legal && t.all (e.apart ·) && hufTableOk t

/-- The table of a class (R133). -/
def Ports.table (p : Ports) (cls : HufClass) (t : Fin 4) : HufTable :=
  match cls with
  | .dc => p.dcTables[t]
  | .ac => p.acTables[t]

/-- The key of a statistics counter: class, table and symbol (R134). -/
def countKey (cls : HufClass) (t : Fin 4) (sym : Byte) : Nat :=
  (match cls with | .dc => 0 | .ac => 1024) + 256 * t + sym.toNat

/-- An unlisted counter reads 0. -/
def countReset (_ : Nat) : Nat := 0

/-- The statistics counter of a symbol (R134). -/
def Ports.count (p : Ports) (cls : HufClass) (t : Fin 4) (sym : Byte) : Nat :=
  sparseGet countReset p.counts (countKey cls t sym)

/-- `HufCount`: add 1 to the counter of a symbol (R134). -/
def Ports.hufCount (p : Ports) (cls : HufClass) (t : Fin 4) (sym : Byte) : Ports :=
  { p with counts :=
      sparseSet countReset (countKey cls t sym) (p.count cls t sym + 1) p.counts }

/-! ### Errors (R600–R607) -/

/-- How the execution of a command ends early. -/
inductive Exc where
  /-- A fatal error during execution, R606 step 6: R607's item 4 is then drawn. -/
  | raise (e : Err)
  /-- The same where the rule guarantees that nothing was written, which overrides item 4 of R607: RangeCheck
  (R456, R557). Item 3 still holds. -/
  | raiseKept (e : Err)
  /-- No error of the spec: the model stops. -/
  | stop (f : Fault)
  deriving DecidableEq, Repr

/-- The execution of a command: it reads and changes the state, and may end early, in which case what it
had done stands (R607). -/
abbrev Cmd (α : Type) := EStateM Exc State α

/-- A fatal error: STATUS.ERR gets its code, STATUS.STATE becomes DEAD (R603). Nothing else changes; this is
all an error at steps 2 to 5 of R606 does (R607). -/
def State.raise (s : State) (e : Err) : State :=
  { s with status := { s.status with state := .dead, err := e } }

/-- A bank drawn cell by cell over the valid addresses (R607 item 4). -/
@[irreducible] def drawBank (n : Nat) : List (Nat × CtxCell) :=
  ctxAddrs.foldl (fun m a => sparseSet cellReset a (Config.freeCell n a) m) []

/-- The coefficients of a unit requested and not released are any value (R607 item 3). -/
def State.dropUnit (s : State) : State :=
  { s with
    ports := { s.ports with
      current := s.ports.current.map fun cu => (cu.1, Config.freeUnit s.draws) }
    draws := s.draws + 1 }

/-- What an error during execution leaves: OPERAND, the RW-config registers, the STATUS flags and the ports
as the pseudocode had them, the coefficients of a unit not released and everything else of R85 free
(R607 items 2 to 4). -/
def State.drawn (s : State) : State :=
  { s.dropUnit with
    result := Config.freeResult s.draws
    scan := Config.freeScan s.draws
    qm := Config.freeQm s.draws
    bc := Config.freeChan s.draws
    ctx := drawBank s.draws }

/-- How the end of an execution becomes the outcome of the command (R603, R607). -/
def settle : EStateM.Result Exc State Unit → Host.Outcome State Fault Refusal
  | .ok _ t => .next t
  | .error (.raise e) t => .next (t.drawn.raise e)
  | .error (.raiseKept e) t => .next (t.dropUnit.raise e)
  | .error (.stop f) _ => .fault f

/-- What a command is to the checks that come before its execution (R604–R606). -/
structure Checks where
  /-- DEAD accepts it (R604). -/
  inDead : Bool
  /-- It is a direct command, refused in an active state (R605). -/
  direct : Bool

/-- The shell every command runs in: the check order of R606. `formed` is step 3 (a command the decoder gives
is always formed), `refuses` the command's own checks of step 5, which all raise ContractViolation. -/
def runCommand (k : Checks) (formed : Bool) (refuses : State → Bool) (body : Cmd Unit) (s : State) :
    Host.Outcome State Fault Refusal :=
  if s.status.state = .dead ∧ k.inDead = false then .next s
  else if formed = false then .next (s.raise .illegalCommand)
  else if k.direct = true ∧ s.status.state.active = true then .next (s.raise .contractViolation)
  else if refuses s = true then .next (s.raise .contractViolation)
  else settle (body s)

/-- A command DEAD accepts: NOP, CORE_RESET, CFG_*, EP_START_* (R604). -/
def Checks.always : Checks := { inDead := true, direct := false }

/-- A command allowed in every state but DEAD. -/
def Checks.live : Checks := { inDead := false, direct := false }

/-- A direct command (R605). -/
def Checks.directly : Checks := { inDead := false, direct := true }

/-! ### Changes of the state a command makes -/

/-- Change the state. -/
def update (f : State → State) : Cmd Unit := fun s => .ok () (f s)

/-- Write RESULT (R53). -/
def State.setResult (s : State) (v : Word) : State := { s with result := v }

/-- The state with every register of R84, the bank, BE and EOB_TBL at their reset values, and the ports as
they are (R202, R701). The model's own `host` and `draws` are no state of the CORE. -/
def State.coreReset (s : State) : State :=
  { State.reset with host := s.host, ports := s.ports, draws := s.draws }

/-- `ResetContexts()`: every valid cell takes its reset value (R327). -/
def State.resetContexts (s : State) : State := { s with ctx := [] }

/-- Do `x` n times. -/
def repeatCmd : Nat → Cmd Unit → Cmd Unit
  | 0, _ => pure ()
  | n + 1, x => do x; repeatCmd n x

end Sys2Proof.Machine
end

