-- ==== Sys2Proof/Machine/BitChannel.lean ====
section
/-!
DEFINITION. The BitChannel (spec/41_bitchannel.md R220–R239): its procedures on the channel's registers and
the stream bound to it, and the BC_* commands.
-/
namespace Sys2Proof.Machine

/-- The channel's registers with the stream bound to it (R127). -/
structure Chan where
  bc : BitChan
  st : Stream
  deriving DecidableEq, Repr

/-! ### Opening (R222, R223) -/

/-- BC_RBUF and BC_CTRL as an open leaves them (R222, R223, R386). -/
def BitChan.opened (dir : Dir) (mode : Stuff) (stream : StreamSel) : BitChan :=
  { BitChan.reset with dir := dir, mode := mode, stream := stream }

/-! ### The read side (R224–R234) -/

/-- `Push(v, n)` (R225). -/
def BitChan.push (b : BitChan) (v n : Nat) : BitChan :=
  { b with rbuf := BitVec.ofNat 32 (b.rbuf.toNat * 2 ^ n + v), cnt := b.cnt + BitVec.ofNat 6 n }

/-- The next two bytes, the first of them 0xFF, are stuffed data and no marker (R224). -/
def isStuffed (mode : Stuff) (w : BitVec 16) : Bool :=
  match mode with
  | .byte => decide (w = 0xFF00)
  | .bit => decide (w.toNat < 0xFF80)

/-- `Fill()`: take one byte from the stream (R226, R227). -/
def Chan.fill (k : Chan) : Chan :=
  match k.st.get with
  | (none, t) => { bc := { k.bc with eof := true }, st := t }
  | (some b, t) =>
    if b = 0xFF then
      match t.lastUnDo.peekWord with
      | none => { bc := { k.bc with eof := true }, st := t.lastUnDo }
      | some w =>
        if isStuffed k.bc.mode w then
          match k.bc.mode with
          | .bit => { bc := { k.bc.push 0xFF 8 with lastFF := true }, st := t.lastUnDo.get.2 }
          | .byte => { bc := { k.bc.push 0xFF 8 with lastFF := true }, st := t.lastUnDo.getWord.2 }
        else { bc := { k.bc with marker := true }, st := t.lastUnDo }
    else if k.bc.mode = .bit ∧ k.bc.lastFF = true then
      { bc := { k.bc.push (b.toNat % 128) 7 with lastFF := false }, st := t }
    else { bc := { k.bc.push b.toNat 8 with lastFF := false }, st := t }

/-- Consume the n oldest buffered bits, at most CNT of them (R228, R232). -/
def BitChan.take (b : BitChan) (n : Nat) : Nat × BitChan :=
  let left := b.cnt.toNat - n
  (b.rbuf.toNat / 2 ^ left % 2 ^ n,
    { b with cnt := BitVec.ofNat 6 left, rbuf := BitVec.ofNat 32 (b.rbuf.toNat % 2 ^ left) })

/-- The fill loop of GetBits for n ≤ 24 (R228). Every round but the last buffers at least 7 bits or sets a
flag, so for n ≤ 24 six rounds are enough. -/
def getBitsLoop : Nat → Nat → EStateM Exc Chan Nat
  | 0, _ => fun k => .error (.stop .loopWithoutEnd) k
  | rounds + 1, n => fun k =>
    if k.bc.cnt.toNat < n then
      if k.bc.marker then .error (.raise .unexpectedMarker) k
      else if k.bc.eof then .error (.raise .unexpectedEndOfStream) k
      else getBitsLoop rounds n k.fill
    else .ok (k.bc.take n).1 { k with bc := (k.bc.take n).2 }

/-- `GetBits(n)`, split for n > 24 (R228, R229). -/
def chanGetBits (n : Nat) : EStateM Exc Chan Nat :=
  if 24 < n then do
    let hi ← getBitsLoop 6 (n - 16)
    let lo ← getBitsLoop 6 16
    pure (hi * 2 ^ 16 + lo)
  else getBitsLoop 6 n

/-- `SkipStuffing()` (R230). -/
def Chan.skipStuffing (k : Chan) : Chan :=
  if k.bc.lastFF = true ∧ k.bc.cnt = 0 ∧ k.bc.marker = false ∧ k.bc.eof = false then k.fill else k

/-- The marker test of FindMarker, on the two bytes at the read position (R231, D19). -/
def isMarker (mode : Stuff) (hi lo : Byte) : Bool :=
  decide (hi = 0xFF) && decide (lo ≠ 0xFF) &&
    match mode with
    | .byte => decide (lo ≠ 0x00)
    | .bit => decide (0x80 ≤ lo.toNat)

/-- The forward search of FindMarker over the unread bytes: how many it passes, and the marker (R231). -/
def scanMarker (mode : Stuff) : List Byte → Nat × Option (BitVec 16)
  | hi :: lo :: rest =>
    if isMarker mode hi lo then (0, some (hi ++ lo))
    else ((scanMarker mode (lo :: rest)).1 + 1, (scanMarker mode (lo :: rest)).2)
  | [_] => (0, none)
  | [] => (0, none)

/-- `FindMarker()`: drop the buffered bits and search forward (R231). The value is 0 at the end of data. R231's
search does not test BC_CTRL.EOF; the bytes 93 #24 says are not seen are no part of `Stream.seen`, so neither
this search nor the DNL peek of R388 finds them (log entry 11). -/
def Chan.findMarker (k : Chan) : BitVec 16 × Chan :=
  let r := scanMarker k.bc.mode (k.st.seen.drop k.st.pos)
  let b := { k.bc with rbuf := 0, cnt := 0, lastFF := false }
  let t := { k.st with pos := k.st.pos + r.1 }
  match r.2 with
  | some w => (w, { bc := { b with marker := true }, st := t })
  | none => (0, { bc := { b with eof := true }, st := t })

/-- The buffered bits padded to 8 with zero bits, at a marker or at the end of data (R232). -/
def BitChan.takePadded (b : BitChan) : Nat × BitChan :=
  (b.rbuf.toNat * 2 ^ (8 - b.cnt.toNat) % 256, { b with rbuf := 0, cnt := 0 })

/-- The fill loop of GetByteZ (R232). Two fills buffer 8 bits or set a flag, so three rounds are enough. -/
def getByteZLoop : Nat → Chan → Nat × Chan
  | 0, k => (k.bc.takePadded.1, { k with bc := k.bc.takePadded.2 })
  | rounds + 1, k =>
    if k.bc.cnt.toNat < 8 then
      if k.bc.marker = true ∨ k.bc.eof = true then
        (k.bc.takePadded.1, { k with bc := k.bc.takePadded.2 })
      else getByteZLoop rounds k.fill
    else ((k.bc.take 8).1, { k with bc := (k.bc.take 8).2 })

/-- `GetByteZ()`: 8 bits, with zero bits past a marker or the end of data (R232). -/
def Chan.getByteZ (k : Chan) : Nat × Chan := getByteZLoop 3 k

/-! ### The write side (R235–R238) -/

/-- `Emit(b)` (R235). -/
def Chan.emit (k : Chan) (b : Byte) : Chan :=
  if b = 0xFF then
    match k.bc.mode with
    | .byte =>
      { bc := { k.bc with free := 8, lastFF := true, wacc := 0 }, st := (k.st.put b).put 0x00 }
    | .bit => { bc := { k.bc with free := 7, lastFF := true, wacc := 0 }, st := k.st.put b }
  else { bc := { k.bc with free := 8, lastFF := false, wacc := 0 }, st := k.st.put b }

/-- One round of PutBits (R236). -/
def Chan.putBit (k : Chan) (v : Bool) : Chan :=
  let wacc := BitVec.ofNat 8 (k.bc.wacc.toNat * 2 + v.toNat)
  let free := k.bc.free - 1
  let k' : Chan := { k with bc := { k.bc with wacc := wacc, free := free } }
  if free = 0 then k'.emit wacc else k'

/-- `PutBits(n, v)`: the n low bits of v, most significant first (R236). -/
def Chan.putBits : Nat → Nat → Chan → Chan
  | 0, _, k => k
  | n + 1, v, k => Chan.putBits n v (k.putBit (v.testBit n))

/-- `Flush()` of the channel (R238). -/
def Chan.flush (k : Chan) : Chan :=
  let free := k.bc.free.toNat
  let shifted := k.bc.wacc.toNat * 2 ^ free
  let k' :=
    match k.bc.mode with
    | .byte => if free < 8 then k.emit (BitVec.ofNat 8 (shifted + (2 ^ free - 1))) else k
    | .bit =>
      if free < (if k.bc.lastFF then 7 else 8) ∨ k.bc.lastFF = true then
        k.emit (BitVec.ofNat 8 shifted)
      else k
  { k' with bc := { k'.bc with wacc := 0, free := 8, lastFF := false } }

/-! ### The channel in the state -/

/-- The channel with the stream bound to it (BC_CTRL.STREAM, R127). -/
def State.chan (s : State) : Chan := { bc := s.bc, st := s.ports.stream s.bc.stream }

/-- Put a channel back, its stream to the port it was bound to. -/
def State.setChan (s : State) (k : Chan) : State :=
  { s with bc := k.bc, ports := s.ports.setStream s.bc.stream k.st }

/-- Run a procedure of the channel that raises nothing. -/
def onChan (f : Chan → Chan) : Cmd Unit := update fun s => s.setChan (f s.chan)

/-- Run a procedure of the channel that returns a value and raises nothing. -/
def onChanVal {α : Type} (f : Chan → α × Chan) : Cmd α :=
  fun s => .ok (f s.chan).1 (s.setChan (f s.chan).2)

/-- Run a procedure of the channel that may raise. -/
def onChanE {α : Type} (x : EStateM Exc Chan α) : Cmd α := fun s =>
  match x s.chan with
  | .ok a k => .ok a (s.setChan k)
  | .error e k => .error e (s.setChan k)

/-- `GetBits(n)` in the state (R228). -/
def getBits (n : Nat) : Cmd Nat := onChanE (chanGetBits n)

/-- `PutBits(n, v)` in the state (R236). -/
def putBits (n v : Nat) : Cmd Unit := onChan (Chan.putBits n v)

/-- Bind the channel, with `opened`'s registers (R222, R223), and see the stream anew (R713). -/
def State.openChan (s : State) (dir : Dir) (mode : Stuff) (stream : StreamSel) : State :=
  { s with bc := BitChan.opened dir mode stream, ports := s.ports.opened dir stream }

/-- The QM registers after a BC_OPEN_*: none is changed (R222), and the bytes held back in Z, B and ST are discarded
(R710). DEDUCED: both are kept by counting these bytes, so that they never reach a stream (log entry 26). -/
def QmRegs.discard (q : QmRegs) : QmRegs :=
  { q with lost := q.z.toNat + q.bv.toNat + q.st.toNat }

/-- BC_OPEN_READ and BC_OPEN_WRITE: the channel bound, and the pending output discarded (R222, R223, R710). -/
def State.rebind (s : State) (dir : Dir) (mode : Stuff) (stream : StreamSel) : State :=
  { s.openChan dir mode stream with qm := s.qm.discard }

/-- The own check of the commands that read the channel: BC_CTRL.DIR ≠ 1 (R221, R602). -/
def notReading (s : State) : Bool := decide (s.bc.dir ≠ .read)

/-- The own check of the commands that write the channel: BC_CTRL.DIR ≠ 2 (R221, R602). -/
def notWriting (s : State) : Bool := decide (s.bc.dir ≠ .write)

/-- No own check. -/
def noCheck (_ : State) : Bool := false

/-! ### The commands -/

/-- BC_OPEN_READ (R222). -/
def execBcOpenRead (mode : Stuff) (stream : StreamSel) (s : State) :
    Host.Outcome State Fault Refusal :=
  runCommand .directly true noCheck (update fun s => s.rebind .read mode stream) s

/-- BC_OPEN_WRITE (R223). -/
def execBcOpenWrite (mode : Stuff) (stream : StreamSel) (s : State) :
    Host.Outcome State Fault Refusal :=
  runCommand .directly true noCheck (update fun s => s.rebind .write mode stream) s

/-- BC_GETBITS (R228): the value goes to RESULT. -/
def execBcGetBits (n : BitVec 6) (s : State) : Host.Outcome State Fault Refusal :=
  runCommand .directly (bitCountOk n) notReading
    (do let v ← getBits n.toNat
        update fun s => s.setResult (BitVec.ofNat 32 v)) s

/-- BC_PUTBITS (R236): the value is the n low bits of OPERAND. -/
def execBcPutBits (n : BitVec 6) (s : State) : Host.Outcome State Fault Refusal :=
  runCommand .directly (bitCountOk n) notWriting (putBits n.toNat s.operand.toNat) s

/-- BC_FLUSH (R238). -/
def execBcFlush (s : State) : Host.Outcome State Fault Refusal :=
  runCommand .directly true notWriting (onChan Chan.flush) s

/-- BC_SKIPSTUFFING (R230). -/
def execBcSkipStuffing (s : State) : Host.Outcome State Fault Refusal :=
  runCommand .directly true notReading (onChan Chan.skipStuffing) s

/-- BC_FINDMARKER (R231): the marker goes to RESULT, 0 at the end of data. -/
def execBcFindMarker (s : State) : Host.Outcome State Fault Refusal :=
  runCommand .directly true notReading
    (do let w ← onChanVal Chan.findMarker
        update fun s => s.setResult (w.setWidth 32)) s

/-- BC_GETBYTEZ (R232): the byte goes to RESULT. -/
def execBcGetByteZ (s : State) : Host.Outcome State Fault Refusal :=
  runCommand .directly true notReading
    (do let v ← onChanVal Chan.getByteZ
        update fun s => s.setResult (BitVec.ofNat 32 v)) s

end Sys2Proof.Machine
end

