-- ==== Sys2Proof/Machine/QmCoder.lean ====
section
/-!
DEFINITION. The QM-coder (spec/42_qmcoder.md R270–R288): the probability estimation table, the encoder and
decoder on the coder's registers and the channel they drive, and the QM_* commands.
-/
namespace Sys2Proof.Machine

/-- The QM-coder's registers with the channel it reads or writes. -/
structure Coder where
  qm : QmRegs
  ch : Chan
  deriving DecidableEq, Repr

/-! ### The probability estimation table (R272) -/

/-- A row of the table: Qe, NLPS, NMPS, SWITCH (R272). -/
structure QmRow where
  qe : Nat
  nlps : Fin 114
  nmps : Fin 114
  switch : Bool
  deriving DecidableEq, Repr, Inhabited

/-- Rows 0 to 37 of the probability estimation table (R272). -/
def qmRows0 : List QmRow :=
  [⟨0x5A1D, 1, 1, true⟩, ⟨0x2586, 14, 2, false⟩, ⟨0x1114, 16, 3, false⟩,
   ⟨0x080B, 18, 4, false⟩, ⟨0x03D8, 20, 5, false⟩, ⟨0x01DA, 23, 6, false⟩,
   ⟨0x00E5, 25, 7, false⟩, ⟨0x006F, 28, 8, false⟩, ⟨0x0036, 30, 9, false⟩,
   ⟨0x001A, 33, 10, false⟩, ⟨0x000D, 35, 11, false⟩, ⟨0x0006, 9, 12, false⟩,
   ⟨0x0003, 10, 13, false⟩, ⟨0x0001, 12, 13, false⟩, ⟨0x5A7F, 15, 15, true⟩,
   ⟨0x3F25, 36, 16, false⟩, ⟨0x2CF2, 38, 17, false⟩, ⟨0x207C, 39, 18, false⟩,
   ⟨0x17B9, 40, 19, false⟩, ⟨0x1182, 42, 20, false⟩, ⟨0x0CEF, 43, 21, false⟩,
   ⟨0x09A1, 45, 22, false⟩, ⟨0x072F, 46, 23, false⟩, ⟨0x055C, 48, 24, false⟩,
   ⟨0x0406, 49, 25, false⟩, ⟨0x0303, 51, 26, false⟩, ⟨0x0240, 52, 27, false⟩,
   ⟨0x01B1, 54, 28, false⟩, ⟨0x0144, 56, 29, false⟩, ⟨0x00F5, 57, 30, false⟩,
   ⟨0x00B7, 59, 31, false⟩, ⟨0x008A, 60, 32, false⟩, ⟨0x0068, 62, 33, false⟩,
   ⟨0x004E, 63, 34, false⟩, ⟨0x003B, 32, 35, false⟩, ⟨0x002C, 33, 9, false⟩,
   ⟨0x5AE1, 37, 37, true⟩, ⟨0x484C, 64, 38, false⟩]

/-- Rows 38 to 75 (R272). -/
def qmRows1 : List QmRow :=
  [⟨0x3A0D, 65, 39, false⟩, ⟨0x2EF1, 67, 40, false⟩, ⟨0x261F, 68, 41, false⟩,
   ⟨0x1F33, 69, 42, false⟩, ⟨0x19A8, 70, 43, false⟩, ⟨0x1518, 72, 44, false⟩,
   ⟨0x1177, 73, 45, false⟩, ⟨0x0E74, 74, 46, false⟩, ⟨0x0BFB, 75, 47, false⟩,
   ⟨0x09F8, 77, 48, false⟩, ⟨0x0861, 78, 49, false⟩, ⟨0x0706, 79, 50, false⟩,
   ⟨0x05CD, 48, 51, false⟩, ⟨0x04DE, 50, 52, false⟩, ⟨0x040F, 50, 53, false⟩,
   ⟨0x0363, 51, 54, false⟩, ⟨0x02D4, 52, 55, false⟩, ⟨0x025C, 53, 56, false⟩,
   ⟨0x01F8, 54, 57, false⟩, ⟨0x01A4, 55, 58, false⟩, ⟨0x0160, 56, 59, false⟩,
   ⟨0x0125, 57, 60, false⟩, ⟨0x00F6, 58, 61, false⟩, ⟨0x00CB, 59, 62, false⟩,
   ⟨0x00AB, 61, 63, false⟩, ⟨0x008F, 61, 32, false⟩, ⟨0x5B12, 65, 65, true⟩,
   ⟨0x4D04, 80, 66, false⟩, ⟨0x412C, 81, 67, false⟩, ⟨0x37D8, 82, 68, false⟩,
   ⟨0x2FE8, 83, 69, false⟩, ⟨0x293C, 84, 70, false⟩, ⟨0x2379, 86, 71, false⟩,
   ⟨0x1EDF, 87, 72, false⟩, ⟨0x1AA9, 87, 73, false⟩, ⟨0x174E, 72, 74, false⟩,
   ⟨0x1424, 72, 75, false⟩, ⟨0x119C, 74, 76, false⟩]

/-- Rows 76 to 113 (R272). -/
def qmRows2 : List QmRow :=
  [⟨0x0F6B, 74, 77, false⟩, ⟨0x0D51, 75, 78, false⟩, ⟨0x0BB6, 77, 79, false⟩,
   ⟨0x0A40, 77, 48, false⟩, ⟨0x5832, 80, 81, true⟩, ⟨0x4D1C, 88, 82, false⟩,
   ⟨0x438E, 89, 83, false⟩, ⟨0x3BDD, 90, 84, false⟩, ⟨0x34EE, 91, 85, false⟩,
   ⟨0x2EAE, 92, 86, false⟩, ⟨0x299A, 93, 87, false⟩, ⟨0x2516, 86, 71, false⟩,
   ⟨0x5570, 88, 89, true⟩, ⟨0x4CA9, 95, 90, false⟩, ⟨0x44D9, 96, 91, false⟩,
   ⟨0x3E22, 97, 92, false⟩, ⟨0x3824, 99, 93, false⟩, ⟨0x32B4, 99, 94, false⟩,
   ⟨0x2E17, 93, 86, false⟩, ⟨0x56A8, 95, 96, true⟩, ⟨0x4F46, 101, 97, false⟩,
   ⟨0x47E5, 102, 98, false⟩, ⟨0x41CF, 103, 99, false⟩, ⟨0x3C3D, 104, 100, false⟩,
   ⟨0x375E, 99, 93, false⟩, ⟨0x5231, 105, 102, false⟩, ⟨0x4C0F, 106, 103, false⟩,
   ⟨0x4639, 107, 104, false⟩, ⟨0x415E, 103, 99, false⟩, ⟨0x5627, 105, 106, true⟩,
   ⟨0x50E7, 108, 107, false⟩, ⟨0x4B85, 109, 103, false⟩, ⟨0x5597, 110, 109, false⟩,
   ⟨0x504F, 111, 107, false⟩, ⟨0x5A10, 110, 111, true⟩, ⟨0x5522, 112, 109, false⟩,
   ⟨0x59EB, 112, 111, true⟩, ⟨0x5A1D, 113, 113, false⟩]

/-- The row of an index (R272). -/
def qmRow (i : Fin 114) : QmRow := (qmRows0 ++ qmRows1 ++ qmRows2).getD i default

/-- `Estimate_after_MPS` (R273). -/
def CtxCell.afterMps (x : CtxCell) : CtxCell := { x with index := (qmRow x.index).nmps }

/-- `Estimate_after_LPS`: the switch test uses the index before the update (R273). -/
def CtxCell.afterLps (x : CtxCell) : CtxCell :=
  { x with
    mps := if (qmRow x.index).switch then !x.mps else x.mps
    index := (qmRow x.index).nlps }

/-- The cell marked as used (R271). -/
def CtxCell.use (x : CtxCell) : CtxCell := { x with used := true }

/-- Qe of a cell's index, at the width of A. -/
def CtxCell.qe (x : CtxCell) : BitVec 17 := BitVec.ofNat 17 (qmRow x.index).qe

/-! ### The encoder (R274–R281) -/

/-- `Initenc()` (R276). -/
def QmRegs.initEnc : QmRegs :=
  { a := 0x10000, c := 0, ct := 11, qmode := .encoding, bv := false, b := 0, st := 0, z := 0 }

/-- n bytes 0x00 to the channel. -/
def Chan.putZeros : Nat → Chan → Chan
  | 0, k => k
  | n + 1, k => Chan.putZeros n (k.putBits 8 0)

/-- `Out(b)`: one resolved byte, through the deferred-zero counter Z (R280). The first `lost` bytes that would go to
the channel were pending when a BC_OPEN_* discarded them, and are left out (R710; log entry 26). -/
def Coder.outByte (k : Coder) (b : Byte) : Coder :=
  if b = 0 then { k with qm := { k.qm with z := k.qm.z + 1 } }
  else
    let ch := k.ch.putZeros (k.qm.z.toNat - k.qm.lost)
    { qm := { k.qm with z := 0, lost := k.qm.lost - (k.qm.z.toNat + 1) }
      ch := if k.qm.lost ≤ k.qm.z.toNat then ch.putBits 8 b.toNat else ch }

/-- `Out(b)` n times. -/
def Coder.outBytes : Nat → Byte → Coder → Coder
  | 0, _, k => k
  | n + 1, b, k => Coder.outBytes n b (k.outByte b)

/-- The held-back 0xFF bytes resolved to b, and ST emptied (R279, R281). -/
def Coder.resolveStack (k : Coder) (b : Byte) : Coder :=
  let k' := Coder.outBytes k.qm.st.toNat b k
  { k' with qm := { k'.qm with st := 0 } }

/-- The pending byte B, if valid, written out (R279, R281). -/
def Coder.outPending (k : Coder) : Coder := if k.qm.bv then k.outByte k.qm.b else k

/-- C's top byte removed, `C & 0x7FFFF` (R279). -/
def QmRegs.cutC (q : QmRegs) : QmRegs := { q with c := q.c &&& 0x7FFFF }

/-- `ByteOut()` (R279): the byte C[26:19] becomes pending, a carry is propagated. A first byte 0xFF is held back
in ST and leaves BV = 0, as the pseudocode says (log entry 23). -/
def byteOut : EStateM Exc Coder Unit := fun k =>
  let t := k.qm.c.toNat / 2 ^ 19
  if 0xFF < t then
    if k.qm.bv = false ∨ k.qm.b = 0xFF then .error (.raise .internal) k
    else
      let k1 := (k.outByte (k.qm.b + 1)).resolveStack 0x00
      .ok () { k1 with qm := { k1.qm with b := BitVec.ofNat 8 t, bv := true }.cutC }
  else if t = 0xFF then .ok () { k with qm := { k.qm with st := k.qm.st + 1 }.cutC }
  else
    let k1 := k.outPending.resolveStack 0xFF
    .ok () { k1 with qm := { k1.qm with b := BitVec.ofNat 8 t, bv := true }.cutC }

/-- A and C shifted left once, CT counted down (R278, R285). -/
def QmRegs.shift (q : QmRegs) : QmRegs := { q with a := q.a <<< 1, c := q.c <<< 1, ct := q.ct - 1 }

/-- `Renorm_e()` (R278). From A ≥ 1, sixteen shifts reach 0x8000. -/
def renormE : Nat → EStateM Exc Coder Unit
  | 0 => throw (.stop .loopWithoutEnd)
  | rounds + 1 => fun k =>
    let k1 : Coder := { k with qm := k.qm.shift }
    if k1.qm.ct = 0 then
      match byteOut k1 with
      | .error e k2 => .error e k2
      | .ok _ k2 =>
        let k3 : Coder := { k2 with qm := { k2.qm with ct := 8 } }
        if 0x8000 ≤ k3.qm.a.toNat then .ok () k3 else renormE rounds k3
    else if 0x8000 ≤ k1.qm.a.toNat then .ok () k1 else renormE rounds k1

/-- The interval set to its upper part: `C <- C + A; A <- q` (R277). -/
def QmRegs.upper (r : QmRegs) (q : BitVec 17) : QmRegs :=
  { r with c := r.c + r.a.setWidth 32, a := q }

/-- `Encode(cx, D)` on a cell (R277): the cell's new value, and the coder. -/
def encodeDecision (x : CtxCell) (d : Bool) : EStateM Exc Coder CtxCell := fun k =>
  let q := x.qe
  let r := { k.qm with a := k.qm.a - q }
  if d = x.mps then
    if r.a.toNat < 0x8000 then
      let r1 := if r.a.toNat < q.toNat then r.upper q else r
      match renormE 16 { k with qm := r1 } with
      | .ok _ k1 => .ok x.use.afterMps k1
      | .error e k1 => .error e k1
    else .ok x.use { k with qm := r }
  else
    let r1 := if q.toNat ≤ r.a.toNat then r.upper q else r
    match renormE 16 { k with qm := r1 } with
    | .ok _ k1 => .ok x.use.afterLps k1
    | .error e k1 => .error e k1

/-- `Clear_final_bits` (R281). -/
def QmRegs.clearFinal (q : QmRegs) : QmRegs :=
  let t := (q.c + q.a.setWidth 32 - 1) &&& 0xFFFF0000
  { q with c := if t.toNat < q.c.toNat then t + 0x8000 else t }

/-- C shifted left by n (R281). -/
def QmRegs.shiftC (q : QmRegs) (n : Nat) : QmRegs := { q with c := q.c <<< n }

/-- `Flush(final)` of the QM-coder (R281). R281's corner case says that the channel then holds no partial byte; in bit
mode a data 0xFF among the bytes written leaves pending bits by R235 and R236 where FINAL = 0, and the model follows
the procedures (DEDUCED; log entry 25). -/
def qmFlush (final : Bool) : EStateM Exc Coder Unit := do
  modify fun k => { k with qm := (k.qm.clearFinal).shiftC k.qm.ct.toNat }
  byteOut
  modify fun k => { k with qm := k.qm.shiftC 8 }
  byteOut
  modify fun k =>
    let k1 := k.outPending.resolveStack 0xFF
    { qm := { k1.qm with bv := false, b := 0, z := 0, lost := 0, qmode := .closed }
      ch := if final then k1.ch.flush else k1.ch }

/-! ### The decoder (R283–R286) -/

/-- The next byte added at C[15:8] (R283, R285). -/
def Coder.byteIn (k : Coder) : Coder :=
  { qm := { k.qm with c := k.qm.c + BitVec.ofNat 32 (k.ch.getByteZ.1 * 256) }, ch := k.ch.getByteZ.2 }

/-- `Initdec()` (R283). -/
def Coder.initDec (k : Coder) : Coder :=
  let q0 : QmRegs :=
    { a := 0x10000, c := 0, ct := 0, qmode := .decoding, bv := false, b := 0, st := 0, z := 0 }
  let k1 := Coder.byteIn { k with qm := q0 }
  let k2 := Coder.byteIn { k1 with qm := k1.qm.shiftC 8 }
  { k2 with qm := k2.qm.shiftC 8 }

/-- `Renorm_d()` (R285). -/
def renormD : Nat → EStateM Exc Coder Unit
  | 0 => throw (.stop .loopWithoutEnd)
  | rounds + 1 => fun k =>
    let k1 : Coder :=
      if k.qm.ct = 0 then { k.byteIn with qm := { k.byteIn.qm with ct := 8 } } else k
    let k2 : Coder := { k1 with qm := k1.qm.shift }
    if 0x8000 ≤ k2.qm.a.toNat then .ok () k2 else renormD rounds k2

/-- `Decode(cx)` on a cell (R284): the decision with the cell's new value, and the coder. -/
def decodeDecision (x : CtxCell) : EStateM Exc Coder (Bool × CtxCell) := fun k =>
  let q := x.qe
  let r := { k.qm with a := k.qm.a - q }
  let mps := (x.mps, x.use.afterMps)
  let lps := (!x.mps, x.use.afterLps)
  if r.c.toNat / 2 ^ 16 < r.a.toNat then
    if r.a.toNat < 0x8000 then
      let dx := if r.a.toNat < q.toNat then lps else mps
      match renormD 16 { k with qm := r } with
      | .ok _ k1 => .ok dx k1
      | .error e k1 => .error e k1
    else .ok (x.mps, x.use) { k with qm := r }
  else
    let dx := if r.a.toNat < q.toNat then mps else lps
    match renormD 16 { k with qm := { r with c := r.c - (r.a.setWidth 32 <<< 16), a := q } } with
    | .ok _ k1 => .ok dx k1
    | .error e k1 => .error e k1

/-! ### The coder in the state -/

/-- The coder with the channel bound to a stream. -/
def State.coder (s : State) : Coder := { qm := s.qm, ch := s.chan }

/-- Put a coder back. -/
def State.setCoder (s : State) (k : Coder) : State := { s.setChan k.ch with qm := k.qm }

/-- Run a procedure of the coder. -/
def onCoder {α : Type} (x : EStateM Exc Coder α) : Cmd α := fun s =>
  match x s.coder with
  | .ok a k => .ok a (s.setCoder k)
  | .error e k => .error e (s.setCoder k)

/-- `Encode(a, d)` on `ctx[a]` (R277). -/
def encodeBit (a : Nat) (d : Bool) : Cmd Unit := do
  let s ← get
  let x ← onCoder (encodeDecision (s.cell a) d)
  update fun t => t.setCell a x

/-- `Decode(a)` on `ctx[a]` (R284). -/
def decodeBit (a : Nat) : Cmd Bool := do
  let s ← get
  let dx ← onCoder (decodeDecision (s.cell a))
  update fun t => t.setCell a dx.2
  pure dx.1

/-! ### The commands -/

/-- The own checks of QM_ENCODE, in the order of R277: CTX, QMODE, DIR. -/
def encodeRefuses (ctx : BitVec 11) (s : State) : Bool :=
  !ctxValid ctx.toNat || decide (s.qm.qmode ≠ .encoding) || notWriting s

/-- The own checks of QM_DECODE, in the order of R284: CTX, QMODE, DIR. -/
def decodeRefuses (ctx : BitVec 11) (s : State) : Bool :=
  !ctxValid ctx.toNat || decide (s.qm.qmode ≠ .decoding) || notReading s

/-- The own checks of QM_FLUSH (R281): QMODE, DIR. -/
def qmFlushRefuses (s : State) : Bool := decide (s.qm.qmode ≠ .encoding) || notWriting s

/-- QM_INIT_ENC (R276). -/
def execQmInitEnc (s : State) : Host.Outcome State Fault Refusal :=
  runCommand .directly true notWriting (update fun s => { s with qm := .initEnc }) s

/-- QM_INIT_DEC (R283). -/
def execQmInitDec (s : State) : Host.Outcome State Fault Refusal :=
  runCommand .directly true notReading (update fun s => s.setCoder s.coder.initDec) s

/-- QM_ENCODE (R277). -/
def execQmEncode (ctx : BitVec 11) (d : Bool) (s : State) : Host.Outcome State Fault Refusal :=
  runCommand .directly true (encodeRefuses ctx) (encodeBit ctx.toNat d) s

/-- QM_DECODE (R284): the decision goes to RESULT. -/
def execQmDecode (ctx : BitVec 11) (s : State) : Host.Outcome State Fault Refusal :=
  runCommand .directly true (decodeRefuses ctx)
    (do let d ← decodeBit ctx.toNat
        update fun s => s.setResult (BitVec.ofNat 32 d.toNat)) s

/-- QM_FLUSH (R281). -/
def execQmFlush (final : Bool) (s : State) : Host.Outcome State Fault Refusal :=
  runCommand .directly true qmFlushRefuses (onCoder (qmFlush final)) s

end Sys2Proof.Machine
end

