-- ==== Sys2Proof/Machine/Contexts.lean ====
section
/-!
DEFINITION. The context models (spec/43_context_models.md R320–R334): magnitude coding over the bins of one
value, and the CTX_* commands.
-/
namespace Sys2Proof.Machine

/-! ### Magnitude coding (R328–R330) -/

/-- The decisions "sz ≥ m" and "sz ≥ 2m" and so on, each 1 coded in X(i), ended by a 0 (R329): the index of
the category. `rounds` bounds the loop; sz < 2^15 ends it within 15. -/
def encodeCategory (sz : Nat) (X : Nat → Nat) : Nat → Nat → Cmd Nat
  | 0, _ => throw (.stop .loopWithoutEnd)
  | rounds + 1, i =>
    if 2 ^ (i + 1) ≤ sz then do
      encodeBit (X i) true
      encodeCategory sz X rounds (i + 1)
    else do
      encodeBit (X i) false
      pure i

/-- The `n` low bits of sz, most significant first, in one bin (R329). -/
def encodeLowBits (sz a : Nat) : Nat → Cmd Unit
  | 0 => pure ()
  | n + 1 => do
    encodeBit a (sz.testBit n)
    encodeLowBits sz a n

/-- `EncodeMagnitude(sz, first, X, M)` (R329). -/
def encodeMagnitude (sz first : Nat) (X M : Nat → Nat) : Cmd Unit :=
  if sz = 0 then encodeBit first false
  else if 2 ^ 15 ≤ sz then throw (.raise .inputRange)
  else do
    encodeBit first true
    let i ← encodeCategory sz X 16 0
    encodeLowBits sz (M i) i

/-- The category decisions (R330): a fifteenth 1 raises MalformedStream. -/
def decodeCategory (X : Nat → Nat) : Nat → Nat → Cmd Nat
  | 0, _ => throw (.raise .malformedStream)
  | rounds + 1, i => do
    if ← decodeBit (X i) then decodeCategory X rounds (i + 1) else pure i

/-- `n` bits below the bits already decoded, most significant first, from one bin (R330). -/
def decodeLowBits (a : Nat) : Nat → Nat → Cmd Nat
  | 0, sz => pure sz
  | n + 1, sz => do
    let b ← decodeBit a
    decodeLowBits a n (2 * sz + b.toNat)

/-- `DecodeMagnitude(first, X, M)` (R330). -/
def decodeMagnitude (first : Nat) (X M : Nat → Nat) : Cmd Nat := do
  if ← decodeBit first then
    let i ← decodeCategory X 15 0
    decodeLowBits (M i) i 1
  else pure 0

/-! ### The commands (R331–R333) -/

/-- The own checks of CTX_INIT, in the order of R331: CTX, INDEX. -/
def ctxInitRefuses (ctx : BitVec 11) (index : BitVec 7) (_ : State) : Bool :=
  !ctxValid ctx.toNat || decide (113 < index.toNat)

/-- The cell CTX_INIT writes (R331). -/
def initCell (index : BitVec 7) (mps : Bool) : CtxCell :=
  { index := Fin.ofNat 114 index.toNat, mps := mps, used := false }

/-- The word CTX_READ returns: INDEX, MPS in bit 7, USED in bit 8 (R332). -/
def CtxCell.word (x : CtxCell) : Word :=
  0#23 ++ (bit1 x.used ++ (bit1 x.mps ++ BitVec.ofNat 7 x.index))

/-- CTX_INIT (R331). -/
def execCtxInit (ctx : BitVec 11) (index : BitVec 7) (mps : Bool) (s : State) :
    Host.Outcome State Fault Refusal :=
  runCommand .directly true (ctxInitRefuses ctx index)
    (update fun s => s.setCell ctx.toNat (initCell index mps)) s

/-- CTX_READ (R332): allowed in every state but DEAD. -/
def execCtxRead (ctx : BitVec 11) (s : State) : Host.Outcome State Fault Refusal :=
  runCommand .live true (fun _ => !ctxValid ctx.toNat)
    (update fun s => s.setResult (s.cell ctx.toNat).word) s

/-- CTX_RESET_ALL (R333). -/
def execCtxResetAll (s : State) : Host.Outcome State Fault Refusal :=
  runCommand .directly true noCheck (update State.resetContexts) s

end Sys2Proof.Machine
end

