-- ==== Sys2Proof/Machine/Huffman.lean ====
section
/-!
DEFINITION. The Huffman backend (spec/44_huffman.md R350–R360): symbols and values written, counted and
read, and the HUF_* commands.
-/
namespace Sys2Proof.Machine

/-! ### Symbols -/

/-- The code of a symbol, most significant bit first (R133, R351). -/
def writeCode (cls : HufClass) (tbl : Fin 4) (sym : Byte) : Cmd Unit := do
  let s ← get
  match hufLookup (s.ports.table cls tbl) sym with
  | some lc => putBits lc.1 lc.2
  | none => throw (.raise .contractViolation)

/-- `HufCount` (R134, R353). -/
def countSymbol (cls : HufClass) (tbl : Fin 4) (sym : Byte) : Cmd Unit :=
  update fun s => { s with ports := s.ports.hufCount cls tbl sym }

/-- One bit more of a code, until the code matches (R352): `rounds` bits may still be read. -/
def huffGetLoop (cls : HufClass) (tbl : Fin 4) : Nat → Nat → Nat → Cmd Byte
  | 0, _, _ => throw (.raise .malformedStream)
  | rounds + 1, len, code => do
    let b ← getBits 1
    let s ← get
    match hufMatch (s.ports.table cls tbl) (len + 1) (2 * code + b) with
    | some sym => pure sym
    | none => huffGetLoop cls tbl rounds (len + 1) (2 * code + b)

/-- `HuffGet(k, t)` (R352). -/
def huffGet (cls : HufClass) (tbl : Fin 4) : Cmd Byte := huffGetLoop cls tbl 16 0 0

/-- STATUS.STATE is MEASURE. -/
def State.measuring (s : State) : Bool := decide (s.status.state = .measure)

/-- `HuffEncode(k, t, sym)`: counted in MEASURE, written otherwise (R354). In MEASURE no code is looked up, so
a symbol without code raises nothing here; EP_FLUSH raises it for the symbol of a pending EOB run (R397; log entry
24). -/
def huffEncode (cls : HufClass) (tbl : Fin 4) (sym : Byte) : Cmd Unit := do
  let s ← get
  if s.measuring then countSymbol cls tbl sym else writeCode cls tbl sym

/-! ### Values (R355–R358) -/

/-- `PutRaw(n, v)`: n extra bits, none of them in MEASURE (R355). -/
def putRaw (n v : Nat) : Cmd Unit := do
  let s ← get
  if n = 0 ∨ s.measuring = true then pure () else putBits n (v % 2 ^ n)

/-- Bits, oldest first, each as one extra bit (R462, R504). -/
def putRawBits : List Bool → Cmd Unit
  | [] => pure ()
  | b :: bs => do
    putRaw 1 b.toNat
    putRawBits bs

/-- `PutValue(k, t, sym, v, s)` (R358). -/
def putValue (cls : HufClass) (tbl : Fin 4) (sym : Byte) (v : Int) (s : Nat) : Cmd Unit := do
  huffEncode cls tbl sym
  putRaw s (extraBits v s)

/-- `GetValue(s)` (R358). -/
def getValue (s : Nat) : Cmd Int :=
  if s = 0 then pure 0 else do
    let b ← getBits s
    pure (extend b s)

/-! ### The commands (R351–R353) -/

/-- HUF_PUT (R351). -/
def execHufPut (cls : HufClass) (tbl : Fin 4) (sym : Byte) (s : State) :
    Host.Outcome State Fault Refusal :=
  runCommand .directly true notWriting (writeCode cls tbl sym) s

/-- HUF_GET (R352): the symbol goes to RESULT. -/
def execHufGet (cls : HufClass) (tbl : Fin 4) (s : State) : Host.Outcome State Fault Refusal :=
  runCommand .directly true notReading
    (do let sym ← huffGet cls tbl
        update fun s => s.setResult (sym.setWidth 32)) s

/-- HUF_COUNT (R353): no open channel is needed. -/
def execHufCount (cls : HufClass) (tbl : Fin 4) (sym : Byte) (s : State) :
    Host.Outcome State Fault Refusal :=
  runCommand .directly true noCheck (countSymbol cls tbl sym) s

end Sys2Proof.Machine
end

