-- ==== Sys2Proof/Machine/Sequential.lean ====
section
/-!
DEFINITION. The sequential scans and the progressive first scans (spec/46_scan_sequential.md R450–R476):
the unit algorithms of SEQ_HUFF and SEQ_AC.
-/
namespace Sys2Proof.Machine

/-! ### Shared (R450–R452, R456) -/

/-- PRED_DC[c] as an integer (R65). -/
def State.predDc (s : State) (c : Fin 4) : Int := s.scan.predDc[c].toInt

/-- Write PRED_DC[c] (R65). -/
def State.setPredDc (s : State) (c : Fin 4) (v : Int) : State :=
  { s with scan := { s.scan with predDc := s.scan.predDc.set c (wrap32 v) } }

/-- PRED_DIFF[c] as an integer (R66). -/
def State.predDiff (s : State) (c : Fin 4) : Int := s.scan.predDiff[c].toInt

/-- Write PRED_DIFF[c] (R66). -/
def State.setPredDiff (s : State) (c : Fin 4) (v : Int) : State :=
  { s with scan := { s.scan with predDiff := s.scan.predDiff.set c (wrap32 v) } }

/-- Write EOBRUN (R71). -/
def State.setEobrun (s : State) (n : Nat) : State :=
  { s with scan := { s.scan with eobrun := BitVec.ofNat 16 n } }

/-- Write BE (R81). -/
def State.setBe (s : State) (be : List Bool) : State := { s with scan := { s.scan with be := be } }

/-- Write EOB_TBL (R85). -/
def State.setEobTbl (s : State) (t : Fin 4) : State := { s with scan := { s.scan with eobTbl := t } }

/-- A value a Huffman kind can code: category at most 15 (R359, R456). -/
def huffCodable (v : Int) : Bool := decide (category v ≤ 15)

/-- A value a QM kind can code: at most 32768 in magnitude (R456). -/
def qmCodable (v : Int) : Bool := decide (v.natAbs ≤ 32768)

/-- The point-transformed DC of a unit, `u[0] >> AL` (R452). -/
def pointDc (al : Nat) (u : Block) : Int := asr u[0].toInt al

/-- The values of a unit that `RangeCheck` of the sequential kinds tests (R456). -/
def seqValues (s : State) (c : Fin 4) (u : Block) : List Int :=
  (if s.cfg.ss = 0 then [pointDc s.cfg.al u - s.predDc c] else []) ++
  (if 0 < s.cfg.se then bandVals s.cfg.al u s.cfg.ks s.cfg.se else [])

/-- InputRange from `RangeCheck`, before anything of the unit is coded (R456, R557). -/
def rangeCheck (codable : Int → Bool) (vals : List Int) : Cmd Unit :=
  if vals.all codable then pure () else throw (.raiseKept .inputRange)

/-- The byte RS: a run and a size (R350). -/
def rsByte (r s : Nat) : Byte := BitVec.ofNat 8 (16 * r + s)

/-- The coefficients k = ks..se set to 0. -/
def clearBand (u : Block) (ks se : Nat) : Block := (band ks se).foldl (fun u k => setCoef u k 0) u

/-! ### SEQ_HUFF (R453–R463) -/

/-- A nonzero AC value after a run of r zeros: the ZRLs of the run, then RS and the value (R455, R461). -/
def huffAcValue (t : Fin 4) (r : Nat) (v : Int) : Cmd Unit := do
  repeatCmd (r / 16) (huffEncode .ac t 0xF0)
  putValue .ac t (rsByte (r % 16) (category v)) v (category v)

/-- `HuffACSeq(c, val)` (R455), from the run r on. -/
def huffAcSeq (t : Fin 4) : List Int → Nat → Cmd Unit
  | [], r => if 0 < r then huffEncode .ac t 0x00 else pure ()
  | v :: vs, r =>
    if v = 0 then huffAcSeq t vs (r + 1)
    else do
      huffAcValue t r v
      huffAcSeq t vs 0

/-- `HuffACSeqGet(c, u)` (R457), from position k on. Each round moves k by at least 1, so 64 rounds are
enough. -/
def huffAcSeqGet (t : Fin 4) : Nat → Nat → Block → Cmd Block
  | 0, _, u => pure u
  | rounds + 1, k, u =>
    if 63 < k then pure u
    else do
      let rs ← huffGet .ac t
      let r := rs.toNat / 16
      let s := rs.toNat % 16
      if s ≠ 0 then
        if 63 < k + r then throw (.raise .malformedStream)
        else do
          let v ← getValue s
          huffAcSeqGet t rounds (k + r + 1) (setCoef u (k + r) v)
      else if r = 15 then
        if 64 < k + 16 then throw (.raise .malformedStream)
        else huffAcSeqGet t rounds (k + 16) u
      else if r = 0 then pure u
      else throw (.raise .malformedStream)

/-- `EmitEOBRun()` (R462). -/
def emitEobRun : Cmd Unit := do
  let s ← get
  if s.scan.eobrun = 0 then pure ()
  else do
    let n := category s.scan.eobrun.toNat - 1
    huffEncode .ac s.scan.eobTbl (rsByte n 0)
    putRaw n s.scan.eobrun.toNat
    update fun s => s.setEobrun 0
    putRawBits s.scan.be
    update fun s => s.setBe []

/-- The end of a band in zeros, EOBRUN counted up and emitted at its cap 0x7FFF (R461). -/
def huffAcFirstEnd : Cmd Unit := do
  update fun s => s.setEobrun (s.scan.eobrun.toNat + 1)
  let s ← get
  if s.scan.eobrun = 0x7FFF then emitEobRun else pure ()

/-- `HuffACFirst(c, val)` (R461), from the run r on. -/
def huffAcFirst (t : Fin 4) : List Int → Nat → Cmd Unit
  | [], r => if 0 < r then huffAcFirstEnd else pure ()
  | v :: vs, r =>
    if v = 0 then huffAcFirst t vs (r + 1)
    else do
      emitEobRun
      huffAcValue t r v
      huffAcFirst t vs 0

/-- The extra bits of an EOBr symbol: `2^r`, plus r bits read (R463, R506). -/
def eobRunLength (r : Nat) : Cmd Nat :=
  if r = 0 then pure 1
  else do
    let b ← getBits r
    pure (2 ^ r + b)

/-- The symbols of `HuffACFirstGet(c, u)` (R463), from position k on. -/
def huffAcFirstLoop (t : Fin 4) (al se : Nat) : Nat → Nat → Block → Cmd Block
  | 0, _, u => pure u
  | rounds + 1, k, u =>
    if se < k then pure u
    else do
      let rs ← huffGet .ac t
      let r := rs.toNat / 16
      let s := rs.toNat % 16
      if s ≠ 0 then
        if se < k + r then throw (.raise .malformedStream)
        else do
          let v ← getValue s
          huffAcFirstLoop t al se rounds (k + r + 1) (setCoef u (k + r) (v * 2 ^ al))
      else if r = 15 then
        if se + 1 < k + 16 then throw (.raise .malformedStream)
        else huffAcFirstLoop t al se rounds (k + 16) u
      else do
        let n ← eobRunLength r
        update fun s => s.setEobrun (n - 1)
        pure u

/-- `HuffACFirstGet(c, u)` (R463). -/
def huffAcFirstGet (t : Fin 4) (u : Block) : Cmd Block := do
  let s ← get
  let u0 := clearBand u s.cfg.ks s.cfg.se
  if s.scan.eobrun ≠ 0 then do
    update fun s => s.setEobrun (s.scan.eobrun.toNat - 1)
    pure u0
  else huffAcFirstLoop t s.cfg.al s.cfg.se 64 s.cfg.ks u0

/-- A DC difference as a category and its extra bits (R453, R554). -/
def putDc (t : Fin 4) (diff : Int) : Cmd Unit :=
  putValue .dc t (BitVec.ofNat 8 (category diff)) diff (category diff)

/-- A DC value read, its category at most 15 (R454, R555). -/
def getDc (t : Fin 4) : Cmd Int := do
  let s ← huffGet .dc t
  if 15 < s.toNat then throw (.raise .malformedStream) else getValue s.toNat

/-- `EncodeUnit` of SEQ_HUFF (R453). -/
def encodeSeqHuff (c : Fin 4) (u : Block) : Cmd Unit := do
  let s ← get
  rangeCheck huffCodable (seqValues s c u)
  update fun s => s.setEobTbl (s.cfg.actbl c)
  if s.cfg.ss = 0 then do
    putDc (s.cfg.dctbl c) (pointDc s.cfg.al u - s.predDc c)
    update fun t => t.setPredDc c (pointDc s.cfg.al u)
  else pure ()
  if 0 < s.cfg.se then
    let vals := bandVals s.cfg.al u s.cfg.ks s.cfg.se
    if s.cfg.progressive then huffAcFirst (s.cfg.actbl c) vals 0
    else huffAcSeq (s.cfg.actbl c) vals 0
  else pure ()

/-- The block a sequential or first-scan unit starts from: all zeros unless the scan is progressive
(R454, R475). -/
def seqStart (s : State) (u : Block) : Block := if s.cfg.progressive then u else zeroBlock

/-- A decoded DC difference applied: PRED_DC[c] and u[0] (R451, R452, R454, R475). -/
def applyDc (c : Fin 4) (diff : Int) (u : Block) : Cmd Block := do
  update fun s => s.setPredDc c (s.predDc c + diff)
  let s ← get
  pure (u.set 0 (wrap32 (s.predDc c * 2 ^ s.cfg.al)))

/-- `DecodeUnit` of SEQ_HUFF (R454). -/
def decodeSeqHuff (c : Fin 4) (u : Block) : Cmd Block := do
  let s ← get
  let u0 := seqStart s u
  let u1 ← if s.cfg.ss = 0 then do
      let diff ← getDc (s.cfg.dctbl c)
      applyDc c diff u0
    else pure u0
  if 0 < s.cfg.se then
    if s.cfg.progressive then huffAcFirstGet (s.cfg.actbl c) u1
    else huffAcSeqGet (s.cfg.actbl c) 64 1 u1
  else pure u1

/-! ### SEQ_AC (R470–R475) -/

/-- The class base of a component's DC decisions, in its DC area (R325, R470). -/
def State.dcClass (s : State) (c : Fin 4) : Nat :=
  dcBase (s.cfg.dctbl c) + classify (s.predDiff c) (s.cfg.small c) (s.cfg.large c)

/-- `QMDCPut(c, diff)` (R470). -/
def qmDcPut (c : Fin 4) (diff : Int) : Cmd Unit := do
  let s ← get
  let d := s.dcClass c
  let t := s.cfg.dctbl c
  if diff = 0 then encodeBit d false
  else do
    encodeBit d true
    if 0 < diff then do
      encodeBit (d + 1) false
      encodeMagnitude (diff.natAbs - 1) (d + 2) (dcX t) (dcM t)
    else do
      encodeBit (d + 1) true
      encodeMagnitude (diff.natAbs - 1) (d + 3) (dcX t) (dcM t)

/-- The value of a sign and sz = |v| - 1 (R471, R473). -/
def signed (neg : Bool) (sz : Nat) : Int := if neg then -(sz + 1 : Int) else sz + 1

/-- `QMDCGet(c)` (R471). -/
def qmDcGet (c : Fin 4) : Cmd Int := do
  let s ← get
  let d := s.dcClass c
  let t := s.cfg.dctbl c
  if ← decodeBit d then do
    let neg ← decodeBit (d + 1)
    let sz ← decodeMagnitude (if neg then d + 3 else d + 2) (dcX t) (dcM t)
    pure (signed neg sz)
  else pure 0

/-- A nonzero AC value: its sign in the uniform context, then its magnitude (R472). -/
def qmAcValue (t : Fin 4) (kx k : Nat) (v : Int) : Cmd Unit := do
  encodeBit uniformCtx (decide (v < 0))
  encodeMagnitude (v.natAbs - 1) (acSp t k) (acX t kx k) (acM t kx k)

/-- `QMACPut(c, val, ks, se)` (R472), from position k on. `inRun` says that the end-of-block decision before
position k was already coded, at the head of a run of zeros. -/
def qmAcPut (t : Fin 4) (kx : Nat) : List Int → Nat → Bool → Cmd Unit
  | [], _, _ => pure ()
  | v :: vs, k, inRun =>
    if inRun = false ∧ (v :: vs).all (· = 0) = true then encodeBit (acSe t k) true
    else do
      if inRun then pure () else encodeBit (acSe t k) false
      if v = 0 then do
        encodeBit (acS0 t k) false
        qmAcPut t kx vs (k + 1) true
      else do
        encodeBit (acS0 t k) true
        qmAcValue t kx k v
        qmAcPut t kx vs (k + 1) false

/-- An AC value read after its nonzero decision (R473). -/
def qmAcValueGet (t : Fin 4) (kx k : Nat) : Cmd Int := do
  let neg ← decodeBit uniformCtx
  let sz ← decodeMagnitude (acSp t k) (acX t kx k) (acM t kx k)
  pure (signed neg sz)

/-- `QMACGet(c, val, ks, se)` (R473) over the positions still to come, each value scaled by 2^al into the
unit. -/
def qmAcGet (t : Fin 4) (kx al : Nat) : List Nat → Bool → Block → Cmd Block
  | [], inRun, u => if inRun then throw (.raise .malformedStream) else pure u
  | k :: rest, inRun, u => do
    let eob ← if inRun then pure false else decodeBit (acSe t k)
    if eob then pure u
    else if ← decodeBit (acS0 t k) then do
      let v ← qmAcValueGet t kx k
      qmAcGet t kx al rest false (setCoef u k (v * 2 ^ al))
    else qmAcGet t kx al rest true u

/-- `EncodeUnit` of SEQ_AC (R474). -/
def encodeSeqAc (c : Fin 4) (u : Block) : Cmd Unit := do
  let s ← get
  rangeCheck qmCodable (seqValues s c u)
  if s.cfg.ss = 0 then do
    let diff := pointDc s.cfg.al u - s.predDc c
    qmDcPut c diff
    update fun t => (t.setPredDc c (pointDc s.cfg.al u)).setPredDiff c diff
  else pure ()
  if 0 < s.cfg.se then
    qmAcPut (s.cfg.actbl c) (s.cfg.kx c) (bandVals s.cfg.al u s.cfg.ks s.cfg.se) s.cfg.ks false
  else pure ()

/-- `DecodeUnit` of SEQ_AC (R475). -/
def decodeSeqAc (c : Fin 4) (u : Block) : Cmd Block := do
  let s ← get
  let u0 := seqStart s u
  let u1 ← if s.cfg.ss = 0 then do
      let diff ← qmDcGet c
      update fun t => t.setPredDiff c diff
      applyDc c diff u0
    else pure u0
  if 0 < s.cfg.se then
    qmAcGet (s.cfg.actbl c) (s.cfg.kx c) s.cfg.al (band s.cfg.ks s.cfg.se) false
      (clearBand u1 s.cfg.ks s.cfg.se)
  else pure u1

end Sys2Proof.Machine
end

