-- ==== Sys2Proof/Machine/Refinement.lean ====
section
/-!
DEFINITION. The refinement scans (spec/47_scan_refinement.md R500–R523): the unit algorithms of REF_HUFF and
REF_AC.
-/
namespace Sys2Proof.Machine

/-! ### Shared (R501–R503) -/

/-- The DC refinement bit `(u[0] >> AL) & 1` (R501). -/
def dcBit (al : Nat) (u : Block) : Bool := decide (asr u[0].toInt al % 2 = 1)

/-- `u[0] | 2^AL` (R501). -/
def orDc (al : Nat) (u : Block) : Block := u.set 0 (u[0] ||| BitVec.ofNat 32 (2 ^ al))

/-- `t(k) = |u[ZZ[k]]| >> AL` (R502). -/
def refTerm (al : Nat) (u : Block) (k : Nat) : Nat := (coef u k).natAbs / 2 ^ al

/-- `MagOr(x, p)` with p = 2^al (R503). -/
def magOr (x : Int) (al : Nat) : Int :=
  if 0 ≤ x then ((x.natAbs ||| 2 ^ al : Nat) : Int) else -((x.natAbs ||| 2 ^ al : Nat) : Int)

/-- The last position of a list whose coefficient meets `p`, or `none`. -/
def lastWith (p : Nat → Bool) (ks : List Nat) : Option Nat := (ks.filter p).getLast?

/-! ### REF_HUFF (R504–R506) -/

/-- The bits of BR written out (R504). -/
def writeBr (br : List Bool) : Cmd Unit := putRawBits br

/-- The ZRLs before position k, n of them: the first is followed by BR, which is then empty (R504). -/
def refZrls (t : Fin 4) : Nat → List Bool → Cmd (List Bool)
  | 0, br => pure br
  | n + 1, br => do
    emitEobRun
    huffEncode .ac t 0xF0
    writeBr br
    refZrls t n []

/-- The end of a REF_HUFF unit in zeros or correction bits: the run counts up, BR joins BE, and the run is
emitted at its cap or when BE is too long (R504, R505). -/
def refHuffEnd (corrMax : Nat) (br : List Bool) : Cmd Unit := do
  update fun s => (s.setEobrun (s.scan.eobrun.toNat + 1)).setBe (s.scan.be ++ br)
  let s ← get
  if s.scan.eobrun = 0x7FFF ∨ corrMax - 63 < s.scan.be.length then emitEobRun else pure ()

/-- The AC walk of `EncodeUnit` of REF_HUFF (R504) over the positions still to come: `eob` is the position of
the last newly nonzero coefficient, r the run of zeros, br the queue BR. -/
def refHuffAc (corrMax : Nat) (t : Fin 4) (al eob : Nat) (u : Block) :
    List Nat → Nat → List Bool → Cmd Unit
  | [], r, br => if 0 < r ∨ br ≠ [] then refHuffEnd corrMax br else pure ()
  | k :: rest, r, br =>
    if refTerm al u k = 0 then refHuffAc corrMax t al eob u rest (r + 1) br
    else do
      let zrls := if k ≤ eob then r / 16 else 0
      let br1 ← refZrls t zrls br
      let r1 := r - 16 * zrls
      if 2 ≤ refTerm al u k then
        refHuffAc corrMax t al eob u rest r1 (br1 ++ [(refTerm al u k).testBit 0])
      else do
        emitEobRun
        huffEncode .ac t (rsByte r1 1)
        putRaw 1 (if 0 < coef u k then 1 else 0)
        writeBr br1
        refHuffAc corrMax t al eob u rest 0 []

/-- `EncodeUnit` of REF_HUFF (R504), with CORR_BITS_MAX a parameter (R505). -/
def encodeRefHuff (corrMax : Nat) (c : Fin 4) (u : Block) : Cmd Unit := do
  let s ← get
  update fun s => s.setEobTbl (s.cfg.actbl c)
  if s.cfg.ss = 0 then putRaw 1 (dcBit s.cfg.al u).toNat
  else
    let positions := band s.cfg.ks s.cfg.se
    let eob := (lastWith (fun k => refTerm s.cfg.al u k = 1) positions).getD 0
    refHuffAc corrMax (s.cfg.actbl c) s.cfg.al eob u positions 0 []

/-- One correction bit for position k, if its coefficient is nonzero (R506). -/
def correct (al k : Nat) (u : Block) : Cmd Block :=
  if coef u k = 0 then pure u
  else do
    let b ← getBits 1
    pure (if b = 1 then setCoef u k (magOr (coef u k) al) else u)

/-- The correction bits of a unit's remaining positions (R506). -/
def correctAll (al : Nat) : List Nat → Block → Cmd Block
  | [], u => pure u
  | k :: rest, u => do
    let u1 ← correct al k u
    correctAll al rest u1

/-- The walk to the zero coefficient a symbol names (R506): the positions from that coefficient on, with the
unit corrected on the way. Past the band it raises MalformedStream (R507). -/
def refWalk (al : Nat) : List Nat → Nat → Block → Cmd (List Nat × Block)
  | [], _, _ => throw (.raise .malformedStream)
  | k :: rest, r, u =>
    if coef u k = 0 then
      if r = 0 then pure (k :: rest, u) else refWalk al rest (r - 1) u
    else do
      let u1 ← correct al k u
      refWalk al rest r u1

/-- The value a symbol of size s ≠ 0 places: ±2^al, s being 1 (R506, R507). -/
def refNew (al s : Nat) : Cmd Int :=
  if s ≠ 1 then throw (.raise .malformedStream)
  else do
    let b ← getBits 1
    pure (if b = 1 then 2 ^ al else -(2 ^ al))

/-- A symbol's value placed at the position the walk stopped at (R506). -/
def refPlace (nv : Int) (at_ : List Nat) (u : Block) : List Nat × Block :=
  match at_ with
  | [] => ([], u)
  | k :: rest => (rest, if nv ≠ 0 then setCoef u k nv else u)

/-- The symbols of `DecodeUnit` of REF_HUFF (R506) over the positions still to come: the positions at which
an EOBr symbol ended the loop, and the unit. -/
def refHuffLoop (t : Fin 4) (al : Nat) : Nat → List Nat → Block → Cmd (List Nat × Block)
  | 0, ks, u => pure (ks, u)
  | _ + 1, [], u => pure ([], u)
  | rounds + 1, k :: rest, u => do
    let rs ← huffGet .ac t
    let r := rs.toNat / 16
    let s := rs.toNat % 16
    if s = 0 ∧ r ≠ 15 then do
      let n ← eobRunLength r
      update fun s => s.setEobrun n
      pure (k :: rest, u)
    else do
      let nv ← if s ≠ 0 then refNew al s else pure 0
      let w ← refWalk al (k :: rest) r u
      let p := refPlace nv w.1 w.2
      refHuffLoop t al rounds p.1 p.2

/-- `DecodeUnit` of REF_HUFF for an AC band (R506). -/
def refHuffAcGet (t : Fin 4) (al : Nat) (positions : List Nat) (u : Block) : Cmd Block := do
  let s ← get
  let w ← if s.scan.eobrun = 0 then refHuffLoop t al 64 positions u else pure (positions, u)
  let s1 ← get
  if s1.scan.eobrun = 0 then pure w.2
  else do
    let u1 ← correctAll al w.1 w.2
    update fun s => s.setEobrun (s.scan.eobrun.toNat - 1)
    pure u1

/-- `DecodeUnit` of REF_HUFF (R506). -/
def decodeRefHuff (c : Fin 4) (u : Block) : Cmd Block := do
  let s ← get
  if s.cfg.ss = 0 then do
    let b ← getBits 1
    pure (if b = 1 then orDc s.cfg.al u else u)
  else refHuffAcGet (s.cfg.actbl c) s.cfg.al (band s.cfg.ks s.cfg.se) u

/-! ### REF_AC (R520–R522) -/

/-- The AC walk of `EncodeUnit` of REF_AC (R521) over the positions still to come. `inRun` says that position
k is reached inside the inner loop, past its end-of-band decision. -/
def refAcPut (t : Fin 4) (al eobx : Nat) (u : Block) : List Nat → Bool → Cmd Unit
  | [], _ => pure ()
  | k :: rest, inRun =>
    if inRun = false ∧ eobx < k ∧ (k :: rest).all (fun j => refTerm al u j = 0) = true then
      encodeBit (acSe t k) true
    else do
      if inRun = false ∧ eobx < k then encodeBit (acSe t k) false else pure ()
      if 2 ≤ refTerm al u k then do
        encodeBit (acSp t k) ((refTerm al u k).testBit 0)
        refAcPut t al eobx u rest false
      else if refTerm al u k = 1 then do
        encodeBit (acS0 t k) true
        encodeBit uniformCtx (decide (coef u k < 0))
        refAcPut t al eobx u rest false
      else do
        encodeBit (acS0 t k) false
        refAcPut t al eobx u rest true

/-- `EncodeUnit` of REF_AC (R521). -/
def encodeRefAc (c : Fin 4) (u : Block) : Cmd Unit := do
  let s ← get
  if s.cfg.ss = 0 then encodeBit uniformCtx (dcBit s.cfg.al u)
  else
    let positions := band s.cfg.ks s.cfg.se
    let eobx := (lastWith (fun k => 2 ≤ refTerm s.cfg.al u k) positions).getD (s.cfg.ks - 1)
    refAcPut (s.cfg.actbl c) s.cfg.al eobx u positions false

/-- The AC walk of `DecodeUnit` of REF_AC (R522) over the positions still to come. -/
def refAcGet (t : Fin 4) (al eobx : Nat) : List Nat → Bool → Block → Cmd Block
  | [], inRun, u => if inRun then throw (.raise .malformedStream) else pure u
  | k :: rest, inRun, u => do
    let eob ← if inRun = false ∧ eobx < k then decodeBit (acSe t k) else pure false
    if eob then pure u
    else if coef u k ≠ 0 then do
      let b ← decodeBit (acSp t k)
      refAcGet t al eobx rest false (if b then setCoef u k (magOr (coef u k) al) else u)
    else if ← decodeBit (acS0 t k) then do
      let neg ← decodeBit uniformCtx
      refAcGet t al eobx rest false (setCoef u k (if neg then -(2 ^ al) else 2 ^ al))
    else refAcGet t al eobx rest true u

/-- `DecodeUnit` of REF_AC (R522). -/
def decodeRefAc (c : Fin 4) (u : Block) : Cmd Block := do
  let s ← get
  if s.cfg.ss = 0 then do
    let b ← decodeBit uniformCtx
    pure (if b then orDc s.cfg.al u else u)
  else
    let positions := band s.cfg.ks s.cfg.se
    let eobx := (lastWith (fun k => coef u k ≠ 0) positions).getD (s.cfg.ks - 1)
    refAcGet (s.cfg.actbl c) s.cfg.al eobx positions false u

end Sys2Proof.Machine
end

