-- ==== Sys2Proof/Machine/Residual.lean ====
section
/-!
DEFINITION. The lossless and residual scans (spec/48_scan_lossless_residual.md R540–R571): the unit
algorithms of DIFF_LOSSLESS, RESIDUAL_AC, RESIDUAL_HUFF and RESIDUAL_SEQ. The residual coding is an argument,
the OPEN parameter RESIDUAL_CODING, whose reference value R554 to R557 give (R550; log entry 9).
-/
namespace Sys2Proof.Machine

/-! ### DIFF_LOSSLESS (R540–R542) -/

/-- The coded difference of a sample: `u[0] >> AL` reduced to -32768..32767 (R540). -/
def losslessDiff (al : Nat) (u : Block) : Int := (asr u[0].toInt al + 32768) % 65536 - 32768

/-- `EncodeUnit` of DIFF_LOSSLESS (R541): the category 16 of -32768 has no extra bits. -/
def encodeLossless (c : Fin 4) (u : Block) : Cmd Unit := do
  let s ← get
  let diff := losslessDiff s.cfg.al u
  if diff = -32768 then huffEncode .dc (s.cfg.dctbl c) 16
  else putValue .dc (s.cfg.dctbl c) (BitVec.ofNat 8 (category diff)) diff (category diff)

/-- `DecodeUnit` of DIFF_LOSSLESS (R542). -/
def decodeLossless (c : Fin 4) (u : Block) : Cmd Block := do
  let s ← get
  let sym ← huffGet .dc (s.cfg.dctbl c)
  if 16 < sym.toNat then throw (.raise .malformedStream)
  else do
    let diff ← if sym.toNat = 16 then pure (-32768) else getValue sym.toNat
    pure (u.set 0 (wrap32 (diff * 2 ^ s.cfg.al)))

/-! ### The bias estimator (R553) -/

/-- `Offset(c)` on the sum B and the count N: the mean, rounded toward zero (R553). -/
def biasMean (b : Int) (n : Nat) : Int := if n = 0 then 0 else b.tdiv n

/-- `Update(c, r0)` on the sum and the count: added, and both halved once the count exceeds 64 (R553,
R561). The sum is a 32-bit register at each assignment (R13, R86). -/
def biasStep (b : Int) (n : Nat) (r0 : Int) : Int × Nat :=
  let b1 := (wrap32 (b + r0)).toInt
  if 64 < n + 1 then (halve b1, (n + 1) / 2) else (b1, n + 1)

/-- `Offset(c)` (R553). -/
def State.biasOffset (s : State) (c : Fin 4) : Int :=
  biasMean s.scan.biasB[c].toInt s.scan.biasN[c].toNat

/-- `Update(c, r0)` (R553). B and N are stored in 32 bits (R67, R68). -/
def State.biasUpdate (s : State) (c : Fin 4) (r0 : Int) : State :=
  let bn := biasStep s.scan.biasB[c].toInt s.scan.biasN[c].toNat r0
  { s with
    scan := { s.scan with
      biasB := s.scan.biasB.set c (wrap32 bn.1)
      biasN := s.scan.biasN.set c (BitVec.ofNat 32 bn.2) } }

/-! ### The block of a residual unit (R552) -/

/-- The block a residual kind codes: the unit, or its Hadamard transform (R552). -/
def hadamardIn (cfg : CfgRegs) (u : Block) : Block :=
  if cfg.hadamard then Config.hadamardFwd u else u

/-- The unit a residual kind hands to the host (R552). -/
def hadamardOut (cfg : CfgRegs) (r : Block) : Block :=
  if cfg.hadamard then Config.hadamardInv r else r

/-! ### The reference coding (R554–R557) -/

/-- The DC value a residual kind codes: RESIDUAL_SEQ predicts it, the others do not (R550, R554, R557). -/
def residualDc (s : State) (c : Fin 4) (dc : Int) : Int :=
  if s.cfg.kind = .residualSeq then dc - s.predDc c else dc

/-- The limit of a residual kind (R557). -/
def residualCodable (cfg : CfgRegs) : Int → Bool :=
  if cfg.kind = .residualAc then qmCodable else huffCodable

/-- The Huffman DC and AC of a residual block (R554). -/
def residualHuffPut (c : Fin 4) (dc : Int) (vals : List Int) : Cmd Unit := do
  let s ← get
  putDc (s.cfg.dctbl c) dc
  huffAcSeq (s.cfg.actbl c) vals 0

/-- The DC and the AC values of a residual block, written by the reference coding (R554). -/
def referencePut (c : Fin 4) (dc : Int) (vals : List Int) : Cmd Unit := do
  let s ← get
  if s.cfg.kind = .residualAc then do
    qmDcPut c dc
    update fun t => t.setPredDiff c dc
    qmAcPut (s.cfg.actbl c) (s.cfg.kx c) vals 1 false
  else if s.cfg.kind = .residualSeq then do
    update fun t => t.setPredDc c dc
    residualHuffPut c (residualDc s c dc) vals
  else residualHuffPut c dc vals

/-- The DC of a residual block read by the reference coding, and its AC values in a block of zeros (R555). -/
def referenceGet (c : Fin 4) : Cmd (Int × Block) := do
  let s ← get
  if s.cfg.kind = .residualAc then do
    let dc ← qmDcGet c
    update fun t => t.setPredDiff c dc
    let r ← qmAcGet (s.cfg.actbl c) (s.cfg.kx c) 0 (band 1 63) false zeroBlock
    pure (dc, r)
  else if s.cfg.kind = .residualSeq then do
    let diff ← getDc (s.cfg.dctbl c)
    update fun t => t.setPredDc c (t.predDc c + diff)
    let s1 ← get
    let r ← huffAcSeqGet (s.cfg.actbl c) 64 1 zeroBlock
    pure (s1.predDc c, r)
  else do
    let dc ← getDc (s.cfg.dctbl c)
    let r ← huffAcSeqGet (s.cfg.actbl c) 64 1 zeroBlock
    pure (dc, r)

/-! ### Another coding (R550) -/

/-- The configuration as a unit algorithm may read it: DIFFERENTIAL and BASELINE, which only EP_WRITE_FRAME_TYPE
reads (R55), and FRAME_HEIGHT, which no rule reads (R64), are 0. -/
def CfgRegs.forUnits (c : CfgRegs) : CfgRegs :=
  { c with scanCtrl := c.scanCtrl &&& 0x0000075F, frameHeight := 0 }

/-- What a residual coding reads of the state: the configuration for a unit algorithm, PRED_DC only for
RESIDUAL_SEQ, PRED_DIFF only for RESIDUAL_AC, and 0 for a predictor its kind does not use (R65, R66, R556). -/
def State.residualView (s : State) (c : Fin 4) : ResidualView :=
  { cfg := s.cfg.forUnits, c := c
    predDc := if s.cfg.kind = .residualSeq then s.predDc c else 0
    predDiff := if s.cfg.kind = .residualAc then s.predDiff c else 0 }

/-- PRED_DC[c] written by a residual coding: only RESIDUAL_SEQ has it, and the other kinds leave it (R65,
R556). -/
def State.residualSetDc (s : State) (c : Fin 4) (v : Int) : State :=
  if s.cfg.kind = .residualSeq then s.setPredDc c v else s

/-- PRED_DIFF[c] written by a residual coding: only RESIDUAL_AC has it, and the other kinds leave it (R66,
R556). -/
def State.residualSetDiff (s : State) (c : Fin 4) (v : Int) : State :=
  if s.cfg.kind = .residualAc then s.setPredDiff c v else s

/-- A decision written by a residual coding needs what QM_ENCODE needs, a context of the bank, an open encoder and
a channel open for writing (R277), and a scan in WRITE. -/
def State.encoderReady (s : State) (ctx : BitVec 11) : Bool :=
  !encodeRefuses ctx s && decide (s.status.state = .write)

/-- A decision read by a residual coding needs what QM_DECODE needs, a context of the bank, an open decoder and a
channel open for reading (R284), and a scan in PARSE. -/
def State.decoderReady (s : State) (ctx : BitVec 11) : Bool :=
  !decodeRefuses ctx s && decide (s.status.state = .parse)

/-- One step of a residual coding that writes, for component c. A decision the coder is not ready for raises
ContractViolation, which no scan reaches, since a coding's decisions are those of a QM kind in valid contexts. -/
def putStep (c : Fin 4) : PutStep → Cmd Unit
  | .symbol cls tbl sym => huffEncode cls tbl sym
  | .bits n v => putRaw n v
  | .decision ctx d => do
    let s ← get
    if s.encoderReady ctx then encodeBit ctx.toNat d
    else throw (.raise .contractViolation)
  | .predDc v => update fun t => t.residualSetDc c v
  | .predDiff v => update fun t => t.residualSetDiff c v

/-- The steps of a residual coding that writes, in order. -/
def putSteps (c : Fin 4) : List PutStep → Cmd Unit
  | [] => pure ()
  | x :: xs => do
    putStep c x
    putSteps c xs

/-- The AC values k = 1 to 63 a coding read, in a block of zeros (R555); what it gives beyond is dropped. -/
def acBlock (vals : List Int) : Block :=
  ((band 1 63).zip vals).foldl (fun u kv => setCoef u kv.1 kv.2) zeroBlock

/-- A residual coding that reads, for component c. A decision the coder is not ready for raises
ContractViolation, which no scan reaches. -/
def getSteps (c : Fin 4) : GetCode → Cmd (Int × Block)
  | .done dc vals => pure (dc, acBlock vals)
  | .malformed => throw (.raise .malformedStream)
  | .symbol cls tbl next => do
    let sym ← huffGet cls tbl
    getSteps c (next sym)
  | .bits n next => do
    let v ← getBits n
    getSteps c (next v)
  | .decision ctx next => do
    let s ← get
    if s.decoderReady ctx then do
      let d ← decodeBit ctx.toNat
      getSteps c (next d)
    else throw (.raise .contractViolation)
  | .predDc v next => do
    update fun t => t.residualSetDc c v
    getSteps c next
  | .predDiff v next => do
    update fun t => t.residualSetDiff c v
    getSteps c next

/-! ### The residual kinds (R552–R557) -/

/-- The DC and the AC values pass the coding's limits: for the reference coding those of R557. -/
def residualFits (rc : ResidualCoding) (s : State) (c : Fin 4) (dc : Int) (vals : List Int) : Bool :=
  match rc with
  | .reference => (residualDc s c dc :: vals).all (residualCodable s.cfg)
  | .other k => k.codable (s.residualView c) dc vals

/-- The DC and the AC values of a residual block written (R554). -/
def residualPut (rc : ResidualCoding) (c : Fin 4) (dc : Int) (vals : List Int) : Cmd Unit := do
  let s ← get
  match rc with
  | .reference => referencePut c dc vals
  | .other k => putSteps c (k.put (s.residualView c) dc vals)

/-- The DC and the AC values of a residual block read (R555). -/
def residualGet (rc : ResidualCoding) (c : Fin 4) : Cmd (Int × Block) := do
  let s ← get
  match rc with
  | .reference => referenceGet c
  | .other k => getSteps c (k.get (s.residualView c))

/-- `EncodeUnit` of the residual kinds (R554) with their coding a parameter (R550): the Hadamard mode (R552),
RangeCheck before anything is coded (R557), and the estimator (R553) around it. EOB_TBL is set by the Huffman
kinds (R554, R85). -/
def encodeResidual (rc : ResidualCoding) (c : Fin 4) (u : Block) : Cmd Unit := do
  let s ← get
  let r := hadamardIn s.cfg u
  let dc := r[0].toInt - s.biasOffset c
  let vals := bandVals 0 r 1 63
  if residualFits rc s c dc vals = false then throw (.raiseKept .inputRange)
  else do
    update fun t => (t.biasUpdate c r[0].toInt).setEobTbl
      (if s.cfg.kind = .residualAc then s.scan.eobTbl else s.cfg.actbl c)
    residualPut rc c dc vals

/-- `DecodeUnit` of the residual kinds (R555) with their coding a parameter (R550): all 64 values are
overwritten. -/
def decodeResidual (rc : ResidualCoding) (c : Fin 4) : Cmd Block := do
  let dr ← residualGet rc c
  let s ← get
  let r0 := wrap32 (dr.1 + s.biasOffset c)
  update fun t => t.biasUpdate c r0.toInt
  pure (hadamardOut s.cfg (dr.2.set 0 r0))

end Sys2Proof.Machine
end

