-- ==== Sys2Proof/Machine/Parser.lean ====
section
/-!
DEFINITION. The entropy parser (spec/45_entropy_parser.md R380–R413): validation and start of a scan, the
MCU loop with its restarts, DNL detection, neutral output, and the EP_* commands.
-/
namespace Sys2Proof.Machine

/-! ### Validation (R384) -/

/-- The band is exactly SS..SE with these bit positions (R384). -/
def CfgRegs.bandIs (c : CfgRegs) (ss se ah al : Nat) : Bool :=
  decide (c.ss = ss) && decide (c.se = se) && decide (c.ah = ah) && decide (c.al = al)

/-- The DC band stands alone, and an AC band has one component (R384). -/
def CfgRegs.bandSplit (c : CfgRegs) : Bool :=
  (decide (c.ss ≠ 0) || decide (c.se = 0)) && (decide (c.ss = 0) || decide (c.ncomp = 1))

/-- The checks of `Validate()` that depend on the kind (R384). -/
def CfgRegs.validFor (c : CfgRegs) : Kind → Bool
  | .seqHuff | .seqAc =>
    if c.progressive then decide (c.ah = 0) && c.bandSplit && decide (c.al ≤ 13)
    else c.bandIs 0 63 0 0
  | .refHuff | .refAc => decide (c.ah = c.al + 1) && decide (c.al ≤ 13) && c.bandSplit
  | .diffLossless => decide (c.se = 0) && decide (c.ah = 0) && decide (c.al ≤ 15)
  | .residualAc | .residualHuff | .residualSeq => c.bandIs 0 63 0 0 && !c.hidden
  | .reserved => false

/-- The configuration passes `Validate()` (R384). -/
def CfgRegs.valid (c : CfgRegs) : Bool :=
  decide (1 ≤ c.ncomp) && decide (c.ncomp ≤ 4) && decide (1 ≤ c.nblk) && decide (c.nblk ≤ 10) &&
  (List.range c.nblk).all (fun j => decide ((c.mapOf j).val < c.ncomp)) &&
  decide (c.mcusPerRow ≠ 0) && decide (c.ss ≤ c.se) && c.validFor c.kind

/-! ### Start (R385, R386) -/

/-- The state `Start(st)` leaves before it opens the coder (R385). -/
def State.started (s : State) (st : ScanState) : State :=
  { s with
    status := Status.started st
    scan := { ScanRegs.reset with
      mcusToGo := BitVec.ofNat 16 s.cfg.effRI
      eobTbl := s.scan.eobTbl }
    qm := .reset
    bc := .reset
    ctx := [] }

/-- `OpenCoder(read)` (R386). -/
def State.openRead (s : State) : State :=
  let t := s.openChan .read s.cfg.stuffMode s.cfg.streamSel
  if s.cfg.kind.isQm then t.setCoder t.coder.initDec else t

/-- `OpenCoder(write)` (R386). -/
def State.openWrite (s : State) : State :=
  let t := s.openChan .write s.cfg.stuffMode s.cfg.streamSel
  if s.cfg.kind.isQm then { t with qm := .initEnc } else t

/-- The coder opened as the state calls for (R385). -/
def State.openCoder (s : State) : State :=
  match s.status.state with
  | .parse => s.openRead
  | .write => s.openWrite
  | .idle | .measure | .flushed | .dead => s

/-- The own checks of EP_START_*: no scan is active, and the configuration is valid (R384, R385). -/
def startRefuses (s : State) : Bool := s.status.state.active || !s.cfg.valid

/-- EP_START_PARSE (R381). -/
def execEpStartParse (s : State) : Host.Outcome State Fault Refusal :=
  runCommand .always true startRefuses (update fun s => (s.started .parse).openCoder) s

/-- EP_START_WRITE (R382). -/
def execEpStartWrite (s : State) : Host.Outcome State Fault Refusal :=
  runCommand .always true startRefuses (update fun s => (s.started .write).openCoder) s

/-- EP_START_MEASURE (R383). -/
def execEpStartMeasure (s : State) : Host.Outcome State Fault Refusal :=
  runCommand .always true startRefuses (update fun s => (s.started .measure).openCoder) s

/-! ### Rows (R388, R389) -/

/-- The next two bytes of the channel's stream, taken as a word or raised as the end of data (R125, R389). -/
def takeWord : Cmd (BitVec 16) := do
  match ← onChanVal (fun k => (k.st.getWord.1, { k with st := k.st.getWord.2 })) with
  | some w => pure w
  | none => throw (.raise .unexpectedEndOfStream)

/-- Two bytes of the channel's stream skipped, `GetWord` with its value dropped (R389, R404). -/
def skipWord : Cmd Unit := onChan fun k => { k with st := k.st.getWord.2 }

/-- STATUS.DNL_FOUND set and FRAME_HEIGHT written (R389). -/
def State.setDnl (s : State) (nl : BitVec 16) : State :=
  { s with
    cfg := { s.cfg with frameHeight := nl.setWidth 32 }
    status := { s.status with dnlFound := true } }

/-- `ParseDNL()` (R389). -/
def parseDnl : Cmd Unit := do
  skipWord
  let ld ← takeWord
  if ld ≠ 4 then throw (.raise .malformedStream)
  else do
    let nl ← takeWord
    if nl = 0 then throw (.raise .malformedStream)
    else update fun s => s.setDnl nl

/-- The next row started, its number stopping at 65535 (R86, R388). -/
def State.nextRow (s : State) : State :=
  { s with
    scan := { s.scan with
      row := if s.scan.row = 65535 then 65535 else s.scan.row + 1
      mcuInRow := 0 }
    status := { s.status with rowActive := true }
    result := 1 }

/-- All rows of MCU_ROWS were started (R388). -/
def State.rowsDone (s : State) : Bool :=
  decide (s.cfg.mcuRows ≠ 0) && decide (s.cfg.mcuRows ≤ s.scan.row.toNat)

/-- The row count's part of EP_START_MCU_ROW (R388). -/
def State.startRow (s : State) : State := if s.rowsDone then s.setResult 0 else s.nextRow

/-- EP_START_MCU_ROW looks for a DNL marker (R388). -/
def State.dnlWanted (s : State) : Bool :=
  decide (s.status.state = .parse) && s.cfg.dnlEnable && decide (s.cfg.mcuRows = 0)

/-- The body of EP_START_MCU_ROW (R388). -/
def startMcuRow : Cmd Unit := do
  let s ← get
  if s.dnlWanted then
    if s.status.dnlFound then update fun s => s.setResult 0
    else do
      onChan Chan.skipStuffing
      let s1 ← get
      if s1.chan.st.peekWord = some 0xFFDC then do
        parseDnl
        update fun s => s.setResult 0
      else update State.startRow
  else update State.startRow

/-- The own checks of EP_START_MCU_ROW (R388). -/
def rowRefuses (s : State) : Bool := !s.status.state.active || s.status.rowActive

/-- EP_START_MCU_ROW (R388). -/
def execEpStartMcuRow (s : State) : Host.Outcome State Fault Refusal :=
  runCommand .live true rowRefuses startMcuRow s

/-! ### The block port (R128, R129) -/

/-- The unit a request for component c gives, and the state after it: the next unit the host holds ready, or
one whose values the host has not said (R128, 93 #15; log entry 3). -/
def State.request (s : State) (c : Fin 4) : Block × State :=
  match s.ports.pending[c] with
  | u :: rest =>
    (u, { s with ports := { s.ports with
            pending := s.ports.pending.set c rest, current := some (c, u) } })
  | [] =>
    (Config.freeUnit s.draws,
      { s with
        ports := { s.ports with current := some (c, Config.freeUnit s.draws) }
        draws := s.draws + 1 })

/-- `Request(c)` (R128). -/
def request (c : Fin 4) : Cmd Block := fun s => .ok (s.request c).1 (s.request c).2

/-- `Release(c)`: the unit goes back with the coefficients it then holds (R128). -/
def State.release (s : State) (c : Fin 4) (u : Block) : State :=
  { s with ports := { s.ports with
      current := none, released := s.ports.released ++ [(c, u)] } }

/-! ### Segments and restarts (R396–R404) -/

/-- The kinds whose segments end with `EmitEOBRun` (R396). -/
def Kind.hasEobRun : Kind → Bool
  | .seqHuff | .refHuff | .residualHuff | .residualSeq => true
  | .seqAc | .refAc | .diffLossless | .residualAc | .reserved => false

/-- `FlushCoder()` (R396). -/
def flushCoder : Cmd Unit := do
  let s ← get
  if s.cfg.kind.hasEobRun then emitEobRun else pure ()
  if s.status.state = .write then
    if s.cfg.kind.isQm then onCoder (qmFlush true) else onChan Chan.flush
  else pure ()

/-- The predictors, EOBRUN, BE and the contexts as a restart leaves them (R400). -/
def State.segmentReset (s : State) : State :=
  { s with
    scan := { s.scan with
      predDc := ScanRegs.reset.predDc, predDiff := ScanRegs.reset.predDiff, eobrun := 0, be := [] }
    ctx := [] }

/-- The coder opened again at a restart: not while parsing in an invalid segment (R400). -/
def State.reopen (s : State) : State :=
  if s.status.state = .parse ∧ s.status.segValid = false then s else s.openCoder

/-- `Restart()` (R400). -/
def State.restart (s : State) : State := s.segmentReset.reopen

/-- Restart marker m: `0xFFD0 + m` (R401). -/
def rstMarker (m : BitVec 3) : BitVec 16 := 0xFFD0 + m.setWidth 16

/-- A restart marker of any number (R401). -/
def isRstMarker (w : BitVec 16) : Bool := decide (0xFFD0 ≤ w.toNat) && decide (w.toNat ≤ 0xFFD7)

/-- NEXT_RST advanced and MCUS_TO_GO set back, at the end of a restart (R402, R404). -/
def State.nextSegment (s : State) : State :=
  { s with scan := { s.scan with
      nextRst := s.scan.nextRst + 1, mcusToGo := BitVec.ofNat 16 s.cfg.effRI } }

/-- The marker of a restart written to the scan's stream (R402). -/
def State.putMarker (s : State) (sel : StreamSel) (w : BitVec 16) : State :=
  { s with ports := s.ports.setStream sel ((s.ports.stream sel).putWord w) }

/-- `WriteRestart()` (R402). -/
def writeRestart : Cmd Unit := do
  flushCoder
  update fun s =>
    if s.status.state = .write then s.putMarker s.cfg.streamSel (rstMarker s.scan.nextRst) else s
  update fun s => s.nextSegment.restart

/-- Write STATUS.SEG_VALID (R50). -/
def State.setSegValid (s : State) (v : Bool) : State :=
  { s with status := { s.status with segValid := v } }

/-- An InvalidRestartMarker event (R404, R608). -/
def State.warn (s : State) : State := { s with status := s.status.warn }

/-- The search of `ReadRestart()` for marker e (R404). Every further round consumes two bytes of the input, so
one round more than the input is long is enough. -/
def findRestart (e : BitVec 3) : Nat → Bool → Cmd Unit
  | 0, _ => throw (.stop .loopWithoutEnd)
  | rounds + 1, first => do
    let m ← onChanVal Chan.findMarker
    if m = rstMarker e then do
      skipWord
      update fun s => s.setSegValid true
    else do
      if first then update State.warn else pure ()
      if m = rstMarker (e - 1) ∨ m = rstMarker (e - 2) then do
        skipWord
        findRestart e rounds false
      else do
        update fun s => s.setSegValid false
        if isRstMarker m = true ∧ m ≠ rstMarker (e + 1) ∧ m ≠ rstMarker (e + 2) then skipWord
        else pure ()

/-- `ReadRestart()` (R404). -/
def readRestart : Cmd Unit := do
  let s ← get
  findRestart s.scan.nextRst (s.chan.st.inp.length + 1) true
  update fun s => s.nextSegment.restart

/-! ### MCUs (R392–R395, R406, R411) -/

/-- Which way an MCU is coded: EP_PARSE_MCU reads, EP_WRITE_MCU writes (R394). -/
inductive McuDir where
  | read
  | write
  deriving DecidableEq, Repr

/-- `EncodeUnit(c, u)` (R411), with RESIDUAL_CODING a parameter (R550). -/
def encodeUnit (rc : ResidualCoding) (c : Fin 4) (u : Block) : Cmd Unit := do
  let s ← get
  match s.cfg.kind with
  | .seqHuff => encodeSeqHuff c u
  | .seqAc => encodeSeqAc c u
  | .refHuff => encodeRefHuff Config.corrBitsMax c u
  | .refAc => encodeRefAc c u
  | .diffLossless => encodeLossless c u
  | .residualAc | .residualHuff | .residualSeq => encodeResidual rc c u
  | .reserved => throw (.stop .noUnitAlgorithm)

/-- `DecodeUnit(c, u)` (R411), with RESIDUAL_CODING a parameter (R550). -/
def decodeUnit (rc : ResidualCoding) (c : Fin 4) (u : Block) : Cmd Block := do
  let s ← get
  match s.cfg.kind with
  | .seqHuff => decodeSeqHuff c u
  | .seqAc => decodeSeqAc c u
  | .refHuff => decodeRefHuff c u
  | .refAc => decodeRefAc c u
  | .diffLossless => decodeLossless c u
  | .residualAc | .residualHuff | .residualSeq => decodeResidual rc c
  | .reserved => throw (.stop .noUnitAlgorithm)

/-- `Neutral(c, u)` (R406). -/
def neutral (u : Block) : Cmd Block := do
  let s ← get
  match s.cfg.kind with
  | .seqHuff | .seqAc =>
    pure (if s.cfg.progressive then clearBand u s.cfg.ss s.cfg.se else zeroBlock)
  | .refHuff | .refAc => pure u
  | .diffLossless => pure (u.set 0 0)
  | .residualAc | .residualHuff | .residualSeq | .reserved => throw (.stop .noUnitAlgorithm)

/-- One unit of an MCU: requested, coded, released (R394). -/
def codeUnit (rc : ResidualCoding) (dir : McuDir) (c : Fin 4) : Cmd Unit := do
  let u ← request c
  let s ← get
  let v ← match dir with
    | .write => do
      if s.measuring = true ∧ s.cfg.kind.isQm = true then pure u
      else do
        encodeUnit rc c u
        pure u
    | .read => if s.status.segValid then decodeUnit rc c u else neutral u
  update fun s => s.release c v

/-- The units of an MCU, in the order of MCU_MAP (R394). -/
def codeUnits (rc : ResidualCoding) (dir : McuDir) : List (Fin 4) → Cmd Unit
  | [] => pure ()
  | c :: cs => do
    codeUnit rc dir c
    codeUnits rc dir cs

/-- The components of an MCU's units, in order (R61, R394). -/
def CfgRegs.mcuUnits (c : CfgRegs) : List (Fin 4) := (List.range c.nblk).map c.mapOf

/-- MCUS_TO_GO counted down (R392, R393). -/
def State.countMcu (s : State) : State :=
  { s with scan := { s.scan with mcusToGo := s.scan.mcusToGo - 1 } }

/-- The restart cadence at the start of an MCU (R392, R393). -/
def beginMcu (dir : McuDir) : Cmd Unit := do
  let s ← get
  if s.cfg.effRI = 0 then pure ()
  else do
    if s.scan.mcusToGo = 0 then
      match dir with
      | .write => writeRestart
      | .read => readRestart
    else pure ()
    update State.countMcu

/-- The end of an MCU: MCU_IN_ROW counts, and the row ends with its last MCU (R394, R395). -/
def State.endMcu (s : State) : State :=
  let n := s.scan.mcuInRow + 1
  let t := { s with scan := { s.scan with mcuInRow := n } }
  if n.toNat < s.cfg.mcusPerRow then t.setResult 1
  else { t.setResult 0 with status := { s.status with rowActive := false } }

/-- `MCU(dir)` (R394). -/
def mcu (rc : ResidualCoding) (dir : McuDir) : Cmd Unit := do
  beginMcu dir
  let s ← get
  codeUnits rc dir s.cfg.mcuUnits
  update State.endMcu

/-- The checks of R394 that no MCU can be coded: no row, or a full row. -/
def State.noMcu (s : State) : Bool :=
  !s.status.rowActive || decide (s.cfg.mcusPerRow ≤ s.scan.mcuInRow.toNat)

/-- The own checks of EP_PARSE_MCU (R390, R394). -/
def parseMcuRefuses (s : State) : Bool := decide (s.status.state ≠ .parse) || s.noMcu

/-- The own checks of EP_WRITE_MCU (R391, R394). -/
def writeMcuRefuses (s : State) : Bool :=
  !(decide (s.status.state = .write) || decide (s.status.state = .measure)) || s.noMcu

/-- EP_PARSE_MCU (R390) with RESIDUAL_CODING a parameter. -/
def parseMcuWith (rc : ResidualCoding) (s : State) : Host.Outcome State Fault Refusal :=
  runCommand .live true parseMcuRefuses (mcu rc .read) s

/-- EP_WRITE_MCU (R391) with RESIDUAL_CODING a parameter. -/
def writeMcuWith (rc : ResidualCoding) (s : State) : Host.Outcome State Fault Refusal :=
  runCommand .live true writeMcuRefuses (mcu rc .write) s

/-- EP_PARSE_MCU (R390). -/
def execEpParseMcu (s : State) : Host.Outcome State Fault Refusal :=
  parseMcuWith Config.residualCoding s

/-- EP_WRITE_MCU (R391). -/
def execEpWriteMcu (s : State) : Host.Outcome State Fault Refusal :=
  writeMcuWith Config.residualCoding s

/-! ### The end of a scan, and restarts the host asks for (R397, R398) -/

/-- STATUS as EP_FLUSH leaves it (R397). -/
def State.flushed (s : State) : State :=
  { s with status := { s.status with rowActive := false, state := .flushed } }

/-- In MEASURE, the symbol of the pending run has no code (R397, R462). -/
def State.runUncoded (s : State) : Bool :=
  s.measuring && s.cfg.kind.hasEobRun && decide (s.scan.eobrun ≠ 0) &&
    (hufLookup (s.ports.table .ac s.scan.eobTbl)
      (rsByte (category s.scan.eobrun.toNat - 1) 0)).isNone

/-- The body of EP_FLUSH (R397): FindMarker's result is not written to RESULT. In MEASURE R396 has the pending
run's symbol counted, and a symbol without code then raises ContractViolation, as R397's Exceptions say (DEDUCED: that
the count stands; log entry 24). -/
def epFlush : Cmd Unit := do
  let s ← get
  if s.status.state = .parse then do
    let _ ← onChanVal Chan.findMarker
    update fun s => s.setEobrun 0
  else do
    flushCoder
    if s.runUncoded then throw (.raise .contractViolation) else pure ()
  update State.flushed

/-- The body of EP_RESTART (R398). -/
def epRestart : Cmd Unit := do
  let s ← get
  if s.status.state = .parse then pure () else flushCoder
  update State.restart

/-- The own check of EP_FLUSH: a scan is active (R397). -/
def noScan (s : State) : Bool := !s.status.state.active

/-- The own checks of EP_RESTART: a scan is active, and its kind is not residual (R398, R610). -/
def restartRefuses (s : State) : Bool := noScan s || s.cfg.kind.isResidual

/-- EP_FLUSH (R397). -/
def execEpFlush (s : State) : Host.Outcome State Fault Refusal :=
  runCommand .live true noScan epFlush s

/-- EP_RESTART (R398). -/
def execEpRestart (s : State) : Host.Outcome State Fault Refusal :=
  runCommand .live true restartRefuses epRestart s

/-! ### The frame type (R410) -/

/-- The marker of a kind with DIFFERENTIAL = 0 and with DIFFERENTIAL = 1; a reserved kind has none (R410). -/
def frameMarkers (kind : Kind) (progressive baseline : Bool) : Option (BitVec 16 × BitVec 16) :=
  match kind with
  | .seqHuff =>
    if progressive then some (0xFFC2, 0xFFC6)
    else some (if baseline then 0xFFC0 else 0xFFC1, 0xFFC5)
  | .refHuff => some (0xFFC2, 0xFFC6)
  | .diffLossless => some (0xFFC3, 0xFFC7)
  | .seqAc => if progressive then some (0xFFCA, 0xFFCE) else some (0xFFC9, 0xFFCD)
  | .refAc => some (0xFFCA, 0xFFCE)
  | .residualAc | .residualHuff | .residualSeq => some (0, 0)
  | .reserved => none

/-- `FrameMarker()`, if the table of R410 gives one: 0 for a hidden or residual scan. -/
def CfgRegs.frameMarker (c : CfgRegs) : Option (BitVec 16) :=
  if c.hidden then some 0
  else (frameMarkers c.kind c.progressive c.baseline).map fun m =>
    if c.differential then m.2 else m.1

/-- A marker written to PRIMARY, nothing if it is 0, and returned (R410). -/
def State.putFrame (s : State) (m : BitVec 16) : State :=
  (if m = 0 then s else s.putMarker .primary m).setResult (m.setWidth 32)

/-- The body of EP_WRITE_FRAME_TYPE (R410). For a reserved KIND the spec states no marker: it is drawn (log
entry 8). -/
def State.frameType (s : State) : State :=
  match s.cfg.frameMarker with
  | some m => s.putFrame m
  | none => { s.putFrame (Config.freeMarker s.draws) with draws := s.draws + 1 }

/-- The own check of EP_WRITE_FRAME_TYPE: the state is IDLE or FLUSHED (R410). -/
def frameRefuses (s : State) : Bool :=
  !(decide (s.status.state = .idle) || decide (s.status.state = .flushed))

/-- EP_WRITE_FRAME_TYPE (R410). -/
def execEpWriteFrameType (s : State) : Host.Outcome State Fault Refusal :=
  runCommand .live true frameRefuses (update State.frameType) s

end Sys2Proof.Machine
end

