-- ==== Sys2Proof/Machine/Control.lean ====
section
/-!
DEFINITION. The control commands (spec/40_control.md R200–R206).
-/
namespace Sys2Proof.Machine

/-- The own checks of CFG_WRITE: REG is RW-config, and no scan is active (R44, R203). -/
def cfgWriteRefuses (r : Reg) (s : State) : Bool :=
  (writableMask r).isNone || s.status.state.active

/-- OPERAND written to a register under its writable mask (R203). -/
def State.writeReg (s : State) (r : Reg) : State :=
  { s with cfg := s.cfg.put r (s.operand &&& (writableMask r).getD 0) }

/-- NOP (R201). -/
def execNop (s : State) : Host.Outcome State Fault Refusal :=
  runCommand .always true noCheck (update id) s

/-- CORE_RESET (R202). -/
def execCoreReset (s : State) : Host.Outcome State Fault Refusal :=
  runCommand .always true noCheck (update State.coreReset) s

/-- CFG_WRITE (R203). -/
def execCfgWrite (r : Reg) (s : State) : Host.Outcome State Fault Refusal :=
  runCommand .always true (cfgWriteRefuses r) (update fun s => s.writeReg r) s

/-- CFG_READ (R204). -/
def execCfgRead (r : Reg) (s : State) : Host.Outcome State Fault Refusal :=
  runCommand .always true noCheck (update fun s => s.setResult (s.reg r)) s

end Sys2Proof.Machine
end

