-- ==== Sys2Proof/Machine/Dispatch.lean ====
section
/-!
DEFINITION. The dispatch: one arm per command, each a direct call of its meaning.
-/
namespace Sys2Proof.Machine

def exec (i : Instr) (s : State) : Host.Outcome State Fault Refusal :=
  match i with
  | .nop => Sys2Proof.Machine.execNop s
  | .coreReset => Sys2Proof.Machine.execCoreReset s
  | .cfgWrite r => Sys2Proof.Machine.execCfgWrite r s
  | .cfgRead r => Sys2Proof.Machine.execCfgRead r s
  | .bcOpenRead mode stream => Sys2Proof.Machine.execBcOpenRead mode stream s
  | .bcOpenWrite mode stream => Sys2Proof.Machine.execBcOpenWrite mode stream s
  | .bcGetBits n => Sys2Proof.Machine.execBcGetBits n s
  | .bcPutBits n => Sys2Proof.Machine.execBcPutBits n s
  | .bcFlush => Sys2Proof.Machine.execBcFlush s
  | .bcSkipStuffing => Sys2Proof.Machine.execBcSkipStuffing s
  | .bcFindMarker => Sys2Proof.Machine.execBcFindMarker s
  | .bcGetByteZ => Sys2Proof.Machine.execBcGetByteZ s
  | .qmInitEnc => Sys2Proof.Machine.execQmInitEnc s
  | .qmInitDec => Sys2Proof.Machine.execQmInitDec s
  | .qmEncode ctx d => Sys2Proof.Machine.execQmEncode ctx d s
  | .qmDecode ctx => Sys2Proof.Machine.execQmDecode ctx s
  | .qmFlush final => Sys2Proof.Machine.execQmFlush final s
  | .ctxInit ctx index mps => Sys2Proof.Machine.execCtxInit ctx index mps s
  | .ctxRead ctx => Sys2Proof.Machine.execCtxRead ctx s
  | .ctxResetAll => Sys2Proof.Machine.execCtxResetAll s
  | .hufPut cls tbl sym => Sys2Proof.Machine.execHufPut cls tbl sym s
  | .hufGet cls tbl => Sys2Proof.Machine.execHufGet cls tbl s
  | .hufCount cls tbl sym => Sys2Proof.Machine.execHufCount cls tbl sym s
  | .epStartParse => Sys2Proof.Machine.execEpStartParse s
  | .epStartWrite => Sys2Proof.Machine.execEpStartWrite s
  | .epStartMeasure => Sys2Proof.Machine.execEpStartMeasure s
  | .epStartMcuRow => Sys2Proof.Machine.execEpStartMcuRow s
  | .epParseMcu => Sys2Proof.Machine.execEpParseMcu s
  | .epWriteMcu => Sys2Proof.Machine.execEpWriteMcu s
  | .epFlush => Sys2Proof.Machine.execEpFlush s
  | .epRestart => Sys2Proof.Machine.execEpRestart s
  | .epWriteFrameType => Sys2Proof.Machine.execEpWriteFrameType s

end Sys2Proof.Machine
end

