-- ==== Sys2Proof/Machine/Fetch.lean ====
section
/-!
DEFINITION. What comes before the execution of a command: the host's next action (spec/40_control.md R205,
spec/70_reset_and_hazards.md R704, R713, R714), and the command word read (spec/60_exceptions.md R604, R606
steps 1 to 3).
-/
namespace Sys2Proof.Machine

/-! ### Command words -/

/-- The opcodes DEAD accepts (R604). -/
def acceptedInDead (op : BitVec 6) : Bool :=
  decide (op.toNat ≤ 0x03) || (decide (0x28 ≤ op.toNat) && decide (op.toNat ≤ 0x2A))

/-- The end of a word that is no command: ignored in DEAD unless its opcode is accepted there, and
IllegalCommand otherwise (R604, R606). -/
def State.illegal (s : State) (w : Word) : State :=
  if s.status.state = .dead ∧ acceptedInDead (opcode w) = false then s else s.raise .illegalCommand

/-- What the machine does next: nothing more, a host action it refuses, or the execution of a command. -/
inductive Fetched where
  | settled (s : State)
  | refused (r : Refusal)
  | run (i : Instr) (s : State)
  deriving DecidableEq, Repr

/-- `Exec(w)` up to the execution of the command (R205, R606). -/
def fetchWord (w : Word) (s : State) : Fetched :=
  match decode w with
  | .ok i => .run i s
  | .error _ => .settled (s.illegal w)

/-! ### The host's access to the ports (R704, R713, R714) -/

/-- The CORE has the stream open in a direction (R713, R714). In DEAD no command reads or writes before an open
(R604). -/
def State.opens (s : State) (d : Dir) (t : StreamSel) : Bool :=
  decide (s.status.state ≠ .dead) && decide (s.bc.dir = d) && decide (s.bc.stream = t)

/-- The CORE has the stream open for reading (R713). -/
def State.bound (s : State) (t : StreamSel) : Bool := s.opens .read t

/-- The CORE uses the stream it has open for reading, so that R713 bars the host from changing its input. R121 says
'open' and no direction; for a stream open for writing the model follows R713 and H-2, which name reading alone, and
lets the host change its input and position (DESIGN CHOICE; log entry 28). In
FLUSHED it does not, although the channel stays open (R397): R704 has the host supply the input and the
position of the next scan there (D52; log entry 22). -/
def State.reads (s : State) (t : StreamSel) : Bool :=
  s.bound t && decide (s.status.state ≠ .flushed)

/-- The CORE uses the stream it has open for writing, so that R714 does not let the host change its output. In
FLUSHED it does not, although the channel stays open (R397): the output is complete and the host takes it (R720,
H-8; log entry 22). -/
def State.writes (s : State) (t : StreamSel) : Bool :=
  s.opens .write t && decide (s.status.state ≠ .flushed)

/-- The CORE has the stream open and saw its end: what the host supplies is not seen before the stream is
opened again (R713, 93 #24; log entry 11). -/
def State.pastEnd (s : State) (t : StreamSel) : Bool := s.bound t && s.bc.eof

/-- The ports with the input side of a stream changed. -/
def State.setInput (s : State) (t : StreamSel) (inp : List Byte) (pos unseen : Nat) : State :=
  { s with ports :=
      s.ports.setStream t { s.ports.stream t with inp := inp, pos := pos, unseen := unseen } }

/-- The ports with a Huffman table installed (R704 step 2). -/
def Ports.install (p : Ports) (cls : HufClass) (tbl : Fin 4) (table : HufTable) : Ports :=
  match cls with
  | .dc => { p with dcTables := p.dcTables.set tbl table }
  | .ac => { p with acTables := p.acTables.set tbl table }

/-- Supply the whole input of a stream, to be read from its first byte (R179, R704 step 3). -/
def supplyInput (t : StreamSel) (bytes : List Byte) (s : State) : Fetched :=
  if s.reads t then .refused .hostStreamInUse
  else .settled (s.setInput t bytes 0 (if s.pastEnd t then bytes.length else 0))

/-- Append bytes to a stream. They come after everything the CORE has read, unless the CORE uses the stream
and has not yet seen its end; if it has, they are not seen before the stream is opened again (R713, 93 #24). -/
def appendInput (t : StreamSel) (bytes : List Byte) (s : State) : Fetched :=
  if s.reads t = true ∧ s.bc.eof = false then .refused .hostStreamInUse
  else .settled (s.setInput t ((s.ports.stream t).inp ++ bytes) (s.ports.stream t).pos
    (if s.pastEnd t then (s.ports.stream t).unseen + bytes.length else 0))

/-- Move the read position of a stream, within its input (R121). While a scan is parsed the host may do so
before EP_RESTART (R714 H-9), and in FLUSHED for the next scan (R704 step 3; log entry 22). -/
def seekInput (t : StreamSel) (pos : Nat) (s : State) : Fetched :=
  if s.reads t = true ∧ s.status.state ≠ .parse then .refused .hostStreamInUse
  else .settled (s.setInput t (s.ports.stream t).inp (min pos (s.ports.stream t).inp.length)
    (s.ports.stream t).unseen)

/-- Change the output of a stream: take what was written, or put the host's own bytes around it (R121, R714). -/
def setOutput (t : StreamSel) (bytes : List Byte) (s : State) : Fetched :=
  if s.writes t then .refused .hostStreamInUse
  else .settled { s with ports := s.ports.setStream t { s.ports.stream t with out := bytes } }

/-- Install a Huffman table (R133, R704, R714 H-3). -/
def installTable (cls : HufClass) (tbl : Fin 4) (table : HufTable) (s : State) : Fetched :=
  if hufTableOk table = false then .refused .hostTableIllFormed
  else if s.status.state.active then .refused .hostTableInUse
  else .settled { s with ports := s.ports.install cls tbl table }

/-- One action of the host. The statistics counters may be reset in every state, while a MEASURE scan runs too,
where H-4 says only 'before a MEASURE pass' (DESIGN CHOICE; log entry 27). -/
def perform (a : HostAction) (s : State) : Fetched :=
  match a with
  | .setOperand v => .settled { s with operand := v }
  | .exec w => fetchWord w s
  | .supplyIn t bytes => supplyInput t bytes s
  | .appendIn t bytes => appendInput t bytes s
  | .seekIn t pos => seekInput t pos s
  | .setOut t bytes => setOutput t bytes s
  | .installTable cls tbl table => installTable cls tbl table s
  | .clearCounts => .settled { s with ports := { s.ports with counts := [] } }
  | .supplyUnits c units =>
    .settled { s with ports := { s.ports with pending := s.ports.pending.set c units } }

/-- The next action of the host taken; with none left the CORE waits (R702). -/
def fetch (s : State) : Fetched :=
  match s.host with
  | [] => .settled s
  | a :: rest => perform a { s with host := rest }

end Sys2Proof.Machine
end

