-- ==== Sys2Proof/Machine/Step.lean ====
section
/-!
DEFINITION. One step: the host's next action, and the command it issues executed to its end (spec/20_memory.md
R141, spec/70_reset_and_hazards.md R702, R730).
-/
namespace Sys2Proof.Machine

/-- One step of the machine. -/
def step (s : State) : Host.Outcome State Fault Refusal :=
  match fetch s with
  | .settled t => .next t
  | .refused r => .refused r
  | .run i t => exec i t

/-- The state with the command of a row of spec/opcode_table.json as the host's next action (log entry 1). -/
def State.withFetchWord (s : State) (nbits w : Nat) : State :=
  { s with host := .exec (tableWord nbits w) :: s.host }

end Sys2Proof.Machine
end

