-- ==== Sys2Proof/Safety.lean ====
section
/-!
DEFINITION. What the claims call a sound state: the canonical forms of the data, and the invariants of the
scan protocol (spec/45_entropy_parser.md R413, spec/10_state.md R65, R66), the QM-coder (spec/42_qmcoder.md
R282, R286) and the BitChannel (spec/41_bitchannel.md R233, R237); and the terms the claims speak in: the bits
a channel still has, and what reading and writing leave unchanged.
-/
namespace Sys2Proof.Machine

/-! ### The form of the data -/

/-- A register word with no bit outside its mask (R43). -/
def within (v mask : Word) : Bool := decide (v &&& mask = v)

/-- Every reserved bit of the RW-config registers is 0 (R43, R203). -/
def CfgRegs.masked (c : CfgRegs) : Bool :=
  within c.scanCtrl 0x000007FF && within c.scanBand 0x0F0F3F3F && within c.scanNcomp 0x00000007 &&
  within c.restartInterval 0x0000FFFF && within c.mcuMap 0x00FFFFFF &&
  within c.frameHeight 0x0000FFFF && c.compCfg.toList.all (within · 0x000003FF)

/-- The bank is in its canonical form and lists valid addresses only (R80, R321). -/
def bankOk (m : List (Nat × CtxCell)) : Bool :=
  sparseWf cellReset m && m.all fun e => ctxValid e.1

/-- The counters are in their canonical form and belong to a class, a table and a symbol (R134). -/
def countsOk (m : List (Nat × Nat)) : Bool :=
  sparseWf countReset m && m.all fun e => decide (e.1 < 2048)

/-- The read position lies within the input (R121), and so do the bytes not seen (R713). -/
def Stream.ok (t : Stream) : Bool :=
  decide (t.pos ≤ t.inp.length) && decide (t.unseen ≤ t.inp.length)

/-- The ports' data: read positions, counters, and tables the host may install (R121, R133). -/
def Ports.ok (p : Ports) : Bool :=
  p.primary.ok && p.aux.ok && countsOk p.counts &&
  p.dcTables.toList.all hufTableOk && p.acTables.toList.all hufTableOk

/-- The form of the data of a state. -/
def State.formOk (s : State) : Bool := s.cfg.masked && bankOk s.ctx && s.ports.ok

/-! ### The scan protocol (R48, R50, R52, R380, R413) -/

/-- STATUS.ERR is set exactly in DEAD, and never to InvalidRestartMarker (R48, R603, R608). -/
def Status.errOk (t : Status) : Bool :=
  (decide (t.state = .dead) == decide (t.err ≠ .none)) && decide (t.err ≠ .invalidRestartMarker)

/-- RST_WARN says whether RST_ERRCNT has counted (R52). -/
def Status.warnOk (t : Status) : Bool := t.rstWarn == decide (t.rstErrCnt ≠ 0)

/-- A row is active only in a scan, and then it is not full (R413); DEAD keeps the flag (R607). -/
def State.rowOk (s : State) : Bool :=
  decide (s.status.state = .dead) || !s.status.rowActive ||
    (s.status.state.active && decide (s.scan.mcuInRow.toNat < s.cfg.mcusPerRow))

/-- In a scan the configuration is valid, MCUS_TO_GO lies within the interval (R413), and the segment is
valid where no restart can be read (R50, R406). -/
def State.scanOk (s : State) : Bool :=
  !s.status.state.active ||
    (s.cfg.valid && decide (s.scan.mcusToGo.toNat ≤ s.cfg.effRI) &&
      (s.status.segValid || (decide (s.status.state = .parse) && !s.cfg.kind.isResidual)))

/-- In a scan the predictors its kind does not use are 0: PRED_DC is of SEQ_HUFF, SEQ_AC and RESIDUAL_SEQ, and
PRED_DIFF of SEQ_AC and RESIDUAL_AC (R65, R66). -/
def State.predOk (s : State) : Bool :=
  !s.status.state.active ||
    ((decide (s.cfg.kind = .seqHuff ∨ s.cfg.kind = .seqAc ∨ s.cfg.kind = .residualSeq) ||
        decide (s.scan.predDc = #v[0, 0, 0, 0])) &&
      (decide (s.cfg.kind = .seqAc ∨ s.cfg.kind = .residualAc) ||
        decide (s.scan.predDiff = #v[0, 0, 0, 0])))

/-- The invariants of the scan protocol. -/
def State.protocolOk (s : State) : Bool :=
  s.status.errOk && s.status.warnOk && s.rowOk && s.scanOk && s.predOk

/-! ### The QM-coder (R282, R286) -/

/-- The encoder's registers between commands (R282). The code register with the interval, brought to the
place of the next byte, stays within 2^27 before the first byte, and within the spacer bits above a pending
byte after it; a pending byte is not 0xFF. R282 also says that BV = 0 only before the first ByteOut; R279's
pseudocode leaves BV = 0 while the code's first bytes are 0xFF, and the model follows it, so that sentence is
no part of this invariant (DEDUCED; log entry 23). -/
def QmRegs.encOk (q : QmRegs) : Bool :=
  decide (0x8000 ≤ q.a.toNat) && decide (q.a.toNat ≤ 0x10000) &&
  decide (1 ≤ q.ct.toNat) && decide (q.ct.toNat ≤ 11) &&
  decide ((q.c.toNat + q.a.toNat) * 2 ^ q.ct.toNat ≤ 2 ^ 27 + (if q.bv then 2 ^ 24 else 0)) &&
  (!q.bv || decide (q.b.toNat ≤ 0xFE))

/-- The decoder's registers between commands (R286). The bits of C below the byte not yet shifted in are
0. -/
def QmRegs.decOk (q : QmRegs) : Bool :=
  decide (0x8000 ≤ q.a.toNat) && decide (q.a.toNat ≤ 0x10000) &&
  decide (q.c.toNat / 2 ^ 16 < q.a.toNat) && decide (q.ct.toNat ≤ 7) &&
  decide (q.c.toNat % 2 ^ (16 - q.ct.toNat) = 0) &&
  decide (q.st = 0) && decide (q.b = 0) && !q.bv && decide (q.z = 0)

/-- The QM registers meet the invariant of their mode (R282, R286). -/
def QmRegs.ok (q : QmRegs) : Bool :=
  match q.qmode with
  | .closed => true
  | .encoding => q.encOk
  | .decoding => q.decOk

/-- The mode a scan of a QM kind is in (R386). -/
def State.modeOk (s : State) : Bool :=
  match s.status.state with
  | .write => !s.cfg.kind.isQm || decide (s.qm.qmode = .encoding)
  | .parse => !s.cfg.kind.isQm || decide (s.qm.qmode = .decoding)
  | .idle | .measure | .flushed | .dead => true

/-- The invariants of the QM-coder. In DEAD its registers are any value (R607). -/
def State.coderOk (s : State) : Bool :=
  decide (s.status.state = .dead) || (s.qm.ok && s.modeOk)

/-! ### The BitChannel (R233, R237) -/

/-- The read side between commands: BC_RBUF holds CNT bits. R233 says CNT ≤ 7; the Fill of BC_SKIPSTUFFING
and of EP_START_MCU_ROW can leave 8 (log entry 12). -/
def BitChan.readOk (b : BitChan) : Bool :=
  decide (b.cnt.toNat ≤ 8) && decide (b.rbuf.toNat < 2 ^ b.cnt.toNat)

/-- How many bits the byte being written holds: 8, or 7 after a 0xFF in bit mode (R235, R236). -/
def BitChan.room (b : BitChan) : Nat := if b.mode = .bit ∧ b.lastFF = true then 7 else 8

/-- The write side between commands (R237). -/
def BitChan.writeOk (b : BitChan) : Bool :=
  decide (1 ≤ b.free.toNat) && decide (b.free.toNat ≤ b.room) &&
  decide (b.wacc.toNat < 2 ^ (b.room - b.free.toNat))

/-- The channel's registers meet the invariant of their direction. -/
def BitChan.ok (b : BitChan) : Bool :=
  match b.dir with
  | .closed => true
  | .read => b.readOk
  | .write => b.writeOk

/-- The direction a scan's channel has (R386). -/
def State.dirOk (s : State) : Bool :=
  match s.status.state with
  | .write => decide (s.bc.dir = .write) && decide (s.bc.stream = s.cfg.streamSel)
  | .parse => decide (s.bc.dir = .read) && decide (s.bc.stream = s.cfg.streamSel)
  | .measure => decide (s.bc.dir = .closed)
  | .idle | .flushed | .dead => true

/-- The invariants of the BitChannel. In DEAD its registers are any value (R607). -/
def State.channelOk (s : State) : Bool :=
  decide (s.status.state = .dead) || (s.bc.ok && s.dirOk)

/-! ### Runs and counts (R464, R505, R553) -/

/-- EOBRUN stays at most 0x7FFE between commands, BE leaves room for the bits of one more unit (R464, R505),
BE is empty without a run and while parsing (R462, R506), and the bias counts are at most 64 (R553). -/
def State.runOk (s : State) : Bool :=
  decide (s.status.state = .dead) ||
    (decide (s.scan.eobrun.toNat ≤ 0x7FFE) &&
      decide (s.scan.be.length ≤ Config.corrBitsMax - 63) &&
      (decide (s.scan.eobrun ≠ 0 ∧ s.status.state ≠ .parse) || s.scan.be.isEmpty) &&
      s.scan.biasN.toList.all fun n => decide (n.toNat ≤ 64))

/-! ### Sound states -/

/-- A sound state: every invariant holds. -/
abbrev State.sound (s : State) : Prop :=
  s.formOk = true ∧ s.protocolOk = true ∧ s.coderOk = true ∧ s.channelOk = true ∧ s.runOk = true

/-! ### The bits of a stream (R224, R226, R227) -/

/-- The value of bits, most significant first. -/
def bitsVal (bits : List Bool) : Nat := bits.foldl (fun v b => 2 * v + b.toNat) 0

/-- A byte after a 0xFF makes the pair stuffed data and no marker (R224). -/
def stuffedAfterFF (mode : Stuff) (c : Byte) : Bool :=
  match mode with
  | .byte => decide (c = 0x00)
  | .bit => decide (c.toNat < 0x80)

/-- The data bits of unread bytes, up to the first marker or the end. `ff` says that the byte before them was
a data 0xFF: in bit mode the next byte then gives 7 bits (R224, R226). -/
def dataBits (mode : Stuff) : Bool → List Byte → List Bool
  | _, [] => []
  | ff, b :: rest =>
    if b = 0xFF then
      match rest with
      | [] => []
      | c :: rest' =>
        if stuffedAfterFF mode c then
          match mode with
          | .byte => bitsOf 8 0xFF ++ dataBits mode true rest'
          | .bit => bitsOf 8 0xFF ++ dataBits mode true (c :: rest')
        else []
    else if mode = .bit ∧ ff = true then bitsOf 7 b.toNat ++ dataBits mode false rest
    else bitsOf 8 b.toNat ++ dataBits mode false rest

/-- The data bits of unread bytes end at a marker, and not at the end of the data (R224, R227). -/
def endsAtMarker (mode : Stuff) : List Byte → Bool
  | [] => false
  | b :: rest =>
    if b = 0xFF then
      match rest with
      | [] => false
      | c :: rest' =>
        if stuffedAfterFF mode c then
          match mode with
          | .byte => endsAtMarker mode rest'
          | .bit => endsAtMarker mode (c :: rest')
        else true
    else endsAtMarker mode rest

/-- The bits a read channel still has: those buffered, and those of the unread bytes unless a marker or the
end was met (R226, R228). -/
def Chan.bits (k : Chan) : List Bool :=
  bitsOf k.bc.cnt.toNat k.bc.rbuf.toNat ++
    if k.bc.marker = true ∨ k.bc.eof = true then []
    else dataBits k.bc.mode k.bc.lastFF (k.st.seen.drop k.st.pos)

/-- What stops a read that needs more than `Chan.bits`: a marker (`true`) or the end of the data (R228). -/
def Chan.stopsAtMarker (k : Chan) : Bool :=
  k.bc.marker || (!k.bc.eof && endsAtMarker k.bc.mode (k.st.seen.drop k.st.pos))

/-- The value of the next `n` bits, zeros past the last (R232). -/
def Chan.nextZ (k : Chan) (n : Nat) : Nat :=
  bitsVal ((k.bits ++ List.replicate n false).take n)

/-! ### What reading and writing leave unchanged -/

/-- A read of a channel: its input and output as they were, the position only forward, the binding and the
write side as they were, and the buffer within its invariant. -/
structure Chan.ReadOnly (k k' : Chan) : Prop where
  inp : k'.st.inp = k.st.inp
  unseen : k'.st.unseen = k.st.unseen
  out : k'.st.out = k.st.out
  pos : k.st.pos ≤ k'.st.pos
  dir : k'.bc.dir = k.bc.dir
  mode : k'.bc.mode = k.bc.mode
  stream : k'.bc.stream = k.bc.stream
  free : k'.bc.free = k.bc.free
  wacc : k'.bc.wacc = k.bc.wacc
  buffer : k'.bc.readOk = true

/-- A write to a channel: its input side and its read buffer as they were, bytes only appended to the output,
the binding as it was, and the write side within its invariant. -/
structure Chan.WriteOnly (k k' : Chan) : Prop where
  inp : k'.st.inp = k.st.inp
  unseen : k'.st.unseen = k.st.unseen
  pos : k'.st.pos = k.st.pos
  out : k.st.out <+: k'.st.out
  dir : k'.bc.dir = k.bc.dir
  mode : k'.bc.mode = k.bc.mode
  stream : k'.bc.stream = k.bc.stream
  rbuf : k'.bc.rbuf = k.bc.rbuf
  cnt : k'.bc.cnt = k.bc.cnt
  marker : k'.bc.marker = k.bc.marker
  eof : k'.bc.eof = k.bc.eof
  room : k'.bc.writeOk = true

/-- A state in which direct commands run: IDLE or FLUSHED (R604, R605). -/
abbrev State.quiet (s : State) : Prop := s.status.state = .idle ∨ s.status.state = .flushed

/-- An MCU may be coded without a restart before it (R392–R394). -/
abbrev State.midSegment (s : State) : Prop :=
  s.status.rowActive = true ∧ s.scan.mcuInRow.toNat < s.cfg.mcusPerRow ∧
    (s.cfg.effRI = 0 ∨ s.scan.mcusToGo ≠ 0)

/-- The units handed over for the components of an MCU, in order, and the state of the port after them
(R128, R394). -/
def State.requests : List (Fin 4) → State → List (Fin 4 × Block) × State
  | [], s => ([], s)
  | c :: cs, s =>
    ((c, (s.request c).1) :: (State.requests cs (s.request c).2).1,
      (State.requests cs (s.request c).2).2)

/-- The units of the next MCU (R394). -/
def State.mcuBlocks (s : State) : List (Fin 4 × Block) := (State.requests s.cfg.mcuUnits s).1

/-- The port, and the count of draws, after an MCU whose units were handed back as `f` made them (R128,
R394). -/
def State.afterUnits (s : State) (f : Block → Block) : State :=
  let t := (State.requests s.cfg.mcuUnits s).2
  { s with
    draws := t.draws
    ports := { s.ports with
      pending := t.ports.pending
      current := none
      released := s.ports.released ++ s.mcuBlocks.map fun p => (p.1, f p.2) } }

/-- The counters after an MCU in the middle of a segment: MCUS_TO_GO, then MCU_IN_ROW, RESULT and ROW_ACTIVE
(R392–R395). -/
def State.afterMcu (s : State) : State :=
  let t := if s.cfg.effRI = 0 then s else s.countMcu
  let n := s.scan.mcuInRow.toNat + 1
  { t with
    result := if n < s.cfg.mcusPerRow then 1 else 0
    scan := { t.scan with mcuInRow := BitVec.ofNat 16 n }
    status := { s.status with rowActive := decide (n < s.cfg.mcusPerRow) } }

/-- An outcome that is no fault. -/
def safeOutcome : Host.Outcome State Fault Refusal → Bool
  | .next _ => true
  | .refused _ => true
  | .fault _ => false

end Sys2Proof.Machine
end

