-- ==== Sys2Proof/Certificates/Slice0/Obligations.lean ====
section
/-!
DEFINITION. The statements for the provers, each a proposition about the model: encodings, the shell every
command runs in, one or more statements for every command, and the invariants of the whole machine. The
docstrings name the rules of spec/ they rest on.
-/
open Sys2Proof Sys2Proof.Machine

/-! ### Encodings -/

/-- Words written out from the formats of R161–R169 and the rows of R171, a few of every section. -/
def Obligations.SampleWordsDecode : Prop :=
  decode 0x04000000 = .ok .coreReset ∧
  decode 0x08000012 = .ok (.cfgWrite .frameHeight) ∧
  decode 0x0C00002F = .ok (.cfgRead (.biasN 3)) ∧
  decode 0x24000003 = .ok (.bcOpenWrite .bit .aux) ∧
  decode 0x28000020 = .ok (.bcGetBits 32) ∧
  decode 0x48050001 = .ok (.qmEncode 0x500 true) ∧
  decode 0x50000001 = .ok (.qmFlush true) ∧
  decode 0x6000051D = .ok (.ctxInit 5 14 true) ∧
  decode 0x64050000 = .ok (.ctxRead 0x500) ∧
  decode 0x880005F0 = .ok (.hufCount .ac 1 0xF0) ∧
  decode 0x84000700 = .ok (.hufGet .ac 3) ∧
  decode 0xB0000000 = .ok .epParseMcu ∧
  decode 0xC0000000 = .ok .epWriteFrameType

/-- Decoding and encoding agree: decoding the word of a well-formed command gives the command back (R160–R172),
and a word that decodes is the one word of its command, which is well-formed (R172, R174). -/
def Obligations.EncodingsAreOneToOne : Prop :=
  (∀ i : Instr, WellFormed i → decode (encode i) = .ok i) ∧
  ∀ (w : Word) (i : Instr), decode w = .ok i → encode i = w ∧ WellFormed i

/-- R173: a word whose opcode is in its list raises IllegalCommand and has no other effect, and is ignored in
DEAD. -/
def Obligations.ReservedOpcodesRaise : Prop :=
  ∀ (w : Word) (rest : List HostAction) (s : State),
    (opcode w).toNat ∈ List.range' 0x04 4 ++ List.range' 0x15 3 ++ List.range' 0x1B 5 ++
      List.range' 0x23 5 ++ List.range' 0x31 15 →
    (s.status.state ≠ .dead →
      step { s with host := .exec w :: rest } =
        .next { s with host := rest, status := { s.status with state := .dead, err := .illegalCommand } }) ∧
    (s.status.state = .dead →
      step { s with host := .exec w :: rest } = .next { s with host := rest })

/-- The assigned opcodes with the bits that must be 0 (R171): OPC, and the must-be-zero bits. -/
def mustBeZero : List (Nat × Word) :=
  [(0x00, 0x03FFFFFF), (0x01, 0x03FFFFFF), (0x02, 0x03FFFF00), (0x03, 0x03FFFF00),
   (0x08, 0x03FFFFFC), (0x09, 0x03FFFFFC), (0x0A, 0x03FFFFC0), (0x0B, 0x03FFFFC0),
   (0x0C, 0x03FFFFFF), (0x0D, 0x03FFFFFF), (0x0E, 0x03FFFFFF), (0x0F, 0x03FFFFFF),
   (0x10, 0x03FFFFFF), (0x11, 0x03FFFFFF), (0x12, 0x03F800FE), (0x13, 0x03F800FF),
   (0x14, 0x03FFFFFE), (0x18, 0x03F80000), (0x19, 0x03F800FF), (0x1A, 0x03FFFFFF),
   (0x20, 0x03FFF800), (0x21, 0x03FFF8FF), (0x22, 0x03FFF800)] ++
  (List.range' 0x28 9).map fun op => (op, 0x03FFFFFF)

/-- The register numbers R84 assigns. -/
def assignedNumbers : List Nat :=
  List.range' 0x00 0x13 ++ List.range' 0x20 0x14 ++ List.range' 0x40 5 ++ [0x48, 0x49]

/-- The faults of R174 in a word: a must-be-zero bit that is 1, a bit count outside 1 to 32, an unassigned
register. -/
abbrev malformed (w : Word) : Prop :=
  (∃ e ∈ mustBeZero, (opcode w).toNat = e.1 ∧ w &&& e.2 ≠ 0) ∨
  (((opcode w).toNat = 0x0A ∨ (opcode w).toNat = 0x0B) ∧
    (w.toNat % 64 = 0 ∨ 32 < w.toNat % 64)) ∨
  (((opcode w).toNat = 0x02 ∨ (opcode w).toNat = 0x03) ∧ w.toNat % 256 ∉ assignedNumbers)

/-- R174, with the DEAD gate of R604: a word with an assigned opcode and one of those faults raises
IllegalCommand and has no other effect; in DEAD only if its opcode is accepted there, and otherwise it is
ignored. A word with none of them decodes. -/
def Obligations.MalformedWordsRaise : Prop :=
  ∀ (w : Word) (rest : List HostAction) (s : State),
    (∃ e ∈ mustBeZero, (opcode w).toNat = e.1) →
    (malformed w →
      (s.status.state ≠ .dead ∨
          (opcode w).toNat ∈ [0x00, 0x01, 0x02, 0x03, 0x28, 0x29, 0x2A] →
        step { s with host := .exec w :: rest } =
          .next { s with
            host := rest, status := { s.status with state := .dead, err := .illegalCommand } }) ∧
      (s.status.state = .dead ∧
          (opcode w).toNat ∉ [0x00, 0x01, 0x02, 0x03, 0x28, 0x29, 0x2A] →
        step { s with host := .exec w :: rest } = .next { s with host := rest })) ∧
    (¬ malformed w → ∃ i, decode w = .ok i)

/-! ### The step and the host's actions -/

/-- A step whose host action is a command word runs the command the word decodes to, and nothing around it
but the action taken from the host's list (R41, R205, R730). -/
def Obligations.StepRunsDecodedInstruction : Prop :=
  ∀ (w : Word) (i : Instr) (rest : List HostAction) (s : State),
    decode w = .ok i →
    step { s with host := .exec w :: rest } = exec i { s with host := rest }

/-- A write of OPERAND changes only OPERAND, in every state (R205). That an empty list of the host's changes
nothing (R702), and that the host acts by a list at all, is the model's form (log entry 1). The host's other
actions reach the ports and nothing else (R121, R704): no register, no unit handed over or back, and no byte
already written but by the one that changes the output of a stream. That one leaves the bytes the host says on
any stream the CORE does not have open for writing (R714), in DEAD and in FLUSHED on that one too (R604, R720;
log entry 22), and is refused otherwise (log entry 10). Bytes appended to a stream that is open for reading with
its end seen join the input, and the CORE sees no more of it than before (R713; log entry 11). In FLUSHED the
host may replace the input of every stream and move its position, the open one's too (R704; log entry 22). -/
def Obligations.HostActions : Prop :=
  (∀ (s : State) (v : Word) (rest : List HostAction),
    step { s with host := .setOperand v :: rest } = .next { s with host := rest, operand := v } ∧
    step { s with host := [] } = .next { s with host := [] }) ∧
  (∀ (a : HostAction) (rest : List HostAction) (s t : State),
    (∀ w, a ≠ .exec w) → (∀ v, a ≠ .setOperand v) →
    step { s with host := a :: rest } = .next t →
    t = { s with host := rest, ports := t.ports } ∧
    ((∀ sel bytes, a ≠ .setOut sel bytes) →
      t.ports.primary.out = s.ports.primary.out ∧ t.ports.aux.out = s.ports.aux.out) ∧
    t.ports.current = s.ports.current ∧ t.ports.released = s.ports.released) ∧
  (∀ (sel : StreamSel) (bytes : List Byte) (rest : List HostAction) (s : State),
    (s.status.state = .dead ∨ s.status.state = .flushed ∨ s.bc.dir ≠ .write ∨ s.bc.stream ≠ sel →
      step { s with host := .setOut sel bytes :: rest } =
        .next { s with
          host := rest
          ports := s.ports.setStream sel { s.ports.stream sel with out := bytes } }) ∧
    (s.status.state ≠ .dead → s.status.state ≠ .flushed → s.bc.dir = .write → s.bc.stream = sel →
      step { s with host := .setOut sel bytes :: rest } = .refused .hostStreamInUse)) ∧
  (∀ (sel : StreamSel) (bytes : List Byte) (rest : List HostAction) (s : State),
    s.status.state ≠ .dead → s.bc.dir = .read → s.bc.stream = sel → s.bc.eof = true →
    ∃ t, step { s with host := .appendIn sel bytes :: rest } = .next t ∧
      (t.ports.stream sel).inp = (s.ports.stream sel).inp ++ bytes ∧
      (t.ports.stream sel).seen = (s.ports.stream sel).seen ∧
      (t.ports.stream sel).pos = (s.ports.stream sel).pos) ∧
  (∀ (sel : StreamSel) (bytes : List Byte) (pos : Nat) (rest : List HostAction) (s : State),
    s.status.state = .flushed →
    (∃ t, step { s with host := .supplyIn sel bytes :: rest } = .next t ∧
      (t.ports.stream sel).inp = bytes ∧ (t.ports.stream sel).pos = 0) ∧
    (∃ t, step { s with host := .seekIn sel pos :: rest } = .next t ∧
      (t.ports.stream sel).inp = (s.ports.stream sel).inp ∧
      (t.ports.stream sel).pos = min pos (s.ports.stream sel).inp.length))

/-! ### Errors and the check order -/

/-- The commands DEAD accepts (R604). -/
def acceptedCommand : Instr → Bool
  | .nop | .coreReset | .cfgWrite _ | .cfgRead _ => true
  | .epStartParse | .epStartWrite | .epStartMeasure => true
  | .bcOpenRead _ _ | .bcOpenWrite _ _ | .bcGetBits _ | .bcPutBits _ | .bcFlush | .bcSkipStuffing
  | .bcFindMarker | .bcGetByteZ | .qmInitEnc | .qmInitDec | .qmEncode _ _ | .qmDecode _ | .qmFlush _
  | .ctxInit _ _ _ | .ctxRead _ | .ctxResetAll | .hufPut _ _ _ | .hufGet _ _ | .hufCount _ _ _
  | .epStartMcuRow | .epParseMcu | .epWriteMcu | .epFlush | .epRestart | .epWriteFrameType => false

/-- The direct commands (R605). -/
def directCommand : Instr → Bool
  | .bcOpenRead _ _ | .bcOpenWrite _ _ | .bcGetBits _ | .bcPutBits _ | .bcFlush | .bcSkipStuffing
  | .bcFindMarker | .bcGetByteZ | .qmInitEnc | .qmInitDec | .qmEncode _ _ | .qmDecode _ | .qmFlush _
  | .ctxInit _ _ _ | .ctxResetAll | .hufPut _ _ _ | .hufGet _ _ | .hufCount _ _ _ => true
  | .nop | .coreReset | .cfgWrite _ | .cfgRead _ | .ctxRead _
  | .epStartParse | .epStartWrite | .epStartMeasure
  | .epStartMcuRow | .epParseMcu | .epWriteMcu | .epFlush | .epRestart | .epWriteFrameType => false

/-- R604: in DEAD a command that is not accepted changes nothing, and only CORE_RESET and the starts leave
DEAD. CTX_READ is ignored in DEAD like the others, against R605's 'allowed in every state': R604's list does
not hold it and R606 runs the DEAD gate first, which is the model's reading (DEDUCED; log entry 14). R605: a
direct command in PARSE, WRITE or MEASURE raises ContractViolation and changes nothing else. -/
def Obligations.StateGates : Prop :=
  ∀ (i : Instr) (s : State), WellFormed i →
    (s.status.state = .dead → acceptedCommand i = false → exec i s = .next s) ∧
    (s.status.state = .dead → ∀ t, exec i s = .next t → t.status.state ≠ .dead →
      i = .coreReset ∨ i = .epStartParse ∨ i = .epStartWrite ∨ i = .epStartMeasure) ∧
    (s.status.state = .parse ∨ s.status.state = .write ∨ s.status.state = .measure →
      directCommand i = true →
      exec i s =
        .next { s with status := { s.status with state := .dead, err := .contractViolation } })

/-- The refusals of the channel's and the coder's commands (R221, R602): the wrong direction, the wrong QM
mode, an address that names no context, an index above 113; and those of the parser's commands (R388, R390,
R391, R394, R397, R398, R410, R610). -/
def Obligations.CommandsOwnChecks : Prop :=
  ∀ (s : State), s.status.state ≠ .dead →
    (s.bc.dir ≠ .read →
      ∀ i ∈ [Instr.bcSkipStuffing, .bcFindMarker, .bcGetByteZ, .qmInitDec],
        exec i s = .next (s.raise .contractViolation)) ∧
    (s.bc.dir ≠ .read → ∀ n, bitCountOk n = true →
      exec (.bcGetBits n) s = .next (s.raise .contractViolation)) ∧
    (s.bc.dir ≠ .read → ∀ cls tbl, exec (.hufGet cls tbl) s = .next (s.raise .contractViolation)) ∧
    (s.bc.dir ≠ .write → ∀ i ∈ [Instr.bcFlush, .qmInitEnc],
      exec i s = .next (s.raise .contractViolation)) ∧
    (s.bc.dir ≠ .write → ∀ n, bitCountOk n = true →
      exec (.bcPutBits n) s = .next (s.raise .contractViolation)) ∧
    (s.bc.dir ≠ .write → ∀ cls tbl sym,
      exec (.hufPut cls tbl sym) s = .next (s.raise .contractViolation)) ∧
    (∀ ctx d, ctxValid ctx.toNat = false ∨ s.qm.qmode ≠ .encoding ∨ s.bc.dir ≠ .write →
      exec (.qmEncode ctx d) s = .next (s.raise .contractViolation)) ∧
    (∀ ctx, ctxValid ctx.toNat = false ∨ s.qm.qmode ≠ .decoding ∨ s.bc.dir ≠ .read →
      exec (.qmDecode ctx) s = .next (s.raise .contractViolation)) ∧
    (∀ final, s.qm.qmode ≠ .encoding ∨ s.bc.dir ≠ .write →
      exec (.qmFlush final) s = .next (s.raise .contractViolation)) ∧
    (∀ ctx index mps, ctxValid ctx.toNat = false ∨ 113 < index.toNat →
      exec (.ctxInit ctx index mps) s = .next (s.raise .contractViolation)) ∧
    (∀ ctx, ctxValid ctx.toNat = false →
      exec (.ctxRead ctx) s = .next (s.raise .contractViolation)) ∧
    (s.status.state.active = false ∨ s.status.rowActive = true →
      exec .epStartMcuRow s = .next (s.raise .contractViolation)) ∧
    (s.status.state ≠ .parse ∨ s.status.rowActive = false →
      exec .epParseMcu s = .next (s.raise .contractViolation)) ∧
    ((s.status.state ≠ .write ∧ s.status.state ≠ .measure) ∨ s.status.rowActive = false →
      exec .epWriteMcu s = .next (s.raise .contractViolation)) ∧
    (s.status.state.active = false → exec .epFlush s = .next (s.raise .contractViolation)) ∧
    (s.status.state.active = false ∨ s.cfg.kind.isResidual = true →
      exec .epRestart s = .next (s.raise .contractViolation)) ∧
    (s.status.state.active = true →
      exec .epWriteFrameType s = .next (s.raise .contractViolation))

/-- Which errors a command can end with (R602): what a command of the parser can raise while it runs, and
ContractViolation for whatever its own checks refuse. -/
def mayRaise : Instr → List Err
  | .nop | .coreReset | .cfgRead _ => []
  | .bcGetBits _ =>
    [.contractViolation, .illegalCommand, .unexpectedMarker, .unexpectedEndOfStream]
  | .bcPutBits _ => [.contractViolation, .illegalCommand]
  | .hufGet _ _ =>
    [.contractViolation, .malformedStream, .unexpectedMarker, .unexpectedEndOfStream]
  | .epStartMcuRow => [.contractViolation, .malformedStream, .unexpectedEndOfStream]
  | .epParseMcu =>
    [.contractViolation, .malformedStream, .unexpectedMarker, .unexpectedEndOfStream]
  | .epWriteMcu => [.contractViolation, .inputRange]
  | .cfgWrite _ | .bcOpenRead _ _ | .bcOpenWrite _ _ | .bcFlush | .bcSkipStuffing | .bcFindMarker
  | .bcGetByteZ | .qmInitEnc | .qmInitDec | .qmEncode _ _ | .qmDecode _ | .qmFlush _
  | .ctxInit _ _ _ | .ctxRead _ | .ctxResetAll | .hufPut _ _ _ | .hufCount _ _ _
  | .epStartParse | .epStartWrite | .epStartMeasure | .epFlush | .epRestart
  | .epWriteFrameType => [.contractViolation]

/-- R602 and R279: from a sound state a command ends in an error only of its row, and Internal, the
assertion, is in no row. -/
def Obligations.CommandsRaiseOnlyTheirErrors : Prop :=
  ∀ (i : Instr) (s t : State), s.sound → s.status.state ≠ .dead → exec i s = .next t →
    t.status.state = .dead → t.status.err ∈ mayRaise i

/-! ### Control commands -/

/-- In every state, scans and DEAD included: NOP changes nothing (R201); CORE_RESET gives all of R85 its reset
value of R701 and leaves the ports (R202); CFG_READ writes the register's word to RESULT and changes nothing
else (R204). -/
def Obligations.ControlCommands : Prop :=
  ∀ s : State,
    exec .nop s = .next s ∧
    exec .coreReset s =
      .next { State.reset with host := s.host, ports := s.ports, draws := s.draws } ∧
    ∀ r : Reg, exec (.cfgRead r) s = .next { s with result := s.reg r }

/-- The register words, the bank and the hidden state after reset (R701). -/
def Obligations.ResetValues : Prop :=
  (∀ r : Reg, State.reset.reg r =
    match r with
    | .id => 0x514D4543
    | .status => 0x00000200
    | .compCfg _ => 0x00000050
    | .compCond _ => 0x00020000
    | .bcCtrl => 0x00080000
    | .result | .operand | .scanCtrl | .scanBand | .scanNcomp | .restartInterval | .mcuGeom | .mcuMap
    | .frameHeight | .predDc _ | .predDiff _ | .biasB _ | .biasN _ | .rstState | .rowState | .eobrun
    | .corrCount | .qmA | .qmC | .qmCtrl | .qmSt | .qmZ | .bcRbuf => 0) ∧
  (∀ a, State.reset.cell a = { index := if a = 1280 then 113 else 0, mps := false, used := false }) ∧
  State.reset.scan.be = [] ∧ State.reset.scan.eobTbl = 0

/-- The writable masks of R203; no mask for a register that is not RW-config. -/
def maskOf : Reg → Option Word
  | .scanCtrl => some 0x000007FF
  | .scanBand => some 0x0F0F3F3F
  | .scanNcomp => some 0x00000007
  | .restartInterval => some 0x0000FFFF
  | .mcuGeom => some 0xFFFFFFFF
  | .mcuMap => some 0x00FFFFFF
  | .compCfg _ => some 0x000003FF
  | .compCond _ => some 0xFFFFFFFF
  | .frameHeight => some 0x0000FFFF
  | .id | .status | .result | .operand | .predDc _ | .predDiff _ | .biasB _ | .biasN _
  | .rstState | .rowState | .eobrun | .corrCount
  | .qmA | .qmC | .qmCtrl | .qmSt | .qmZ | .bcRbuf | .bcCtrl => none

/-- CFG_WRITE outside a scan: the register reads OPERAND under its mask, every other register reads as
before, and nothing but the configuration changes. In a scan, or of a register that is not RW-config, it
raises ContractViolation and every configuration register stays as it was (R203, R44). -/
def Obligations.CfgWriteStoresMaskedOperand : Prop :=
  ∀ (s : State) (r : Reg),
    (∀ m, maskOf r = some m → s.status.state.active = false →
      ∃ t, exec (.cfgWrite r) s = .next t ∧ t.reg r = s.operand &&& m ∧
        (∀ q : Reg, q ≠ r → t.reg q = s.reg q) ∧ t = { s with cfg := t.cfg }) ∧
    (s.status.state = .parse ∨ s.status.state = .write ∨ s.status.state = .measure ∨
        maskOf r = none →
      exec (.cfgWrite r) s =
        .next { s with status := { s.status with state := .dead, err := .contractViolation } })

/-- The words of the registers with fields: STATUS (R46, R47, R601), RST_STATE (R69), ROW_STATE (R70), EOBRUN (R71),
CORR_COUNT (R72), QM_A, QM_CTRL (R73, R75), BC_CTRL (R79), each as the sum of its fields at their places; and
the codes of the fields that name a state, an error, a mode, a direction, a stuffing or a stream. -/
def Obligations.RegisterWordsOfFields : Prop :=
  ∀ s : State,
    (s.reg .status).toNat = s.status.state.code.toNat + 2 ^ 4 * s.status.err.code.toNat +
      2 ^ 8 * s.status.rowActive.toNat + 2 ^ 9 * s.status.segValid.toNat +
      2 ^ 10 * s.status.dnlFound.toNat + 2 ^ 11 * s.status.rstWarn.toNat +
      2 ^ 16 * s.status.rstErrCnt.toNat ∧
    [ScanState.idle, .parse, .write, .measure, .flushed, .dead].map ScanState.code =
      [0, 1, 2, 3, 4, 5] ∧
    [Err.none, .unexpectedEndOfStream, .unexpectedMarker, .malformedStream, .invalidRestartMarker,
      .contractViolation, .illegalCommand, .inputRange, .internal].map Err.code =
      [0, 1, 2, 3, 4, 5, 6, 7, 8] ∧
    [QMode.closed, .encoding, .decoding].map QMode.code = [0, 1, 2] ∧
    [Dir.closed, .read, .write].map Dir.code = [0, 1, 2] ∧
    [Stuff.byte, .bit].map Stuff.toBool = [false, true] ∧
    [StreamSel.primary, .aux].map StreamSel.toBool = [false, true] ∧
    (s.reg .rstState).toNat = s.scan.mcusToGo.toNat + 2 ^ 16 * s.scan.nextRst.toNat ∧
    (s.reg .rowState).toNat = s.scan.mcuInRow.toNat + 2 ^ 16 * s.scan.row.toNat ∧
    (s.reg .eobrun).toNat = s.scan.eobrun.toNat ∧
    (s.reg .corrCount).toNat = s.scan.be.length % 2 ^ 32 ∧
    (s.reg .qmA).toNat = s.qm.a.toNat ∧
    (s.reg .qmCtrl).toNat = s.qm.ct.toNat + 2 ^ 4 * s.qm.qmode.code.toNat +
      2 ^ 6 * s.qm.bv.toNat + 2 ^ 8 * s.qm.b.toNat ∧
    (s.reg .bcCtrl).toNat = s.bc.cnt.toNat + 2 ^ 6 * s.bc.dir.code.toNat +
      2 ^ 8 * s.bc.mode.toBool.toNat + 2 ^ 9 * s.bc.stream.toBool.toNat +
      2 ^ 10 * s.bc.marker.toNat + 2 ^ 11 * s.bc.eof.toNat + 2 ^ 12 * s.bc.lastFF.toNat +
      2 ^ 16 * s.bc.free.toNat + 2 ^ 24 * s.bc.wacc.toNat

/-! ### The BitChannel -/

/-- BC_OPEN_READ and BC_OPEN_WRITE: the channel's registers from their reset values with DIR, MODE and
STREAM set; no other register changes (R222, R223), but that after an open for reading the CORE sees all of the
stream's input (R713; log entry 11). The bytes the QM encoder holds back in Z, B and ST are discarded (R710): the
registers keep them, and their number counts how many of the code's next bytes reach no stream, which is DEDUCED
from R222 and R710 together (log entry 26). -/
def Obligations.OpensBindTheChannel : Prop :=
  ∀ (s : State) (mode : Stuff) (stream : StreamSel), s.quiet →
    exec (.bcOpenRead mode stream) s =
      .next { s with
        qm := { s.qm with lost := s.qm.z.toNat + s.qm.bv.toNat + s.qm.st.toNat }
        bc :=
          { rbuf := 0, cnt := 0, dir := .read, mode := mode, stream := stream, marker := false,
            eof := false, lastFF := false, free := 8, wacc := 0 }
        ports := s.ports.setStream stream { s.ports.stream stream with unseen := 0 } } ∧
    exec (.bcOpenWrite mode stream) s =
      .next { s with
        qm := { s.qm with lost := s.qm.z.toNat + s.qm.bv.toNat + s.qm.st.toNat }
        bc :=
          { rbuf := 0, cnt := 0, dir := .write, mode := mode, stream := stream, marker := false,
            eof := false, lastFF := false, free := 8, wacc := 0 } }

/-- A direct command that reads and ends in the error `e`: the CORE is DEAD with that error, and the configuration,
OPERAND, the STATUS flags, the inputs, the outputs and the counters are as they were (R603, R607). -/
def failsReading (run : Host.Outcome State Fault Refusal) (s : State) (e : Err) : Prop :=
  ∃ t, run = .next t ∧ t.status = { s.status with state := .dead, err := e } ∧
    t.cfg = s.cfg ∧ t.operand = s.operand ∧
    t.ports.primary.out = s.ports.primary.out ∧ t.ports.aux.out = s.ports.aux.out ∧
    t.ports.primary.inp = s.ports.primary.inp ∧ t.ports.aux.inp = s.ports.aux.inp ∧
    t.ports.counts = s.ports.counts

/-- BC_GETBITS with enough data: RESULT is the next n bits, most significant first, they are consumed, and
nothing but RESULT and the channel's read side changes (R228, R229). Without enough data: UnexpectedMarker if
a marker stops it, UnexpectedEndOfStream if the end of the data does; the configuration, OPERAND, the STATUS
flags, the inputs and the outputs are as they were (R228, R607). -/
def Obligations.GetBitsReturnsNextBits : Prop :=
  ∀ (s : State) (n : BitVec 6), s.quiet → s.bc.dir = .read → s.bc.readOk = true →
    bitCountOk n = true →
    (n.toNat ≤ s.chan.bits.length →
      ∃ k : Chan,
        exec (.bcGetBits n) s =
          .next ((s.setChan k).setResult (BitVec.ofNat 32 (bitsVal (s.chan.bits.take n.toNat)))) ∧
        k.bits = s.chan.bits.drop n.toNat ∧ s.chan.ReadOnly k) ∧
    (s.chan.bits.length < n.toNat →
      failsReading (exec (.bcGetBits n) s) s
        (if s.chan.stopsAtMarker then .unexpectedMarker else .unexpectedEndOfStream))

/-- BC_PUTBITS: the n low bits of OPERAND, most significant first, one after another; nothing changes but the
write side of the channel (R236). Each bit joins WACC, and the byte it completes goes out, with a stuffed 0x00
after a 0xFF in byte mode, and 7 bits of room after it in bit mode (R235). -/
def Obligations.PutBitsWritesOperand : Prop :=
  (∀ (s : State) (n : BitVec 6), s.quiet → s.bc.dir = .write → bitCountOk n = true →
    exec (.bcPutBits n) s =
      .next (s.setChan ((bitsOf n.toNat s.operand.toNat).foldl Chan.putBit s.chan)) ∧
    (s.bc.writeOk = true →
      s.chan.WriteOnly ((bitsOf n.toNat s.operand.toNat).foldl Chan.putBit s.chan))) ∧
  (∀ (k : Chan) (v : Bool),
    (k.bc.free ≠ 1 →
      k.putBit v = { k with bc := { k.bc with
        wacc := BitVec.ofNat 8 (2 * k.bc.wacc.toNat + v.toNat), free := k.bc.free - 1 } }) ∧
    (k.bc.free = 1 → ∀ b : Byte, b = BitVec.ofNat 8 (2 * k.bc.wacc.toNat + v.toNat) →
      k.putBit v =
        { bc := { k.bc with
            wacc := 0, lastFF := decide (b = 0xFF)
            free := if b = 0xFF ∧ k.bc.mode = .bit then 7 else 8 }
          st := { k.st with out := k.st.out ++
            if b = 0xFF ∧ k.bc.mode = .byte then [0xFF, 0x00] else [b] } }))

/-- BC_FLUSH: a partial byte is padded, with 1 bits in byte mode and 0 bits in bit mode; in bit mode one more
byte follows a final 0xFF; then the write side is empty (R238). -/
def Obligations.FlushPadsThePartialByte : Prop :=
  ∀ (s : State), s.quiet → s.bc.dir = .write → s.bc.writeOk = true →
    exec .bcFlush s =
      .next (s.setChan
        { bc := { s.bc with wacc := 0, free := 8, lastFF := false }
          st := { s.chan.st with out := s.chan.st.out ++
            (if s.bc.mode = .byte then
              (if s.bc.free = 8 then []
                else if s.bc.wacc.toNat * 2 ^ s.bc.free.toNat + (2 ^ s.bc.free.toNat - 1) = 255
                  then [0xFF, 0x00]
                  else [BitVec.ofNat 8
                    (s.bc.wacc.toNat * 2 ^ s.bc.free.toNat + (2 ^ s.bc.free.toNat - 1))])
              else if s.bc.lastFF = false ∧ s.bc.free = 8 then []
              else [BitVec.ofNat 8 (s.bc.wacc.toNat * 2 ^ s.bc.free.toNat)]) } })

/-- What is written is what is read (R224–R238): the bits put into a channel opened for writing, flushed, are
the first data bits of the bytes it wrote, followed by fewer than 8 padding bits. -/
def Obligations.WrittenBitsReadBack : Prop :=
  ∀ (mode : Stuff) (stream : StreamSel) (t : Stream) (bits : List Bool), t.out = [] →
    ∃ pad : List Bool,
      dataBits mode false
          (bits.foldl Chan.putBit { bc := BitChan.opened .write mode stream, st := t }).flush.st.out =
        bits ++ pad ∧
      pad.length < 8 ∧ ∀ b ∈ pad, b = decide (mode = .byte)

/-- BC_SKIPSTUFFING: nothing unless a data 0xFF was fully consumed (R230); then one `Fill()`, by what stands
at the read position (R226, R227): nothing, or a 0xFF with nothing after it; a 0xFF with a marker after it; a
0xFF with stuffed data after it; another byte. What stands there is what the CORE sees of the input, without the
bytes appended after EOF (R713, 93 #24; log entry 11). -/
def Obligations.SkipStuffingFillsOneByte : Prop :=
  ∀ (s : State) (k : Chan), s.quiet → s.bc.dir = .read → k = s.chan →
    (¬ (k.bc.lastFF = true ∧ k.bc.cnt = 0 ∧ k.bc.marker = false ∧ k.bc.eof = false) →
      exec .bcSkipStuffing s = .next s) ∧
    (k.bc.lastFF = true → k.bc.cnt = 0 → k.bc.marker = false → k.bc.eof = false →
      (k.st.seen[k.st.pos]? = none ∨
          (k.st.seen[k.st.pos]? = some 0xFF ∧ k.st.seen[k.st.pos + 1]? = none) →
        exec .bcSkipStuffing s = .next (s.setChan { k with bc := { k.bc with eof := true } })) ∧
      (∀ c, k.st.seen[k.st.pos]? = some 0xFF → k.st.seen[k.st.pos + 1]? = some c →
        stuffedAfterFF k.bc.mode c = false →
        exec .bcSkipStuffing s =
          .next (s.setChan { k with bc := { k.bc with marker := true } })) ∧
      (∀ c, k.st.seen[k.st.pos]? = some 0xFF → k.st.seen[k.st.pos + 1]? = some c →
        stuffedAfterFF k.bc.mode c = true →
        exec .bcSkipStuffing s =
          .next (s.setChan
            { bc := { k.bc with
                rbuf := BitVec.ofNat 32 (k.bc.rbuf.toNat * 256 + 255), cnt := 8, lastFF := true }
              st := { k.st with pos := k.st.pos + if k.bc.mode = .byte then 2 else 1 } })) ∧
      (∀ b, k.st.seen[k.st.pos]? = some b → b ≠ 0xFF →
        exec .bcSkipStuffing s =
          .next (s.setChan
            { bc := { k.bc with
                rbuf := BitVec.ofNat 32 (if k.bc.mode = .bit
                  then k.bc.rbuf.toNat * 128 + b.toNat % 128 else k.bc.rbuf.toNat * 256 + b.toNat)
                cnt := if k.bc.mode = .bit then 7 else 8
                lastFF := false }
              st := { k.st with pos := k.st.pos + 1 } })))

/-- A marker at position `p` of a stream, for FindMarker (R231). -/
abbrev markerAt (mode : Stuff) (inp : List Byte) (p : Nat) (lo : Byte) : Prop :=
  inp[p]? = some 0xFF ∧ inp[p + 1]? = some lo ∧ lo ≠ 0xFF ∧
    match mode with
    | .byte => lo ≠ 0x00
    | .bit => 0x80 ≤ lo.toNat

/-- BC_FINDMARKER: the buffered bits are dropped; the first marker from the read position on is returned and
left unconsumed with MARKER set; with none, RESULT is 0, EOF is set and at most one byte is left (R231). The
input searched is what the CORE sees: bytes appended after EOF are not found before the channel is opened again.
That is the model's reading, by R713 and 93 #24, where R231 to the letter reads all of in_s (DEDUCED; log entry
11). -/
def Obligations.FindMarkerFindsTheFirst : Prop :=
  ∀ (s : State), s.quiet → s.bc.dir = .read → s.chan.st.ok = true →
    (∀ p lo, s.chan.st.pos ≤ p → markerAt s.bc.mode s.chan.st.seen p lo →
      (∀ q lo', s.chan.st.pos ≤ q → q < p → ¬ markerAt s.bc.mode s.chan.st.seen q lo') →
      exec .bcFindMarker s =
        .next ((s.setChan
          { bc := { s.bc with rbuf := 0, cnt := 0, lastFF := false, marker := true }
            st := { s.chan.st with pos := p } }).setResult (BitVec.ofNat 32 (0xFF00 + lo.toNat)))) ∧
    ((∀ q lo', s.chan.st.pos ≤ q → ¬ markerAt s.bc.mode s.chan.st.seen q lo') →
      exec .bcFindMarker s =
        .next ((s.setChan
          { bc := { s.bc with rbuf := 0, cnt := 0, lastFF := false, eof := true }
            st := { s.chan.st with pos := max s.chan.st.pos (s.chan.st.seen.length - 1) } }).setResult
          0))

/-- BC_GETBYTEZ: the next 8 bits, zeros past a marker or the end of the data; it never fails (R232). -/
def Obligations.GetByteZPadsWithZeros : Prop :=
  ∀ (s : State), s.quiet → s.bc.dir = .read → s.bc.readOk = true →
    ∃ k : Chan,
      exec .bcGetByteZ s = .next ((s.setChan k).setResult (BitVec.ofNat 32 (s.chan.nextZ 8))) ∧
      k.bits = s.chan.bits.drop 8 ∧ s.chan.ReadOnly k

/-! ### The QM-coder -/

/-- QM_INIT_ENC sets the QM registers and nothing else (R276). QM_INIT_DEC sets them too, and takes the
next 16 bits of the channel, zeros past the end, into the high half of C; nothing else changes but the read side of
the channel (R283). -/
def Obligations.QmInitsSetTheRegisters : Prop :=
  ∀ (s : State), s.quiet →
    (s.bc.dir = .write →
      exec .qmInitEnc s = .next { s with qm :=
        { a := 0x10000, c := 0, ct := 11, qmode := .encoding, bv := false, b := 0, st := 0,
          z := 0 } }) ∧
    (s.bc.dir = .read → s.bc.readOk = true → ∃ k : Chan,
      exec .qmInitDec s = .next { s.setChan k with qm :=
        { a := 0x10000, c := BitVec.ofNat 32 (s.chan.nextZ 16 * 2 ^ 16), ct := 0, qmode := .decoding,
          bv := false, b := 0, st := 0, z := 0 } } ∧
      k.bits = s.chan.bits.drop 16 ∧ s.chan.ReadOnly k)

/-- A row of R272's table, its columns in the table's order. -/
structure Estimation where
  qe : Nat
  nlps : Nat
  nmps : Nat
  switch : Nat
  deriving DecidableEq, Repr

/-- Indices 0 to 37 of R272's table. -/
def estimationRows0 : List Estimation :=
  [⟨0x5A1D, 1, 1, 1⟩, ⟨0x2586, 14, 2, 0⟩, ⟨0x1114, 16, 3, 0⟩, ⟨0x080B, 18, 4, 0⟩,
   ⟨0x03D8, 20, 5, 0⟩, ⟨0x01DA, 23, 6, 0⟩, ⟨0x00E5, 25, 7, 0⟩, ⟨0x006F, 28, 8, 0⟩,
   ⟨0x0036, 30, 9, 0⟩, ⟨0x001A, 33, 10, 0⟩, ⟨0x000D, 35, 11, 0⟩, ⟨0x0006, 9, 12, 0⟩,
   ⟨0x0003, 10, 13, 0⟩, ⟨0x0001, 12, 13, 0⟩, ⟨0x5A7F, 15, 15, 1⟩, ⟨0x3F25, 36, 16, 0⟩,
   ⟨0x2CF2, 38, 17, 0⟩, ⟨0x207C, 39, 18, 0⟩, ⟨0x17B9, 40, 19, 0⟩, ⟨0x1182, 42, 20, 0⟩,
   ⟨0x0CEF, 43, 21, 0⟩, ⟨0x09A1, 45, 22, 0⟩, ⟨0x072F, 46, 23, 0⟩, ⟨0x055C, 48, 24, 0⟩,
   ⟨0x0406, 49, 25, 0⟩, ⟨0x0303, 51, 26, 0⟩, ⟨0x0240, 52, 27, 0⟩, ⟨0x01B1, 54, 28, 0⟩,
   ⟨0x0144, 56, 29, 0⟩, ⟨0x00F5, 57, 30, 0⟩, ⟨0x00B7, 59, 31, 0⟩, ⟨0x008A, 60, 32, 0⟩,
   ⟨0x0068, 62, 33, 0⟩, ⟨0x004E, 63, 34, 0⟩, ⟨0x003B, 32, 35, 0⟩, ⟨0x002C, 33, 9, 0⟩,
   ⟨0x5AE1, 37, 37, 1⟩, ⟨0x484C, 64, 38, 0⟩]

/-- Indices 38 to 75 of R272's table. -/
def estimationRows1 : List Estimation :=
  [⟨0x3A0D, 65, 39, 0⟩, ⟨0x2EF1, 67, 40, 0⟩, ⟨0x261F, 68, 41, 0⟩, ⟨0x1F33, 69, 42, 0⟩,
   ⟨0x19A8, 70, 43, 0⟩, ⟨0x1518, 72, 44, 0⟩, ⟨0x1177, 73, 45, 0⟩, ⟨0x0E74, 74, 46, 0⟩,
   ⟨0x0BFB, 75, 47, 0⟩, ⟨0x09F8, 77, 48, 0⟩, ⟨0x0861, 78, 49, 0⟩, ⟨0x0706, 79, 50, 0⟩,
   ⟨0x05CD, 48, 51, 0⟩, ⟨0x04DE, 50, 52, 0⟩, ⟨0x040F, 50, 53, 0⟩, ⟨0x0363, 51, 54, 0⟩,
   ⟨0x02D4, 52, 55, 0⟩, ⟨0x025C, 53, 56, 0⟩, ⟨0x01F8, 54, 57, 0⟩, ⟨0x01A4, 55, 58, 0⟩,
   ⟨0x0160, 56, 59, 0⟩, ⟨0x0125, 57, 60, 0⟩, ⟨0x00F6, 58, 61, 0⟩, ⟨0x00CB, 59, 62, 0⟩,
   ⟨0x00AB, 61, 63, 0⟩, ⟨0x008F, 61, 32, 0⟩, ⟨0x5B12, 65, 65, 1⟩, ⟨0x4D04, 80, 66, 0⟩,
   ⟨0x412C, 81, 67, 0⟩, ⟨0x37D8, 82, 68, 0⟩, ⟨0x2FE8, 83, 69, 0⟩, ⟨0x293C, 84, 70, 0⟩,
   ⟨0x2379, 86, 71, 0⟩, ⟨0x1EDF, 87, 72, 0⟩, ⟨0x1AA9, 87, 73, 0⟩, ⟨0x174E, 72, 74, 0⟩,
   ⟨0x1424, 72, 75, 0⟩, ⟨0x119C, 74, 76, 0⟩]

/-- Indices 76 to 113 of R272's table. -/
def estimationRows2 : List Estimation :=
  [⟨0x0F6B, 74, 77, 0⟩, ⟨0x0D51, 75, 78, 0⟩, ⟨0x0BB6, 77, 79, 0⟩, ⟨0x0A40, 77, 48, 0⟩,
   ⟨0x5832, 80, 81, 1⟩, ⟨0x4D1C, 88, 82, 0⟩, ⟨0x438E, 89, 83, 0⟩, ⟨0x3BDD, 90, 84, 0⟩,
   ⟨0x34EE, 91, 85, 0⟩, ⟨0x2EAE, 92, 86, 0⟩, ⟨0x299A, 93, 87, 0⟩, ⟨0x2516, 86, 71, 0⟩,
   ⟨0x5570, 88, 89, 1⟩, ⟨0x4CA9, 95, 90, 0⟩, ⟨0x44D9, 96, 91, 0⟩, ⟨0x3E22, 97, 92, 0⟩,
   ⟨0x3824, 99, 93, 0⟩, ⟨0x32B4, 99, 94, 0⟩, ⟨0x2E17, 93, 86, 0⟩, ⟨0x56A8, 95, 96, 1⟩,
   ⟨0x4F46, 101, 97, 0⟩, ⟨0x47E5, 102, 98, 0⟩, ⟨0x41CF, 103, 99, 0⟩, ⟨0x3C3D, 104, 100, 0⟩,
   ⟨0x375E, 99, 93, 0⟩, ⟨0x5231, 105, 102, 0⟩, ⟨0x4C0F, 106, 103, 0⟩, ⟨0x4639, 107, 104, 0⟩,
   ⟨0x415E, 103, 99, 0⟩, ⟨0x5627, 105, 106, 1⟩, ⟨0x50E7, 108, 107, 0⟩, ⟨0x4B85, 109, 103, 0⟩,
   ⟨0x5597, 110, 109, 0⟩, ⟨0x504F, 111, 107, 0⟩, ⟨0x5A10, 110, 111, 1⟩, ⟨0x5522, 112, 109, 0⟩,
   ⟨0x59EB, 112, 111, 1⟩, ⟨0x5A1D, 113, 113, 0⟩]

/-- The row of R272's table at a cell's index. Its SWITCH column is taken over the sentence below the table, which
lists other indices (DEDUCED; log entry 7). -/
def estimationOf (x : CtxCell) : Estimation :=
  (estimationRows0 ++ estimationRows1 ++ estimationRows2).getD x.index.val ⟨0, 0, 0, 0⟩

/-- The cell `y` that coding the decision `d` leaves of `x` (R271, R273): marked used; after an MPS that
renormalizes, INDEX is NMPS; after an LPS, INDEX is NLPS, and MPS flips where SWITCH is 1. -/
abbrev adapted (x y : CtxCell) (d renormalizes : Bool) : Prop :=
  y.used = true ∧
  (d = x.mps → y.mps = x.mps ∧
    y.index.val = if renormalizes then (estimationOf x).nmps else x.index.val) ∧
  (d ≠ x.mps → y.index.val = (estimationOf x).nlps ∧
    y.mps = if (estimationOf x).switch = 1 then !x.mps else x.mps)

/-- The encoder's interval before it is renormalized (R277): A and C after the decision `d`. -/
def encodeInterval (x : CtxCell) (d : Bool) (a c : Nat) : Nat × Nat :=
  let q := (estimationOf x).qe
  if d = x.mps then (if a - q < 0x8000 ∧ a - q < q then (q, c + (a - q)) else (a - q, c))
  else (if q ≤ a - q then (q, c + (a - q)) else (a - q, c))

/-- The value of bytes, the first the most significant. -/
def bytesVal (bytes : List Byte) : Nat := bytes.foldl (fun v b => 256 * v + b.toNat) 0

/-- The bytes the encoder holds back: the deferred zeros, the pending byte, the 0xFF bytes of the stack (R279,
R280). -/
def heldBack (q : QmRegs) : List Byte :=
  List.replicate q.z.toNat 0x00 ++ (if q.bv then [q.b] else []) ++ List.replicate q.st.toNat 0xFF

/-- Bytes put into a channel one after another. -/
def putBytes (bytes : List Byte) (k : Chan) : Chan :=
  bytes.foldl (fun k b => (bitsOf 8 b.toNat).foldl Chan.putBit k) k

/-- QM_ENCODE from the invariant of R282 always completes, the assertion of R279 included. A is the chosen
part of the interval, and C its low end, shifted until A is at least 0x8000 (R277, R278). C's top bytes become
code as the shifts complete them: the bytes written, then those held back, then C stand for the code so far
followed by the low end, a carry included (R279, R280); of the bytes written those a BC_OPEN_* discarded do not reach
the channel (R710; log entry 26). The cell adapts by its row of R272's table (R273, R277;
its SWITCH column: log entry 7), marked used; the other cells, RESULT and everything but the QM registers and the
write side of the channel are as they were; the invariant holds again. -/
def Obligations.QmEncodeCompletes : Prop :=
  ∀ (s : State) (ctx : BitVec 11) (d : Bool), s.quiet → s.bc.dir = .write → s.bc.writeOk = true →
    s.qm.qmode = .encoding → s.qm.encOk = true → bankOk s.ctx = true →
    ctxValid ctx.toNat = true →
    ∃ (k : Coder) (x : CtxCell) (n : Nat),
      exec (.qmEncode ctx d) s = .next ((s.setCoder k).setCell ctx.toNat x) ∧
      k.qm.a.toNat = (encodeInterval (s.cell ctx.toNat) d s.qm.a.toNat s.qm.c.toNat).1 * 2 ^ n ∧
      (0 < n → k.qm.a.toNat < 0x10000) ∧
      adapted (s.cell ctx.toNat) x d
        (decide (s.qm.a.toNat - (estimationOf (s.cell ctx.toNat)).qe < 0x8000)) ∧
      ((s.setCoder k).setCell ctx.toNat x).cell ctx.toNat = x ∧
      (∀ a, a ≠ ctx.toNat → ((s.setCoder k).setCell ctx.toNat x).cell a = s.cell a) ∧
      k.qm.qmode = .encoding ∧ k.qm.encOk = true ∧ s.chan.WriteOnly k.ch ∧
      (s.qm.z.toNat + s.qm.st.toNat + 4 < 2 ^ 32 →
        ∃ (out : List Byte) (m : Nat),
          k.ch = putBytes (out.drop s.qm.lost) s.chan ∧ k.qm.lost = s.qm.lost - out.length ∧
          (out ++ heldBack k.qm).length = (heldBack s.qm).length + m ∧
          k.qm.ct.toNat + n = s.qm.ct.toNat + 8 * m ∧
          bytesVal (out ++ heldBack k.qm) * 2 ^ 27 + k.qm.c.toNat * 2 ^ k.qm.ct.toNat =
            (bytesVal (heldBack s.qm) * 2 ^ 27 +
              (encodeInterval (s.cell ctx.toNat) d s.qm.a.toNat s.qm.c.toNat).2 *
                2 ^ s.qm.ct.toNat) * 256 ^ m)

/-- The decoder's decision (R284): the path the high half of C takes, with the conditional exchange. -/
def decodesMps (x : CtxCell) (a c : Nat) : Bool :=
  let q := (estimationOf x).qe
  if c / 2 ^ 16 < a - q then decide (0x8000 ≤ a - q ∨ q ≤ a - q) else decide (a - q < q)

/-- The decoder's interval before it is renormalized (R284): A and C after the path the high half of C takes. -/
def decodeInterval (x : CtxCell) (a c : Nat) : Nat × Nat :=
  let q := (estimationOf x).qe
  if c / 2 ^ 16 < a - q then (a - q, c) else (q, c - (a - q) * 2 ^ 16)

/-- QM_DECODE from the invariant of R286 always completes: RESULT is the decision R284 gives. A and C are the
chosen part of the interval, shifted until A is at least 0x8000; the shifts take the next bytes of the channel, as
many as CT counts, zeros past its end, and these stand below the shifted C (R284, R285). The cell adapts by its
row of R272's table (R273; its SWITCH column: log entry 7), marked used; the other cells and everything but the QM
registers and the read side of the channel are as they were; the invariant holds again. -/
def Obligations.QmDecodeCompletes : Prop :=
  ∀ (s : State) (ctx : BitVec 11), s.quiet → s.bc.dir = .read → s.bc.readOk = true →
    s.qm.qmode = .decoding → s.qm.decOk = true → bankOk s.ctx = true →
    ctxValid ctx.toNat = true →
    ∃ (k : Coder) (x : CtxCell) (d : Bool) (n m : Nat),
      exec (.qmDecode ctx) s =
        .next (((s.setCoder k).setCell ctx.toNat x).setResult (if d then 1 else 0)) ∧
      d = (decodesMps (s.cell ctx.toNat) s.qm.a.toNat s.qm.c.toNat == (s.cell ctx.toNat).mps) ∧
      k.qm.a.toNat = (decodeInterval (s.cell ctx.toNat) s.qm.a.toNat s.qm.c.toNat).1 * 2 ^ n ∧
      (0 < n → k.qm.a.toNat < 0x10000) ∧
      k.qm.ct.toNat + n = s.qm.ct.toNat + 8 * m ∧
      k.qm.c.toNat =
        (decodeInterval (s.cell ctx.toNat) s.qm.a.toNat s.qm.c.toNat).2 * 2 ^ n +
          s.chan.nextZ (8 * m) * 2 ^ (16 - k.qm.ct.toNat) ∧
      k.ch.bits = s.chan.bits.drop (8 * m) ∧
      adapted (s.cell ctx.toNat) x d (decide (0 < n)) ∧
      ((s.setCoder k).setCell ctx.toNat x).cell ctx.toNat = x ∧
      (∀ a, a ≠ ctx.toNat → ((s.setCoder k).setCell ctx.toNat x).cell a = s.cell a) ∧
      k.qm.qmode = .decoding ∧ k.qm.decOk = true ∧ s.chan.ReadOnly k.ch

/-- The value in the final interval with the most zero bits at its end (R281). -/
def finalCode (a c : Nat) : Nat :=
  let t := (c + a - 1) / 2 ^ 16 * 2 ^ 16
  if t < c then t + 0x8000 else t

/-- QM_FLUSH from the invariant of R282 always completes: the coder is closed, its pending output gone, and
with FINAL the channel holds no partial byte. A and CT are as they were, C has given all its bits away and is 0,
and nothing else changes but the write side of the channel. The bytes it writes are those held back and two of
the final code, without the zero bytes at the end (R281); those a BC_OPEN_* discarded do not reach the channel (R710;
log entry 26). Without FINAL they may leave a partial byte in bit mode,
by R235 and R236, against R281's corner case (log entry 25). -/
def Obligations.QmFlushClosesTheCode : Prop :=
  ∀ (s : State) (final : Bool), s.quiet → s.bc.dir = .write → s.bc.writeOk = true →
    s.qm.qmode = .encoding → s.qm.encOk = true →
    ∃ k : Coder, exec (.qmFlush final) s = .next (s.setCoder k) ∧
      k.qm = { a := s.qm.a, c := 0, ct := s.qm.ct, qmode := .closed, bv := false, b := 0, st := 0,
               z := 0 } ∧
      (final = true → k.ch.bc.free = 8 ∧ k.ch.bc.wacc = 0 ∧ k.ch.bc.lastFF = false) ∧
      s.chan.WriteOnly k.ch ∧
      (s.qm.z.toNat + s.qm.st.toNat + 4 < 2 ^ 32 →
        ∃ (out : List Byte) (z : Nat),
          k.ch = (if final then (putBytes (out.drop s.qm.lost) s.chan).flush
            else putBytes (out.drop s.qm.lost) s.chan) ∧
          (out ++ List.replicate z 0x00).length = (heldBack s.qm).length + 2 ∧
          bytesVal (out ++ List.replicate z 0x00) * 2 ^ 11 =
            bytesVal (heldBack s.qm) * 2 ^ 27 +
              finalCode s.qm.a.toNat s.qm.c.toNat * 2 ^ s.qm.ct.toNat ∧
          out.getLast? ≠ some 0x00)

/-! ### Contexts -/

/-- CTX_INIT, CTX_READ and CTX_RESET_ALL (R331–R333): one cell set, one cell read, every cell reset; nothing
else changes. CTX_READ runs in scans too. -/
def Obligations.ContextCommands : Prop :=
  ∀ (s : State), bankOk s.ctx = true →
    (s.quiet → ∀ (ctx : BitVec 11) (index : BitVec 7) (mps : Bool), ctxValid ctx.toNat = true →
      index.toNat ≤ 113 →
      ∃ t, exec (.ctxInit ctx index mps) s = .next t ∧
        (t.cell ctx.toNat).index.val = index.toNat ∧ (t.cell ctx.toNat).mps = mps ∧
        (t.cell ctx.toNat).used = false ∧
        (∀ a, a ≠ ctx.toNat → t.cell a = s.cell a) ∧ t = { s with ctx := t.ctx }) ∧
    (s.status.state ≠ .dead → ∀ ctx : BitVec 11, ctxValid ctx.toNat = true →
      exec (.ctxRead ctx) s = .next (s.setResult (BitVec.ofNat 32
        ((s.cell ctx.toNat).index.val + 2 ^ 7 * (s.cell ctx.toNat).mps.toNat +
          2 ^ 8 * (s.cell ctx.toNat).used.toNat)))) ∧
    (s.quiet →
      ∃ t, exec .ctxResetAll s = .next t ∧
        (∀ a, t.cell a = { index := if a = 1280 then 113 else 0, mps := false, used := false }) ∧
        t = { s with ctx := t.ctx })

/-! ### Huffman -/

/-- HUF_PUT: the code of a symbol that has one is written as BC_PUTBITS writes bits; a symbol without code
raises ContractViolation, and nothing is written (R351). -/
def Obligations.HufPutWritesTheCode : Prop :=
  ∀ (s : State) (cls : HufClass) (tbl : Fin 4) (sym : Byte), s.quiet → s.bc.dir = .write →
    (∀ len code, hufLookup (s.ports.table cls tbl) sym = some (len, code) →
      exec (.hufPut cls tbl sym) s =
        .next (s.setChan ((bitsOf len code).foldl Chan.putBit s.chan))) ∧
    (hufLookup (s.ports.table cls tbl) sym = none →
      ∃ t, exec (.hufPut cls tbl sym) s = .next t ∧
        t.status = { s.status with state := .dead, err := .contractViolation } ∧
        t.cfg = s.cfg ∧ t.operand = s.operand ∧
        t.ports.primary = s.ports.primary ∧ t.ports.aux = s.ports.aux)

/-- HUF_GET: where the next bits are the code of a symbol, RESULT is the symbol, exactly the bits of its code
are consumed, and nothing else changes (R352, R133). Where none of the next 1 to 16 bits are a code, it raises
MalformedStream; where the data end before 16 bits and none of them are a code, UnexpectedMarker if a marker ends
them and UnexpectedEndOfStream if not (R352, R228, R607). In a table the host may install, HufMatch inverts
HufLookup (R133). -/
def Obligations.HufGetReadsTheCode : Prop :=
  (∀ (s : State) (cls : HufClass) (tbl : Fin 4) (sym : Byte) (len code : Nat), s.quiet →
    s.bc.dir = .read → s.bc.readOk = true → hufTableOk (s.ports.table cls tbl) = true →
    hufLookup (s.ports.table cls tbl) sym = some (len, code) →
    s.chan.bits.take len = bitsOf len code →
    ∃ k : Chan, exec (.hufGet cls tbl) s = .next ((s.setChan k).setResult (sym.setWidth 32)) ∧
      k.bits = s.chan.bits.drop len ∧ s.chan.ReadOnly k) ∧
  (∀ (s : State) (cls : HufClass) (tbl : Fin 4), s.quiet → s.bc.dir = .read → s.bc.readOk = true →
    (∀ len, 1 ≤ len → len ≤ 16 → len ≤ s.chan.bits.length →
      hufMatch (s.ports.table cls tbl) len (bitsVal (s.chan.bits.take len)) = none) →
    (16 ≤ s.chan.bits.length → failsReading (exec (.hufGet cls tbl) s) s .malformedStream) ∧
    (s.chan.bits.length < 16 →
      failsReading (exec (.hufGet cls tbl) s) s
        (if s.chan.stopsAtMarker then .unexpectedMarker else .unexpectedEndOfStream))) ∧
  (∀ (t : HufTable) (sym : Byte) (len code : Nat), hufTableOk t = true →
    (hufLookup t sym = some (len, code) ↔ hufMatch t len code = some sym))

/-- HUF_COUNT adds 1 to one counter, leaves the others, and needs no open channel (R353, R134). -/
def Obligations.HufCountAddsOne : Prop :=
  ∀ (s : State) (cls : HufClass) (tbl : Fin 4) (sym : Byte), s.quiet →
    countsOk s.ports.counts = true →
    ∃ t, exec (.hufCount cls tbl sym) s = .next t ∧
      t.ports.count cls tbl sym = s.ports.count cls tbl sym + 1 ∧
      (∀ cls' tbl' sym', (cls', tbl', sym') ≠ (cls, tbl, sym) →
        t.ports.count cls' tbl' sym' = s.ports.count cls' tbl' sym') ∧
      t = { s with ports := { s.ports with counts := t.ports.counts } }

/-- R356 and R357: the category is the least width of the magnitude, the extra bits of a value fit its
category, and Extend gives the value back. -/
def Obligations.ExtendInvertsExtraBits : Prop :=
  ∀ v : Int,
    v.natAbs < 2 ^ category v ∧ (∀ s, v.natAbs < 2 ^ s → category v ≤ s) ∧
    extraBits v (category v) < 2 ^ category v ∧ extend (extraBits v (category v)) (category v) = v

/-! ### The entropy parser: starting a scan -/

/-- A configuration EP_START_* accepts, field by field (R384). -/
abbrev scanHeaderLegal (c : CfgRegs) : Prop :=
  let kind := field c.scanCtrl 0 4
  kind ≤ 7 ∧ 1 ≤ c.ncomp ∧ c.ncomp ≤ 4 ∧ 1 ≤ c.nblk ∧ c.nblk ≤ 10 ∧
  (∀ j, j < c.nblk → field c.mcuMap (4 + 2 * j) 2 < c.ncomp) ∧ c.mcusPerRow ≠ 0 ∧ c.ss ≤ c.se ∧
  (kind = 0 ∨ kind = 1 →
    (c.progressive = true → c.ah = 0 ∧ (c.ss = 0 → c.se = 0) ∧ (0 < c.ss → c.ncomp = 1) ∧ c.al ≤ 13) ∧
    (c.progressive = false → c.ss = 0 ∧ c.se = 63 ∧ c.ah = 0 ∧ c.al = 0)) ∧
  (kind = 2 ∨ kind = 3 →
    c.ah = c.al + 1 ∧ c.al ≤ 13 ∧ (c.ss = 0 → c.se = 0) ∧ (0 < c.ss → c.ncomp = 1)) ∧
  (kind = 4 → c.se = 0 ∧ c.ah = 0 ∧ c.al ≤ 15) ∧
  (5 ≤ kind → c.ss = 0 ∧ c.se = 63 ∧ c.ah = 0 ∧ c.al = 0 ∧ c.hidden = false)

/-- R384 and the first line of R385: outside a scan each start enters its state if the configuration is
legal, and raises ContractViolation, changing nothing else, if it is not; in a scan it always raises. -/
def Obligations.StartsValidateTheConfiguration : Prop :=
  ∀ (i : Instr) (st : ScanState) (s : State),
    (i, st) ∈ [(Instr.epStartParse, ScanState.parse), (.epStartWrite, .write),
      (.epStartMeasure, .measure)] →
    (s.status.state.active = false → scanHeaderLegal s.cfg →
      ∃ t, exec i s = .next t ∧ t.status.state = st) ∧
    (s.status.state.active = true ∨ ¬ scanHeaderLegal s.cfg →
      exec i s =
        .next { s with status := { s.status with state := .dead, err := .contractViolation } })

/-- The state every start leaves before it opens the coder (R385). -/
def startedState (s : State) (st : ScanState) : State :=
  { s with
    status :=
      { state := st, err := .none, rowActive := false, segValid := true, dnlFound := false,
        rstWarn := false, rstErrCnt := 0 }
    scan :=
      { predDc := #v[0, 0, 0, 0], predDiff := #v[0, 0, 0, 0], biasB := #v[0, 0, 0, 0],
        biasN := #v[0, 0, 0, 0], mcusToGo := BitVec.ofNat 16 s.cfg.effRI, nextRst := 0,
        mcuInRow := 0, row := 0, eobrun := 0, be := [], eobTbl := s.scan.eobTbl }
    qm := { a := 0, c := 0, ct := 0, qmode := .closed, bv := false, b := 0, st := 0, z := 0 }
    bc :=
      { rbuf := 0, cnt := 0, dir := .closed, mode := .byte, stream := .primary, marker := false,
        eof := false, lastFF := false, free := 8, wacc := 0 }
    ctx := [] }

/-- The channel's registers as `OpenCoder` opens them (R386, R387): the AUX stream for a residual kind or a
hidden scan, bit stuffing for a QM kind without QM_BYTESTUFF. -/
def openedBc (c : CfgRegs) (dir : Dir) : BitChan :=
  { rbuf := 0, cnt := 0, dir := dir
    mode := if c.kind.isQm = true ∧ c.qmByteStuff = false then .bit else .byte
    stream := if c.kind.isResidual = true ∨ c.hidden = true then .aux else .primary
    marker := false, eof := false, lastFF := false, free := 8, wacc := 0 }

/-- The state with its channel open for reading, and all of the stream's input seen (R386, R713). -/
def openedForReading (s : State) : State :=
  { s with
    bc := openedBc s.cfg .read
    ports := s.ports.setStream (openedBc s.cfg .read).stream
      { s.ports.stream (openedBc s.cfg .read).stream with unseen := 0 } }

/-- EP_START_PARSE: R385's state with the channel open for reading, all of the stream's input seen (R713; log
entry 11), and for a QM kind a decoder that holds the next 16 bits (R381, R386). EP_START_WRITE: the channel open
for writing, and for a QM kind a fresh encoder (R382, R386). EP_START_MEASURE: nothing opened (R383). -/
def Obligations.StartsResetAndOpen : Prop :=
  ∀ (s : State), s.status.state.active = false → s.cfg.valid = true →
    (s.cfg.kind.isQm = false →
      exec .epStartParse s = .next (openedForReading (startedState s .parse))) ∧
    (s.cfg.kind.isQm = true → ∀ u : State, u = openedForReading (startedState s .parse) →
      ∃ k : Chan,
        exec .epStartParse s = .next { u.setChan k with qm :=
          { a := 0x10000, c := BitVec.ofNat 32 (u.chan.nextZ 16 * 2 ^ 16), ct := 0,
            qmode := .decoding, bv := false, b := 0, st := 0, z := 0 } } ∧
        k.bits = u.chan.bits.drop 16 ∧ u.chan.ReadOnly k) ∧
    exec .epStartWrite s =
      .next { startedState s .write with
        bc := openedBc s.cfg .write
        qm := if s.cfg.kind.isQm = true
          then { a := 0x10000, c := 0, ct := 11, qmode := .encoding, bv := false, b := 0, st := 0,
                 z := 0 }
          else (startedState s .write).qm } ∧
    exec .epStartMeasure s = .next (startedState s .measure)

/-! ### The entropy parser: rows -/

/-- The state outside a scan, in which direct commands run (R605). -/
def outsideScan (s : State) : State := { s with status := { s.status with state := .idle } }

/-- The state in which a row was started (R388, R86). -/
def rowStarted (s : State) : State :=
  { s with
    result := 1
    status := { s.status with rowActive := true }
    scan := { s.scan with
      row := BitVec.ofNat 16 (min (s.scan.row.toNat + 1) 65535), mcuInRow := 0 } }

/-- EP_START_MCU_ROW. Without a DNL search: 0 once MCU_ROWS rows were started, and otherwise the next row
(R388, R86); after a DNL marker it is 0. With a DNL search (R388, R389), `k` is the channel where it looks: as it
is where no data 0xFF was read last, and after BC_SKIPSTUFFING where one was (R230). A DNL segment at its read
position gives FRAME_HEIGHT and ends the rows; a segment with a wrong length or no lines raises MalformedStream,
one cut short UnexpectedEndOfStream; anything else at the read position starts a row. The search looks at what
the CORE sees of the input, without the bytes appended after EOF: that is the model's reading, by R713 and 93 #24,
where R388's PeekWord to the letter reads all of in_s (DEDUCED; log entry 11). -/
def Obligations.StartMcuRowCountsOrParsesDnl : Prop :=
  ∀ (s : State), s.status.state.active = true → s.status.rowActive = false →
    (s.status.state ≠ .parse ∨ s.cfg.dnlEnable = false ∨ s.cfg.mcuRows ≠ 0 →
      (s.cfg.mcuRows ≠ 0 ∧ s.cfg.mcuRows ≤ s.scan.row.toNat →
        exec .epStartMcuRow s = .next { s with result := 0 }) ∧
      (s.cfg.mcuRows = 0 ∨ s.scan.row.toNat < s.cfg.mcuRows →
        exec .epStartMcuRow s = .next (rowStarted s))) ∧
    (s.status.state = .parse → s.cfg.dnlEnable = true → s.cfg.mcuRows = 0 →
      s.status.dnlFound = true →
      exec .epStartMcuRow s = .next { s with result := 0 }) ∧
    (s.status.state = .parse → s.cfg.dnlEnable = true → s.cfg.mcuRows = 0 →
      s.status.dnlFound = false →
      ∀ (k : Chan) (unread : List Byte),
      (s.bc.lastFF = false ∧ k = s.chan) ∨
        (s.bc.lastFF = true ∧
          exec .bcSkipStuffing (outsideScan s) = .next ((outsideScan s).setChan k)) →
      unread = k.st.seen.drop k.st.pos →
      (∀ nh nl rest, unread = 0xFF :: 0xDC :: 0x00 :: 0x04 :: nh :: nl :: rest →
        nh ≠ 0 ∨ nl ≠ 0 →
        exec .epStartMcuRow s =
          .next { s.setChan { k with st := { k.st with pos := k.st.pos + 6 } } with
            result := 0
            status := { s.status with dnlFound := true }
            cfg := { s.cfg with frameHeight := BitVec.ofNat 32 (nh.toNat * 256 + nl.toNat) } }) ∧
      (∀ lh ll rest, unread = 0xFF :: 0xDC :: lh :: ll :: rest →
        ¬ (lh = 0 ∧ ll = 4) ∨ (∃ rest', rest = 0 :: 0 :: rest') →
        ∃ t, exec .epStartMcuRow s = .next t ∧
          t.status = { s.status with state := .dead, err := .malformedStream } ∧ t.cfg = s.cfg) ∧
      (∀ rest, unread = 0xFF :: 0xDC :: rest →
        rest.length < 2 ∨ (∃ r, rest = 0 :: 4 :: r ∧ r.length < 2) →
        ∃ t, exec .epStartMcuRow s = .next t ∧
          t.status = { s.status with state := .dead, err := .unexpectedEndOfStream } ∧
          t.cfg = s.cfg) ∧
      ((∀ rest, unread ≠ 0xFF :: 0xDC :: rest) →
        exec .epStartMcuRow s = .next (rowStarted (s.setChan k))))

/-! ### The entropy parser: MCUs -/

/-- The MCU commands where no unit is coded (R394): EP_WRITE_MCU in MEASURE with a QM kind hands the units over
and back unchanged (R383); EP_PARSE_MCU in an invalid segment hands them back as neutral units (R406).
Nothing changes but the counters. -/
def Obligations.McuWithoutCoding : Prop :=
  ∀ (s : State), s.cfg.valid = true → s.midSegment →
    (s.status.state = .measure → s.cfg.kind.isQm = true →
      exec .epWriteMcu s = .next (s.afterMcu.afterUnits id)) ∧
    (s.status.state = .parse → s.status.segValid = false → s.cfg.kind.isResidual = false →
    ∃ f : Block → Block,
      exec .epParseMcu s = .next (s.afterMcu.afterUnits f) ∧
      (∀ u, s.cfg.kind = .refHuff ∨ s.cfg.kind = .refAc → f u = u) ∧
      (∀ u, s.cfg.kind = .diffLossless → f u = u.set 0 0) ∧
      (∀ u, (s.cfg.kind = .seqHuff ∨ s.cfg.kind = .seqAc) → s.cfg.progressive = false →
        f u = Vector.replicate 64 0) ∧
      (∀ u, (s.cfg.kind = .seqHuff ∨ s.cfg.kind = .seqAc) → s.cfg.progressive = true →
        ∀ k, k < 64 → (f u)[zz k] =
          if s.cfg.ss ≤ k ∧ k ≤ s.cfg.se then 0 else u[zz k]))

/-- A DC refinement scan of REF_HUFF. EP_PARSE_MCU: one bit of the stream for each unit, most significant first,
ORed into the unit's DC at bit AL; nothing else changes but the counters and the read side (R394, R506, R501).
EP_WRITE_MCU: bit AL of each unit's DC is written, and in MEASURE nothing is written or counted (R355); the units
are handed back unchanged, EOB_TBL becomes the AC table of the last unit's component, and nothing else changes but
the counters and the write side (R394, R504, R505, R501). -/
def Obligations.RefHuffDcBits : Prop :=
  ∀ (s : State), s.cfg.valid = true → s.midSegment → s.cfg.kind = .refHuff → s.cfg.ss = 0 →
    (s.status.state = .parse → s.status.segValid = true → s.bc.dir = .read → s.bc.readOk = true →
      s.cfg.nblk ≤ s.chan.bits.length →
      ∃ (k : Chan) (t : State), exec .epParseMcu s = .next t ∧
        t = { s.afterMcu.setChan k with
          draws := (State.requests s.cfg.mcuUnits s).2.draws
          ports := { (s.afterMcu.setChan k).ports with
            pending := (State.requests s.cfg.mcuUnits s).2.ports.pending
            current := none
            released := s.ports.released ++
              List.zipWith
                (fun p (b : Bool) =>
                  (p.1, if b then p.2.set 0 (p.2[0] ||| BitVec.ofNat 32 (2 ^ s.cfg.al)) else p.2))
                s.mcuBlocks s.chan.bits } } ∧
        k.bits = s.chan.bits.drop s.cfg.nblk ∧ s.chan.ReadOnly k) ∧
    (∀ (c : Fin 4) (u : State), s.cfg.mcuUnits.getLast? = some c →
      u = { s.afterMcu.afterUnits id with scan := { s.afterMcu.scan with eobTbl := s.cfg.actbl c } } →
      (s.status.state = .write → s.bc.dir = .write →
        exec .epWriteMcu s =
          .next (u.setChan ((s.mcuBlocks.map fun p =>
            decide (p.2[0].toInt / 2 ^ s.cfg.al % 2 = 1)).foldl Chan.putBit s.chan))) ∧
      (s.status.state = .measure → exec .epWriteMcu s = .next u))

/-! ### What a unit is coded as: MCUs of one unit -/

/-- The next MCU has one unit, u of component c, and no restart comes before it. -/
abbrev oneUnit (s : State) (c : Fin 4) (u : Block) : Prop :=
  s.cfg.valid = true ∧ s.midSegment ∧ s.cfg.mcuUnits = [c] ∧ s.mcuBlocks = [(c, u)]

/-- A unit is written, or counted. -/
abbrev writesUnits (s : State) : Prop :=
  (s.status.state = .write ∧ s.bc.dir = .write) ∨ s.status.state = .measure

/-- A unit of component c is read, by Huffman tables the host may install (R133). -/
abbrev readsUnits (s : State) (c : Fin 4) : Prop :=
  s.status.state = .parse ∧ s.status.segValid = true ∧ s.bc.dir = .read ∧ s.bc.readOk = true ∧
    hufTableOk s.ports.dcTables[s.cfg.dctbl c] = true ∧
    hufTableOk s.ports.acTables[s.cfg.actbl c] = true

/-- The positions of the AC band, max(SS, 1) to SE (R450). -/
def bandPositions (c : CfgRegs) : List Nat := List.range' (max c.ss 1) (c.se + 1 - max c.ss 1)

/-- The positions up to the last one at which `p` holds, and the positions after it. -/
def cutAfterLast (p : Nat → Bool) (ks : List Nat) : List Nat × List Nat :=
  let last := (ks.filter p).getLast?.getD 0
  (ks.filter fun k => decide (k ≤ last), ks.filter fun k => decide (last < k))

/-- The value a unit has at AC position k after the point transform (R452). -/
def unitValue (c : CfgRegs) (u : Block) (k : Nat) : Int := (coef u k).tdiv (2 ^ c.al)

/-- What a Huffman unit is coded as: symbols, and the low bits of numbers (R354, R355). -/
inductive UnitItem where
  | sym (cls : HufClass) (tbl : Fin 4) (sym : Byte)
  | bits (n v : Nat)
  deriving DecidableEq, Repr

/-- The bits items are written as, if every symbol has a code (R351, R355). -/
def itemBits (p : Ports) : List UnitItem → Option (List Bool)
  | [] => some []
  | .bits n v :: rest => (itemBits p rest).map fun bs => bitsOf n v ++ bs
  | .sym cls tbl x :: rest =>
    match hufLookup (p.table cls tbl) x with
    | none => none
    | some (len, code) => (itemBits p rest).map fun bs => bitsOf len code ++ bs

/-- The ports with the symbols of the items counted, one after another (R353, R354). -/
def countItems : List UnitItem → Ports → Ports
  | [], p => p
  | .bits _ _ :: rest, p => countItems rest p
  | .sym cls tbl x :: rest, p => countItems rest (p.hufCount cls tbl x)

/-- A command that codes `items` from `s`, everything else it does giving `t`: in WRITE their bits go to the
channel, in MEASURE their symbols are counted, and in WRITE a symbol without code raises ContractViolation
(R351, R354; log entry 24). -/
def writesItems (run : Host.Outcome State Fault Refusal) (s t : State) (items : List UnitItem) : Prop :=
  (s.status.state = .write → ∀ bits, itemBits s.ports items = some bits →
    run = .next (t.setChan (bits.foldl Chan.putBit s.chan))) ∧
  (s.status.state = .write → itemBits s.ports items = none →
    ∃ v, run = .next v ∧
      v.status = { s.status with state := .dead, err := .contractViolation }) ∧
  (s.status.state = .measure → run = .next { t with ports := countItems items t.ports })

/-- A command that, where the next bits are those of `items`, consumes exactly these bits, everything else it
does giving `t`. -/
def readsItems (run : Host.Outcome State Fault Refusal) (s t : State) (items : List UnitItem) : Prop :=
  ∀ bits, itemBits s.ports items = some bits → s.chan.bits.take bits.length = bits →
    ∃ k : Chan, run = .next (t.setChan k) ∧ k.bits = s.chan.bits.drop bits.length ∧
      s.chan.ReadOnly k

/-- A command that, where the next bits are those of `items`, raises MalformedStream. -/
def trapsItems (run : Host.Outcome State Fault Refusal) (s : State) (items : List UnitItem) : Prop :=
  ∀ bits, itemBits s.ports items = some bits → s.chan.bits.take bits.length = bits →
    failsReading run s .malformedStream

/-- A value v after a run of r zeros: the byte of the run and the category of v, and its extra bits (R350, R356,
R358). -/
def valueItems (cls : HufClass) (tbl : Fin 4) (r : Nat) (v : Int) : List UnitItem :=
  [.sym cls tbl (BitVec.ofNat 8 (16 * r + category v)),
    .bits (category v) (extraBits v (category v))]

/-- The nonzero AC values of a band, each with its ZRLs before it, from a run of r zeros on (R455, R461). -/
def acItems (tbl : Fin 4) : Nat → List Int → List UnitItem
  | _, [] => []
  | r, v :: vs =>
    if v = 0 then acItems tbl (r + 1) vs
    else List.replicate (r / 16) (.sym .ac tbl 0xF0) ++ valueItems .ac tbl (r % 16) v ++
      acItems tbl 0 vs

/-- A block with a DC value and AC values: the DC, the AC values, and the end-of-block symbol after a zero
(R453, R455). -/
def blockItems (cfg : CfgRegs) (c : Fin 4) (dc : Int) (vs : List Int) : List UnitItem :=
  valueItems .dc (cfg.dctbl c) 0 dc ++ acItems (cfg.actbl c) 0 vs ++
    if vs.getLast? = some 0 then [.sym .ac (cfg.actbl c) 0x00] else []

/-- AC symbols that reach position `k` of a band from `first` on: the values vs, the last of them not 0, and z ZRLs
(R457, R463). -/
abbrev reaches (tbl : Fin 4) (first k : Nat) (vs : List Int) (z : Nat) (items : List UnitItem) : Prop :=
  vs.getLast? ≠ some 0 ∧ (∀ v ∈ vs, v.natAbs < 2 ^ 15) ∧ k = first + vs.length + 16 * z ∧
    items = acItems tbl 0 vs ++ List.replicate z (.sym .ac tbl 0xF0)

/-- An AC symbol that passes the end of a band from position k on: a run, or a ZRL (R457, R463). -/
abbrev passesEnd (k last : Nat) (rs : Byte) : Prop :=
  (rs.toNat % 16 ≠ 0 ∧ last < k + rs.toNat / 16) ∨ (rs = 0xF0 ∧ last + 1 < k + 16)

/-- A command that reads the DC and the 63 AC values of a block and raises MalformedStream for a DC category above
15, for a run or a ZRL past k = 63, and for an EOBn symbol (R454, R457, R555). -/
def trapsBlock (run : Host.Outcome State Fault Refusal) (s : State) (c : Fin 4) : Prop :=
  (∀ sym : Byte, 15 < sym.toNat → trapsItems run s [.sym .dc (s.cfg.dctbl c) sym]) ∧
  (s.cfg.se = 63 → ∀ (diff : Int) (k z : Nat) (vs : List Int) (ac : List UnitItem) (rs : Byte),
    diff.natAbs < 2 ^ 15 → reaches (s.cfg.actbl c) 1 k vs z ac → k ≤ 63 →
    passesEnd k 63 rs ∨ (rs.toNat % 16 = 0 ∧ 1 ≤ rs.toNat / 16 ∧ rs.toNat / 16 ≤ 14) →
    trapsItems run s
      (valueItems .dc (s.cfg.dctbl c) 0 diff ++ ac ++ [.sym .ac (s.cfg.actbl c) rs]))

/-- One sample of a lossless scan: the symbol of its category in the component's DC table, then the extra bits,
none for -32768, whose category is 16 (R540, R541); read back as the sample times 2^AL, a category above 16 raising
MalformedStream (R542). In MEASURE a symbol
without code is counted (R354; log entry 24). -/
def Obligations.LosslessSamples : Prop :=
  ∀ (s : State) (c : Fin 4) (u : Block) (diff : Int) (items : List UnitItem),
    s.cfg.kind = .diffLossless → oneUnit s c u → -32768 ≤ diff → diff ≤ 32767 →
    items = (if diff = -32768 then [.sym .dc (s.cfg.dctbl c) 16]
      else valueItems .dc (s.cfg.dctbl c) 0 diff) →
    (writesUnits s → (∃ m : Int, u[0].toInt / 2 ^ s.cfg.al = diff + 65536 * m) →
      writesItems (exec .epWriteMcu s) s (s.afterMcu.afterUnits id) items) ∧
    (readsUnits s c →
      readsItems (exec .epParseMcu s) s
        (s.afterMcu.afterUnits fun _ => u.set 0 (BitVec.ofInt 32 (diff * 2 ^ s.cfg.al))) items ∧
      ∀ sym : Byte, 16 < sym.toNat →
        trapsItems (exec .epParseMcu s) s [.sym .dc (s.cfg.dctbl c) sym])

/-- One block of SEQ_HUFF with its DC, sequential or of a progressive DC scan (R453–R457): EP_WRITE_MCU codes the
DC difference, the AC values and the end of the block; EP_PARSE_MCU reads them back into the block, scaled by
2^AL, and raises MalformedStream for the symbols that R454 and R457 refuse. PRED_DC becomes the DC, and nothing else
changes but the counters, EOB_TBL in WRITE and MEASURE, and the channel or the statistics. In MEASURE a symbol
without code is counted (R354; log entry 24). -/
def Obligations.SequentialHuffmanBlocks : Prop :=
  ∀ (s : State) (c : Fin 4) (u : Block), s.cfg.kind = .seqHuff → s.cfg.ss = 0 → oneUnit s c u →
    (writesUnits s → ∀ (dc diff : Int) (vs : List Int), dc = u[0].toInt / 2 ^ s.cfg.al →
      diff = dc - s.scan.predDc[c].toInt →
      vs = (bandPositions s.cfg).map (unitValue s.cfg u) →
      (∀ v ∈ diff :: vs, v.natAbs < 2 ^ 15) →
      writesItems (exec .epWriteMcu s) s
        { s.afterMcu.afterUnits id with scan := { s.afterMcu.scan with
          predDc := s.scan.predDc.set c (BitVec.ofInt 32 dc), eobTbl := s.cfg.actbl c } }
        (blockItems s.cfg c diff vs)) ∧
    (readsUnits s c → ∀ (diff : Int) (v : Nat → Int) (dc : Word), diff.natAbs < 2 ^ 15 →
      (∀ k, (v k).natAbs < 2 ^ 15) → dc = s.scan.predDc[c] + BitVec.ofInt 32 diff →
      ∃ w : Block,
        (∀ k, k < 64 → w[zz k] =
          if k = 0 then BitVec.ofInt 32 (dc.toInt * 2 ^ s.cfg.al)
          else if k ≤ s.cfg.se then BitVec.ofInt 32 (v k) else u[zz k]) ∧
        readsItems (exec .epParseMcu s) s
          { s.afterMcu.afterUnits (fun _ => w) with scan := { s.afterMcu.scan with
            predDc := s.scan.predDc.set c dc } }
          (blockItems s.cfg c diff ((bandPositions s.cfg).map v))) ∧
    (readsUnits s c → trapsBlock (exec .epParseMcu s) s c)

/-- The pending run of n bands, in `EmitEOBRun`'s order: EOBr, the bits of n below its top bit, and the correction
bits (R462, R512). -/
def runItems (tbl : Fin 4) (n : Nat) (be : List Bool) : List UnitItem :=
  if n = 0 then []
  else .sym .ac tbl (BitVec.ofNat 8 (16 * n.log2)) :: .bits n.log2 n ::
    be.map fun b => .bits 1 b.toNat

/-- A band of an AC scan with a run, with the EOBRUN and the BE it leaves (R461, R504, R505): `body` its symbols,
before which the pending run is emitted, and `tail` the correction bits past its last symbol, if the band does not
end with it. The run then counts up, and is emitted at its cap or when BE is too long. -/
def bandItems (tbl : Fin 4) (r : ScanRegs) (body : List UnitItem) (tail : Option (List Bool)) :
    List UnitItem × Nat × List Bool :=
  let before := if body = [] then [] else runItems tbl r.eobrun.toNat r.be
  let n := if body = [] then r.eobrun.toNat else 0
  let be := if body = [] then r.be else []
  match tail with
  | none => (before ++ body, n, be)
  | some br =>
    if n + 1 = 0x7FFF ∨ Config.corrBitsMax - 63 < (be ++ br).length then
      (before ++ body ++ runItems tbl (n + 1) (be ++ br), 0, [])
    else (before ++ body, n + 1, be ++ br)

/-- The registers a band leaves in WRITE and MEASURE: EOBRUN, BE and EOB_TBL. -/
def afterBand (s : State) (c : Fin 4) (b : List UnitItem × Nat × List Bool) : State :=
  { s.afterMcu.afterUnits id with scan := { s.afterMcu.scan with
    eobrun := BitVec.ofNat 16 b.2.1, be := b.2.2, eobTbl := s.cfg.actbl c } }

/-- One band of a progressive Huffman AC scan (R461–R463). EP_WRITE_MCU: a band of zeros only counts in EOBRUN;
any other first emits the pending run, and then its values, zeros at its end starting a new run. EP_PARSE_MCU:
inside a run EOBRUN counts down, nothing is read, and the band is cleared; otherwise the values are read back,
scaled by 2^AL, and zeros at the end come as a run of n bands, this one the first; a run or a ZRL past SE raises
MalformedStream. In MEASURE a symbol without
code is counted (R354; log entry 24). -/
def Obligations.ProgressiveHuffmanBands : Prop :=
  ∀ (s : State) (c : Fin 4) (u : Block), s.cfg.kind = .seqHuff → s.cfg.progressive = true →
    0 < s.cfg.ss → oneUnit s c u →
    (writesUnits s → s.runOk = true → ∀ vs : List Int,
      vs = (bandPositions s.cfg).map (unitValue s.cfg u) → (∀ v ∈ vs, v.natAbs < 2 ^ 15) →
      ∀ b, b = bandItems (s.cfg.actbl c) s.scan (acItems (s.cfg.actbl c) 0 vs)
        (if vs.getLast? = some 0 then some [] else none) →
      writesItems (exec .epWriteMcu s) s (afterBand s c b) b.1) ∧
    (readsUnits s c → s.scan.eobrun ≠ 0 →
      ∃ w : Block,
        (∀ k, k < 64 → w[zz k] = if s.cfg.ss ≤ k ∧ k ≤ s.cfg.se then 0 else u[zz k]) ∧
        exec .epParseMcu s =
          .next { s.afterMcu.afterUnits (fun _ => w) with scan := { s.afterMcu.scan with
            eobrun := s.scan.eobrun - 1 } }) ∧
    (readsUnits s c → s.scan.eobrun = 0 → ∀ (v : Nat → Int) (vs : List Int) (n : Nat),
      (∀ k, (v k).natAbs < 2 ^ 15) → vs = (bandPositions s.cfg).map v →
      (if vs.getLast? = some 0 then 1 ≤ n ∧ n ≤ 0x7FFF else n = 0) →
      ∃ w : Block,
        (∀ k, k < 64 → w[zz k] =
          if s.cfg.ss ≤ k ∧ k ≤ s.cfg.se then BitVec.ofInt 32 (v k * 2 ^ s.cfg.al) else u[zz k]) ∧
        readsItems (exec .epParseMcu s) s
          { s.afterMcu.afterUnits (fun _ => w) with scan := { s.afterMcu.scan with
            eobrun := BitVec.ofNat 16 (n - 1) } }
          (acItems (s.cfg.actbl c) 0 vs ++ runItems (s.cfg.actbl c) n [])) ∧
    (readsUnits s c → s.scan.eobrun = 0 →
      ∀ (k z : Nat) (vs : List Int) (ac : List UnitItem) (rs : Byte),
      reaches (s.cfg.actbl c) s.cfg.ss k vs z ac → k ≤ s.cfg.se → passesEnd k s.cfg.se rs →
      trapsItems (exec .epParseMcu s) s (ac ++ [.sym .ac (s.cfg.actbl c) rs]))

/-- `t(k)` of a unit (R502). -/
def refMagnitude (al : Nat) (u : Block) (k : Nat) : Nat := (coef u k).natAbs / 2 ^ al

/-- The correction bits of the positions with a previously nonzero coefficient (R504). -/
def correctionBits (al : Nat) (u : Block) (ks : List Nat) : List Bool :=
  (ks.filter fun k => decide (2 ≤ refMagnitude al u k)).map fun k =>
    decide (refMagnitude al u k % 2 = 1)

/-- The symbols of a REF_HUFF band up to its last newly nonzero coefficient, from a run of r zeros and the queue
`br` on (R504): every symbol is followed by the correction bits of the run it ends. -/
def refHuffItems (tbl : Fin 4) (al : Nat) (u : Block) : Nat → List Bool → List Nat → List UnitItem
  | _, _, [] => []
  | r, br, k :: ks =>
    if refMagnitude al u k = 0 then refHuffItems tbl al u (r + 1) br ks
    else
      let raw := br.map fun b => UnitItem.bits 1 b.toNat
      let zrls : List UnitItem := if r < 16 then []
        else .sym .ac tbl 0xF0 :: raw ++ List.replicate (r / 16 - 1) (.sym .ac tbl 0xF0)
      zrls ++
        if 2 ≤ refMagnitude al u k then
          refHuffItems tbl al u (r % 16)
            ((if r < 16 then br else []) ++ [decide (refMagnitude al u k % 2 = 1)]) ks
        else
          .sym .ac tbl (BitVec.ofNat 8 (16 * (r % 16) + 1)) ::
            .bits 1 (if 0 < coef u k then 1 else 0) :: (if r < 16 then raw else []) ++
            refHuffItems tbl al u 0 [] ks

/-- The symbols of the REF_HUFF band of unit u, and the correction bits past the last newly nonzero coefficient,
if the band does not end with it (R504). -/
def refHuffBand (cfg : CfgRegs) (c : Fin 4) (u : Block) : List UnitItem × Option (List Bool) :=
  let ks := cutAfterLast (fun k => decide (refMagnitude cfg.al u k = 1)) (bandPositions cfg)
  (refHuffItems (cfg.actbl c) cfg.al u 0 [] ks.1,
    if ks.2 = [] then none else some (correctionBits cfg.al u ks.2))

/-- Coefficient b refines coefficient a by the bit of weight 2^al (R500, R503): a zero stays or becomes ±2^al;
another, whose bits below the last scan's are 0, keeps its sign and may gain the bit. -/
abbrev refines (al : Nat) (a b : Int) : Prop :=
  (a = 0 ∧ (b = 0 ∨ b = 2 ^ al ∨ b = -2 ^ al)) ∨
  (2 ≤ a.natAbs / 2 ^ al ∧ a.natAbs / 2 ^ al % 2 = 0 ∧ (b = a ∨ b = a + a.sign * 2 ^ al))

/-- Unit w refines unit u in the AC band, and is the same elsewhere. -/
abbrev refinesUnit (cfg : CfgRegs) (u w : Block) : Prop :=
  (∀ k ∈ bandPositions cfg, refines cfg.al (coef u k) (coef w k)) ∧
    ∀ k, k < 64 → k ∉ bandPositions cfg → w[zz k] = u[zz k]

/-- One band of a REF_HUFF AC scan (R504–R506, R512). EP_WRITE_MCU: the pending run before the first symbol, the
symbols of the newly nonzero coefficients with the correction bits of the runs before them, and the rest of the
band counted in EOBRUN and queued in BE. EP_PARSE_MCU reads the symbols of a refined unit back into it, the rest
of its band as a run of n bands with its correction bits; inside a run it reads only correction bits. A symbol of
size 2 or more, at the band's start or after a newly nonzero coefficient, raises MalformedStream, and so does one
whose run no zero coefficient of the rest of the band ends, once the correction bits it passes are read (R507). In
MEASURE a symbol without code is counted (R354; log entry 24). -/
def Obligations.RefHuffBands : Prop :=
  ∀ (s : State) (c : Fin 4) (u : Block), s.cfg.kind = .refHuff → 0 < s.cfg.ss → oneUnit s c u →
    (writesUnits s → s.runOk = true →
      ∀ b, b = bandItems (s.cfg.actbl c) s.scan (refHuffBand s.cfg c u).1 (refHuffBand s.cfg c u).2 →
      writesItems (exec .epWriteMcu s) s (afterBand s c b) b.1) ∧
    (readsUnits s c → ∀ w : Block, refinesUnit s.cfg u w →
      (s.scan.eobrun = 0 → ∀ (n : Nat) (br : List Bool), (refHuffBand s.cfg c w).2.getD [] = br →
        (if (refHuffBand s.cfg c w).2 = none then n = 0 else 1 ≤ n ∧ n ≤ 0x7FFF) →
        readsItems (exec .epParseMcu s) s
          { s.afterMcu.afterUnits (fun _ => w) with scan := { s.afterMcu.scan with
            eobrun := BitVec.ofNat 16 (n - 1) } }
          ((refHuffBand s.cfg c w).1 ++ runItems (s.cfg.actbl c) n br)) ∧
      (s.scan.eobrun ≠ 0 → (refHuffBand s.cfg c w).1 = [] →
        readsItems (exec .epParseMcu s) s
          { s.afterMcu.afterUnits (fun _ => w) with scan := { s.afterMcu.scan with
            eobrun := s.scan.eobrun - 1 } }
          ((correctionBits s.cfg.al w (bandPositions s.cfg)).map fun b => .bits 1 b.toNat)) ∧
      (s.scan.eobrun = 0 →
        ∀ (ks rest : List Nat) (rs : Byte) (sign : List UnitItem) (bits : List Bool) (pre : List UnitItem),
        ks ++ rest = bandPositions s.cfg → rest ≠ [] →
        (∀ k, ks.getLast? = some k → refMagnitude s.cfg.al w k = 1) →
        pre = refHuffItems (s.cfg.actbl c) s.cfg.al w 0 [] ks ++ [.sym .ac (s.cfg.actbl c) rs] →
        (2 ≤ rs.toNat % 16 → trapsItems (exec .epParseMcu s) s pre) ∧
        ((rs.toNat % 16 = 1 ∧ (∃ b : Bool, sign = [.bits 1 b.toNat])) ∨ (rs = 0xF0 ∧ sign = []) →
          (rest.filter fun k => decide (coef u k = 0)).length ≤ rs.toNat / 16 →
          bits.length = (rest.filter fun k => decide (coef u k ≠ 0)).length →
          trapsItems (exec .epParseMcu s) s
            (pre ++ sign ++ bits.map fun b => .bits 1 b.toNat))))

/-! ### What a unit of the QM kinds is coded as -/

/-- Decisions written by QM_ENCODE one after another, each in its context. -/
def encodeAll : List (Nat × Bool) → State → Option State
  | [], s => some s
  | (a, d) :: rest, s =>
    match exec (.qmEncode (BitVec.ofNat 11 a) d) s with
    | .next t => if t.status = s.status then encodeAll rest t else none
    | .fault _ | .refused _ => none

/-- QM_DECODE of these contexts one after another, where it gives these decisions. -/
def decodeAll : List (Nat × Bool) → State → Option State
  | [], s => some s
  | (a, d) :: rest, s =>
    match exec (.qmDecode (BitVec.ofNat 11 a)) s with
    | .next t =>
      if t.status = s.status ∧ t.result = (if d then 1 else 0) then decodeAll rest t else none
    | .fault _ | .refused _ => none

/-- `t` with the coder, the contexts and the streams of `q`. -/
def withCoderOf (q t : State) : State :=
  { t with
    qm := q.qm, bc := q.bc, ctx := q.ctx
    ports := { t.ports with primary := q.ports.primary, aux := q.ports.aux } }

/-- A command that writes the decisions `ds` as QM_ENCODE writes them one after another, everything else it does
giving `t`. -/
def writesDecisions (run : Host.Outcome State Fault Refusal) (s t : State) (ds : List (Nat × Bool)) :
    Prop :=
  ∃ q, encodeAll ds (outsideScan s) = some q ∧ run = .next (withCoderOf q t)

/-- A command that, where QM_DECODE gives the decisions `ds` one after another, reads exactly them, everything
else it does giving `t`. -/
def readsDecisions (run : Host.Outcome State Fault Refusal) (s t : State) (ds : List (Nat × Bool)) : Prop :=
  ∀ q, decodeAll ds (outsideScan s) = some q → run = .next (withCoderOf q t)

/-- A command that, where QM_DECODE gives the decisions `ds` one after another, raises MalformedStream. -/
def trapsDecisions (run : Host.Outcome State Fault Refusal) (s : State) (ds : List (Nat × Bool)) : Prop :=
  ∀ q, decodeAll ds (outsideScan s) = some q → failsReading run s .malformedStream

/-- A magnitude no encoder writes: not 0, and fifteen times a higher category (R330). -/
def endlessMagnitude (first : Nat) (x : Nat → Nat) : List (Nat × Bool) :=
  (first, true) :: (List.range 15).map fun i => (x i, true)

/-- The magnitude sz: whether it is 0, its category, then the bits below its top bit, in the bins `x` and `m`
(R329). -/
def magnitudeDecisions (sz first : Nat) (x m : Nat → Nat) : List (Nat × Bool) :=
  if sz = 0 then [(first, false)]
  else (first, true) :: (List.range sz.log2).map (fun i => (x i, true)) ++
    (x sz.log2, false) :: (bitsOf sz.log2 sz).map fun b => (m sz.log2, b)

/-- The class base of the previous DC difference (R325). -/
def dcClassBase (cfg : CfgRegs) (c : Fin 4) (da : Int) : Nat :=
  if da.natAbs ≤ cfg.small c then 0
  else if da.natAbs ≤ cfg.large c then (if 0 < da then 4 else 8)
  else if 0 < da then 12 else 16

/-- The DC difference: zero or not, its sign, its magnitude, in the DC area of the component (R322, R328,
R470). -/
def dcDecisions (s : State) (c : Fin 4) (diff : Int) : List (Nat × Bool) :=
  let d := 64 * (s.cfg.dctbl c).val
  let cb := dcClassBase s.cfg c s.scan.predDiff[c].toInt
  if diff = 0 then [(d + cb, false)]
  else (d + cb, true) :: (d + cb + 1, decide (diff < 0)) ::
    magnitudeDecisions (diff.natAbs - 1) (if diff < 0 then d + cb + 3 else d + cb + 2)
      (fun i => d + 20 + i) (fun i => d + 34 + i)

/-- The bins SE, S0 and SP of AC position k: j = 0, 1, 2 (R323). -/
def acBin (cfg : CfgRegs) (c : Fin 4) (k j : Nat) : Nat :=
  256 + 256 * (cfg.actbl c).val + 3 * (k - 1) + j

/-- The magnitude of the AC value at position k, in the low or the high set by KX (R326, R328). -/
def acMagnitude (cfg : CfgRegs) (c : Fin 4) (k sz : Nat) : List (Nat × Bool) :=
  let set := 256 + 256 * (cfg.actbl c).val + if k ≤ cfg.kx c then 189 else 217
  magnitudeDecisions sz (acBin cfg c k 2)
    (fun i => if i = 0 then acBin cfg c k 2 else set + (i - 1)) (fun i => set + 14 + (i - 1))

/-- The values v at positions up to the last nonzero one (R472). `inRun` says that the block was already said to
go on, at the head of a run of zeros. -/
def acDecisions (cfg : CfgRegs) (c : Fin 4) (v : Nat → Int) : Bool → List Nat → List (Nat × Bool)
  | _, [] => []
  | inRun, k :: ks =>
    (if inRun then [] else [(acBin cfg c k 0, false)]) ++
      if v k = 0 then (acBin cfg c k 1, false) :: acDecisions cfg c v true ks
      else (acBin cfg c k 1, true) :: (1280, decide (v k < 0)) ::
        acMagnitude cfg c k ((v k).natAbs - 1) ++ acDecisions cfg c v false ks

/-- The end-of-block decision at the first of these positions, if there is one (R472, R521). -/
def endDecision (cfg : CfgRegs) (c : Fin 4) : List Nat → List (Nat × Bool)
  | [] => []
  | k :: _ => [(acBin cfg c k 0, true)]

/-- The AC values v of a band (R472). -/
def bandDecisions (cfg : CfgRegs) (c : Fin 4) (v : Nat → Int) (positions : List Nat) :
    List (Nat × Bool) :=
  let ks := cutAfterLast (fun k => decide (v k ≠ 0)) positions
  acDecisions cfg c v false ks.1 ++ endDecision cfg c ks.2

/-- A command that reads the AC values of a band and raises MalformedStream for a magnitude with fifteen higher
categories and for a run of zeros past the band's end (R330, R473). `dc` are the decisions before the band. -/
def trapsBand (run : Host.Outcome State Fault Refusal) (s : State) (c : Fin 4) (dc : List (Nat × Bool))
    (positions : List Nat) : Prop :=
  ∀ v : Nat → Int, (∀ k, (v k).natAbs ≤ 2 ^ 15) →
    (∀ (ks rest : List Nat) (k : Nat) (b : Bool) (set : Nat), ks ++ k :: rest = positions →
      set = 256 + 256 * (s.cfg.actbl c).val + (if k ≤ s.cfg.kx c then 189 else 217) →
      trapsDecisions run s
        (dc ++ acDecisions s.cfg c v false ks ++
          (if ks.getLast?.map v = some 0 then [] else [(acBin s.cfg c k 0, false)]) ++
          (acBin s.cfg c k 1, true) :: (1280, b) ::
            endlessMagnitude (acBin s.cfg c k 2)
              (fun i => if i = 0 then acBin s.cfg c k 2 else set + (i - 1)))) ∧
    (positions.getLast?.map v = some 0 →
      trapsDecisions run s (dc ++ acDecisions s.cfg c v false positions))

/-- A command that reads the DC and then the AC band of a QM block, with the traps of both (R330, R470, R473). -/
def trapsQmBlock (run : Host.Outcome State Fault Refusal) (s : State) (c : Fin 4)
    (positions : List Nat) : Prop :=
  (s.cfg.ss = 0 → ∀ (b : Bool) (d cb : Nat), d = 64 * (s.cfg.dctbl c).val →
    cb = dcClassBase s.cfg c s.scan.predDiff[c].toInt →
    trapsDecisions run s ((d + cb, true) :: (d + cb + 1, b) ::
      endlessMagnitude (if b then d + cb + 3 else d + cb + 2) (fun i => d + 20 + i))) ∧
  ∀ diff : Int, diff.natAbs ≤ 2 ^ 15 →
    trapsBand run s c (if s.cfg.ss = 0 then dcDecisions s c diff else []) positions

/-- One block or band of SEQ_AC (R470–R475): EP_WRITE_MCU codes the decisions of the DC difference and of the AC
values, each as QM_ENCODE codes it; where QM_DECODE gives these decisions EP_PARSE_MCU reads them back, scaled
by 2^AL, and where it gives decisions no encoder writes EP_PARSE_MCU raises MalformedStream (R330, R473).
PRED_DC becomes the DC and PRED_DIFF the difference, and nothing else changes but the counters, the coder, the
contexts and the channel. -/
def Obligations.SequentialAcBlocks : Prop :=
  ∀ (s : State) (c : Fin 4) (u : Block), s.cfg.kind = .seqAc → oneUnit s c u → s.sound →
    (s.status.state = .write → ∀ (dc diff : Int), dc = u[0].toInt / 2 ^ s.cfg.al →
      diff = dc - s.scan.predDc[c].toInt → (s.cfg.ss = 0 → diff.natAbs ≤ 2 ^ 15) →
      (∀ k ∈ bandPositions s.cfg, (unitValue s.cfg u k).natAbs ≤ 2 ^ 15) →
      writesDecisions (exec .epWriteMcu s) s
        { s.afterMcu.afterUnits id with scan := if s.cfg.ss = 0 then
            { s.afterMcu.scan with
              predDc := s.scan.predDc.set c (BitVec.ofInt 32 dc)
              predDiff := s.scan.predDiff.set c (BitVec.ofInt 32 diff) }
          else s.afterMcu.scan }
        ((if s.cfg.ss = 0 then dcDecisions s c diff else []) ++
          bandDecisions s.cfg c (unitValue s.cfg u) (bandPositions s.cfg))) ∧
    (s.status.state = .parse → s.status.segValid = true →
      ∀ (diff : Int) (v : Nat → Int) (dc : Word), diff.natAbs ≤ 2 ^ 15 →
      (∀ k, (v k).natAbs ≤ 2 ^ 15) → dc = s.scan.predDc[c] + BitVec.ofInt 32 diff →
      ∃ w : Block,
        (∀ k, k < 64 → w[zz k] =
          if s.cfg.ss ≤ k ∧ k ≤ s.cfg.se then
            BitVec.ofInt 32 ((if k = 0 then dc.toInt else v k) * 2 ^ s.cfg.al)
          else u[zz k]) ∧
        readsDecisions (exec .epParseMcu s) s
          { s.afterMcu.afterUnits (fun _ => w) with scan := if s.cfg.ss = 0 then
              { s.afterMcu.scan with
                predDc := s.scan.predDc.set c dc
                predDiff := s.scan.predDiff.set c (BitVec.ofInt 32 diff) }
            else s.afterMcu.scan }
          ((if s.cfg.ss = 0 then dcDecisions s c diff else []) ++
            bandDecisions s.cfg c v (bandPositions s.cfg))) ∧
    (s.status.state = .parse → s.status.segValid = true →
      trapsQmBlock (exec .epParseMcu s) s c (bandPositions s.cfg))

/-- The band of a REF_AC unit up to its last nonzero coefficient (R521): a correction bit, or whether the
coefficient is newly nonzero and its sign. Past position `eobx` a decision says first that the band goes on, not
inside a run of zeros (`inRun`). -/
def refAcDecisions (cfg : CfgRegs) (c : Fin 4) (eobx : Nat) (u : Block) :
    Bool → List Nat → List (Nat × Bool)
  | _, [] => []
  | inRun, k :: ks =>
    (if inRun = true ∨ k ≤ eobx then [] else [(acBin cfg c k 0, false)]) ++
      if refMagnitude cfg.al u k = 0 then
        (acBin cfg c k 1, false) :: refAcDecisions cfg c eobx u true ks
      else if refMagnitude cfg.al u k = 1 then
        (acBin cfg c k 1, true) :: (1280, decide (coef u k < 0)) ::
          refAcDecisions cfg c eobx u false ks
      else
        (acBin cfg c k 2, decide (refMagnitude cfg.al u k % 2 = 1)) ::
          refAcDecisions cfg c eobx u false ks

/-- The decisions of a REF_AC band (R521). -/
def refAcBand (cfg : CfgRegs) (c : Fin 4) (u : Block) : List (Nat × Bool) :=
  let ks := cutAfterLast (fun k => decide (1 ≤ refMagnitude cfg.al u k)) (bandPositions cfg)
  let eobx := ((bandPositions cfg).filter fun k => decide (2 ≤ refMagnitude cfg.al u k)).getLast?.getD 0
  refAcDecisions cfg c eobx u false ks.1 ++ endDecision cfg c ks.2

/-- One unit of REF_AC (R520–R522). A DC scan: bit AL of the DC is one decision of the uniform context, ORed in
when read (R501). An AC scan: the decisions of the band, and where QM_DECODE gives the decisions of a unit that
refines the one handed over, that unit is handed back; a run of zeros past the band's end raises MalformedStream
(R522). -/
def Obligations.RefAcUnits : Prop :=
  ∀ (s : State) (c : Fin 4) (u : Block), s.cfg.kind = .refAc → oneUnit s c u → s.sound →
    (s.cfg.ss = 0 →
      (s.status.state = .write →
        writesDecisions (exec .epWriteMcu s) s (s.afterMcu.afterUnits id)
          [(1280, decide (u[0].toInt / 2 ^ s.cfg.al % 2 = 1))]) ∧
      (s.status.state = .parse → s.status.segValid = true → ∀ d : Bool,
        readsDecisions (exec .epParseMcu s) s
          (s.afterMcu.afterUnits fun _ =>
            if d then u.set 0 (u[0] ||| BitVec.ofNat 32 (2 ^ s.cfg.al)) else u)
          [(1280, d)])) ∧
    (0 < s.cfg.ss →
      (s.status.state = .write →
        writesDecisions (exec .epWriteMcu s) s (s.afterMcu.afterUnits id) (refAcBand s.cfg c u)) ∧
      (s.status.state = .parse → s.status.segValid = true → ∀ w : Block, refinesUnit s.cfg u w →
        readsDecisions (exec .epParseMcu s) s (s.afterMcu.afterUnits fun _ => w)
            (refAcBand s.cfg c w) ∧
          ∀ eobx : Nat, eobx = ((bandPositions s.cfg).filter fun k =>
              decide (2 ≤ refMagnitude s.cfg.al w k)).getLast?.getD 0 →
            (bandPositions s.cfg).getLast?.map (refMagnitude s.cfg.al w) = some 0 →
            trapsDecisions (exec .epParseMcu s) s
              (refAcDecisions s.cfg c eobx w false (bandPositions s.cfg))))

/-! ### What a unit of the residual kinds is coded as -/

/-- The scan registers after a residual unit with the DC r0, which leaves these predictors in the kinds that have
them (R553, R556). -/
def afterResidual (s : State) (c : Fin 4) (r0 : Int) (predDc predDiff : Word) : ScanRegs :=
  { s.afterMcu.scan with
    biasB := (s.biasUpdate c r0).scan.biasB
    biasN := (s.biasUpdate c r0).scan.biasN
    predDc := if s.cfg.kind = .residualSeq then s.scan.predDc.set c predDc else s.scan.predDc
    predDiff := if s.cfg.kind = .residualAc then s.scan.predDiff.set c predDiff else s.scan.predDiff }

/-- The code of a block as symbols and bits, if it has no decision. -/
def symbolItems : List CodeItem → Option (List UnitItem)
  | [] => some []
  | .symbol cls tbl sym :: rest => (symbolItems rest).map (.sym cls tbl sym :: ·)
  | .bit b :: rest => (symbolItems rest).map (.bits 1 b.toNat :: ·)
  | .decision _ _ :: _ => none

/-- The code of a block as decisions, if it has nothing else. -/
def decisionItems : List CodeItem → Option (List (Nat × Bool))
  | [] => some []
  | .decision ctx d :: rest => (decisionItems rest).map ((ctx.toNat, d) :: ·)
  | .symbol _ _ _ :: _ | .bit _ :: _ => none

/-- The block a residual kind codes for a unit (R552). -/
abbrev residualBlock (cfg : CfgRegs) (u : Block) : Block :=
  if cfg.hadamard then Config.hadamardFwd u else u

/-- A residual coding other than the reference one, on a DC value and AC values it can code, `items` their code and
`e` what the writer's steps leave: these are decisions for RESIDUAL_AC, symbols and bits for the others; the writer of a
block with these values writes `items`, and a parser that is given `items` decodes that DC value and is left with the
same predictors. -/
def codesBlocks (k : BlockCoding) (s : State) (c : Fin 4) (u : Block) : Prop :=
  ∀ (dc : Int) (vals : List Int) (items : List CodeItem) (e : BlockEnd),
    k.codable (s.residualView c) dc vals = true →
    items = (k.put (s.residualView c) dc vals).flatMap PutStep.items →
    e = (k.put (s.residualView c) dc vals).foldl PutStep.leave ((s.residualView c).start dc) →
    (s.cfg.kind = .residualAc → (decisionItems items).isSome) ∧
    (s.cfg.kind ≠ .residualAc → (symbolItems items).isSome) ∧
    (∀ (r : Block) (t : State), r = residualBlock s.cfg u → dc = r[0].toInt - s.biasOffset c →
      vals = (List.range' 1 63).map (fun n => coef r n) →
      t = { s.afterMcu.afterUnits id with
        scan := { afterResidual s c r[0].toInt e.predDc e.predDiff with
          eobTbl := if s.cfg.kind = .residualAc then s.scan.eobTbl else s.cfg.actbl c } } →
      (s.cfg.kind = .residualAc → s.status.state = .write → ∀ ds, decisionItems items = some ds →
        writesDecisions (writeMcuWith (.other k) s) s t ds) ∧
      (s.cfg.kind ≠ .residualAc → writesUnits s → ∀ us, symbolItems items = some us →
        writesItems (writeMcuWith (.other k) s) s t us)) ∧
    (s.status.state = .parse → ∀ r0 : Word, r0 = BitVec.ofInt 32 (dc + s.biasOffset c) →
      ∃ (r : Block) (t : State), r[0] = r0 ∧
        t = { s.afterMcu.afterUnits
            (fun _ => if s.cfg.hadamard then Config.hadamardInv r else r) with
          scan := afterResidual s c r0.toInt e.predDc e.predDiff } ∧
        (s.cfg.kind = .residualAc → ∀ ds, decisionItems items = some ds →
          readsDecisions (parseMcuWith (.other k) s) s t ds) ∧
        (s.cfg.kind ≠ .residualAc → ∀ us, symbolItems items = some us →
          readsItems (parseMcuWith (.other k) s) s t us))

/-- One block of a residual kind (R550–R556). By the reference value of the OPEN parameter RESIDUAL_CODING the
block, or its Hadamard transform, codes its DC less the estimator's offset, for RESIDUAL_SEQ less the predictor
too, and its 63 AC values, RESIDUAL_AC as SEQ_AC codes decisions and the others as SEQ_HUFF codes symbols; read
back, the offset is added and the transform inverted. Both update the estimator by the block's DC.
The traps of R454, R457, R330 and R473 hold of it too (R555). By any other coding the writer codes the same DC value,
a parser given that code decodes it, and B, N and the predictors end equal on both sides (R550, R553; log entry 9).
The parser's commands take the machine's own coding.
In MEASURE a symbol without code is counted (R354; log entry 24). -/
def Obligations.ResidualBlocks : Prop :=
  (∀ s : State, exec .epWriteMcu s = writeMcuWith Config.residualCoding s ∧
    exec .epParseMcu s = parseMcuWith Config.residualCoding s) ∧
  ∀ (s : State) (c : Fin 4) (u : Block), s.cfg.kind.isResidual = true → oneUnit s c u → s.sound →
    (∀ k : BlockCoding, codesBlocks k s c u) ∧
    (∀ (r : Block) (dc d : Int) (v : Nat → Int) (t : State), r = residualBlock s.cfg u →
      dc = r[0].toInt - s.biasOffset c →
      d = (if s.cfg.kind = .residualSeq then dc - s.scan.predDc[c].toInt else dc) →
      v = (fun k => coef r k) →
      t = { s.afterMcu.afterUnits id with scan := {
          afterResidual s c r[0].toInt (BitVec.ofInt 32 dc) (BitVec.ofInt 32 dc) with
        eobTbl := if s.cfg.kind = .residualAc then s.scan.eobTbl else s.cfg.actbl c } } →
      (s.cfg.kind = .residualAc → s.status.state = .write → d.natAbs ≤ 2 ^ 15 →
        (∀ k, 1 ≤ k → k < 64 → (v k).natAbs ≤ 2 ^ 15) →
        writesDecisions (writeMcuWith .reference s) s t
          (dcDecisions s c d ++ bandDecisions s.cfg c v (List.range' 1 63))) ∧
      (s.cfg.kind ≠ .residualAc → writesUnits s → d.natAbs < 2 ^ 15 →
        (∀ k, 1 ≤ k → k < 64 → (v k).natAbs < 2 ^ 15) →
        writesItems (writeMcuWith .reference s) s t
          (blockItems s.cfg c d ((List.range' 1 63).map v)))) ∧
    (s.status.state = .parse → ∀ (d dc : Int) (v : Nat → Int) (r0 : Word),
      dc = (if s.cfg.kind = .residualSeq then (s.scan.predDc[c] + BitVec.ofInt 32 d).toInt else d) →
      r0 = BitVec.ofInt 32 (dc + s.biasOffset c) →
      ∃ (r : Block) (t : State), r[0] = r0 ∧
        (∀ k, 1 ≤ k → k < 64 → r[zz k] = BitVec.ofInt 32 (v k)) ∧
        t = { s.afterMcu.afterUnits
            (fun _ => if s.cfg.hadamard then Config.hadamardInv r else r) with
          scan := afterResidual s c r0.toInt (BitVec.ofInt 32 dc) (BitVec.ofInt 32 dc) } ∧
        (s.cfg.kind = .residualAc → d.natAbs ≤ 2 ^ 15 → (∀ k, (v k).natAbs ≤ 2 ^ 15) →
          readsDecisions (parseMcuWith .reference s) s t
            (dcDecisions s c d ++ bandDecisions s.cfg c v (List.range' 1 63))) ∧
        (s.cfg.kind ≠ .residualAc → d.natAbs < 2 ^ 15 → (∀ k, (v k).natAbs < 2 ^ 15) →
          readsItems (parseMcuWith .reference s) s t
            (blockItems s.cfg c d ((List.range' 1 63).map v)))) ∧
    (s.status.state = .parse →
      (s.cfg.kind = .residualAc → trapsQmBlock (parseMcuWith .reference s) s c (List.range' 1 63)) ∧
      (s.cfg.kind ≠ .residualAc → trapsBlock (parseMcuWith .reference s) s c))

/-! ### What the MCU commands count, and restarts -/

/-- The state in which the next MCU is one unit of component c, and no restart is due. -/
def unitAlone (s : State) (c : Fin 4) : State :=
  { s with
    cfg := { s.cfg with mcuMap := BitVec.ofNat 32 (1 + 16 * c.val), mcuGeom := 1, restartInterval := 0 }
    scan := { s.scan with mcuInRow := 0 }
    status := { s.status with rowActive := true } }

/-- `t` with the configuration and the counters of `s`. -/
def withCountersOf (s t : State) : State :=
  { t with
    cfg := s.cfg, result := s.result
    scan := { t.scan with mcuInRow := s.scan.mcuInRow }
    status := { t.status with rowActive := s.status.rowActive } }

/-- An MCU of the units of these components, where each is coded as an MCU of one unit, in order, from the state
the one before it leaves. A unit that ends in an error gives the state of that error. -/
def unitsInOrder (run : State → Host.Outcome State Fault Refusal) :
    List (Fin 4) → State → Option (State ⊕ State)
  | [], s => some (.inl s)
  | c :: cs, s =>
    match run (unitAlone s c) with
    | .next t =>
      if t.status.state = .dead then some (.inr t) else unitsInOrder run cs (withCountersOf s t)
    | .fault _ | .refused _ => none

/-- What MCU commands do around their units. The counters of one that completes (R392–R395, R402, R404):
MCUS_TO_GO and NEXT_RST by the restart cadence; one MCU more in the row; RESULT and ROW_ACTIVE say whether the
row goes on; as many units are handed back as the MCU has, and none is held. In the middle of a segment an MCU
of several units is its units coded one after another in the order of MCU_MAP, each as an MCU of that unit
alone, whose own statements say how, from the state the unit before it leaves: its predictors, EOBRUN, BE,
contexts and coder (R394, R412); and an error of a unit is the error of the MCU (R603). For a residual kind that
is said of the reference coding (log entry 9). -/
def Obligations.McuCommandsCount : Prop :=
  (∀ (i : Instr) (s t : State), i = .epParseMcu ∨ i = .epWriteMcu → s.sound →
    s.status.state.active = true → exec i s = .next t → t.status.state ≠ .dead →
    t.status.state = s.status.state ∧
    t.scan.mcuInRow.toNat = s.scan.mcuInRow.toNat + 1 ∧
    t.result = (if s.scan.mcuInRow.toNat + 1 < s.cfg.mcusPerRow then 1 else 0) ∧
    t.status.rowActive = decide (s.scan.mcuInRow.toNat + 1 < s.cfg.mcusPerRow) ∧
    t.scan.row = s.scan.row ∧
    t.scan.mcusToGo.toNat =
      (if s.cfg.effRI = 0 then s.scan.mcusToGo.toNat
        else if s.scan.mcusToGo = 0 then s.cfg.effRI - 1 else s.scan.mcusToGo.toNat - 1) ∧
    t.scan.nextRst =
      (if s.cfg.effRI ≠ 0 ∧ s.scan.mcusToGo = 0 then s.scan.nextRst + 1 else s.scan.nextRst) ∧
    t.ports.released.length = s.ports.released.length + s.cfg.nblk ∧
    t.ports.current = none ∧ t.cfg = s.cfg ∧ t.operand = s.operand) ∧
  ∀ (run : State → Host.Outcome State Fault Refusal) (s : State), s.cfg.valid = true → s.midSegment →
    (s.cfg.kind.isResidual = false ∧
        ((run = exec .epParseMcu ∧ s.status.state = .parse) ∨
          (run = exec .epWriteMcu ∧ (s.status.state = .write ∨ s.status.state = .measure)))) ∨
      (s.cfg.kind.isResidual = true ∧
        ((run = parseMcuWith .reference ∧ s.status.state = .parse) ∨
          (run = writeMcuWith .reference ∧ (s.status.state = .write ∨ s.status.state = .measure)))) →
    (∀ t, unitsInOrder run s.cfg.mcuUnits s = some (.inl t) →
      run s = .next { t with
        result := s.afterMcu.result
        status := { t.status with rowActive := s.afterMcu.status.rowActive }
        scan := { t.scan with
          mcusToGo := s.afterMcu.scan.mcusToGo, mcuInRow := s.afterMcu.scan.mcuInRow } }) ∧
    (∀ t, unitsInOrder run s.cfg.mcuUnits s = some (.inr t) →
      ∃ v, run s = .next v ∧ v.status = t.status ∧ v.ports = t.ports ∧ v.operand = s.operand ∧
        v.cfg = s.cfg)

/-- Restart marker m (R401). -/
def markerOf (m : BitVec 3) : BitVec 16 := 0xFFD0 + m.setWidth 16

/-- The channel after FindMarker found n stale markers one after another, one or two numbers behind the expected
e, and each was skipped (R404). -/
def skipStale (e : BitVec 3) : Nat → Chan → Option Chan
  | 0, k => some k
  | n + 1, k =>
    if k.findMarker.1 = markerOf (e - 1) ∨ k.findMarker.1 = markerOf (e - 2) then
      skipStale e n
        { k.findMarker.2 with st := { k.findMarker.2.st with pos := k.findMarker.2.st.pos + 2 } }
    else none

/-- The state after a restart is read: `k` the channel at the marker, `consumed` the bytes taken there, `valid`
whether the marker was the expected one, and `warned` whether the event is counted (R404, R400). -/
def afterRestart (s : State) (k : Chan) (consumed : Nat) (valid warned : Bool) : State :=
  { s.setChan { k with st := { k.st with pos := k.st.pos + consumed } } with
    ctx := []
    status := { s.status with
      segValid := valid
      rstWarn := s.status.rstWarn || warned
      rstErrCnt := if warned then BitVec.ofNat 8 (min (s.status.rstErrCnt.toNat + 1) 255)
        else s.status.rstErrCnt }
    scan := { s.scan with
      predDc := #v[0, 0, 0, 0], predDiff := #v[0, 0, 0, 0], eobrun := 0, be := []
      nextRst := s.scan.nextRst + 1, mcusToGo := BitVec.ofNat 16 s.cfg.effRI } }

/-- Reading a restart (R404, R608). Where FindMarker gives the expected marker, the segment is valid and nothing
is counted; where it does not, RST_WARN is set and RST_ERRCNT counts once, stopping at 255; ERR is not written.
EP_PARSE_MCU is EP_PARSE_MCU of the state after the restart: stale markers are skipped, then the expected marker
is consumed, the segment is valid and the coder is opened again; any other marker makes it invalid, a marker one
or two ahead, one of no restart and the end of the data are left, and a corrupt restart marker is consumed.
FindMarker searches what the CORE sees of the input, without the bytes appended after EOF (R713, 93 #24; log entry
11). -/
def Obligations.RestartMarkersAreExpected : Prop :=
  (∀ (s t : State), s.sound → s.status.state = .parse → s.cfg.effRI ≠ 0 → s.scan.mcusToGo = 0 →
    exec .epParseMcu s = .next t → t.status.state ≠ .dead →
    ((s.chan.findMarker).1 = markerOf s.scan.nextRst →
      t.status.segValid = true ∧ t.status.rstWarn = s.status.rstWarn ∧
      t.status.rstErrCnt = s.status.rstErrCnt) ∧
    ((s.chan.findMarker).1 ≠ markerOf s.scan.nextRst →
      t.status.rstWarn = true ∧
      t.status.rstErrCnt.toNat = min (s.status.rstErrCnt.toNat + 1) 255) ∧
    t.status.err = .none) ∧
  (∀ (s : State) (e : BitVec 3) (n : Nat) (k : Chan) (m : BitVec 16), s.status.state = .parse →
    s.status.rowActive = true → s.scan.mcuInRow.toNat < s.cfg.mcusPerRow → s.cfg.effRI ≠ 0 →
    s.scan.mcusToGo = 0 → s.bc.dir = .read → s.bc.stream = s.cfg.streamSel → e = s.scan.nextRst →
    skipStale e n s.chan = some k → m = k.findMarker.1 →
    (m = markerOf e → ∀ u, u = openedForReading (afterRestart s k.findMarker.2 2 true (decide (0 < n))) →
      (s.cfg.kind.isQm = false → exec .epParseMcu s = exec .epParseMcu u) ∧
      (s.cfg.kind.isQm = true → ∃ k' : Chan,
        exec .epParseMcu s = exec .epParseMcu { u.setChan k' with qm :=
          { a := 0x10000, c := BitVec.ofNat 32 (u.chan.nextZ 16 * 2 ^ 16), ct := 0,
            qmode := .decoding, bv := false, b := 0, st := 0, z := 0 } } ∧
        k'.bits = u.chan.bits.drop 16 ∧ u.chan.ReadOnly k')) ∧
    (m = markerOf (e + 1) ∨ m = markerOf (e + 2) ∨ (∀ i, m ≠ markerOf i) →
      exec .epParseMcu s = exec .epParseMcu (afterRestart s k.findMarker.2 0 false true)) ∧
    (m = markerOf (e + 3) ∨ m = markerOf (e + 4) ∨ m = markerOf (e + 5) →
      exec .epParseMcu s = exec .epParseMcu (afterRestart s k.findMarker.2 2 false true)))

/-! ### The entropy parser: the end of a scan, restarts, the frame type -/

/-- The kinds whose segments end with the pending EOB run (R396). -/
abbrev endsWithRun (c : CfgRegs) : Prop := field c.scanCtrl 0 4 ∈ [0, 2, 6, 7]

/-- EP_FLUSH ends the scan in FLUSHED (R396, R397). In PARSE the stream is left where FindMarker leaves it, and
EOBRUN is dropped; the coder stays bound. In WRITE and MEASURE a pending EOB run comes first, with its
correction bits (R462): written in WRITE, counted in MEASURE, and in either a symbol without code raises
ContractViolation. That in MEASURE the symbol is counted all the same is DEDUCED from R396 (log entry 24). Then in
WRITE the channel is flushed, by QM_FLUSH 1 for a QM kind. RESULT is not written. In PARSE FindMarker searches what
the CORE sees of the input (R713, 93 #24; log entry 11). -/
def Obligations.FlushEndsTheScan : Prop :=
  ∀ (s t : State) (run : List UnitItem),
    t = { s with
      status := { s.status with state := .flushed, rowActive := false }
      scan := { s.scan with eobrun := 0, be := if s.scan.eobrun = 0 then s.scan.be else [] } } →
    run = runItems s.scan.eobTbl s.scan.eobrun.toNat s.scan.be →
    (s.status.state = .parse →
      exec .epFlush s =
        .next { s.setChan s.chan.findMarker.2 with
          scan := { s.scan with eobrun := 0 }
          status := { s.status with state := .flushed, rowActive := false } }) ∧
    (endsWithRun s.cfg →
      (s.status.state = .measure → itemBits s.ports run ≠ none →
        exec .epFlush s = .next { t with ports := countItems run s.ports }) ∧
      (s.status.state = .measure → itemBits s.ports run = none →
        ∃ v, exec .epFlush s = .next v ∧
          v.status = { s.status with state := .dead, err := .contractViolation } ∧
          v.ports.counts = (countItems run s.ports).counts) ∧
      (s.status.state = .write → ∀ bits, itemBits s.ports run = some bits →
        exec .epFlush s = .next (t.setChan (bits.foldl Chan.putBit s.chan).flush)) ∧
      (s.status.state = .write → itemBits s.ports run = none →
        ∃ v, exec .epFlush s = .next v ∧
          v.status = { s.status with state := .dead, err := .contractViolation })) ∧
    (¬ endsWithRun s.cfg → s.status.state = .measure →
      exec .epFlush s =
        .next { s with status := { s.status with state := .flushed, rowActive := false } }) ∧
    (¬ endsWithRun s.cfg → s.status.state = .write → s.cfg.kind.isQm = false →
      exec .epFlush s =
        .next { s.setChan s.chan.flush with
          status := { s.status with state := .flushed, rowActive := false } }) ∧
    (s.status.state = .write → s.cfg.kind.isQm = true → s.bc.dir = .write → s.qm.qmode = .encoding →
      s.qm.encOk = true → s.bc.writeOk = true →
      ∃ k : Coder,
        exec (.qmFlush true) (outsideScan s) = .next ((outsideScan s).setCoder k) ∧
        exec .epFlush s =
          .next { s.setCoder k with
            status := { s.status with state := .flushed, rowActive := false } } ∧
        k.qm.qmode = .closed ∧ k.qm.bv = false ∧ k.ch.bc.free = 8 ∧ k.ch.bc.wacc = 0 ∧
        s.chan.WriteOnly k.ch)

/-- The next MCU of a row begins with a restart (R392, R394). -/
abbrev restartDue (s : State) : Prop :=
  s.status.rowActive = true ∧ s.scan.mcuInRow.toNat < s.cfg.mcusPerRow ∧ s.cfg.effRI ≠ 0 ∧
    s.scan.mcusToGo = 0

/-- NEXT_RST advanced and MCUS_TO_GO set back (R402). -/
def segmentCounted (s : State) : State :=
  { s with scan := { s.scan with
      nextRst := s.scan.nextRst + 1, mcusToGo := BitVec.ofNat 16 s.cfg.effRI } }

/-- The end of a segment in WRITE that leaves the stream as `st`, everything else but the coder as `u`: EP_RESTART
opens the coder again; an EP_WRITE_MCU where a restart is due puts its marker to the stream first, and then codes
its MCU (R400, R401, R402). -/
def reopensForWriting (s u : State) (st : Stream) : Prop :=
  ∀ v : State,
    v = { u with
      bc := openedBc s.cfg .write
      qm := if s.cfg.kind.isQm = true
        then { a := 0x10000, c := 0, ct := 11, qmode := .encoding, bv := false, b := 0, st := 0, z := 0 }
        else s.qm } →
    exec .epRestart s = .next { v with ports := s.ports.setStream s.bc.stream st } ∧
    (restartDue s → s.bc.stream = s.cfg.streamSel →
      exec .epWriteMcu s = exec .epWriteMcu (segmentCounted { v with
        ports := s.ports.setStream .primary { st with
          out := st.out ++ [0xFF, BitVec.ofNat 8 (0xD0 + s.scan.nextRst.toNat)] } }))

/-- EP_RESTART (R398, R400): the predictors, the run, BE and the contexts are reset and the coder is opened
again, in PARSE only in a valid segment, and for a QM kind with the procedure of its direction. In WRITE and
MEASURE a pending EOB run comes first, written or counted; in WRITE the channel is then flushed, by QM_FLUSH 1 for
a QM kind. EP_RESTART reads and writes no marker. EP_WRITE_MCU where a restart is due (R392, R402, R403) is
EP_WRITE_MCU of the state after the same procedure, with NEXT_RST advanced and MCUS_TO_GO set back, and in WRITE with
restart marker NEXT_RST, high byte first and not stuffed, put to the scan's stream after the flushed code and before
the coder is opened again. MEASURE counts a run whose symbol has no code (R354; log entry 24). -/
def Obligations.RestartResetsTheSegment : Prop :=
  ∀ (s u : State) (run : List UnitItem), s.cfg.kind.isResidual = false →
    u = { s with
      ctx := []
      scan := { s.scan with
        predDc := #v[0, 0, 0, 0], predDiff := #v[0, 0, 0, 0], eobrun := 0, be := [] } } →
    run = (if field s.cfg.scanCtrl 0 4 = 0 ∨ field s.cfg.scanCtrl 0 4 = 2 then
      runItems s.scan.eobTbl s.scan.eobrun.toNat s.scan.be else []) →
    (s.status.state = .parse → s.status.segValid = true → s.cfg.kind.isQm = false →
      exec .epRestart s = .next (openedForReading u)) ∧
    (s.status.state = .parse → s.status.segValid = true → s.cfg.kind.isQm = true →
      ∀ v, v = openedForReading u → ∃ k : Chan,
        exec .epRestart s = .next { v.setChan k with qm :=
          { a := 0x10000, c := BitVec.ofNat 32 (v.chan.nextZ 16 * 2 ^ 16), ct := 0,
            qmode := .decoding, bv := false, b := 0, st := 0, z := 0 } } ∧
        k.bits = v.chan.bits.drop 16 ∧ v.chan.ReadOnly k) ∧
    (s.status.state = .parse → s.status.segValid = false → exec .epRestart s = .next u) ∧
    (s.status.state = .write → s.cfg.kind.isQm = false →
      (∀ bits, itemBits s.ports run = some bits →
        reopensForWriting s u (bits.foldl Chan.putBit s.chan).flush.st) ∧
      (itemBits s.ports run = none → ∀ i, i = Instr.epRestart ∨ (i = .epWriteMcu ∧ restartDue s) →
        ∃ v, exec i s = .next v ∧
          v.status = { s.status with state := .dead, err := .contractViolation })) ∧
    (s.status.state = .write → s.cfg.kind.isQm = true → s.bc.dir = .write → s.qm.qmode = .encoding →
      s.qm.encOk = true → s.bc.writeOk = true →
      ∃ k : Coder,
        exec (.qmFlush true) (outsideScan s) = .next ((outsideScan s).setCoder k) ∧
        reopensForWriting s u k.ch.st) ∧
    (s.status.state = .measure →
      exec .epRestart s = .next { u with ports := countItems run s.ports } ∧
      (restartDue s →
        exec .epWriteMcu s = exec .epWriteMcu (segmentCounted { u with ports := countItems run s.ports })))

/-- The frame marker of R410's table: the low byte by KIND, PROGRESSIVE and BASELINE, plus 4 for a
differential frame. -/
def sofMarker (c : CfgRegs) : Nat :=
  let base :=
    match field c.scanCtrl 0 4 with
    | 0 => if c.progressive then 0xFFC2 else if c.baseline && !c.differential then 0xFFC0 else 0xFFC1
    | 1 => if c.progressive then 0xFFCA else 0xFFC9
    | 2 => 0xFFC2
    | 3 => 0xFFCA
    | _ => 0xFFC3
  if c.differential then base + 4 else base

/-- EP_WRITE_FRAME_TYPE for every KIND but the reserved ones (R410): the marker goes to PRIMARY, high byte
first, and to RESULT; a hidden or residual scan has none, RESULT is 0 and nothing is written. -/
def Obligations.FrameTypeWritesTheMarker : Prop :=
  ∀ (s : State), s.quiet → field s.cfg.scanCtrl 0 4 ≤ 7 →
    (s.cfg.hidden = true ∨ 5 ≤ field s.cfg.scanCtrl 0 4 →
      exec .epWriteFrameType s = .next { s with result := 0 }) ∧
    (s.cfg.hidden = false → field s.cfg.scanCtrl 0 4 ≤ 4 →
      exec .epWriteFrameType s =
        .next { s with
          result := BitVec.ofNat 32 (sofMarker s.cfg)
          ports := { s.ports with primary := { s.ports.primary with
            out := s.ports.primary.out ++
              [BitVec.ofNat 8 (sofMarker s.cfg / 256), BitVec.ofNat 8 (sofMarker s.cfg)] } } })

/-! ### Unit arithmetic -/

/-- R553: the bias estimator's update on sums that do not overflow: added, and both halved, the sum toward
zero, exactly when the count passes 64. Its offset is the mean rounded toward zero. -/
def Obligations.BiasEstimatorHalvesAfter64 : Prop :=
  ∀ (s : State) (c : Fin 4) (r0 : Int), s.scan.biasN[c].toNat ≤ 64 →
    -(2 ^ 31) ≤ s.scan.biasB[c].toInt + r0 → s.scan.biasB[c].toInt + r0 < 2 ^ 31 →
    (s.scan.biasN[c].toNat < 64 →
      (s.biasUpdate c r0).scan.biasB[c].toInt = s.scan.biasB[c].toInt + r0 ∧
      (s.biasUpdate c r0).scan.biasN[c].toNat = s.scan.biasN[c].toNat + 1) ∧
    (s.scan.biasN[c].toNat = 64 →
      (s.biasUpdate c r0).scan.biasB[c].toInt = (s.scan.biasB[c].toInt + r0).tdiv 2 ∧
      (s.biasUpdate c r0).scan.biasN[c].toNat = 32) ∧
    (∀ d, d ≠ c → (s.biasUpdate c r0).scan.biasB[d] = s.scan.biasB[d] ∧
      (s.biasUpdate c r0).scan.biasN[d] = s.scan.biasN[d]) ∧
    s.biasOffset c =
      (if s.scan.biasN[c].toNat = 0 then 0
        else s.scan.biasB[c].toInt.sign *
          (s.scan.biasB[c].toInt.natAbs / s.scan.biasN[c].toNat : Nat))

/-- A value of the unit that a sequential kind cannot code (R456): the DC difference of a scan with a DC, or an AC
value of the band; at least 2^15 in magnitude for SEQ_HUFF, above 2^15 for SEQ_AC. -/
abbrev outOfRange (s : State) (c : Fin 4) (u : Block) : Prop :=
  let limit := if s.cfg.kind = .seqHuff then 2 ^ 15 else 2 ^ 15 + 1
  (s.cfg.ss = 0 ∧ limit ≤ (u[0].toInt / 2 ^ s.cfg.al - s.scan.predDc[c].toInt).natAbs) ∨
  (0 < s.cfg.se ∧ ∃ k ∈ bandPositions s.cfg, limit ≤ (unitValue s.cfg u k).natAbs)

/-- The same for a residual kind, after the Hadamard transform (R557). -/
abbrev residualOutOfRange (s : State) (c : Fin 4) (u : Block) : Prop :=
  let limit := if s.cfg.kind = .residualAc then 2 ^ 15 + 1 else 2 ^ 15
  let r := residualBlock s.cfg u
  let dc := r[0].toInt - s.biasOffset c
  limit ≤ (if s.cfg.kind = .residualSeq then dc - s.scan.predDc[c].toInt else dc).natAbs ∨
  ∃ k, 1 ≤ k ∧ k < 64 ∧ limit ≤ (coef r k).natAbs

/-- A command raises InputRange, and the streams, the statistics, the released units, the predictors, the
estimator, EOBRUN, BE, the contexts, the coder and the channel are as they were. -/
def raisesInputRange (run : Host.Outcome State Fault Refusal) (s : State) : Prop :=
  ∃ t, run = .next t ∧
    t.status = { s.status with state := .dead, err := .inputRange } ∧
    t.ports.primary = s.ports.primary ∧ t.ports.aux = s.ports.aux ∧
    t.ports.counts = s.ports.counts ∧ t.ports.released = s.ports.released ∧
    t.scan.predDc = s.scan.predDc ∧ t.scan.predDiff = s.scan.predDiff ∧
    t.scan.biasB = s.scan.biasB ∧ t.scan.biasN = s.scan.biasN ∧
    t.scan.eobrun = s.scan.eobrun ∧ t.scan.be = s.scan.be ∧
    t.ctx = s.ctx ∧ t.qm = s.qm ∧ t.bc = s.bc

/-- RangeCheck (R456, R557): the first unit of an MCU with a value out of range raises InputRange before anything
of it is coded, for SEQ_HUFF, SEQ_AC, and the residual kinds by the reference coding; another coding does so for the
values it cannot code (log entry 9). That what the unit would write keeps its value, where an error otherwise leaves any value (R607), is read from R456 and R557 (log entry
6). -/
def Obligations.RangeCheckWritesNothing : Prop :=
  ∀ (s : State) (c : Fin 4) (u : Block) (rest : List (Fin 4 × Block)), s.cfg.valid = true →
    s.midSegment → s.mcuBlocks = (c, u) :: rest →
    s.status.state = .write ∨ (s.status.state = .measure ∧ s.cfg.kind.isQm = false) →
    (s.cfg.kind = .seqHuff ∨ s.cfg.kind = .seqAc → outOfRange s c u →
      raisesInputRange (exec .epWriteMcu s) s) ∧
    (s.cfg.kind.isResidual = true → residualOutOfRange s c u →
      raisesInputRange (writeMcuWith .reference s) s) ∧
    (∀ k : BlockCoding, s.cfg.kind.isResidual = true →
      k.codable (s.residualView c) ((residualBlock s.cfg u)[0].toInt - s.biasOffset c)
        ((List.range' 1 63).map fun n => coef (residualBlock s.cfg u) n) = false →
      raisesInputRange (writeMcuWith (.other k) s) s)

/-! ### Rules about every command -/

/-- R380: STATUS.STATE changes only as its table says. A command that raises no error leaves STATE, but for
CORE_RESET, which gives IDLE, a start, which gives its state, and EP_FLUSH, which gives FLUSHED. -/
def Obligations.StateTransitions : Prop :=
  ∀ (i : Instr) (s t : State), exec i s = .next t →
    t.status.state = s.status.state ∨
    (t.status.state = .dead ∧ t.status.err ≠ .none) ∨
    (i = .coreReset ∧ t.status.state = .idle) ∨
    (i = .epFlush ∧ s.status.state.active = true ∧ t.status.state = .flushed) ∨
    (s.status.state.active = false ∧
      ((i = .epStartParse ∧ t.status.state = .parse) ∨ (i = .epStartWrite ∧ t.status.state = .write) ∨
        (i = .epStartMeasure ∧ t.status.state = .measure)))

/-- The commands that write RESULT (R53), with CORE_RESET, which resets it (R202). -/
def writesResult : Instr → Bool
  | .coreReset | .cfgRead _ | .bcGetBits _ | .bcFindMarker | .bcGetByteZ | .qmDecode _ | .ctxRead _
  | .hufGet _ _ | .epStartMcuRow | .epParseMcu | .epWriteMcu | .epWriteFrameType => true
  | .nop | .cfgWrite _ | .bcOpenRead _ _ | .bcOpenWrite _ _ | .bcPutBits _ | .bcFlush
  | .bcSkipStuffing | .qmInitEnc | .qmInitDec | .qmEncode _ _ | .qmFlush _ | .ctxInit _ _ _
  | .ctxResetAll | .hufPut _ _ _ | .hufCount _ _ _ | .epStartParse | .epStartWrite | .epStartMeasure
  | .epFlush | .epRestart => false

/-- R53, R54 and R44: a command that leaves the CORE out of DEAD leaves RESULT unless it is one of R53's; no
command but CORE_RESET writes OPERAND; only CFG_WRITE, CORE_RESET and a DNL segment's FRAME_HEIGHT change a
configuration register. -/
def Obligations.RegisterWriters : Prop :=
  ∀ (i : Instr) (s t : State), exec i s = .next t →
    (writesResult i = false → t.status.state ≠ .dead → t.result = s.result) ∧
    (i ≠ .coreReset → t.operand = s.operand) ∧
    (i ≠ .coreReset → (∀ r, i ≠ .cfgWrite r) →
      t.cfg = s.cfg ∨
      (i = .epStartMcuRow ∧ s.status.state = .parse ∧ t.status.dnlFound = true ∧
        t.cfg = { s.cfg with frameHeight := t.cfg.frameHeight }))

/-- What every command leaves of the ports (R121–R123, R133): the inputs, the tables, the outputs already
written and the units already released stand, errors included; read positions only move forward, and a command
hides no byte of an input from the CORE (R713). In PARSE and MEASURE no byte is written to a stream (R413). -/
def Obligations.PortsOnlyGrow : Prop :=
  ∀ (i : Instr) (s t : State), exec i s = .next t →
    (∀ sel, (t.ports.stream sel).inp = (s.ports.stream sel).inp ∧
      (s.ports.stream sel).pos ≤ (t.ports.stream sel).pos ∧
      (s.ports.stream sel).out <+: (t.ports.stream sel).out ∧
      ((t.ports.stream sel).unseen = (s.ports.stream sel).unseen ∨
        (t.ports.stream sel).unseen = 0)) ∧
    t.ports.dcTables = s.ports.dcTables ∧ t.ports.acTables = s.ports.acTables ∧
    s.ports.released <+: t.ports.released ∧
    (s.status.state = .parse ∨ s.status.state = .measure →
      t.ports.primary.out = s.ports.primary.out ∧ t.ports.aux.out = s.ports.aux.out)

/-- R409: while a residual or hidden scan is active, no command touches the PRIMARY stream. -/
def Obligations.RoutedScansLeavePrimary : Prop :=
  ∀ (i : Instr) (s t : State), s.status.state.active = true → s.channelOk = true →
    s.cfg.kind.isResidual = true ∨ s.cfg.hidden = true → exec i s = .next t →
    t.ports.primary = s.ports.primary

/-! ### Invariants -/

/-- The state after reset is sound. -/
def Obligations.ResetIsSound : Prop := State.reset.sound

/-- Every step from a sound state keeps the form of the data: reserved bits 0 (R43), the bank and the
counters in their canonical forms over valid keys (R80, R321, R134), positions within the inputs (R121),
tables the host may install (R133). -/
def Obligations.StepKeepsForm : Prop :=
  ∀ s t : State, s.formOk = true → step s = .next t → t.formOk = true

/-- Every step keeps the invariants of the scan protocol (R48, R50, R52, R413), and PRED_DC and PRED_DIFF at 0 in
a scan of a kind that does not have them, whatever the residual coding (R65, R66). Where R413 has a row active only
in a scan, a CORE in DEAD may keep ROW_ACTIVE: R607 keeps the STATUS flags as the error found them, which the
model reads as the exception (DEDUCED; log entry 13). -/
def Obligations.StepKeepsProtocol : Prop :=
  ∀ s t : State, s.sound → step s = .next t → t.protocolOk = true

/-- Every step keeps the invariants of the QM-coder (R282, R286), and the mode a scan of a QM kind has. -/
def Obligations.StepKeepsCoder : Prop :=
  ∀ s t : State, s.sound → step s = .next t → t.coderOk = true

/-- Every step keeps the invariants of the BitChannel (R233 with the bound of log entry 12, R237), and the
binding a scan has. -/
def Obligations.StepKeepsChannel : Prop :=
  ∀ s t : State, s.sound → step s = .next t → t.channelOk = true

/-- Every step keeps the bounds of EOBRUN, of BE and of the bias counts, and BE empty without a run (R464, R505,
R553). -/
def Obligations.StepKeepsRun : Prop :=
  ∀ s t : State, s.sound → step s = .next t → t.runOk = true

/-- From a sound state no step faults: the model's faults stand for loops that end and units that do not
occur (R278, R285, R406, R384). -/
def Obligations.SoundStatesNeverFault : Prop :=
  ∀ s : State, s.sound → safeOutcome (step s) = true
end

