-- ==== Sys2Proof/Laws/State.lean ====
section
/-!
SUPPORT. One lemma per field per update of the state, each true by unfolding the update: no proof about a
command unfolds a record update of the state.
-/
namespace Sys2Proof.Machine

/-! ### `setResult` -/

@[simp] theorem State.setResult_host (s : State) (v : Word) :
    (s.setResult v).host = s.host := rfl

@[simp] theorem State.setResult_status (s : State) (v : Word) :
    (s.setResult v).status = s.status := rfl

@[simp] theorem State.setResult_operand (s : State) (v : Word) :
    (s.setResult v).operand = s.operand := rfl

@[simp] theorem State.setResult_result (s : State) (v : Word) :
    (s.setResult v).result = v := rfl

@[simp] theorem State.setResult_cfg (s : State) (v : Word) :
    (s.setResult v).cfg = s.cfg := rfl

@[simp] theorem State.setResult_scan (s : State) (v : Word) :
    (s.setResult v).scan = s.scan := rfl

@[simp] theorem State.setResult_qm (s : State) (v : Word) :
    (s.setResult v).qm = s.qm := rfl

@[simp] theorem State.setResult_bc (s : State) (v : Word) :
    (s.setResult v).bc = s.bc := rfl

@[simp] theorem State.setResult_ctx (s : State) (v : Word) :
    (s.setResult v).ctx = s.ctx := rfl

@[simp] theorem State.setResult_ports (s : State) (v : Word) :
    (s.setResult v).ports = s.ports := rfl

@[simp] theorem State.setResult_draws (s : State) (v : Word) :
    (s.setResult v).draws = s.draws := rfl

/-! ### `raise` -/

@[simp] theorem State.raise_host (s : State) (e : Err) :
    (s.raise e).host = s.host := rfl

@[simp] theorem State.raise_status (s : State) (e : Err) :
    (s.raise e).status = { s.status with state := .dead, err := e } := rfl

@[simp] theorem State.raise_operand (s : State) (e : Err) :
    (s.raise e).operand = s.operand := rfl

@[simp] theorem State.raise_result (s : State) (e : Err) :
    (s.raise e).result = s.result := rfl

@[simp] theorem State.raise_cfg (s : State) (e : Err) :
    (s.raise e).cfg = s.cfg := rfl

@[simp] theorem State.raise_scan (s : State) (e : Err) :
    (s.raise e).scan = s.scan := rfl

@[simp] theorem State.raise_qm (s : State) (e : Err) :
    (s.raise e).qm = s.qm := rfl

@[simp] theorem State.raise_bc (s : State) (e : Err) :
    (s.raise e).bc = s.bc := rfl

@[simp] theorem State.raise_ctx (s : State) (e : Err) :
    (s.raise e).ctx = s.ctx := rfl

@[simp] theorem State.raise_ports (s : State) (e : Err) :
    (s.raise e).ports = s.ports := rfl

@[simp] theorem State.raise_draws (s : State) (e : Err) :
    (s.raise e).draws = s.draws := rfl

/-! ### `setCell` -/

@[simp] theorem State.setCell_host (s : State) (a : Nat) (x : CtxCell) :
    (s.setCell a x).host = s.host := rfl

@[simp] theorem State.setCell_status (s : State) (a : Nat) (x : CtxCell) :
    (s.setCell a x).status = s.status := rfl

@[simp] theorem State.setCell_operand (s : State) (a : Nat) (x : CtxCell) :
    (s.setCell a x).operand = s.operand := rfl

@[simp] theorem State.setCell_result (s : State) (a : Nat) (x : CtxCell) :
    (s.setCell a x).result = s.result := rfl

@[simp] theorem State.setCell_cfg (s : State) (a : Nat) (x : CtxCell) :
    (s.setCell a x).cfg = s.cfg := rfl

@[simp] theorem State.setCell_scan (s : State) (a : Nat) (x : CtxCell) :
    (s.setCell a x).scan = s.scan := rfl

@[simp] theorem State.setCell_qm (s : State) (a : Nat) (x : CtxCell) :
    (s.setCell a x).qm = s.qm := rfl

@[simp] theorem State.setCell_bc (s : State) (a : Nat) (x : CtxCell) :
    (s.setCell a x).bc = s.bc := rfl

@[simp] theorem State.setCell_ctx (s : State) (a : Nat) (x : CtxCell) :
    (s.setCell a x).ctx = sparseSet cellReset a x s.ctx := rfl

@[simp] theorem State.setCell_ports (s : State) (a : Nat) (x : CtxCell) :
    (s.setCell a x).ports = s.ports := rfl

@[simp] theorem State.setCell_draws (s : State) (a : Nat) (x : CtxCell) :
    (s.setCell a x).draws = s.draws := rfl

/-! ### `resetContexts` -/

@[simp] theorem State.resetContexts_host (s : State) :
    (s.resetContexts).host = s.host := rfl

@[simp] theorem State.resetContexts_status (s : State) :
    (s.resetContexts).status = s.status := rfl

@[simp] theorem State.resetContexts_operand (s : State) :
    (s.resetContexts).operand = s.operand := rfl

@[simp] theorem State.resetContexts_result (s : State) :
    (s.resetContexts).result = s.result := rfl

@[simp] theorem State.resetContexts_cfg (s : State) :
    (s.resetContexts).cfg = s.cfg := rfl

@[simp] theorem State.resetContexts_scan (s : State) :
    (s.resetContexts).scan = s.scan := rfl

@[simp] theorem State.resetContexts_qm (s : State) :
    (s.resetContexts).qm = s.qm := rfl

@[simp] theorem State.resetContexts_bc (s : State) :
    (s.resetContexts).bc = s.bc := rfl

@[simp] theorem State.resetContexts_ctx (s : State) :
    (s.resetContexts).ctx = [] := rfl

@[simp] theorem State.resetContexts_ports (s : State) :
    (s.resetContexts).ports = s.ports := rfl

@[simp] theorem State.resetContexts_draws (s : State) :
    (s.resetContexts).draws = s.draws := rfl

/-! ### `openChan` -/

@[simp] theorem State.openChan_host (s : State) (dir : Dir) (mode : Stuff) (stream : StreamSel) :
    (s.openChan dir mode stream).host = s.host := rfl

@[simp] theorem State.openChan_status (s : State) (dir : Dir) (mode : Stuff) (stream : StreamSel) :
    (s.openChan dir mode stream).status = s.status := rfl

@[simp] theorem State.openChan_operand (s : State) (dir : Dir) (mode : Stuff) (stream : StreamSel) :
    (s.openChan dir mode stream).operand = s.operand := rfl

@[simp] theorem State.openChan_result (s : State) (dir : Dir) (mode : Stuff) (stream : StreamSel) :
    (s.openChan dir mode stream).result = s.result := rfl

@[simp] theorem State.openChan_cfg (s : State) (dir : Dir) (mode : Stuff) (stream : StreamSel) :
    (s.openChan dir mode stream).cfg = s.cfg := rfl

@[simp] theorem State.openChan_scan (s : State) (dir : Dir) (mode : Stuff) (stream : StreamSel) :
    (s.openChan dir mode stream).scan = s.scan := rfl

@[simp] theorem State.openChan_qm (s : State) (dir : Dir) (mode : Stuff) (stream : StreamSel) :
    (s.openChan dir mode stream).qm = s.qm := rfl

@[simp] theorem State.openChan_bc (s : State) (dir : Dir) (mode : Stuff) (stream : StreamSel) :
    (s.openChan dir mode stream).bc = BitChan.opened dir mode stream := rfl

@[simp] theorem State.openChan_ctx (s : State) (dir : Dir) (mode : Stuff) (stream : StreamSel) :
    (s.openChan dir mode stream).ctx = s.ctx := rfl

@[simp] theorem State.openChan_ports (s : State) (dir : Dir) (mode : Stuff) (stream : StreamSel) :
    (s.openChan dir mode stream).ports = s.ports.opened dir stream := rfl

@[simp] theorem State.openChan_draws (s : State) (dir : Dir) (mode : Stuff) (stream : StreamSel) :
    (s.openChan dir mode stream).draws = s.draws := rfl

/-! ### `discard`, `rebind` -/

@[simp] theorem QmRegs.discard_a (q : QmRegs) : q.discard.a = q.a := rfl

@[simp] theorem QmRegs.discard_c (q : QmRegs) : q.discard.c = q.c := rfl

@[simp] theorem QmRegs.discard_ct (q : QmRegs) : q.discard.ct = q.ct := rfl

@[simp] theorem QmRegs.discard_qmode (q : QmRegs) : q.discard.qmode = q.qmode := rfl

@[simp] theorem QmRegs.discard_bv (q : QmRegs) : q.discard.bv = q.bv := rfl

@[simp] theorem QmRegs.discard_b (q : QmRegs) : q.discard.b = q.b := rfl

@[simp] theorem QmRegs.discard_st (q : QmRegs) : q.discard.st = q.st := rfl

@[simp] theorem QmRegs.discard_z (q : QmRegs) : q.discard.z = q.z := rfl

@[simp] theorem QmRegs.discard_lost (q : QmRegs) :
    q.discard.lost = q.z.toNat + q.bv.toNat + q.st.toNat := rfl

@[simp] theorem State.rebind_qm (s : State) (dir : Dir) (mode : Stuff) (stream : StreamSel) :
    (s.rebind dir mode stream).qm = s.qm.discard := rfl

/-- Apart from the QM registers a BC_OPEN_* is an open of the channel. -/
theorem State.rebind_eq (s : State) (dir : Dir) (mode : Stuff) (stream : StreamSel) :
    s.rebind dir mode stream = { s.openChan dir mode stream with qm := s.qm.discard } := rfl

@[simp] theorem State.rebind_host (s : State) (dir : Dir) (mode : Stuff) (stream : StreamSel) :
    (s.rebind dir mode stream).host = s.host := rfl

@[simp] theorem State.rebind_status (s : State) (dir : Dir) (mode : Stuff) (stream : StreamSel) :
    (s.rebind dir mode stream).status = s.status := rfl

@[simp] theorem State.rebind_operand (s : State) (dir : Dir) (mode : Stuff) (stream : StreamSel) :
    (s.rebind dir mode stream).operand = s.operand := rfl

@[simp] theorem State.rebind_result (s : State) (dir : Dir) (mode : Stuff) (stream : StreamSel) :
    (s.rebind dir mode stream).result = s.result := rfl

@[simp] theorem State.rebind_cfg (s : State) (dir : Dir) (mode : Stuff) (stream : StreamSel) :
    (s.rebind dir mode stream).cfg = s.cfg := rfl

@[simp] theorem State.rebind_scan (s : State) (dir : Dir) (mode : Stuff) (stream : StreamSel) :
    (s.rebind dir mode stream).scan = s.scan := rfl

@[simp] theorem State.rebind_bc (s : State) (dir : Dir) (mode : Stuff) (stream : StreamSel) :
    (s.rebind dir mode stream).bc = BitChan.opened dir mode stream := rfl

@[simp] theorem State.rebind_ctx (s : State) (dir : Dir) (mode : Stuff) (stream : StreamSel) :
    (s.rebind dir mode stream).ctx = s.ctx := rfl

@[simp] theorem State.rebind_ports (s : State) (dir : Dir) (mode : Stuff) (stream : StreamSel) :
    (s.rebind dir mode stream).ports = s.ports.opened dir stream := rfl

@[simp] theorem State.rebind_draws (s : State) (dir : Dir) (mode : Stuff) (stream : StreamSel) :
    (s.rebind dir mode stream).draws = s.draws := rfl

/-! ### `setChan` -/

@[simp] theorem State.setChan_host (s : State) (k : Chan) :
    (s.setChan k).host = s.host := rfl

@[simp] theorem State.setChan_status (s : State) (k : Chan) :
    (s.setChan k).status = s.status := rfl

@[simp] theorem State.setChan_operand (s : State) (k : Chan) :
    (s.setChan k).operand = s.operand := rfl

@[simp] theorem State.setChan_result (s : State) (k : Chan) :
    (s.setChan k).result = s.result := rfl

@[simp] theorem State.setChan_cfg (s : State) (k : Chan) :
    (s.setChan k).cfg = s.cfg := rfl

@[simp] theorem State.setChan_scan (s : State) (k : Chan) :
    (s.setChan k).scan = s.scan := rfl

@[simp] theorem State.setChan_qm (s : State) (k : Chan) :
    (s.setChan k).qm = s.qm := rfl

@[simp] theorem State.setChan_bc (s : State) (k : Chan) :
    (s.setChan k).bc = k.bc := rfl

@[simp] theorem State.setChan_ctx (s : State) (k : Chan) :
    (s.setChan k).ctx = s.ctx := rfl

@[simp] theorem State.setChan_ports (s : State) (k : Chan) :
    (s.setChan k).ports = s.ports.setStream s.bc.stream k.st := rfl

@[simp] theorem State.setChan_draws (s : State) (k : Chan) :
    (s.setChan k).draws = s.draws := rfl

/-! ### `setCoder` -/

@[simp] theorem State.setCoder_host (s : State) (k : Coder) :
    (s.setCoder k).host = s.host := rfl

@[simp] theorem State.setCoder_status (s : State) (k : Coder) :
    (s.setCoder k).status = s.status := rfl

@[simp] theorem State.setCoder_operand (s : State) (k : Coder) :
    (s.setCoder k).operand = s.operand := rfl

@[simp] theorem State.setCoder_result (s : State) (k : Coder) :
    (s.setCoder k).result = s.result := rfl

@[simp] theorem State.setCoder_cfg (s : State) (k : Coder) :
    (s.setCoder k).cfg = s.cfg := rfl

@[simp] theorem State.setCoder_scan (s : State) (k : Coder) :
    (s.setCoder k).scan = s.scan := rfl

@[simp] theorem State.setCoder_qm (s : State) (k : Coder) :
    (s.setCoder k).qm = k.qm := rfl

@[simp] theorem State.setCoder_bc (s : State) (k : Coder) :
    (s.setCoder k).bc = k.ch.bc := rfl

@[simp] theorem State.setCoder_ctx (s : State) (k : Coder) :
    (s.setCoder k).ctx = s.ctx := rfl

@[simp] theorem State.setCoder_ports (s : State) (k : Coder) :
    (s.setCoder k).ports = s.ports.setStream s.bc.stream k.ch.st := rfl

@[simp] theorem State.setCoder_draws (s : State) (k : Coder) :
    (s.setCoder k).draws = s.draws := rfl

/-! ### `setPredDc` -/

@[simp] theorem State.setPredDc_host (s : State) (c : Fin 4) (v : Int) :
    (s.setPredDc c v).host = s.host := rfl

@[simp] theorem State.setPredDc_status (s : State) (c : Fin 4) (v : Int) :
    (s.setPredDc c v).status = s.status := rfl

@[simp] theorem State.setPredDc_operand (s : State) (c : Fin 4) (v : Int) :
    (s.setPredDc c v).operand = s.operand := rfl

@[simp] theorem State.setPredDc_result (s : State) (c : Fin 4) (v : Int) :
    (s.setPredDc c v).result = s.result := rfl

@[simp] theorem State.setPredDc_cfg (s : State) (c : Fin 4) (v : Int) :
    (s.setPredDc c v).cfg = s.cfg := rfl

@[simp] theorem State.setPredDc_scan (s : State) (c : Fin 4) (v : Int) :
    (s.setPredDc c v).scan = { s.scan with predDc := s.scan.predDc.set c (wrap32 v) } := rfl

@[simp] theorem State.setPredDc_qm (s : State) (c : Fin 4) (v : Int) :
    (s.setPredDc c v).qm = s.qm := rfl

@[simp] theorem State.setPredDc_bc (s : State) (c : Fin 4) (v : Int) :
    (s.setPredDc c v).bc = s.bc := rfl

@[simp] theorem State.setPredDc_ctx (s : State) (c : Fin 4) (v : Int) :
    (s.setPredDc c v).ctx = s.ctx := rfl

@[simp] theorem State.setPredDc_ports (s : State) (c : Fin 4) (v : Int) :
    (s.setPredDc c v).ports = s.ports := rfl

@[simp] theorem State.setPredDc_draws (s : State) (c : Fin 4) (v : Int) :
    (s.setPredDc c v).draws = s.draws := rfl

/-! ### `setPredDiff` -/

@[simp] theorem State.setPredDiff_host (s : State) (c : Fin 4) (v : Int) :
    (s.setPredDiff c v).host = s.host := rfl

@[simp] theorem State.setPredDiff_status (s : State) (c : Fin 4) (v : Int) :
    (s.setPredDiff c v).status = s.status := rfl

@[simp] theorem State.setPredDiff_operand (s : State) (c : Fin 4) (v : Int) :
    (s.setPredDiff c v).operand = s.operand := rfl

@[simp] theorem State.setPredDiff_result (s : State) (c : Fin 4) (v : Int) :
    (s.setPredDiff c v).result = s.result := rfl

@[simp] theorem State.setPredDiff_cfg (s : State) (c : Fin 4) (v : Int) :
    (s.setPredDiff c v).cfg = s.cfg := rfl

@[simp] theorem State.setPredDiff_scan (s : State) (c : Fin 4) (v : Int) :
    (s.setPredDiff c v).scan = { s.scan with predDiff := s.scan.predDiff.set c (wrap32 v) } := rfl

@[simp] theorem State.setPredDiff_qm (s : State) (c : Fin 4) (v : Int) :
    (s.setPredDiff c v).qm = s.qm := rfl

@[simp] theorem State.setPredDiff_bc (s : State) (c : Fin 4) (v : Int) :
    (s.setPredDiff c v).bc = s.bc := rfl

@[simp] theorem State.setPredDiff_ctx (s : State) (c : Fin 4) (v : Int) :
    (s.setPredDiff c v).ctx = s.ctx := rfl

@[simp] theorem State.setPredDiff_ports (s : State) (c : Fin 4) (v : Int) :
    (s.setPredDiff c v).ports = s.ports := rfl

@[simp] theorem State.setPredDiff_draws (s : State) (c : Fin 4) (v : Int) :
    (s.setPredDiff c v).draws = s.draws := rfl

/-! ### `residualSetDc`, `residualSetDiff` -/

/-- A residual coding's write of PRED_DC, in every kind: PRED_DC alone, and only for RESIDUAL_SEQ (R65). -/
theorem State.residualSetDc_eq (s : State) (c : Fin 4) (v : Int) :
    s.residualSetDc c v = { s with scan := (s.residualSetDc c v).scan } := by
  unfold State.residualSetDc
  split <;> rfl

@[simp] theorem State.residualSetDc_scan (s : State) (c : Fin 4) (v : Int) :
    (s.residualSetDc c v).scan =
      if s.cfg.kind = .residualSeq then
        { s.scan with predDc := s.scan.predDc.set c (wrap32 v) }
      else s.scan := by
  unfold State.residualSetDc
  split <;> rfl

/-- A residual coding's write of PRED_DIFF, in every kind: PRED_DIFF alone, and only for RESIDUAL_AC (R66). -/
theorem State.residualSetDiff_eq (s : State) (c : Fin 4) (v : Int) :
    s.residualSetDiff c v = { s with scan := (s.residualSetDiff c v).scan } := by
  unfold State.residualSetDiff
  split <;> rfl

@[simp] theorem State.residualSetDiff_scan (s : State) (c : Fin 4) (v : Int) :
    (s.residualSetDiff c v).scan =
      if s.cfg.kind = .residualAc then
        { s.scan with predDiff := s.scan.predDiff.set c (wrap32 v) }
      else s.scan := by
  unfold State.residualSetDiff
  split <;> rfl

/-! ### `residualView` -/

/-- A residual coding does not read FRAME_HEIGHT (R64). -/
theorem State.residualView_frameHeight (s : State) (c : Fin 4) (h : Word) :
    State.residualView { s with cfg := { s.cfg with frameHeight := h } } c = s.residualView c := rfl

/-- A residual coding reads SCAN_CTRL without DIFFERENTIAL and BASELINE (R55). -/
@[simp] theorem State.residualView_scanCtrl (s : State) (c : Fin 4) :
    (s.residualView c).cfg.scanCtrl = s.cfg.scanCtrl &&& 0x0000075F := rfl

/-! ### `setOutput` -/

/-- All a change of a stream's output can do (R714). -/
theorem setOutput_cases (sel : StreamSel) (bytes : List Byte) (s : State) :
    setOutput sel bytes s = .refused .hostStreamInUse ∨
    setOutput sel bytes s = .settled { s with
      ports := s.ports.setStream sel { s.ports.stream sel with out := bytes } } := by
  unfold setOutput
  split
  · exact .inl rfl
  · exact .inr rfl

/-! ### `setEobrun` -/

@[simp] theorem State.setEobrun_host (s : State) (n : Nat) :
    (s.setEobrun n).host = s.host := rfl

@[simp] theorem State.setEobrun_status (s : State) (n : Nat) :
    (s.setEobrun n).status = s.status := rfl

@[simp] theorem State.setEobrun_operand (s : State) (n : Nat) :
    (s.setEobrun n).operand = s.operand := rfl

@[simp] theorem State.setEobrun_result (s : State) (n : Nat) :
    (s.setEobrun n).result = s.result := rfl

@[simp] theorem State.setEobrun_cfg (s : State) (n : Nat) :
    (s.setEobrun n).cfg = s.cfg := rfl

@[simp] theorem State.setEobrun_scan (s : State) (n : Nat) :
    (s.setEobrun n).scan = { s.scan with eobrun := BitVec.ofNat 16 n } := rfl

@[simp] theorem State.setEobrun_qm (s : State) (n : Nat) :
    (s.setEobrun n).qm = s.qm := rfl

@[simp] theorem State.setEobrun_bc (s : State) (n : Nat) :
    (s.setEobrun n).bc = s.bc := rfl

@[simp] theorem State.setEobrun_ctx (s : State) (n : Nat) :
    (s.setEobrun n).ctx = s.ctx := rfl

@[simp] theorem State.setEobrun_ports (s : State) (n : Nat) :
    (s.setEobrun n).ports = s.ports := rfl

@[simp] theorem State.setEobrun_draws (s : State) (n : Nat) :
    (s.setEobrun n).draws = s.draws := rfl

/-! ### `setBe` -/

@[simp] theorem State.setBe_host (s : State) (be : List Bool) :
    (s.setBe be).host = s.host := rfl

@[simp] theorem State.setBe_status (s : State) (be : List Bool) :
    (s.setBe be).status = s.status := rfl

@[simp] theorem State.setBe_operand (s : State) (be : List Bool) :
    (s.setBe be).operand = s.operand := rfl

@[simp] theorem State.setBe_result (s : State) (be : List Bool) :
    (s.setBe be).result = s.result := rfl

@[simp] theorem State.setBe_cfg (s : State) (be : List Bool) :
    (s.setBe be).cfg = s.cfg := rfl

@[simp] theorem State.setBe_scan (s : State) (be : List Bool) :
    (s.setBe be).scan = { s.scan with be := be } := rfl

@[simp] theorem State.setBe_qm (s : State) (be : List Bool) :
    (s.setBe be).qm = s.qm := rfl

@[simp] theorem State.setBe_bc (s : State) (be : List Bool) :
    (s.setBe be).bc = s.bc := rfl

@[simp] theorem State.setBe_ctx (s : State) (be : List Bool) :
    (s.setBe be).ctx = s.ctx := rfl

@[simp] theorem State.setBe_ports (s : State) (be : List Bool) :
    (s.setBe be).ports = s.ports := rfl

@[simp] theorem State.setBe_draws (s : State) (be : List Bool) :
    (s.setBe be).draws = s.draws := rfl

/-! ### `setEobTbl` -/

@[simp] theorem State.setEobTbl_host (s : State) (t : Fin 4) :
    (s.setEobTbl t).host = s.host := rfl

@[simp] theorem State.setEobTbl_status (s : State) (t : Fin 4) :
    (s.setEobTbl t).status = s.status := rfl

@[simp] theorem State.setEobTbl_operand (s : State) (t : Fin 4) :
    (s.setEobTbl t).operand = s.operand := rfl

@[simp] theorem State.setEobTbl_result (s : State) (t : Fin 4) :
    (s.setEobTbl t).result = s.result := rfl

@[simp] theorem State.setEobTbl_cfg (s : State) (t : Fin 4) :
    (s.setEobTbl t).cfg = s.cfg := rfl

@[simp] theorem State.setEobTbl_scan (s : State) (t : Fin 4) :
    (s.setEobTbl t).scan = { s.scan with eobTbl := t } := rfl

@[simp] theorem State.setEobTbl_qm (s : State) (t : Fin 4) :
    (s.setEobTbl t).qm = s.qm := rfl

@[simp] theorem State.setEobTbl_bc (s : State) (t : Fin 4) :
    (s.setEobTbl t).bc = s.bc := rfl

@[simp] theorem State.setEobTbl_ctx (s : State) (t : Fin 4) :
    (s.setEobTbl t).ctx = s.ctx := rfl

@[simp] theorem State.setEobTbl_ports (s : State) (t : Fin 4) :
    (s.setEobTbl t).ports = s.ports := rfl

@[simp] theorem State.setEobTbl_draws (s : State) (t : Fin 4) :
    (s.setEobTbl t).draws = s.draws := rfl

/-! ### `started` -/

@[simp] theorem State.started_host (s : State) (st : ScanState) :
    (s.started st).host = s.host := rfl

@[simp] theorem State.started_status (s : State) (st : ScanState) :
    (s.started st).status = Status.started st := rfl

@[simp] theorem State.started_operand (s : State) (st : ScanState) :
    (s.started st).operand = s.operand := rfl

@[simp] theorem State.started_result (s : State) (st : ScanState) :
    (s.started st).result = s.result := rfl

@[simp] theorem State.started_cfg (s : State) (st : ScanState) :
    (s.started st).cfg = s.cfg := rfl

@[simp] theorem State.started_scan (s : State) (st : ScanState) :
    (s.started st).scan = { ScanRegs.reset with
      mcusToGo := BitVec.ofNat 16 s.cfg.effRI, eobTbl := s.scan.eobTbl } := rfl

@[simp] theorem State.started_qm (s : State) (st : ScanState) :
    (s.started st).qm = QmRegs.reset := rfl

@[simp] theorem State.started_bc (s : State) (st : ScanState) :
    (s.started st).bc = BitChan.reset := rfl

@[simp] theorem State.started_ctx (s : State) (st : ScanState) :
    (s.started st).ctx = [] := rfl

@[simp] theorem State.started_ports (s : State) (st : ScanState) :
    (s.started st).ports = s.ports := rfl

@[simp] theorem State.started_draws (s : State) (st : ScanState) :
    (s.started st).draws = s.draws := rfl

/-! ### `setDnl` -/

@[simp] theorem State.setDnl_host (s : State) (nl : BitVec 16) :
    (s.setDnl nl).host = s.host := rfl

@[simp] theorem State.setDnl_status (s : State) (nl : BitVec 16) :
    (s.setDnl nl).status = { s.status with dnlFound := true } := rfl

@[simp] theorem State.setDnl_operand (s : State) (nl : BitVec 16) :
    (s.setDnl nl).operand = s.operand := rfl

@[simp] theorem State.setDnl_result (s : State) (nl : BitVec 16) :
    (s.setDnl nl).result = s.result := rfl

@[simp] theorem State.setDnl_cfg (s : State) (nl : BitVec 16) :
    (s.setDnl nl).cfg = { s.cfg with frameHeight := nl.setWidth 32 } := rfl

@[simp] theorem State.setDnl_scan (s : State) (nl : BitVec 16) :
    (s.setDnl nl).scan = s.scan := rfl

@[simp] theorem State.setDnl_qm (s : State) (nl : BitVec 16) :
    (s.setDnl nl).qm = s.qm := rfl

@[simp] theorem State.setDnl_bc (s : State) (nl : BitVec 16) :
    (s.setDnl nl).bc = s.bc := rfl

@[simp] theorem State.setDnl_ctx (s : State) (nl : BitVec 16) :
    (s.setDnl nl).ctx = s.ctx := rfl

@[simp] theorem State.setDnl_ports (s : State) (nl : BitVec 16) :
    (s.setDnl nl).ports = s.ports := rfl

@[simp] theorem State.setDnl_draws (s : State) (nl : BitVec 16) :
    (s.setDnl nl).draws = s.draws := rfl

/-! ### `release` -/

@[simp] theorem State.release_host (s : State) (c : Fin 4) (u : Block) :
    (s.release c u).host = s.host := rfl

@[simp] theorem State.release_status (s : State) (c : Fin 4) (u : Block) :
    (s.release c u).status = s.status := rfl

@[simp] theorem State.release_operand (s : State) (c : Fin 4) (u : Block) :
    (s.release c u).operand = s.operand := rfl

@[simp] theorem State.release_result (s : State) (c : Fin 4) (u : Block) :
    (s.release c u).result = s.result := rfl

@[simp] theorem State.release_cfg (s : State) (c : Fin 4) (u : Block) :
    (s.release c u).cfg = s.cfg := rfl

@[simp] theorem State.release_scan (s : State) (c : Fin 4) (u : Block) :
    (s.release c u).scan = s.scan := rfl

@[simp] theorem State.release_qm (s : State) (c : Fin 4) (u : Block) :
    (s.release c u).qm = s.qm := rfl

@[simp] theorem State.release_bc (s : State) (c : Fin 4) (u : Block) :
    (s.release c u).bc = s.bc := rfl

@[simp] theorem State.release_ctx (s : State) (c : Fin 4) (u : Block) :
    (s.release c u).ctx = s.ctx := rfl

@[simp] theorem State.release_ports (s : State) (c : Fin 4) (u : Block) :
    (s.release c u).ports = { s.ports with
      current := none, released := s.ports.released ++ [(c, u)] } := rfl

@[simp] theorem State.release_draws (s : State) (c : Fin 4) (u : Block) :
    (s.release c u).draws = s.draws := rfl

/-! ### `segmentReset` -/

@[simp] theorem State.segmentReset_host (s : State) :
    (s.segmentReset).host = s.host := rfl

@[simp] theorem State.segmentReset_status (s : State) :
    (s.segmentReset).status = s.status := rfl

@[simp] theorem State.segmentReset_operand (s : State) :
    (s.segmentReset).operand = s.operand := rfl

@[simp] theorem State.segmentReset_result (s : State) :
    (s.segmentReset).result = s.result := rfl

@[simp] theorem State.segmentReset_cfg (s : State) :
    (s.segmentReset).cfg = s.cfg := rfl

@[simp] theorem State.segmentReset_scan (s : State) :
    (s.segmentReset).scan = { s.scan with
      predDc := ScanRegs.reset.predDc, predDiff := ScanRegs.reset.predDiff, eobrun := 0,
      be := [] } := rfl

@[simp] theorem State.segmentReset_qm (s : State) :
    (s.segmentReset).qm = s.qm := rfl

@[simp] theorem State.segmentReset_bc (s : State) :
    (s.segmentReset).bc = s.bc := rfl

@[simp] theorem State.segmentReset_ctx (s : State) :
    (s.segmentReset).ctx = [] := rfl

@[simp] theorem State.segmentReset_ports (s : State) :
    (s.segmentReset).ports = s.ports := rfl

@[simp] theorem State.segmentReset_draws (s : State) :
    (s.segmentReset).draws = s.draws := rfl

/-! ### `nextSegment` -/

@[simp] theorem State.nextSegment_host (s : State) :
    (s.nextSegment).host = s.host := rfl

@[simp] theorem State.nextSegment_status (s : State) :
    (s.nextSegment).status = s.status := rfl

@[simp] theorem State.nextSegment_operand (s : State) :
    (s.nextSegment).operand = s.operand := rfl

@[simp] theorem State.nextSegment_result (s : State) :
    (s.nextSegment).result = s.result := rfl

@[simp] theorem State.nextSegment_cfg (s : State) :
    (s.nextSegment).cfg = s.cfg := rfl

@[simp] theorem State.nextSegment_scan (s : State) :
    (s.nextSegment).scan = { s.scan with
      nextRst := s.scan.nextRst + 1, mcusToGo := BitVec.ofNat 16 s.cfg.effRI } := rfl

@[simp] theorem State.nextSegment_qm (s : State) :
    (s.nextSegment).qm = s.qm := rfl

@[simp] theorem State.nextSegment_bc (s : State) :
    (s.nextSegment).bc = s.bc := rfl

@[simp] theorem State.nextSegment_ctx (s : State) :
    (s.nextSegment).ctx = s.ctx := rfl

@[simp] theorem State.nextSegment_ports (s : State) :
    (s.nextSegment).ports = s.ports := rfl

@[simp] theorem State.nextSegment_draws (s : State) :
    (s.nextSegment).draws = s.draws := rfl

/-! ### `putMarker` -/

@[simp] theorem State.putMarker_host (s : State) (sel : StreamSel) (w : BitVec 16) :
    (s.putMarker sel w).host = s.host := rfl

@[simp] theorem State.putMarker_status (s : State) (sel : StreamSel) (w : BitVec 16) :
    (s.putMarker sel w).status = s.status := rfl

@[simp] theorem State.putMarker_operand (s : State) (sel : StreamSel) (w : BitVec 16) :
    (s.putMarker sel w).operand = s.operand := rfl

@[simp] theorem State.putMarker_result (s : State) (sel : StreamSel) (w : BitVec 16) :
    (s.putMarker sel w).result = s.result := rfl

@[simp] theorem State.putMarker_cfg (s : State) (sel : StreamSel) (w : BitVec 16) :
    (s.putMarker sel w).cfg = s.cfg := rfl

@[simp] theorem State.putMarker_scan (s : State) (sel : StreamSel) (w : BitVec 16) :
    (s.putMarker sel w).scan = s.scan := rfl

@[simp] theorem State.putMarker_qm (s : State) (sel : StreamSel) (w : BitVec 16) :
    (s.putMarker sel w).qm = s.qm := rfl

@[simp] theorem State.putMarker_bc (s : State) (sel : StreamSel) (w : BitVec 16) :
    (s.putMarker sel w).bc = s.bc := rfl

@[simp] theorem State.putMarker_ctx (s : State) (sel : StreamSel) (w : BitVec 16) :
    (s.putMarker sel w).ctx = s.ctx := rfl

@[simp] theorem State.putMarker_ports (s : State) (sel : StreamSel) (w : BitVec 16) :
    (s.putMarker sel w).ports = s.ports.setStream sel ((s.ports.stream sel).putWord w) := rfl

@[simp] theorem State.putMarker_draws (s : State) (sel : StreamSel) (w : BitVec 16) :
    (s.putMarker sel w).draws = s.draws := rfl

/-! ### `setSegValid` -/

@[simp] theorem State.setSegValid_host (s : State) (v : Bool) :
    (s.setSegValid v).host = s.host := rfl

@[simp] theorem State.setSegValid_status (s : State) (v : Bool) :
    (s.setSegValid v).status = { s.status with segValid := v } := rfl

@[simp] theorem State.setSegValid_operand (s : State) (v : Bool) :
    (s.setSegValid v).operand = s.operand := rfl

@[simp] theorem State.setSegValid_result (s : State) (v : Bool) :
    (s.setSegValid v).result = s.result := rfl

@[simp] theorem State.setSegValid_cfg (s : State) (v : Bool) :
    (s.setSegValid v).cfg = s.cfg := rfl

@[simp] theorem State.setSegValid_scan (s : State) (v : Bool) :
    (s.setSegValid v).scan = s.scan := rfl

@[simp] theorem State.setSegValid_qm (s : State) (v : Bool) :
    (s.setSegValid v).qm = s.qm := rfl

@[simp] theorem State.setSegValid_bc (s : State) (v : Bool) :
    (s.setSegValid v).bc = s.bc := rfl

@[simp] theorem State.setSegValid_ctx (s : State) (v : Bool) :
    (s.setSegValid v).ctx = s.ctx := rfl

@[simp] theorem State.setSegValid_ports (s : State) (v : Bool) :
    (s.setSegValid v).ports = s.ports := rfl

@[simp] theorem State.setSegValid_draws (s : State) (v : Bool) :
    (s.setSegValid v).draws = s.draws := rfl

/-! ### `warn` -/

@[simp] theorem State.warn_host (s : State) :
    (s.warn).host = s.host := rfl

@[simp] theorem State.warn_status (s : State) :
    (s.warn).status = s.status.warn := rfl

@[simp] theorem State.warn_operand (s : State) :
    (s.warn).operand = s.operand := rfl

@[simp] theorem State.warn_result (s : State) :
    (s.warn).result = s.result := rfl

@[simp] theorem State.warn_cfg (s : State) :
    (s.warn).cfg = s.cfg := rfl

@[simp] theorem State.warn_scan (s : State) :
    (s.warn).scan = s.scan := rfl

@[simp] theorem State.warn_qm (s : State) :
    (s.warn).qm = s.qm := rfl

@[simp] theorem State.warn_bc (s : State) :
    (s.warn).bc = s.bc := rfl

@[simp] theorem State.warn_ctx (s : State) :
    (s.warn).ctx = s.ctx := rfl

@[simp] theorem State.warn_ports (s : State) :
    (s.warn).ports = s.ports := rfl

@[simp] theorem State.warn_draws (s : State) :
    (s.warn).draws = s.draws := rfl

/-! ### `countMcu` -/

@[simp] theorem State.countMcu_host (s : State) :
    (s.countMcu).host = s.host := rfl

@[simp] theorem State.countMcu_status (s : State) :
    (s.countMcu).status = s.status := rfl

@[simp] theorem State.countMcu_operand (s : State) :
    (s.countMcu).operand = s.operand := rfl

@[simp] theorem State.countMcu_result (s : State) :
    (s.countMcu).result = s.result := rfl

@[simp] theorem State.countMcu_cfg (s : State) :
    (s.countMcu).cfg = s.cfg := rfl

@[simp] theorem State.countMcu_scan (s : State) :
    (s.countMcu).scan = { s.scan with mcusToGo := s.scan.mcusToGo - 1 } := rfl

@[simp] theorem State.countMcu_qm (s : State) :
    (s.countMcu).qm = s.qm := rfl

@[simp] theorem State.countMcu_bc (s : State) :
    (s.countMcu).bc = s.bc := rfl

@[simp] theorem State.countMcu_ctx (s : State) :
    (s.countMcu).ctx = s.ctx := rfl

@[simp] theorem State.countMcu_ports (s : State) :
    (s.countMcu).ports = s.ports := rfl

@[simp] theorem State.countMcu_draws (s : State) :
    (s.countMcu).draws = s.draws := rfl

/-! ### `flushed` -/

@[simp] theorem State.flushed_host (s : State) :
    (s.flushed).host = s.host := rfl

@[simp] theorem State.flushed_status (s : State) :
    (s.flushed).status = { s.status with rowActive := false, state := .flushed } := rfl

@[simp] theorem State.flushed_operand (s : State) :
    (s.flushed).operand = s.operand := rfl

@[simp] theorem State.flushed_result (s : State) :
    (s.flushed).result = s.result := rfl

@[simp] theorem State.flushed_cfg (s : State) :
    (s.flushed).cfg = s.cfg := rfl

@[simp] theorem State.flushed_scan (s : State) :
    (s.flushed).scan = s.scan := rfl

@[simp] theorem State.flushed_qm (s : State) :
    (s.flushed).qm = s.qm := rfl

@[simp] theorem State.flushed_bc (s : State) :
    (s.flushed).bc = s.bc := rfl

@[simp] theorem State.flushed_ctx (s : State) :
    (s.flushed).ctx = s.ctx := rfl

@[simp] theorem State.flushed_ports (s : State) :
    (s.flushed).ports = s.ports := rfl

@[simp] theorem State.flushed_draws (s : State) :
    (s.flushed).draws = s.draws := rfl

/-! ### `writeReg` -/

@[simp] theorem State.writeReg_host (s : State) (r : Reg) :
    (s.writeReg r).host = s.host := rfl

@[simp] theorem State.writeReg_status (s : State) (r : Reg) :
    (s.writeReg r).status = s.status := rfl

@[simp] theorem State.writeReg_operand (s : State) (r : Reg) :
    (s.writeReg r).operand = s.operand := rfl

@[simp] theorem State.writeReg_result (s : State) (r : Reg) :
    (s.writeReg r).result = s.result := rfl

@[simp] theorem State.writeReg_cfg (s : State) (r : Reg) :
    (s.writeReg r).cfg = s.cfg.put r (s.operand &&& (writableMask r).getD 0) := rfl

@[simp] theorem State.writeReg_scan (s : State) (r : Reg) :
    (s.writeReg r).scan = s.scan := rfl

@[simp] theorem State.writeReg_qm (s : State) (r : Reg) :
    (s.writeReg r).qm = s.qm := rfl

@[simp] theorem State.writeReg_bc (s : State) (r : Reg) :
    (s.writeReg r).bc = s.bc := rfl

@[simp] theorem State.writeReg_ctx (s : State) (r : Reg) :
    (s.writeReg r).ctx = s.ctx := rfl

@[simp] theorem State.writeReg_ports (s : State) (r : Reg) :
    (s.writeReg r).ports = s.ports := rfl

@[simp] theorem State.writeReg_draws (s : State) (r : Reg) :
    (s.writeReg r).draws = s.draws := rfl

/-! ### `setInput` -/

@[simp] theorem State.setInput_host (s : State) (t : StreamSel) (inp : List Byte) (pos unseen : Nat) :
    (s.setInput t inp pos unseen).host = s.host := rfl

@[simp] theorem State.setInput_status (s : State) (t : StreamSel) (inp : List Byte) (pos unseen : Nat) :
    (s.setInput t inp pos unseen).status = s.status := rfl

@[simp] theorem State.setInput_operand (s : State) (t : StreamSel) (inp : List Byte) (pos unseen : Nat) :
    (s.setInput t inp pos unseen).operand = s.operand := rfl

@[simp] theorem State.setInput_result (s : State) (t : StreamSel) (inp : List Byte) (pos unseen : Nat) :
    (s.setInput t inp pos unseen).result = s.result := rfl

@[simp] theorem State.setInput_cfg (s : State) (t : StreamSel) (inp : List Byte) (pos unseen : Nat) :
    (s.setInput t inp pos unseen).cfg = s.cfg := rfl

@[simp] theorem State.setInput_scan (s : State) (t : StreamSel) (inp : List Byte) (pos unseen : Nat) :
    (s.setInput t inp pos unseen).scan = s.scan := rfl

@[simp] theorem State.setInput_qm (s : State) (t : StreamSel) (inp : List Byte) (pos unseen : Nat) :
    (s.setInput t inp pos unseen).qm = s.qm := rfl

@[simp] theorem State.setInput_bc (s : State) (t : StreamSel) (inp : List Byte) (pos unseen : Nat) :
    (s.setInput t inp pos unseen).bc = s.bc := rfl

@[simp] theorem State.setInput_ctx (s : State) (t : StreamSel) (inp : List Byte) (pos unseen : Nat) :
    (s.setInput t inp pos unseen).ctx = s.ctx := rfl

@[simp] theorem State.setInput_ports (s : State) (t : StreamSel) (inp : List Byte) (pos unseen : Nat) :
    (s.setInput t inp pos unseen).ports = s.ports.setStream t
      { s.ports.stream t with inp := inp, pos := pos, unseen := unseen } := rfl

@[simp] theorem State.setInput_draws (s : State) (t : StreamSel) (inp : List Byte) (pos unseen : Nat) :
    (s.setInput t inp pos unseen).draws = s.draws := rfl

end Sys2Proof.Machine
end

