-- ==== Sys2Proof/Laws/Shell.lean ====
section
/-!
SUPPORT. The shell every command runs in (R606): what it answers when a check fails, when the execution
completes, and everything it can answer at all.
-/
namespace Sys2Proof.Machine

variable {k : Checks} {formed : Bool} {refuses : State → Bool} {body : Cmd Unit} {s t : State}

/-- The DEAD gate (R604). -/
theorem runCommand_dead (hd : s.status.state = .dead) (hk : k.inDead = false) :
    runCommand k formed refuses body s = .next s := by
  simp [runCommand, hd, hk]

/-- A direct command in a scan (R605). -/
theorem runCommand_inScan (hk : k.direct = true) (ha : s.status.state.active = true) :
    runCommand k true refuses body s = .next (s.raise .contractViolation) := by
  have hd : s.status.state ≠ .dead := by intro h; rw [h] at ha; simp [ScanState.active] at ha
  simp [runCommand, hd, hk, ha]

/-- A command's own checks (R606 step 5). -/
theorem runCommand_refuses (hd : s.status.state ≠ .dead ∨ k.inDead = true)
    (hr : refuses s = true) :
    runCommand k true refuses body s = .next (s.raise .contractViolation) := by
  have h1 : ¬ (s.status.state = .dead ∧ k.inDead = false) := by
    rcases hd with h | h <;> simp [h]
  by_cases h2 : k.direct = true ∧ s.status.state.active = true
  · simp [runCommand, h1, h2]
  · simp only [runCommand, h1, h2, hr, if_true, if_false, Bool.true_eq_false]

/-- A command that passes its checks and completes (R200). -/
theorem runCommand_ok (hd : s.status.state ≠ .dead ∨ k.inDead = true)
    (ha : k.direct = false ∨ s.status.state.active = false) (hr : refuses s = false)
    (hb : body s = .ok () t) : runCommand k true refuses body s = .next t := by
  have h1 : ¬ (s.status.state = .dead ∧ k.inDead = false) := by
    rcases hd with h | h <;> simp [h]
  have h2 : ¬ (k.direct = true ∧ s.status.state.active = true) := by
    rcases ha with h | h <;> simp [h]
  simp only [runCommand, h1, h2, hr, hb, settle, if_false, Bool.true_eq_false, Bool.false_eq_true]

/-- A command that passes its checks: its outcome is that of its execution. -/
theorem runCommand_body (hd : s.status.state ≠ .dead ∨ k.inDead = true)
    (ha : k.direct = false ∨ s.status.state.active = false) (hr : refuses s = false) :
    runCommand k true refuses body s = settle (body s) := by
  have h1 : ¬ (s.status.state = .dead ∧ k.inDead = false) := by
    rcases hd with h | h <;> simp [h]
  have h2 : ¬ (k.direct = true ∧ s.status.state.active = true) := by
    rcases ha with h | h <;> simp [h]
  simp only [runCommand, h1, h2, hr, if_false, Bool.true_eq_false, Bool.false_eq_true]

/-- Everything a command can answer with a next state: ignored in DEAD, refused by a check, or executed. -/
theorem runCommand_next (h : runCommand k formed refuses body s = .next t) :
    (s.status.state = .dead ∧ k.inDead = false ∧ t = s) ∨
    (formed = false ∧ t = s.raise .illegalCommand) ∨
    t = s.raise .contractViolation ∨
    ((s.status.state = .dead → k.inDead = true) ∧
      (k.direct = true → s.status.state.active = false) ∧ formed = true ∧ refuses s = false ∧
      settle (body s) = .next t) := by
  unfold runCommand at h
  split at h
  · rename_i h1
    cases h
    exact .inl ⟨h1.1, h1.2, rfl⟩
  · rename_i h1
    split at h
    · rename_i h2
      cases h
      exact .inr (.inl ⟨h2, rfl⟩)
    · rename_i h2
      split at h
      · cases h
        exact .inr (.inr (.inl rfl))
      · rename_i h3
        split at h
        · cases h
          exact .inr (.inr (.inl rfl))
        · rename_i h4
          refine .inr (.inr (.inr ⟨?_, ?_, ?_, ?_, h⟩))
          · intro hd
            cases hk : k.inDead
            · exact absurd ⟨hd, hk⟩ h1
            · rfl
          · intro hk
            cases ha : s.status.state.active
            · rfl
            · exact absurd ⟨hk, ha⟩ h3
          · cases formed
            · exact absurd rfl h2
            · rfl
          · cases hr : refuses s
            · rfl
            · exact absurd hr h4

/-- Everything an execution can settle to (R603, R607). -/
theorem settle_next {r : EStateM.Result Exc State Unit} (h : settle r = .next t) :
    r = .ok () t ∨ (∃ e u, r = .error (.raise e) u ∧ t = u.drawn.raise e) ∨
    (∃ e u, r = .error (.raiseKept e) u ∧ t = u.dropUnit.raise e) := by
  cases r with
  | ok a u => exact .inl (congrArg (EStateM.Result.ok ()) (Host.Outcome.next.inj h))
  | error e u =>
    cases e with
    | raise e => exact .inr (.inl ⟨e, u, rfl, (Host.Outcome.next.inj h).symm⟩)
    | raiseKept e => exact .inr (.inr ⟨e, u, rfl, (Host.Outcome.next.inj h).symm⟩)
    | stop f => simp only [settle, reduceCtorEq] at h

/-- A command faults only where its execution stops. -/
theorem runCommand_fault {f : Fault} (h : runCommand k formed refuses body s = .fault f) :
    ∃ u, body s = .error (.stop f) u := by
  unfold runCommand at h
  split at h
  · cases h
  · split at h
    · cases h
    · split at h
      · cases h
      · split at h
        · cases h
        · revert h
          cases hb : body s with
          | ok a u => intro h; cases h
          | error e u =>
            cases e with
            | raise e => intro h; cases h
            | raiseKept e => intro h; cases h
            | stop g => intro h; cases h; exact ⟨u, rfl⟩

/-- No command is refused. -/
theorem runCommand_not_refused (r : Refusal) : runCommand k formed refuses body s ≠ .refused r := by
  intro h
  unfold runCommand at h
  split at h
  · cases h
  · split at h
    · cases h
    · split at h
      · cases h
      · split at h
        · cases h
        · revert h
          cases hb : body s with
          | ok a u => intro h; cases h
          | error e u => cases e <;> intro h <;> cases h

end Sys2Proof.Machine
end

