-- ==== Sys2Proof/Laws/Cmd.lean ====
section
/-!
SUPPORT. Executions: what a relation between the state before and the state after needs to hold of every
execution, and of the channel, the coder and the unit algorithms in particular. A frame and an invariant are
both such relations.
-/
namespace Sys2Proof.Machine

/-- The state an execution ends in, completed or ended early. -/
def finalState {ε σ α : Type} : EStateM.Result ε σ α → σ
  | .ok _ t => t
  | .error _ t => t

/-- The relation holds between the start and the end of every execution. -/
def Keeps {σ α : Type} (R : σ → σ → Prop) (x : EStateM Exc σ α) : Prop :=
  ∀ s, R s (finalState (x s))

/-- A relation that holds of doing nothing and of one thing after another. -/
structure Steps {σ : Type} (R : σ → σ → Prop) : Prop where
  refl : ∀ s, R s s
  trans : ∀ {s t u}, R s t → R t u → R s u

variable {σ α β : Type} {R : σ → σ → Prop}

theorem keeps_pure (h : Steps R) (a : α) : Keeps R (pure a : EStateM Exc σ α) := fun s => h.refl s

theorem keeps_throw (h : Steps R) (e : Exc) : Keeps R (throw e : EStateM Exc σ α) :=
  fun s => h.refl s

theorem keeps_get (h : Steps R) : Keeps R (get : EStateM Exc σ σ) := fun s => h.refl s

theorem keeps_bind (h : Steps R) {x : EStateM Exc σ α} {f : α → EStateM Exc σ β}
    (hx : Keeps R x) (hf : ∀ a, Keeps R (f a)) : Keeps R (x >>= f) := by
  intro s
  have h1 := hx s
  show R s (finalState (EStateM.bind x f s))
  unfold EStateM.bind
  cases hxs : x s with
  | ok a t =>
    rw [hxs] at h1
    exact h.trans h1 (hf a t)
  | error e t =>
    rw [hxs] at h1
    exact h1

/-- The same with a property that every value the first part returns has. -/
theorem keeps_bind_of (h : Steps R) {x : EStateM Exc σ α} {f : α → EStateM Exc σ β} {P : α → Prop}
    (hx : Keeps R x) (hP : ∀ s a t, x s = .ok a t → P a) (hf : ∀ a, P a → Keeps R (f a)) :
    Keeps R (x >>= f) := by
  intro s
  have h1 := hx s
  have h2 := hP s
  show R s (finalState (EStateM.bind x f s))
  unfold EStateM.bind
  cases hxs : x s with
  | ok a t =>
    rw [hxs] at h1 h2
    exact h.trans h1 (hf a (h2 a t rfl) t)
  | error e t =>
    rw [hxs] at h1
    exact h1

theorem keeps_ite {c : Prop} [Decidable c] {x y : EStateM Exc σ α} (hx : Keeps R x)
    (hy : Keeps R y) : Keeps R (if c then x else y) := by
  split <;> assumption

theorem keeps_update {R : State → State → Prop} {f : State → State} (h : ∀ s, R s (f s)) :
    Keeps R (update f) := fun s => h s

/-- An execution that completes, in two parts. -/
theorem bind_ok {x : EStateM Exc σ α} {f : α → EStateM Exc σ β} {s t : σ} {b : β}
    (h : (x >>= f) s = .ok b t) : ∃ a u, x s = .ok a u ∧ f a u = .ok b t := by
  have h' : EStateM.bind x f s = .ok b t := h
  unfold EStateM.bind at h'
  cases hxs : x s with
  | ok a u => rw [hxs] at h'; exact ⟨a, u, rfl, h'⟩
  | error e u => rw [hxs] at h'; cases h'

/-- Two parts of an execution that complete. -/
theorem bind_of_ok {x : EStateM Exc σ α} {f : α → EStateM Exc σ β} {s u : σ} {a : α}
    (h : x s = .ok a u) : (x >>= f) s = f a u := by
  show EStateM.bind x f s = _
  unfold EStateM.bind
  rw [h]

theorem update_run (f : State → State) (s : State) : update f s = .ok () (f s) := rfl

end Sys2Proof.Machine
end

