-- ==== Sys2Proof/Laws/Channel.lean ====
section
/-!
SUPPORT. What each procedure of the BitChannel and of the QM-coder does to the stream it works on: a read
takes input and writes nothing, a write appends output and takes nothing (R121–R126, R226–R238, R276–R285).
-/
namespace Sys2Proof.Machine

/-- A read: the input and the output as they were, the read position still within the input, the binding
kept. -/
structure ReadStep (k k' : Chan) : Prop where
  inp : k'.st.inp = k.st.inp
  out : k'.st.out = k.st.out
  pos : k.st.pos ≤ k.st.inp.length → k'.st.pos ≤ k.st.inp.length
  dir : k'.bc.dir = k.bc.dir
  mode : k'.bc.mode = k.bc.mode
  stream : k'.bc.stream = k.bc.stream
  unseen : k'.st.unseen = k.st.unseen

/-- A write: the input side as it was, bytes appended to the output, the binding kept. -/
structure WriteStep (k k' : Chan) : Prop where
  inp : k'.st.inp = k.st.inp
  pos : k'.st.pos = k.st.pos
  out : ∃ w, k'.st.out = k.st.out ++ w
  dir : k'.bc.dir = k.bc.dir
  mode : k'.bc.mode = k.bc.mode
  stream : k'.bc.stream = k.bc.stream
  unseen : k'.st.unseen = k.st.unseen

theorem readStep_refl (k : Chan) : ReadStep k k := ⟨rfl, rfl, id, rfl, rfl, rfl, rfl⟩

theorem readStep_trans {a b c : Chan} (h : ReadStep a b) (g : ReadStep b c) : ReadStep a c where
  inp := g.inp.trans h.inp
  out := g.out.trans h.out
  pos := fun hp => h.inp ▸ g.pos (h.inp ▸ h.pos hp)
  dir := g.dir.trans h.dir
  mode := g.mode.trans h.mode
  stream := g.stream.trans h.stream
  unseen := g.unseen.trans h.unseen

theorem writeStep_refl (k : Chan) : WriteStep k k := ⟨rfl, rfl, ⟨[], by simp⟩, rfl, rfl, rfl, rfl⟩

theorem writeStep_trans {a b c : Chan} (h : WriteStep a b) (g : WriteStep b c) : WriteStep a c where
  inp := g.inp.trans h.inp
  pos := g.pos.trans h.pos
  out := by
    obtain ⟨v, hv⟩ := h.out
    obtain ⟨w, hw⟩ := g.out
    exact ⟨v ++ w, by rw [hw, hv, List.append_assoc]⟩
  dir := g.dir.trans h.dir
  mode := g.mode.trans h.mode
  stream := g.stream.trans h.stream
  unseen := g.unseen.trans h.unseen

theorem steps_read : Steps ReadStep := ⟨readStep_refl, readStep_trans⟩

theorem steps_write : Steps WriteStep := ⟨writeStep_refl, writeStep_trans⟩

/-! ### Streams -/

/-- The CORE sees no more than the input (R713). -/
theorem Stream.seen_length_le (t : Stream) : t.seen.length ≤ t.inp.length := by
  simp [Stream.seen, List.length_take]

/-- With nothing unseen the CORE sees the input (R713). -/
theorem Stream.seen_eq {t : Stream} (h : t.unseen = 0) : t.seen = t.inp := by
  simp [Stream.seen, h]

/-- A stream just opened is seen whole (R713). -/
@[simp] theorem Stream.seen_opened (t : Stream) : t.opened.seen = t.inp := by
  simp [Stream.seen, Stream.opened]

/-- Bytes appended unseen leave what is seen (R713, 93 #24). -/
theorem Stream.seen_append (t : Stream) (bytes : List Byte) (h : t.unseen ≤ t.inp.length) :
    ({ t with inp := t.inp ++ bytes, unseen := t.unseen + bytes.length } : Stream).seen = t.seen := by
  have e : t.inp.length + bytes.length - (t.unseen + bytes.length) = t.inp.length - t.unseen := by
    omega
  simp only [Stream.seen, List.length_append, e]
  exact List.take_append_of_le_length (Nat.sub_le _ _)

/-- What `Get` can answer: the byte at the position, or nothing at the end of what is seen (R122, R713). -/
theorem Stream.get_cases (t : Stream) :
    (∃ b, t.seen[t.pos]? = some b ∧ t.pos < t.seen.length ∧
      t.get = (some b, { t with pos := t.pos + 1 })) ∨
    (t.seen.length ≤ t.pos ∧ t.get = (none, t)) := by
  unfold Stream.get
  cases h : t.seen[t.pos]? with
  | some b =>
    obtain ⟨hlt, _⟩ := List.getElem?_eq_some_iff.mp h
    exact .inl ⟨b, rfl, hlt, rfl⟩
  | none => exact .inr ⟨List.getElem?_eq_none_iff.mp h, rfl⟩

/-- `PeekWord` answers a word only where two bytes are left (R124). -/
theorem Stream.peekWord_some {t : Stream} {w : BitVec 16} (h : t.peekWord = some w) :
    t.pos + 1 < t.inp.length := by
  unfold Stream.peekWord at h
  split at h
  · rename_i hi lo h1 h2
    exact Nat.lt_of_lt_of_le (List.getElem?_eq_some_iff.mp h2).1 t.seen_length_le
  · cases h

/-- `GetWord` keeps the position within the input (R125). -/
theorem Stream.getWord_pos {t : Stream} (h : t.pos ≤ t.inp.length) :
    t.getWord.2.pos ≤ t.inp.length := by
  unfold Stream.getWord
  cases hp : t.peekWord with
  | none => exact h
  | some w => have := Stream.peekWord_some hp; show t.pos + 2 ≤ _; omega

theorem Stream.getWord_inp (t : Stream) : t.getWord.2.inp = t.inp := by
  unfold Stream.getWord; split <;> rfl

theorem Stream.getWord_unseen (t : Stream) : t.getWord.2.unseen = t.unseen := by
  unfold Stream.getWord; split <;> rfl

theorem Stream.getWord_out (t : Stream) : t.getWord.2.out = t.out := by
  unfold Stream.getWord; split <;> rfl

/-! ### Reads -/

theorem readStep_skipWord (k : Chan) : ReadStep k { k with st := k.st.getWord.2 } :=
  ⟨Stream.getWord_inp _, Stream.getWord_out _, Stream.getWord_pos, rfl, rfl, rfl,
    Stream.getWord_unseen _⟩

/-- `Fill` (R226). -/
theorem readStep_fill (k : Chan) : ReadStep k k.fill := by
  rcases Stream.get_cases k.st with ⟨b, hb, hlt', hg⟩ | ⟨_, hg⟩
  · have hlt : k.st.pos < k.st.inp.length := Nat.lt_of_lt_of_le hlt' k.st.seen_length_le
    have hund : ({ k.st with pos := k.st.pos + 1 } : Stream).lastUnDo = k.st := by
      simp [Stream.lastUnDo]
    unfold Chan.fill
    simp only [hg, hund]
    by_cases h1 : b = 0xFF
    · simp only [h1, if_true]
      cases hp : k.st.peekWord with
      | none => exact ⟨rfl, rfl, id, rfl, rfl, rfl, rfl⟩
      | some w =>
        have h2 := Stream.peekWord_some hp
        by_cases hs : isStuffed k.bc.mode w = true
        · simp only [hs, if_true]
          cases hm : k.bc.mode with
          | bit => exact ⟨rfl, rfl, fun _ => hlt, rfl, rfl, rfl, rfl⟩
          | byte =>
            exact ⟨Stream.getWord_inp _, Stream.getWord_out _, Stream.getWord_pos, rfl, rfl, rfl,
              Stream.getWord_unseen _⟩
        · simp only [hs, if_false, Bool.false_eq_true]
          exact ⟨rfl, rfl, id, rfl, rfl, rfl, rfl⟩
    · simp only [h1, if_false]
      split <;> exact ⟨rfl, rfl, fun _ => hlt, rfl, rfl, rfl, rfl⟩
  · unfold Chan.fill
    simp only [hg]
    exact ⟨rfl, rfl, id, rfl, rfl, rfl, rfl⟩

theorem readStep_take (k : Chan) (n : Nat) : ReadStep k { k with bc := (k.bc.take n).2 } :=
  ⟨rfl, rfl, id, rfl, rfl, rfl, rfl⟩

theorem keeps_getBitsLoop (n : Nat) : ∀ rounds, Keeps ReadStep (getBitsLoop rounds n)
  | 0 => fun k => readStep_refl k
  | rounds + 1 => fun k => by
    show ReadStep k (finalState (if k.bc.cnt.toNat < n then _ else _))
    split
    · split
      · exact readStep_refl k
      · split
        · exact readStep_refl k
        · exact readStep_trans (readStep_fill k) (keeps_getBitsLoop n rounds k.fill)
    · exact readStep_take k n

/-- `GetBits` (R228, R229). -/
theorem keeps_chanGetBits (n : Nat) : Keeps ReadStep (chanGetBits n) := by
  unfold chanGetBits
  split
  · exact keeps_bind steps_read (keeps_getBitsLoop _ _) fun _ =>
      keeps_bind steps_read (keeps_getBitsLoop _ _) fun _ => keeps_pure steps_read _
  · exact keeps_getBitsLoop _ _

/-- `SkipStuffing` (R230). -/
theorem readStep_skipStuffing (k : Chan) : ReadStep k k.skipStuffing := by
  unfold Chan.skipStuffing
  split
  · exact readStep_fill k
  · exact readStep_refl k

/-- The search passes only unread bytes, and stops with two bytes left where it finds a marker (R231). -/
theorem scanMarker_le (mode : Stuff) :
    ∀ l : List Byte, (scanMarker mode l).1 ≤ l.length ∧
      ∀ w, (scanMarker mode l).2 = some w → (scanMarker mode l).1 + 2 ≤ l.length
  | [] => ⟨Nat.le_refl 0, fun _ h => by cases h⟩
  | [_] => ⟨Nat.zero_le _, fun _ h => by cases h⟩
  | hi :: lo :: rest => by
    have ih := scanMarker_le mode (lo :: rest)
    unfold scanMarker
    split
    · exact ⟨Nat.zero_le _, fun w _ => by simp⟩
    · refine ⟨?_, fun w hw => ?_⟩
      · simpa using ih.1
      · have := ih.2 w hw; simp only [List.length_cons] at this ⊢; omega

/-- `FindMarker` (R231). -/
theorem readStep_findMarker (k : Chan) : ReadStep k k.findMarker.2 := by
  have h := (scanMarker_le k.bc.mode (k.st.seen.drop k.st.pos)).1
  rw [List.length_drop] at h
  have hs := k.st.seen_length_le
  have hpos : k.st.pos ≤ k.st.inp.length →
      k.st.pos + (scanMarker k.bc.mode (k.st.seen.drop k.st.pos)).1 ≤ k.st.inp.length := by
    omega
  unfold Chan.findMarker
  simp only
  cases (scanMarker k.bc.mode (k.st.seen.drop k.st.pos)).2 <;>
    exact ⟨rfl, rfl, hpos, rfl, rfl, rfl, rfl⟩

theorem readStep_getByteZLoop : ∀ (rounds : Nat) (k : Chan), ReadStep k (getByteZLoop rounds k).2
  | 0, k => ⟨rfl, rfl, id, rfl, rfl, rfl, rfl⟩
  | rounds + 1, k => by
    unfold getByteZLoop
    split
    · split
      · exact ⟨rfl, rfl, id, rfl, rfl, rfl, rfl⟩
      · exact readStep_trans (readStep_fill k) (readStep_getByteZLoop rounds k.fill)
    · exact readStep_take k 8

/-- `GetByteZ` (R232). -/
theorem readStep_getByteZ (k : Chan) : ReadStep k k.getByteZ.2 := readStep_getByteZLoop 3 k

/-! ### Writes -/

/-- `Emit` (R235). -/
theorem writeStep_emit (k : Chan) (b : Byte) : WriteStep k (k.emit b) := by
  unfold Chan.emit
  split
  · cases hm : k.bc.mode with
    | byte => exact ⟨rfl, rfl, ⟨[b, 0x00], by simp [Stream.put]⟩, rfl, rfl, rfl, rfl⟩
    | bit => exact ⟨rfl, rfl, ⟨[b], rfl⟩, rfl, rfl, rfl, rfl⟩
  · exact ⟨rfl, rfl, ⟨[b], rfl⟩, rfl, rfl, rfl, rfl⟩

theorem writeStep_regs (k : Chan) {b : BitChan} (hd : b.dir = k.bc.dir) (hm : b.mode = k.bc.mode)
    (hs : b.stream = k.bc.stream) : WriteStep k { k with bc := b } :=
  ⟨rfl, rfl, ⟨[], by simp⟩, hd, hm, hs, rfl⟩

theorem writeStep_putBit (k : Chan) (v : Bool) : WriteStep k (k.putBit v) := by
  unfold Chan.putBit
  simp only
  split
  · exact writeStep_trans (writeStep_regs k rfl rfl rfl) (writeStep_emit _ _)
  · exact writeStep_regs k rfl rfl rfl

/-- `PutBits` (R236). -/
theorem writeStep_putBits : ∀ (n v : Nat) (k : Chan), WriteStep k (Chan.putBits n v k)
  | 0, _, k => writeStep_refl k
  | n + 1, v, k => writeStep_trans (writeStep_putBit k _) (writeStep_putBits n v _)

/-- The byte `Flush` pads and writes, if there is one (R238). -/
theorem writeStep_pad (k : Chan) (c : Prop) [Decidable c] (b : Byte) :
    WriteStep k (if c then k.emit b else k) := by
  split
  · exact writeStep_emit k b
  · exact writeStep_refl k

/-- `Flush` of the channel (R238). -/
theorem writeStep_flush (k : Chan) : WriteStep k k.flush := by
  unfold Chan.flush
  cases k.bc.mode with
  | byte =>
    exact writeStep_trans (writeStep_pad k (k.bc.free.toNat < 8) _) (writeStep_regs _ rfl rfl rfl)
  | bit =>
    exact writeStep_trans
      (writeStep_pad k (k.bc.free.toNat < (if k.bc.lastFF then 7 else 8) ∨ k.bc.lastFF = true) _)
      (writeStep_regs _ rfl rfl rfl)

/-! ### The encoder -/

/-- A coder that writes. -/
def EncStep (k k' : Coder) : Prop := WriteStep k.ch k'.ch

theorem steps_enc : Steps EncStep := ⟨fun _ => writeStep_refl _, writeStep_trans⟩

theorem writeStep_putZeros : ∀ (n : Nat) (k : Chan), WriteStep k (Chan.putZeros n k)
  | 0, k => writeStep_refl k
  | n + 1, k =>
    writeStep_trans (writeStep_putBits 8 0 k) (writeStep_putZeros n (Chan.putBits 8 0 k))

/-- `Out(b)` (R280). -/
theorem encStep_outByte (k : Coder) (b : Byte) : EncStep k (k.outByte b) := by
  unfold Coder.outByte EncStep
  split
  · exact writeStep_refl _
  · have h1 := writeStep_putZeros (k.qm.z.toNat - k.qm.lost) k.ch
    by_cases h : k.qm.lost ≤ k.qm.z.toNat
    · simp only [if_pos h]
      exact writeStep_trans h1 (writeStep_putBits 8 b.toNat _)
    · simp only [if_neg h]
      exact h1

theorem encStep_outBytes : ∀ (n : Nat) (b : Byte) (k : Coder), EncStep k (Coder.outBytes n b k)
  | 0, _, _ => writeStep_refl _
  | n + 1, b, k => steps_enc.trans (encStep_outByte k b) (encStep_outBytes n b (k.outByte b))

theorem encStep_resolveStack (k : Coder) (b : Byte) : EncStep k (k.resolveStack b) :=
  encStep_outBytes _ _ _

theorem encStep_outPending (k : Coder) : EncStep k k.outPending := by
  unfold Coder.outPending
  split
  · exact encStep_outByte _ _
  · exact writeStep_refl _

/-- `ByteOut` (R279). -/
theorem keeps_byteOut : Keeps EncStep byteOut := by
  intro k
  unfold byteOut
  simp only
  split
  · split
    · exact writeStep_refl _
    · exact writeStep_trans (encStep_outByte k _) (encStep_resolveStack _ _)
  · split
    · exact writeStep_refl _
    · exact writeStep_trans (encStep_outPending k) (encStep_resolveStack _ _)

/-- `Renorm_e` (R278). -/
theorem keeps_renormE : ∀ rounds, Keeps EncStep (renormE rounds)
  | 0 => fun _ => writeStep_refl _
  | rounds + 1 => fun k => by
    have hb := keeps_byteOut { k with qm := k.qm.shift }
    unfold renormE
    simp only
    split
    · cases hbo : byteOut { k with qm := k.qm.shift } with
      | error e k2 => rw [hbo] at hb; exact hb
      | ok a k2 =>
        rw [hbo] at hb
        simp only
        split
        · exact hb
        · exact steps_enc.trans hb
            (keeps_renormE rounds { k2 with qm := { k2.qm with ct := 8 } })
    · split
      · exact writeStep_refl _
      · exact keeps_renormE rounds { k with qm := k.qm.shift }

/-- `Encode` on a cell (R277). -/
theorem keeps_encodeDecision (x : CtxCell) (d : Bool) : Keeps EncStep (encodeDecision x d) := by
  intro k
  unfold encodeDecision
  simp only
  split
  · split
    · have h := keeps_renormE 16 { k with qm :=
        if ({ k.qm with a := k.qm.a - x.qe } : QmRegs).a.toNat < x.qe.toNat
        then ({ k.qm with a := k.qm.a - x.qe } : QmRegs).upper x.qe
        else { k.qm with a := k.qm.a - x.qe } }
      split <;> rename_i heq <;> rw [heq] at h <;> exact h
    · exact writeStep_refl _
  · have h := keeps_renormE 16 { k with qm :=
      if x.qe.toNat ≤ ({ k.qm with a := k.qm.a - x.qe } : QmRegs).a.toNat
      then ({ k.qm with a := k.qm.a - x.qe } : QmRegs).upper x.qe
      else { k.qm with a := k.qm.a - x.qe } }
    split <;> rename_i heq <;> rw [heq] at h <;> exact h

/-- `Flush` of the coder (R281). -/
theorem keeps_qmFlush (final : Bool) : Keeps EncStep (qmFlush final) := by
  unfold qmFlush
  refine keeps_bind steps_enc (fun _ => writeStep_refl _) fun _ =>
    keeps_bind steps_enc keeps_byteOut fun _ =>
    keeps_bind steps_enc (fun _ => writeStep_refl _) fun _ =>
    keeps_bind steps_enc keeps_byteOut fun _ k => ?_
  show WriteStep k.ch (if final then (k.outPending.resolveStack 0xFF).ch.flush
    else (k.outPending.resolveStack 0xFF).ch)
  have h : EncStep k (k.outPending.resolveStack 0xFF) :=
    writeStep_trans (encStep_outPending k) (encStep_resolveStack _ _)
  split
  · exact writeStep_trans h (writeStep_flush _)
  · exact h

/-! ### The decoder -/

/-- A coder that reads. -/
def DecStep (k k' : Coder) : Prop := ReadStep k.ch k'.ch

theorem steps_dec : Steps DecStep := ⟨fun _ => readStep_refl _, readStep_trans⟩

theorem decStep_byteIn (k : Coder) : DecStep k k.byteIn := readStep_getByteZ _

/-- `Initdec` (R283). -/
theorem decStep_initDec (k : Coder) : DecStep k k.initDec :=
  readStep_trans (readStep_getByteZ _) (readStep_getByteZ _)

/-- `Renorm_d` (R285). -/
theorem keeps_renormD : ∀ rounds, Keeps DecStep (renormD rounds)
  | 0 => fun _ => readStep_refl _
  | rounds + 1 => fun k => by
    unfold renormD
    simp only
    by_cases hc : k.qm.ct = 0
    · simp only [hc, if_true]
      split
      · exact decStep_byteIn k
      · exact steps_dec.trans (decStep_byteIn k)
          (keeps_renormD rounds
            { k.byteIn with qm := ({ k.byteIn.qm with ct := 8 } : QmRegs).shift })
    · simp only [hc, if_false]
      split
      · exact readStep_refl _
      · exact keeps_renormD rounds { k with qm := k.qm.shift }

/-- `Decode` on a cell (R284). -/
theorem keeps_decodeDecision (x : CtxCell) : Keeps DecStep (decodeDecision x) := by
  intro k
  unfold decodeDecision
  simp only
  split
  · split
    · have h := keeps_renormD 16 { k with qm := { k.qm with a := k.qm.a - x.qe } }
      split <;> rename_i heq <;> rw [heq] at h <;> exact h
    · exact readStep_refl _
  · have h := keeps_renormD 16 { k with qm := { k.qm with
      a := x.qe, c := k.qm.c - ((k.qm.a - x.qe).setWidth 32 <<< 16) } }
    split <;> rename_i heq <;> rw [heq] at h <;> exact h

end Sys2Proof.Machine
end

