-- ==== Sys2Proof/Laws/Contexts.lean ====
section
/-!
SUPPORT. The context addresses the scans compute are valid (R321–R323, R328).
-/
namespace Sys2Proof.Machine

/-- An offset of at most 48 in a DC area (R321). -/
theorem ctxValid_dc (t : Fin 4) {o : Nat} (h : o ≤ 48) : ctxValid (dcBase t + o) = true := by
  have ht := t.isLt
  have h1 : dcBase t + o < 256 := by simp only [dcBase]; omega
  have h2 : (dcBase t + o) % 64 ≤ 48 := by simp only [dcBase]; omega
  simp [ctxValid, h1, h2]

/-- An offset of at most 244 in an AC area (R321). -/
theorem ctxValid_ac (t : Fin 4) {o : Nat} (h : o ≤ 244) : ctxValid (acBase t + o) = true := by
  have ht := t.isLt
  have h1 : ¬ acBase t + o < 256 := by simp only [acBase]; omega
  have h2 : acBase t + o < 1280 := by simp only [acBase]; omega
  have h3 : (acBase t + o - 256) % 256 ≤ 244 := by simp only [acBase]; omega
  simp [ctxValid, h1, h2, h3]

theorem ctxValid_uniform : ctxValid uniformCtx = true := by decide

theorem classify_le (da : Int) (small large : Nat) : classify da small large ≤ 16 := by
  unfold classify; repeat' split
  all_goals omega

theorem ctxValid_dcX (t : Fin 4) {i : Nat} (h : i ≤ 14) : ctxValid (dcX t i) = true := by
  have := ctxValid_dc t (o := 20 + i) (by omega)
  rwa [← Nat.add_assoc] at this

theorem ctxValid_dcM (t : Fin 4) {i : Nat} (h : i ≤ 14) : ctxValid (dcM t i) = true := by
  have := ctxValid_dc t (o := 34 + i) (by omega)
  rwa [← Nat.add_assoc] at this

theorem ctxValid_acSe (t : Fin 4) {k : Nat} (h : k ≤ 63) : ctxValid (acSe t k) = true :=
  ctxValid_ac t (o := 3 * (k - 1)) (by omega)

theorem ctxValid_acS0 (t : Fin 4) {k : Nat} (h : k ≤ 63) : ctxValid (acS0 t k) = true := by
  have := ctxValid_ac t (o := 3 * (k - 1) + 1) (by omega)
  rwa [← Nat.add_assoc] at this

theorem ctxValid_acSp (t : Fin 4) {k : Nat} (h : k ≤ 63) : ctxValid (acSp t k) = true := by
  have := ctxValid_ac t (o := 3 * (k - 1) + 2) (by omega)
  rwa [← Nat.add_assoc] at this

theorem acSet_bounds (kx k : Nat) : 189 ≤ acSet kx k ∧ acSet kx k ≤ 217 := by
  unfold acSet; split <;> omega

theorem ctxValid_acX (t : Fin 4) (kx : Nat) {k i : Nat} (hk : k ≤ 63) (h : i ≤ 14) :
    ctxValid (acX t kx k i) = true := by
  have hb := acSet_bounds kx k
  unfold acX
  split
  · exact ctxValid_acSp t hk
  · have := ctxValid_ac t (o := acSet kx k + i - 1) (by omega)
    rwa [show acBase t + (acSet kx k + i - 1) = acBase t + acSet kx k + i - 1 by omega] at this

theorem ctxValid_acM (t : Fin 4) (kx : Nat) {k i : Nat} (h : i ≤ 14) :
    ctxValid (acM t kx k i) = true := by
  have hb := acSet_bounds kx k
  have := ctxValid_ac t (o := acSet kx k + 14 + i - 1) (by omega)
  rwa [show acBase t + (acSet kx k + 14 + i - 1) = acBase t + acSet kx k + 14 + i - 1 by omega]
    at this

theorem ctxValid_dcClass (s : State) (c : Fin 4) {o : Nat} (h : o ≤ 3) :
    ctxValid (s.dcClass c + o) = true := by
  have hc := classify_le (s.predDiff c) (s.cfg.small c) (s.cfg.large c)
  have := ctxValid_dc (s.cfg.dctbl c)
    (o := classify (s.predDiff c) (s.cfg.small c) (s.cfg.large c) + o) (by omega)
  rwa [← Nat.add_assoc] at this

/-- The bands' positions are at most 63 (R57). -/
theorem CfgRegs.se_le (c : CfgRegs) : c.se ≤ 63 := by
  have : c.se < 64 := Nat.mod_lt _ (by decide)
  omega

theorem mem_band {ks se k : Nat} (h : k ∈ band ks se) : k ≤ se := by
  simp only [band, List.mem_range'_1] at h
  omega

end Sys2Proof.Machine
end

