-- ==== Sys2Proof/Laws/PerInstr.lean ====
section
/-!
SUPPORT. A fact about the encoding of every command, one lemma per constructor of Instr: bits [31:26] of its
word are the opcode of its row (spec/30_encoding.md R160, R171).
-/
namespace Sys2Proof.Laws.Encoding

/-- The opcode of a command (R171). -/
def opcodeOf : Instr → BitVec 6
  | .nop => 0x00
  | .coreReset => 0x01
  | .cfgWrite _ => 0x02
  | .cfgRead _ => 0x03
  | .bcOpenRead _ _ => 0x08
  | .bcOpenWrite _ _ => 0x09
  | .bcGetBits _ => 0x0A
  | .bcPutBits _ => 0x0B
  | .bcFlush => 0x0C
  | .bcSkipStuffing => 0x0D
  | .bcFindMarker => 0x0E
  | .bcGetByteZ => 0x0F
  | .qmInitEnc => 0x10
  | .qmInitDec => 0x11
  | .qmEncode _ _ => 0x12
  | .qmDecode _ => 0x13
  | .qmFlush _ => 0x14
  | .ctxInit _ _ _ => 0x18
  | .ctxRead _ => 0x19
  | .ctxResetAll => 0x1A
  | .hufPut _ _ _ => 0x20
  | .hufGet _ _ => 0x21
  | .hufCount _ _ _ => 0x22
  | .epStartParse => 0x28
  | .epStartWrite => 0x29
  | .epStartMeasure => 0x2A
  | .epStartMcuRow => 0x2B
  | .epParseMcu => 0x2C
  | .epWriteMcu => 0x2D
  | .epFlush => 0x2E
  | .epRestart => 0x2F
  | .epWriteFrameType => 0x30

/-- The opcode field of a command's word is the opcode of its row (R160, R171). -/
def Statement (i : Instr) : Prop := opcode (encode i) = opcodeOf i

/-- The six bits above 26 bits. -/
theorem opcode_append (op : BitVec 6) (low : BitVec 26) : opcode (op ++ low) = op := by
  simp only [opcode]
  ext i hi
  rw [BitVec.getElem_extractLsb', BitVec.getLsbD_append]
  simp [hi]

theorem nop : Statement .nop := opcode_append _ _
theorem coreReset : Statement .coreReset := opcode_append _ _
theorem cfgWrite (reg : Reg) : Statement (.cfgWrite reg) := opcode_append _ _
theorem cfgRead (reg : Reg) : Statement (.cfgRead reg) := opcode_append _ _
theorem bcOpenRead (mode : Stuff) (stream : StreamSel) : Statement (.bcOpenRead mode stream) := opcode_append _ _
theorem bcOpenWrite (mode : Stuff) (stream : StreamSel) : Statement (.bcOpenWrite mode stream) := opcode_append _ _
theorem bcGetBits (n : BitVec 6) : Statement (.bcGetBits n) := opcode_append _ _
theorem bcPutBits (n : BitVec 6) : Statement (.bcPutBits n) := opcode_append _ _
theorem bcFlush : Statement .bcFlush := opcode_append _ _
theorem bcSkipStuffing : Statement .bcSkipStuffing := opcode_append _ _
theorem bcFindMarker : Statement .bcFindMarker := opcode_append _ _
theorem bcGetByteZ : Statement .bcGetByteZ := opcode_append _ _
theorem qmInitEnc : Statement .qmInitEnc := opcode_append _ _
theorem qmInitDec : Statement .qmInitDec := opcode_append _ _
theorem qmEncode (ctx : BitVec 11) (d : Bool) : Statement (.qmEncode ctx d) := opcode_append _ _
theorem qmDecode (ctx : BitVec 11) : Statement (.qmDecode ctx) := opcode_append _ _
theorem qmFlush (final : Bool) : Statement (.qmFlush final) := opcode_append _ _
theorem ctxInit (ctx : BitVec 11) (index : BitVec 7) (mps : Bool) : Statement (.ctxInit ctx index mps) := opcode_append _ _
theorem ctxRead (ctx : BitVec 11) : Statement (.ctxRead ctx) := opcode_append _ _
theorem ctxResetAll : Statement .ctxResetAll := opcode_append _ _
theorem hufPut (cls : HufClass) (tbl : Fin 4) (sym : Byte) : Statement (.hufPut cls tbl sym) := opcode_append _ _
theorem hufGet (cls : HufClass) (tbl : Fin 4) : Statement (.hufGet cls tbl) := opcode_append _ _
theorem hufCount (cls : HufClass) (tbl : Fin 4) (sym : Byte) : Statement (.hufCount cls tbl sym) := opcode_append _ _
theorem epStartParse : Statement .epStartParse := opcode_append _ _
theorem epStartWrite : Statement .epStartWrite := opcode_append _ _
theorem epStartMeasure : Statement .epStartMeasure := opcode_append _ _
theorem epStartMcuRow : Statement .epStartMcuRow := opcode_append _ _
theorem epParseMcu : Statement .epParseMcu := opcode_append _ _
theorem epWriteMcu : Statement .epWriteMcu := opcode_append _ _
theorem epFlush : Statement .epFlush := opcode_append _ _
theorem epRestart : Statement .epRestart := opcode_append _ _
theorem epWriteFrameType : Statement .epWriteFrameType := opcode_append _ _

end Sys2Proof.Laws.Encoding
end

