-- ==== Sys2Proof/Laws/Sparse.lean ====
section
/-!
SUPPORT. Sparse arrays: a read after a write, and the canonical form kept by every write.
-/
namespace Sys2Proof.Machine

variable {α : Type} [DecidableEq α] (d : Nat → α)

theorem sparseWfFrom_mono {lo hi : Nat} (h : lo ≤ hi) :
    ∀ {m : List (Nat × α)}, sparseWfFrom d hi m = true → sparseWfFrom d lo m = true
  | [], _ => rfl
  | (j, w) :: m, hm => by
    simp only [sparseWfFrom, Bool.and_eq_true, decide_eq_true_eq] at hm ⊢
    exact ⟨⟨by omega, hm.1.2⟩, hm.2⟩

/-- A key below the listed ones reads as unlisted. -/
theorem sparseGet_below {k lo : Nat} (h : k < lo) :
    ∀ {m : List (Nat × α)}, sparseWfFrom d lo m = true → sparseGet d m k = d k
  | [], _ => rfl
  | (j, w) :: m, hm => by
    simp only [sparseWfFrom, Bool.and_eq_true, decide_eq_true_eq] at hm
    have hk : k ≠ j := by omega
    simp only [sparseGet, hk, if_false]
    exact sparseGet_below (lo := j + 1) (by omega) hm.2

theorem sparseGet_set_same_from (k : Nat) (v : α) :
    ∀ {lo : Nat} {m : List (Nat × α)}, sparseWfFrom d lo m = true →
      sparseGet d (sparseSet d k v m) k = v
  | _, [], _ => by
    by_cases h : v = d k <;> simp [sparseSet, h, sparseGet]
  | lo, (j, w) :: m, hm => by
    have hm' := hm
    simp only [sparseWfFrom, Bool.and_eq_true, decide_eq_true_eq] at hm'
    unfold sparseSet
    by_cases h1 : k < j
    · simp only [h1, if_true]
      by_cases hv : v = d k
      · have hk : k ≠ j := by omega
        simp only [hv, if_true, sparseGet, hk, if_false]
        exact sparseGet_below d (lo := j + 1) (by omega) hm'.2
      · simp [hv, sparseGet]
    · simp only [h1, if_false]
      by_cases h2 : k = j
      · simp only [h2, if_true]
        by_cases hv : v = d j
        · simp only [hv, if_true]
          exact sparseGet_below d (Nat.lt_succ_self j) hm'.2
        · simp [hv, sparseGet]
      · simp only [h2, if_false, sparseGet]
        exact sparseGet_set_same_from k v hm'.2

/-- A read of the key just written gives the value written. -/
theorem sparseGet_set_same {m : List (Nat × α)} (hm : sparseWf d m = true) (k : Nat) (v : α) :
    sparseGet d (sparseSet d k v m) k = v :=
  sparseGet_set_same_from d k v hm

/-- A write leaves every other key alone. -/
theorem sparseGet_set_other {a k : Nat} (h : a ≠ k) (v : α) :
    ∀ (m : List (Nat × α)), sparseGet d (sparseSet d k v m) a = sparseGet d m a
  | [] => by
    by_cases hv : v = d k <;> simp [sparseSet, hv, sparseGet, h]
  | (j, w) :: m => by
    unfold sparseSet
    by_cases h1 : k < j
    · simp only [h1, if_true]
      by_cases hv : v = d k
      · simp [hv]
      · simp [hv, sparseGet, h]
    · simp only [h1, if_false]
      by_cases h2 : k = j
      · subst h2
        by_cases hv : v = d k <;> simp [hv, sparseGet, h]
      · simp only [h2, if_false, sparseGet]
        by_cases h3 : a = j
        · simp [h3]
        · simp only [h3, if_false]
          exact sparseGet_set_other h v m

theorem sparseWfFrom_set {lo k : Nat} (v : α) (hlo : lo ≤ k) :
    ∀ {m : List (Nat × α)}, sparseWfFrom d lo m = true →
      sparseWfFrom d lo (sparseSet d k v m) = true
  | [], _ => by
    by_cases hv : v = d k <;> simp [sparseSet, hv, sparseWfFrom, hlo]
  | (j, w) :: m, hm => by
    have hm' := hm
    simp only [sparseWfFrom, Bool.and_eq_true, decide_eq_true_eq] at hm'
    unfold sparseSet
    by_cases h1 : k < j
    · simp only [h1, if_true]
      by_cases hv : v = d k
      · simpa [hv] using hm
      · have hj : k + 1 ≤ j := h1
        simp [hv, sparseWfFrom, hlo, hj, hm'.1.2, hm'.2]
    · simp only [h1, if_false]
      by_cases h2 : k = j
      · subst h2
        by_cases hv : v = d k
        · simpa [hv] using sparseWfFrom_mono d (by omega) hm'.2
        · simp [hv, sparseWfFrom, hlo, hm'.2]
      · simp only [h2, if_false, sparseWfFrom, Bool.and_eq_true, decide_eq_true_eq]
        exact ⟨hm'.1, sparseWfFrom_set v (by omega) hm'.2⟩

/-- A write keeps the canonical form. -/
theorem sparseWf_set {m : List (Nat × α)} (hm : sparseWf d m = true) (k : Nat) (v : α) :
    sparseWf d (sparseSet d k v m) = true :=
  sparseWfFrom_set d v (Nat.zero_le k) hm

/-- A property of keys that the written key has is kept by a write. -/
theorem sparseSet_all {p : Nat → Bool} {k : Nat} (hk : p k = true) (v : α) :
    ∀ {m : List (Nat × α)}, (m.all fun e => p e.1) = true →
      ((sparseSet d k v m).all fun e => p e.1) = true
  | [], _ => by by_cases hv : v = d k <;> simp [sparseSet, hv, hk]
  | (j, w) :: m, hm => by
    have hm' := hm
    simp only [List.all_cons, Bool.and_eq_true] at hm'
    unfold sparseSet
    by_cases h1 : k < j
    · by_cases hv : v = d k
      · simp only [h1, hv, if_true]
        exact hm
      · simp only [h1, hv, if_true, if_false, List.all_cons, hk, Bool.true_and]
        exact Bool.and_eq_true_iff.mpr hm'
    · by_cases h2 : k = j
      · subst h2
        by_cases hv : v = d k
        · simp only [h1, hv, if_true, if_false]
          exact hm'.2
        · simp only [h1, hv, if_true, if_false, List.all_cons, hk, Bool.true_and]
          exact hm'.2
      · simp only [h1, if_false, h2, List.all_cons, Bool.and_eq_true]
        exact ⟨hm'.1, sparseSet_all hk v hm'.2⟩

theorem bankOk_nil : bankOk [] = true := rfl

theorem countsOk_nil : countsOk [] = true := rfl

/-- A cell written at a valid address keeps the bank's form. -/
theorem bankOk_set {m : List (Nat × CtxCell)} (hm : bankOk m = true) {a : Nat}
    (ha : ctxValid a = true) (x : CtxCell) : bankOk (sparseSet cellReset a x m) = true := by
  simp only [bankOk, Bool.and_eq_true] at hm ⊢
  exact ⟨sparseWf_set _ hm.1 a x, sparseSet_all _ ha x hm.2⟩

/-- A counter of a class, a table and a symbol has one of the 2048 keys. -/
theorem countKey_lt (cls : HufClass) (t : Fin 4) (sym : Byte) : countKey cls t sym < 2048 := by
  have h1 := t.isLt
  have h2 := sym.isLt
  cases cls <;> simp only [countKey] <;> omega

/-- A count keeps the counters' form. -/
theorem countsOk_hufCount {p : Ports} (h : countsOk p.counts = true) (cls : HufClass) (t : Fin 4)
    (sym : Byte) : countsOk (p.hufCount cls t sym).counts = true := by
  simp only [countsOk, Bool.and_eq_true] at h ⊢
  refine ⟨sparseWf_set _ h.1 _ _, ?_⟩
  exact sparseSet_all _ (p := fun k => decide (k < 2048)) (by simpa using countKey_lt cls t sym) _ h.2

/-- `ctx[a]` after a write of it. -/
theorem State.cell_setCell_same {s : State} (h : bankOk s.ctx = true) (a : Nat) (x : CtxCell) :
    (s.setCell a x).cell a = x := by
  simp only [bankOk, Bool.and_eq_true] at h
  exact sparseGet_set_same _ h.1 a x

/-- Every other cell after a write of `ctx[a]`. -/
theorem State.cell_setCell_other (s : State) {a b : Nat} (h : b ≠ a) (x : CtxCell) :
    (s.setCell a x).cell b = s.cell b :=
  sparseGet_set_other _ h x _

/-- The bank of drawn cells has its form (R607). -/
theorem bankOk_drawBank (n : Nat) : bankOk (drawBank n) = true := by
  unfold drawBank
  suffices h : ∀ (l : List Nat) (m : List (Nat × CtxCell)), (∀ a ∈ l, ctxValid a = true) →
      bankOk m = true →
      bankOk (l.foldl (fun m a => sparseSet cellReset a (Config.freeCell n a) m) m) = true from
    h ctxAddrs [] (fun a ha => (List.mem_filter.mp ha).2) rfl
  intro l
  induction l with
  | nil => exact fun m _ hm => hm
  | cons a l ih =>
    intro m hl hm
    exact ih _ (fun b hb => hl b (List.mem_cons_of_mem _ hb))
      (bankOk_set hm (hl a (List.mem_cons_self ..)) _)

/-- The counter of a symbol after a count of it. -/
theorem Ports.count_hufCount_same {p : Ports} (h : countsOk p.counts = true) (cls : HufClass)
    (t : Fin 4) (sym : Byte) :
    (p.hufCount cls t sym).count cls t sym = p.count cls t sym + 1 := by
  simp only [countsOk, Bool.and_eq_true] at h
  exact sparseGet_set_same _ h.1 _ _

end Sys2Proof.Machine
end

