-- ==== Sys2Proof/Laws/Units.lean ====
section
/-!
SUPPORT. What the unit algorithms of the scans do to the state: a decoder reads the channel, an encoder
writes to it or counts, both use valid context cells, and nothing else changes but the scan registers
(R411).
-/
namespace Sys2Proof.Machine

/-- A relation a unit decoder's steps meet. -/
structure ReadFrame (R : State → State → Prop) : Prop extends Steps R where
  read : ∀ s k, ReadStep s.chan k → R s (s.setChan k)
  decode : ∀ s k, ReadStep s.coder.ch k.ch → R s (s.setCoder k)
  cell : ∀ s a x, ctxValid a = true → R s (s.setCell a x)
  scan : ∀ (s : State) r, R s { s with scan := r }

/-- A relation a unit encoder's steps meet. -/
structure WriteFrame (R : State → State → Prop) : Prop extends Steps R where
  write : ∀ s k, WriteStep s.chan k → R s (s.setChan k)
  encode : ∀ s k, WriteStep s.coder.ch k.ch → R s (s.setCoder k)
  cell : ∀ s a x, ctxValid a = true → R s (s.setCell a x)
  scan : ∀ (s : State) r, R s { s with scan := r }
  count : ∀ (s : State) cls t sym, R s { s with ports := s.ports.hufCount cls t sym }

variable {R : State → State → Prop}

/-! ### Reading -/

theorem keeps_getBits (F : ReadFrame R) (n : Nat) : Keeps R (getBits n) := by
  intro s
  have h := keeps_chanGetBits n s.chan
  unfold getBits onChanE
  cases hx : chanGetBits n s.chan with
  | ok a k => rw [hx] at h; exact F.read s k h
  | error e k => rw [hx] at h; exact F.read s k h

theorem keeps_decodeBit (F : ReadFrame R) {a : Nat} (ha : ctxValid a = true) :
    Keeps R (decodeBit a) := by
  refine keeps_bind F.toSteps (keeps_get F.toSteps) fun s0 =>
    keeps_bind F.toSteps (fun s => ?_) fun dx =>
    keeps_bind F.toSteps (keeps_update fun s => F.cell s a _ ha) fun _ => keeps_pure F.toSteps _
  have h := keeps_decodeDecision (s0.cell a) s.coder
  unfold onCoder
  cases hx : decodeDecision (s0.cell a) s.coder with
  | ok b k => rw [hx] at h; exact F.decode s k h
  | error e k => rw [hx] at h; exact F.decode s k h

theorem keeps_huffGetLoop (F : ReadFrame R) (cls : HufClass) (tbl : Fin 4) :
    ∀ rounds len code, Keeps R (huffGetLoop cls tbl rounds len code)
  | 0, _, _ => keeps_throw F.toSteps _
  | rounds + 1, len, code => by
    refine keeps_bind F.toSteps (keeps_getBits F 1) fun b =>
      keeps_bind F.toSteps (keeps_get F.toSteps) fun s => ?_
    cases hufMatch (s.ports.table cls tbl) (len + 1) (2 * code + b) with
    | some sym => exact keeps_pure F.toSteps _
    | none => exact keeps_huffGetLoop F cls tbl rounds _ _

theorem keeps_huffGet (F : ReadFrame R) (cls : HufClass) (tbl : Fin 4) :
    Keeps R (huffGet cls tbl) := keeps_huffGetLoop F cls tbl 16 0 0

theorem keeps_getValue (F : ReadFrame R) (n : Nat) : Keeps R (getValue n) :=
  keeps_ite (keeps_pure F.toSteps _)
    (keeps_bind F.toSteps (keeps_getBits F n) fun _ => keeps_pure F.toSteps _)

theorem keeps_decodeCategory (F : ReadFrame R) {X : Nat → Nat}
    (hX : ∀ i ≤ 14, ctxValid (X i) = true) :
    ∀ rounds i, rounds + i = 15 → Keeps R (decodeCategory X rounds i)
  | 0, _, _ => keeps_throw F.toSteps _
  | rounds + 1, i, h => by
    refine keeps_bind F.toSteps (keeps_decodeBit F (hX i (by omega))) fun b => ?_
    cases b
    · exact keeps_pure F.toSteps _
    · exact keeps_decodeCategory F hX rounds (i + 1) (by omega)

theorem decodeCategory_le {X : Nat → Nat} :
    ∀ rounds i s n t, decodeCategory X rounds i s = .ok n t → n < rounds + i
  | 0, _, _, _, _, h => by cases h
  | rounds + 1, i, s, n, t, h => by
    obtain ⟨b, u, _, h2⟩ := bind_ok h
    cases b
    · cases h2; omega
    · have := decodeCategory_le rounds (i + 1) u n t h2; omega

theorem keeps_decodeLowBits (F : ReadFrame R) {a : Nat} (ha : ctxValid a = true) :
    ∀ n sz, Keeps R (decodeLowBits a n sz)
  | 0, _ => keeps_pure F.toSteps _
  | n + 1, _ => keeps_bind F.toSteps (keeps_decodeBit F ha) fun _ => keeps_decodeLowBits F ha n _

/-- `DecodeMagnitude` (R330). -/
theorem keeps_decodeMagnitude (F : ReadFrame R) {first : Nat} {X M : Nat → Nat}
    (hf : ctxValid first = true) (hX : ∀ i ≤ 14, ctxValid (X i) = true)
    (hM : ∀ i ≤ 14, ctxValid (M i) = true) : Keeps R (decodeMagnitude first X M) := by
  refine keeps_bind F.toSteps (keeps_decodeBit F hf) fun b => ?_
  cases b
  · exact keeps_pure F.toSteps _
  · exact keeps_bind_of F.toSteps (P := fun i => i ≤ 14)
      (keeps_decodeCategory F hX 15 0 rfl)
      (fun s a t h => Nat.lt_succ_iff.mp (decodeCategory_le 15 0 s a t h))
      fun i hi => keeps_decodeLowBits F (hM i hi) i 1

theorem keeps_getDc (F : ReadFrame R) (t : Fin 4) : Keeps R (getDc t) :=
  keeps_bind F.toSteps (keeps_huffGet F _ _) fun _ =>
    keeps_ite (keeps_throw F.toSteps _) (keeps_getValue F _)

theorem keeps_applyDc (F : ReadFrame R) (c : Fin 4) (diff : Int) (u : Block) :
    Keeps R (applyDc c diff u) :=
  keeps_bind F.toSteps (keeps_update fun s => F.scan s _) fun _ =>
    keeps_bind F.toSteps (keeps_get F.toSteps) fun _ => keeps_pure F.toSteps _

theorem keeps_huffAcSeqGet (F : ReadFrame R) (t : Fin 4) :
    ∀ rounds k u, Keeps R (huffAcSeqGet t rounds k u)
  | 0, _, _ => keeps_pure F.toSteps _
  | rounds + 1, k, u => by
    refine keeps_ite (keeps_pure F.toSteps _)
      (keeps_bind F.toSteps (keeps_huffGet F _ _) fun rs => ?_)
    refine keeps_ite (keeps_ite (keeps_throw F.toSteps _)
      (keeps_bind F.toSteps (keeps_getValue F _) fun v => keeps_huffAcSeqGet F t rounds _ _))
      (keeps_ite (keeps_ite (keeps_throw F.toSteps _) (keeps_huffAcSeqGet F t rounds _ _))
        (keeps_ite (keeps_pure F.toSteps _) (keeps_throw F.toSteps _)))

theorem keeps_eobRunLength (F : ReadFrame R) (r : Nat) : Keeps R (eobRunLength r) :=
  keeps_ite (keeps_pure F.toSteps _)
    (keeps_bind F.toSteps (keeps_getBits F _) fun _ => keeps_pure F.toSteps _)

theorem keeps_huffAcFirstLoop (F : ReadFrame R) (t : Fin 4) (al se : Nat) :
    ∀ rounds k u, Keeps R (huffAcFirstLoop t al se rounds k u)
  | 0, _, _ => keeps_pure F.toSteps _
  | rounds + 1, k, u => by
    refine keeps_ite (keeps_pure F.toSteps _)
      (keeps_bind F.toSteps (keeps_huffGet F _ _) fun rs => ?_)
    refine keeps_ite (keeps_ite (keeps_throw F.toSteps _)
      (keeps_bind F.toSteps (keeps_getValue F _) fun v =>
        keeps_huffAcFirstLoop F t al se rounds _ _))
      (keeps_ite (keeps_ite (keeps_throw F.toSteps _)
        (keeps_huffAcFirstLoop F t al se rounds _ _))
        (keeps_bind F.toSteps (keeps_eobRunLength F _) fun _ =>
          keeps_bind F.toSteps (keeps_update fun s => F.scan s _) fun _ =>
            keeps_pure F.toSteps _))

theorem keeps_huffAcFirstGet (F : ReadFrame R) (t : Fin 4) (u : Block) :
    Keeps R (huffAcFirstGet t u) :=
  keeps_bind F.toSteps (keeps_get F.toSteps) fun _ =>
    keeps_ite (keeps_bind F.toSteps (keeps_update fun s => F.scan s _) fun _ =>
      keeps_pure F.toSteps _) (keeps_huffAcFirstLoop F t _ _ _ _ _)

/-- `DecodeUnit` of SEQ_HUFF (R454). -/
theorem keeps_decodeSeqHuff (F : ReadFrame R) (c : Fin 4) (u : Block) :
    Keeps R (decodeSeqHuff c u) := by
  refine keeps_bind F.toSteps (keeps_get F.toSteps) fun _ =>
    keeps_ite (keeps_bind F.toSteps (keeps_getDc F _) fun _ =>
      keeps_bind F.toSteps (keeps_applyDc F _ _ _) fun _ => ?_)
      (keeps_bind F.toSteps (keeps_pure F.toSteps _) fun _ => ?_) <;>
  exact keeps_ite (keeps_ite (keeps_huffAcFirstGet F _ _) (keeps_huffAcSeqGet F _ _ _ _))
    (keeps_pure F.toSteps _)

/-- `QMDCGet` (R471). -/
theorem keeps_qmDcGet (F : ReadFrame R) (c : Fin 4) : Keeps R (qmDcGet c) := by
  refine keeps_bind F.toSteps (keeps_get F.toSteps) fun s =>
    keeps_bind F.toSteps (keeps_decodeBit F (ctxValid_dcClass s c (o := 0) (by omega))) fun b => ?_
  cases b
  · exact keeps_pure F.toSteps _
  · refine keeps_bind F.toSteps
      (keeps_decodeBit F (ctxValid_dcClass s c (o := 1) (by omega))) fun neg =>
      keeps_bind F.toSteps (keeps_decodeMagnitude F ?_ (fun i hi => ctxValid_dcX _ hi)
        fun i hi => ctxValid_dcM _ hi) fun _ => keeps_pure F.toSteps _
    cases neg
    · exact ctxValid_dcClass s c (o := 2) (by omega)
    · exact ctxValid_dcClass s c (o := 3) (by omega)

theorem keeps_qmAcValueGet (F : ReadFrame R) (t : Fin 4) (kx : Nat) {k : Nat} (hk : k ≤ 63) :
    Keeps R (qmAcValueGet t kx k) :=
  keeps_bind F.toSteps (keeps_decodeBit F ctxValid_uniform) fun _ =>
    keeps_bind F.toSteps (keeps_decodeMagnitude F (ctxValid_acSp t hk)
      (fun _ hi => ctxValid_acX t kx hk hi) fun _ hi => ctxValid_acM t kx hi) fun _ =>
    keeps_pure F.toSteps _

/-- `QMACGet` (R473). -/
theorem keeps_qmAcGet (F : ReadFrame R) (t : Fin 4) (kx al : Nat) :
    ∀ (ks : List Nat) (inRun : Bool) (u : Block), (∀ k ∈ ks, k ≤ 63) →
      Keeps R (qmAcGet t kx al ks inRun u)
  | [], _, _, _ => keeps_ite (keeps_throw F.toSteps _) (keeps_pure F.toSteps _)
  | k :: rest, inRun, u, h => by
    have hk := h k (List.mem_cons_self ..)
    have hr := fun j hj => h j (List.mem_cons_of_mem k hj)
    refine keeps_ite (keeps_bind F.toSteps (keeps_pure F.toSteps _) fun eob => ?_)
      (keeps_bind F.toSteps (keeps_decodeBit F (ctxValid_acSe t hk)) fun eob => ?_) <;>
    refine keeps_ite (keeps_pure F.toSteps _)
      (keeps_bind F.toSteps (keeps_decodeBit F (ctxValid_acS0 t hk)) fun b => ?_) <;>
    cases b <;>
    first
      | exact keeps_qmAcGet F t kx al rest _ _ hr
      | exact keeps_bind F.toSteps (keeps_qmAcValueGet F t kx hk) fun v =>
          keeps_qmAcGet F t kx al rest _ _ hr

/-- `DecodeUnit` of SEQ_AC (R475). -/
theorem keeps_decodeSeqAc (F : ReadFrame R) (c : Fin 4) (u : Block) :
    Keeps R (decodeSeqAc c u) := by
  refine keeps_bind F.toSteps (keeps_get F.toSteps) fun s =>
    keeps_ite (keeps_bind F.toSteps (keeps_qmDcGet F _) fun _ =>
      keeps_bind F.toSteps (keeps_update fun s => F.scan s _) fun _ =>
      keeps_bind F.toSteps (keeps_applyDc F _ _ _) fun _ => ?_)
      (keeps_bind F.toSteps (keeps_pure F.toSteps _) fun _ => ?_) <;>
  exact keeps_ite (keeps_qmAcGet F _ _ _ _ _ _ fun k hk =>
      Nat.le_trans (mem_band hk) s.cfg.se_le) (keeps_pure F.toSteps _)

theorem keeps_correct (F : ReadFrame R) (al k : Nat) (u : Block) : Keeps R (correct al k u) :=
  keeps_ite (keeps_pure F.toSteps _)
    (keeps_bind F.toSteps (keeps_getBits F 1) fun _ => keeps_pure F.toSteps _)

theorem keeps_correctAll (F : ReadFrame R) (al : Nat) :
    ∀ ks u, Keeps R (correctAll al ks u)
  | [], _ => keeps_pure F.toSteps _
  | k :: rest, u => keeps_bind F.toSteps (keeps_correct F al k u) fun _ =>
      keeps_correctAll F al rest _

theorem keeps_refWalk (F : ReadFrame R) (al : Nat) : ∀ ks r u, Keeps R (refWalk al ks r u)
  | [], _, _ => keeps_throw F.toSteps _
  | k :: rest, _, u =>
    keeps_ite (keeps_ite (keeps_pure F.toSteps _) (keeps_refWalk F al rest _ _))
      (keeps_bind F.toSteps (keeps_correct F al k u) fun _ => keeps_refWalk F al rest _ _)

theorem keeps_refNew (F : ReadFrame R) (al s : Nat) : Keeps R (refNew al s) :=
  keeps_ite (keeps_throw F.toSteps _)
    (keeps_bind F.toSteps (keeps_getBits F 1) fun _ => keeps_pure F.toSteps _)

theorem keeps_refHuffLoop (F : ReadFrame R) (t : Fin 4) (al : Nat) :
    ∀ rounds ks u, Keeps R (refHuffLoop t al rounds ks u)
  | 0, _, _ => keeps_pure F.toSteps _
  | _ + 1, [], _ => keeps_pure F.toSteps _
  | rounds + 1, k :: rest, u => by
    refine keeps_bind F.toSteps (keeps_huffGet F _ _) fun rs => ?_
    refine keeps_ite (keeps_bind F.toSteps (keeps_eobRunLength F _) fun _ =>
      keeps_bind F.toSteps (keeps_update fun s => F.scan s _) fun _ => keeps_pure F.toSteps _) ?_
    refine keeps_ite (keeps_bind F.toSteps (keeps_refNew F _ _) fun _ => ?_)
      (keeps_bind F.toSteps (keeps_pure F.toSteps _) fun _ => ?_) <;>
    exact keeps_bind F.toSteps (keeps_refWalk F _ _ _ _) fun _ =>
      keeps_refHuffLoop F t al rounds _ _

theorem keeps_refHuffAcGet (F : ReadFrame R) (t : Fin 4) (al : Nat) (ks : List Nat) (u : Block) :
    Keeps R (refHuffAcGet t al ks u) := by
  refine keeps_bind F.toSteps (keeps_get F.toSteps) fun _ =>
    keeps_ite (keeps_bind F.toSteps (keeps_refHuffLoop F _ _ _ _ _) fun _ => ?_)
      (keeps_bind F.toSteps (keeps_pure F.toSteps _) fun _ => ?_) <;>
  exact keeps_bind F.toSteps (keeps_get F.toSteps) fun _ =>
      keeps_ite (keeps_pure F.toSteps _) (keeps_bind F.toSteps (keeps_correctAll F _ _ _) fun _ =>
        keeps_bind F.toSteps (keeps_update fun s => F.scan s _) fun _ => keeps_pure F.toSteps _)

/-- `DecodeUnit` of REF_HUFF (R506). -/
theorem keeps_decodeRefHuff (F : ReadFrame R) (c : Fin 4) (u : Block) :
    Keeps R (decodeRefHuff c u) :=
  keeps_bind F.toSteps (keeps_get F.toSteps) fun _ =>
    keeps_ite (keeps_bind F.toSteps (keeps_getBits F 1) fun _ => keeps_pure F.toSteps _)
      (keeps_refHuffAcGet F _ _ _ _)

theorem keeps_refAcGet (F : ReadFrame R) (t : Fin 4) (al eobx : Nat) :
    ∀ (ks : List Nat) (inRun : Bool) (u : Block), (∀ k ∈ ks, k ≤ 63) →
      Keeps R (refAcGet t al eobx ks inRun u)
  | [], _, _, _ => keeps_ite (keeps_throw F.toSteps _) (keeps_pure F.toSteps _)
  | k :: rest, inRun, u, h => by
    have hk := h k (List.mem_cons_self ..)
    have hr := fun j hj => h j (List.mem_cons_of_mem k hj)
    refine keeps_ite (keeps_bind F.toSteps (keeps_decodeBit F (ctxValid_acSe t hk)) fun eob => ?_)
      (keeps_bind F.toSteps (keeps_pure F.toSteps _) fun eob => ?_) <;>
    refine keeps_ite (keeps_pure F.toSteps _)
      (keeps_ite (keeps_bind F.toSteps (keeps_decodeBit F (ctxValid_acSp t hk)) fun _ =>
        keeps_refAcGet F t al eobx rest _ _ hr)
        (keeps_bind F.toSteps (keeps_decodeBit F (ctxValid_acS0 t hk)) fun b => ?_)) <;>
    cases b <;>
    first
    | exact keeps_refAcGet F t al eobx rest _ _ hr
    | exact keeps_bind F.toSteps (keeps_decodeBit F ctxValid_uniform) fun _ =>
        keeps_refAcGet F t al eobx rest _ _ hr

/-- `DecodeUnit` of REF_AC (R522). -/
theorem keeps_decodeRefAc (F : ReadFrame R) (c : Fin 4) (u : Block) :
    Keeps R (decodeRefAc c u) :=
  keeps_bind F.toSteps (keeps_get F.toSteps) fun s =>
    keeps_ite (keeps_bind F.toSteps (keeps_decodeBit F ctxValid_uniform) fun _ =>
      keeps_pure F.toSteps _)
      (keeps_refAcGet F _ _ _ _ _ _ fun _ hk => Nat.le_trans (mem_band hk) s.cfg.se_le)

/-- `DecodeUnit` of DIFF_LOSSLESS (R542). -/
theorem keeps_decodeLossless (F : ReadFrame R) (c : Fin 4) (u : Block) :
    Keeps R (decodeLossless c u) :=
  keeps_bind F.toSteps (keeps_get F.toSteps) fun _ =>
    keeps_bind F.toSteps (keeps_huffGet F _ _) fun _ =>
    keeps_ite (keeps_throw F.toSteps _)
      (keeps_ite (keeps_bind F.toSteps (keeps_pure F.toSteps _) fun _ => keeps_pure F.toSteps _)
        (keeps_bind F.toSteps (keeps_getValue F _) fun _ => keeps_pure F.toSteps _))

theorem keeps_referenceGet (F : ReadFrame R) (c : Fin 4) : Keeps R (referenceGet c) := by
  have hscan : ∀ (s : State) r, R s { s with scan := r } := F.scan
  refine keeps_bind F.toSteps (keeps_get F.toSteps) fun s =>
    keeps_ite (keeps_bind F.toSteps (keeps_qmDcGet F _) fun _ =>
      keeps_bind F.toSteps (keeps_update fun s => hscan s _) fun _ =>
      keeps_bind F.toSteps (keeps_qmAcGet F _ _ _ _ _ _ fun _ hk => mem_band hk) fun _ =>
        keeps_pure F.toSteps _)
      (keeps_ite (keeps_bind F.toSteps (keeps_getDc F _) fun _ =>
        keeps_bind F.toSteps (keeps_update fun s => hscan s _) fun _ =>
        keeps_bind F.toSteps (keeps_get F.toSteps) fun _ =>
        keeps_bind F.toSteps (keeps_huffAcSeqGet F _ _ _ _) fun _ => keeps_pure F.toSteps _)
        (keeps_bind F.toSteps (keeps_getDc F _) fun _ =>
          keeps_bind F.toSteps (keeps_huffAcSeqGet F _ _ _ _) fun _ => keeps_pure F.toSteps _))

/-- What a residual coding needs to write a decision (R277). -/
theorem State.encoderReady_iff {s : State} {ctx : BitVec 11} : s.encoderReady ctx = true ↔
    ctxValid ctx.toNat = true ∧ s.qm.qmode = .encoding ∧ s.bc.dir = .write ∧ s.status.state = .write := by
  simp [State.encoderReady, encodeRefuses, notWriting, and_assoc]

/-- What a residual coding needs to read a decision (R284). -/
theorem State.decoderReady_iff {s : State} {ctx : BitVec 11} : s.decoderReady ctx = true ↔
    ctxValid ctx.toNat = true ∧ s.qm.qmode = .decoding ∧ s.bc.dir = .read ∧ s.status.state = .parse := by
  simp [State.decoderReady, decodeRefuses, notReading, and_assoc]

theorem keeps_getSteps (F : ReadFrame R) (c : Fin 4) : ∀ g, Keeps R (getSteps c g)
  | .done _ _ => keeps_pure F.toSteps _
  | .malformed => keeps_throw F.toSteps _
  | .symbol _ _ next =>
    keeps_bind F.toSteps (keeps_huffGet F _ _) fun v => keeps_getSteps F c (next v)
  | .bits _ next => keeps_bind F.toSteps (keeps_getBits F _) fun v => keeps_getSteps F c (next v)
  | .decision ctx next => by
    refine keeps_bind F.toSteps (keeps_get F.toSteps) fun s => ?_
    by_cases h : s.decoderReady ctx = true
    · rw [if_pos h]
      exact keeps_bind F.toSteps (keeps_decodeBit F (State.decoderReady_iff.mp h).1) fun d =>
        keeps_getSteps F c (next d)
    · rw [if_neg h]
      exact keeps_throw F.toSteps _
  | .predDc _ next =>
    keeps_bind F.toSteps (keeps_update fun s => State.residualSetDc_eq s c _ ▸ F.scan s _) fun _ =>
      keeps_getSteps F c next
  | .predDiff _ next =>
    keeps_bind F.toSteps (keeps_update fun s => State.residualSetDiff_eq s c _ ▸ F.scan s _) fun _ =>
      keeps_getSteps F c next

/-- The bits written of a number are read back as its low bits, after the bits of value v. -/
theorem takeBits_bitsOf (x : Nat) (rest : List CodeItem) : ∀ n v,
    takeBits n v ((bitsOf n x).map .bit ++ rest) = some (2 ^ n * v + x % 2 ^ n, rest)
  | 0, v => by simp [bitsOf, takeBits, Nat.mod_one]
  | n + 1, v => by
    have h := Nat.mod_pow_succ (b := 2) (k := n) (x := x)
    have hb : (x.testBit n).toNat = x / 2 ^ n % 2 := by
      rw [Nat.testBit_eq_decide_div_mod_eq]
      rcases Nat.mod_two_eq_zero_or_one (x / 2 ^ n) with h | h <;> simp [h]
    simp only [bitsOf, List.map_cons, List.cons_append, takeBits, takeBits_bitsOf, hb, h]
    rw [Nat.pow_succ, Nat.mul_add, Nat.mul_assoc]
    congr 2
    omega

/-- A residual block read, whatever the coding (R550). -/
theorem keeps_residualGet (F : ReadFrame R) (rc : ResidualCoding) (c : Fin 4) :
    Keeps R (residualGet rc c) := by
  refine keeps_bind F.toSteps (keeps_get F.toSteps) fun s => ?_
  cases rc
  · exact keeps_referenceGet F c
  · exact keeps_getSteps F c _

/-- `DecodeUnit` of the residual kinds (R555). -/
theorem keeps_decodeResidual (F : ReadFrame R) (rc : ResidualCoding) (c : Fin 4) :
    Keeps R (decodeResidual rc c) :=
  keeps_bind F.toSteps (keeps_residualGet F rc c) fun _ =>
    keeps_bind F.toSteps (keeps_get F.toSteps) fun _ =>
    keeps_bind F.toSteps (keeps_update fun s => F.scan s _) fun _ => keeps_pure F.toSteps _

/-- `DecodeUnit` (R411). -/
theorem keeps_decodeUnit (F : ReadFrame R) (rc : ResidualCoding) (c : Fin 4) (u : Block) :
    Keeps R (decodeUnit rc c u) := by
  refine keeps_bind F.toSteps (keeps_get F.toSteps) fun s => ?_
  cases s.cfg.kind
  · exact keeps_decodeSeqHuff F c u
  · exact keeps_decodeSeqAc F c u
  · exact keeps_decodeRefHuff F c u
  · exact keeps_decodeRefAc F c u
  · exact keeps_decodeLossless F c u
  · exact keeps_decodeResidual F rc c
  · exact keeps_decodeResidual F rc c
  · exact keeps_decodeResidual F rc c
  · exact keeps_throw F.toSteps _

/-! ### Writing -/

theorem keeps_putBits (F : WriteFrame R) (n v : Nat) : Keeps R (putBits n v) :=
  keeps_update fun s => F.write s _ (writeStep_putBits n v s.chan)

theorem keeps_encodeBit (F : WriteFrame R) {a : Nat} (ha : ctxValid a = true) (d : Bool) :
    Keeps R (encodeBit a d) := by
  refine keeps_bind F.toSteps (keeps_get F.toSteps) fun s0 =>
    keeps_bind F.toSteps (fun s => ?_) fun x => keeps_update fun s => F.cell s a _ ha
  have h := keeps_encodeDecision (s0.cell a) d s.coder
  unfold onCoder
  cases hx : encodeDecision (s0.cell a) d s.coder with
  | ok b k => rw [hx] at h; exact F.encode s k h
  | error e k => rw [hx] at h; exact F.encode s k h

theorem keeps_writeCode (F : WriteFrame R) (cls : HufClass) (tbl : Fin 4) (sym : Byte) :
    Keeps R (writeCode cls tbl sym) := by
  refine keeps_bind F.toSteps (keeps_get F.toSteps) fun s => ?_
  cases hufLookup (s.ports.table cls tbl) sym with
  | some lc => exact keeps_putBits F _ _
  | none => exact keeps_throw F.toSteps _

theorem keeps_huffEncode (F : WriteFrame R) (cls : HufClass) (tbl : Fin 4) (sym : Byte) :
    Keeps R (huffEncode cls tbl sym) :=
  keeps_bind F.toSteps (keeps_get F.toSteps) fun _ =>
    keeps_ite (keeps_update fun s => F.count s _ _ _) (keeps_writeCode F _ _ _)

theorem keeps_putRaw (F : WriteFrame R) (n v : Nat) : Keeps R (putRaw n v) :=
  keeps_bind F.toSteps (keeps_get F.toSteps) fun _ =>
    keeps_ite (keeps_pure F.toSteps _) (keeps_putBits F _ _)

theorem keeps_putRawBits (F : WriteFrame R) : ∀ bs, Keeps R (putRawBits bs)
  | [] => keeps_pure F.toSteps _
  | _ :: bs => keeps_bind F.toSteps (keeps_putRaw F _ _) fun _ => keeps_putRawBits F bs

theorem keeps_putValue (F : WriteFrame R) (cls : HufClass) (tbl : Fin 4) (sym : Byte) (v : Int)
    (n : Nat) : Keeps R (putValue cls tbl sym v n) :=
  keeps_bind F.toSteps (keeps_huffEncode F _ _ _) fun _ => keeps_putRaw F _ _

theorem keeps_repeat (h : Steps R) {x : Cmd Unit} (hx : Keeps R x) : ∀ n, Keeps R (repeatCmd n x)
  | 0 => keeps_pure h _
  | n + 1 => keeps_bind h hx fun _ => keeps_repeat h hx n

theorem keeps_encodeCategory (F : WriteFrame R) {sz : Nat} (hsz : sz < 2 ^ 15) {X : Nat → Nat}
    (hX : ∀ i ≤ 14, ctxValid (X i) = true) :
    ∀ rounds i, 2 ^ i ≤ sz → Keeps R (encodeCategory sz X rounds i)
  | 0, _, _ => keeps_throw F.toSteps _
  | rounds + 1, i, h => by
    have hi : i ≤ 14 := by
      rcases Nat.lt_or_ge i 15 with h1 | h1
      · omega
      · have := Nat.pow_le_pow_right (n := 2) (by decide) h1; omega
    unfold encodeCategory
    split
    · rename_i h2
      exact keeps_bind F.toSteps (keeps_encodeBit F (hX i hi) _) fun _ =>
        keeps_encodeCategory F hsz hX rounds (i + 1) h2
    · exact keeps_bind F.toSteps (keeps_encodeBit F (hX i hi) _) fun _ => keeps_pure F.toSteps _

/-- The category of a magnitude: the index of its top bit (R329). -/
theorem encodeCategory_le {sz : Nat} (hsz : sz < 2 ^ 15) {X : Nat → Nat} :
    ∀ rounds i s n t, 2 ^ i ≤ sz → encodeCategory sz X rounds i s = .ok n t → n ≤ 14
  | 0, _, _, _, _, _, h => by cases h
  | rounds + 1, i, s, n, t, hi, h => by
    unfold encodeCategory at h
    split at h
    · rename_i h2
      obtain ⟨_, u, _, h3⟩ := bind_ok h
      exact encodeCategory_le hsz rounds (i + 1) u n t h2 h3
    · obtain ⟨_, u, _, h3⟩ := bind_ok h
      cases h3
      rcases Nat.lt_or_ge i 15 with h1 | h1
      · omega
      · have := Nat.pow_le_pow_right (n := 2) (by decide) h1; omega

theorem keeps_encodeLowBits (F : WriteFrame R) {a : Nat} (ha : ctxValid a = true) (sz : Nat) :
    ∀ n, Keeps R (encodeLowBits sz a n)
  | 0 => keeps_pure F.toSteps _
  | n + 1 => keeps_bind F.toSteps (keeps_encodeBit F ha _) fun _ => keeps_encodeLowBits F ha sz n

/-- `EncodeMagnitude` (R329). -/
theorem keeps_encodeMagnitude (F : WriteFrame R) (sz : Nat) {first : Nat} {X M : Nat → Nat}
    (hf : ctxValid first = true) (hX : ∀ i ≤ 14, ctxValid (X i) = true)
    (hM : ∀ i ≤ 14, ctxValid (M i) = true) : Keeps R (encodeMagnitude sz first X M) := by
  unfold encodeMagnitude
  split
  · exact keeps_encodeBit F hf _
  · split
    · exact keeps_throw F.toSteps _
    · rename_i h0 h1
      have hsz : sz < 2 ^ 15 := by omega
      have h2 : 2 ^ 0 ≤ sz := by omega
      exact keeps_bind F.toSteps (keeps_encodeBit F hf _) fun _ =>
        keeps_bind_of F.toSteps (P := fun i => i ≤ 14) (keeps_encodeCategory F hsz hX 16 0 h2)
          (fun s a t h => encodeCategory_le hsz 16 0 s a t h2 h)
          fun i hi => keeps_encodeLowBits F (hM i hi) sz i

theorem keeps_rangeCheck (F : WriteFrame R) (p : Int → Bool) (vs : List Int) :
    Keeps R (rangeCheck p vs) := keeps_ite (keeps_pure F.toSteps _) (keeps_throw F.toSteps _)

/-- `EmitEOBRun` (R462). -/
theorem keeps_emitEobRun (F : WriteFrame R) : Keeps R emitEobRun :=
  keeps_bind F.toSteps (keeps_get F.toSteps) fun _ =>
    keeps_ite (keeps_pure F.toSteps _)
      (keeps_bind F.toSteps (keeps_huffEncode F _ _ _) fun _ =>
        keeps_bind F.toSteps (keeps_putRaw F _ _) fun _ =>
        keeps_bind F.toSteps (keeps_update fun s => F.scan s _) fun _ =>
        keeps_bind F.toSteps (keeps_putRawBits F _) fun _ => keeps_update fun s => F.scan s _)

theorem keeps_huffAcValue (F : WriteFrame R) (t : Fin 4) (r : Nat) (v : Int) :
    Keeps R (huffAcValue t r v) :=
  keeps_bind F.toSteps (keeps_repeat F.toSteps (keeps_huffEncode F _ _ _) _) fun _ =>
    keeps_putValue F _ _ _ _ _

theorem keeps_huffAcSeq (F : WriteFrame R) (t : Fin 4) : ∀ vs r, Keeps R (huffAcSeq t vs r)
  | [], _ => keeps_ite (keeps_huffEncode F _ _ _) (keeps_pure F.toSteps _)
  | _ :: vs, _ => keeps_ite (keeps_huffAcSeq F t vs _)
      (keeps_bind F.toSteps (keeps_huffAcValue F _ _ _) fun _ => keeps_huffAcSeq F t vs _)

theorem keeps_huffAcFirstEnd (F : WriteFrame R) : Keeps R huffAcFirstEnd :=
  keeps_bind F.toSteps (keeps_update fun s => F.scan s _) fun _ =>
    keeps_bind F.toSteps (keeps_get F.toSteps) fun _ =>
    keeps_ite (keeps_emitEobRun F) (keeps_pure F.toSteps _)

theorem keeps_huffAcFirst (F : WriteFrame R) (t : Fin 4) : ∀ vs r, Keeps R (huffAcFirst t vs r)
  | [], _ => keeps_ite (keeps_huffAcFirstEnd F) (keeps_pure F.toSteps _)
  | _ :: vs, _ => keeps_ite (keeps_huffAcFirst F t vs _)
      (keeps_bind F.toSteps (keeps_emitEobRun F) fun _ =>
        keeps_bind F.toSteps (keeps_huffAcValue F _ _ _) fun _ => keeps_huffAcFirst F t vs _)

/-- `EncodeUnit` of SEQ_HUFF (R453). -/
theorem keeps_encodeSeqHuff (F : WriteFrame R) (c : Fin 4) (u : Block) :
    Keeps R (encodeSeqHuff c u) := by
  refine keeps_bind F.toSteps (keeps_get F.toSteps) fun _ =>
    keeps_bind F.toSteps (keeps_rangeCheck F _ _) fun _ =>
    keeps_bind F.toSteps (keeps_update fun s => F.scan s _) fun _ =>
    keeps_ite (keeps_bind F.toSteps (keeps_putValue F _ _ _ _ _) fun _ =>
      keeps_bind F.toSteps (keeps_update fun s => F.scan s _) fun _ => ?_) ?_ <;>
  exact keeps_ite (keeps_ite (keeps_huffAcFirst F _ _ _) (keeps_huffAcSeq F _ _ _))
      (keeps_pure F.toSteps _)

/-- `QMDCPut` (R470). -/
theorem keeps_qmDcPut (F : WriteFrame R) (c : Fin 4) (diff : Int) : Keeps R (qmDcPut c diff) :=
  keeps_bind F.toSteps (keeps_get F.toSteps) fun s =>
    keeps_ite (keeps_encodeBit F (ctxValid_dcClass s c (o := 0) (by omega)) _)
      (keeps_bind F.toSteps (keeps_encodeBit F (ctxValid_dcClass s c (o := 0) (by omega)) _)
        fun _ => keeps_ite
          (keeps_bind F.toSteps (keeps_encodeBit F (ctxValid_dcClass s c (o := 1) (by omega)) _)
            fun _ => keeps_encodeMagnitude F _ (ctxValid_dcClass s c (o := 2) (by omega))
              (fun _ hi => ctxValid_dcX _ hi) fun _ hi => ctxValid_dcM _ hi)
          (keeps_bind F.toSteps (keeps_encodeBit F (ctxValid_dcClass s c (o := 1) (by omega)) _)
            fun _ => keeps_encodeMagnitude F _ (ctxValid_dcClass s c (o := 3) (by omega))
              (fun _ hi => ctxValid_dcX _ hi) fun _ hi => ctxValid_dcM _ hi))

/-- `QMACPut` (R472). -/
theorem keeps_qmAcPut (F : WriteFrame R) (t : Fin 4) (kx : Nat) :
    ∀ (vs : List Int) (k : Nat) (inRun : Bool), k + vs.length ≤ 64 →
      Keeps R (qmAcPut t kx vs k inRun)
  | [], _, _, _ => keeps_pure F.toSteps _
  | v :: vs, k, inRun, h => by
    have hk : k ≤ 63 := by simp only [List.length_cons] at h; omega
    have hr : k + 1 + vs.length ≤ 64 := by simp only [List.length_cons] at h; omega
    refine keeps_ite (keeps_encodeBit F (ctxValid_acSe t hk) _)
      (keeps_ite ?_ (keeps_bind F.toSteps (keeps_encodeBit F (ctxValid_acSe t hk) _) fun _ => ?_)) <;>
    exact keeps_ite (keeps_bind F.toSteps (keeps_encodeBit F (ctxValid_acS0 t hk) _) fun _ =>
          keeps_qmAcPut F t kx vs (k + 1) true hr)
          (keeps_bind F.toSteps (keeps_encodeBit F (ctxValid_acS0 t hk) _) fun _ =>
            keeps_bind F.toSteps (keeps_bind F.toSteps (keeps_encodeBit F ctxValid_uniform _)
              fun _ => keeps_encodeMagnitude F _ (ctxValid_acSp t hk)
                (fun _ hi => ctxValid_acX t kx hk hi) fun _ hi => ctxValid_acM t kx hi) fun _ =>
            keeps_qmAcPut F t kx vs (k + 1) false hr)

theorem bandVals_length (al : Nat) (u : Block) {ks se : Nat} (h : se ≤ 63) (hks : ks ≤ 64) :
    ks + (bandVals al u ks se).length ≤ 64 := by
  simp only [bandVals, band, List.length_map, List.length_range']
  omega

theorem CfgRegs.ks_le (c : CfgRegs) : c.ks ≤ 64 := by
  have : c.ss < 64 := Nat.mod_lt _ (by decide)
  simp only [CfgRegs.ks]
  omega

/-- `EncodeUnit` of SEQ_AC (R474). -/
theorem keeps_encodeSeqAc (F : WriteFrame R) (c : Fin 4) (u : Block) :
    Keeps R (encodeSeqAc c u) := by
  refine keeps_bind F.toSteps (keeps_get F.toSteps) fun s =>
    keeps_bind F.toSteps (keeps_rangeCheck F _ _) fun _ =>
    keeps_ite (keeps_bind F.toSteps (keeps_qmDcPut F _ _) fun _ =>
      keeps_bind F.toSteps (keeps_update fun s => F.scan s _) fun _ => ?_) ?_ <;>
  exact keeps_ite (keeps_qmAcPut F _ _ _ _ _ (bandVals_length _ _ s.cfg.se_le s.cfg.ks_le))
      (keeps_pure F.toSteps _)

theorem keeps_refZrls (F : WriteFrame R) (t : Fin 4) : ∀ n br, Keeps R (refZrls t n br)
  | 0, _ => keeps_pure F.toSteps _
  | n + 1, _ => keeps_bind F.toSteps (keeps_emitEobRun F) fun _ =>
      keeps_bind F.toSteps (keeps_huffEncode F _ _ _) fun _ =>
      keeps_bind F.toSteps (keeps_putRawBits F _) fun _ => keeps_refZrls F t n []

theorem keeps_refHuffEnd (F : WriteFrame R) (m : Nat) (br : List Bool) :
    Keeps R (refHuffEnd m br) :=
  keeps_bind F.toSteps (keeps_update fun s => F.scan s _) fun _ =>
    keeps_bind F.toSteps (keeps_get F.toSteps) fun _ =>
    keeps_ite (keeps_emitEobRun F) (keeps_pure F.toSteps _)

theorem keeps_refHuffAc (F : WriteFrame R) (m : Nat) (t : Fin 4) (al eob : Nat) (u : Block) :
    ∀ ks r br, Keeps R (refHuffAc m t al eob u ks r br)
  | [], _, _ => keeps_ite (keeps_refHuffEnd F _ _) (keeps_pure F.toSteps _)
  | _ :: rest, _, _ => keeps_ite (keeps_refHuffAc F m t al eob u rest _ _)
      (keeps_bind F.toSteps (keeps_refZrls F _ _ _) fun _ =>
        keeps_ite (keeps_refHuffAc F m t al eob u rest _ _)
          (keeps_bind F.toSteps (keeps_emitEobRun F) fun _ =>
            keeps_bind F.toSteps (keeps_huffEncode F _ _ _) fun _ =>
            keeps_bind F.toSteps (keeps_putRaw F _ _) fun _ =>
            keeps_bind F.toSteps (keeps_putRawBits F _) fun _ =>
            keeps_refHuffAc F m t al eob u rest _ _))

/-- `EncodeUnit` of REF_HUFF (R504). -/
theorem keeps_encodeRefHuff (F : WriteFrame R) (m : Nat) (c : Fin 4) (u : Block) :
    Keeps R (encodeRefHuff m c u) :=
  keeps_bind F.toSteps (keeps_get F.toSteps) fun _ =>
    keeps_bind F.toSteps (keeps_update fun s => F.scan s _) fun _ =>
    keeps_ite (keeps_putRaw F _ _) (keeps_refHuffAc F _ _ _ _ _ _ _ _)

theorem keeps_refAcPut (F : WriteFrame R) (t : Fin 4) (al eobx : Nat) (u : Block) :
    ∀ (ks : List Nat) (inRun : Bool), (∀ k ∈ ks, k ≤ 63) →
      Keeps R (refAcPut t al eobx u ks inRun)
  | [], _, _ => keeps_pure F.toSteps _
  | k :: rest, inRun, h => by
    have hk := h k (List.mem_cons_self ..)
    have hr := fun j hj => h j (List.mem_cons_of_mem k hj)
    refine keeps_ite (keeps_encodeBit F (ctxValid_acSe t hk) _)
      (keeps_ite (keeps_bind F.toSteps (keeps_encodeBit F (ctxValid_acSe t hk) _) fun _ => ?_) ?_) <;>
    exact keeps_ite (keeps_bind F.toSteps (keeps_encodeBit F (ctxValid_acSp t hk) _) fun _ =>
          keeps_refAcPut F t al eobx u rest _ hr)
          (keeps_ite (keeps_bind F.toSteps (keeps_encodeBit F (ctxValid_acS0 t hk) _) fun _ =>
            keeps_bind F.toSteps (keeps_encodeBit F ctxValid_uniform _) fun _ =>
            keeps_refAcPut F t al eobx u rest _ hr)
            (keeps_bind F.toSteps (keeps_encodeBit F (ctxValid_acS0 t hk) _) fun _ =>
              keeps_refAcPut F t al eobx u rest _ hr))

/-- `EncodeUnit` of REF_AC (R521). -/
theorem keeps_encodeRefAc (F : WriteFrame R) (c : Fin 4) (u : Block) :
    Keeps R (encodeRefAc c u) :=
  keeps_bind F.toSteps (keeps_get F.toSteps) fun s =>
    keeps_ite (keeps_encodeBit F ctxValid_uniform _)
      (keeps_refAcPut F _ _ _ _ _ _ fun _ hk => Nat.le_trans (mem_band hk) s.cfg.se_le)

/-- `EncodeUnit` of DIFF_LOSSLESS (R541). -/
theorem keeps_encodeLossless (F : WriteFrame R) (c : Fin 4) (u : Block) :
    Keeps R (encodeLossless c u) :=
  keeps_bind F.toSteps (keeps_get F.toSteps) fun _ =>
    keeps_ite (keeps_huffEncode F _ _ _) (keeps_putValue F _ _ _ _ _)

theorem keeps_residualHuffPut (F : WriteFrame R) (c : Fin 4) (dc : Int) (vs : List Int) :
    Keeps R (residualHuffPut c dc vs) :=
  keeps_bind F.toSteps (keeps_get F.toSteps) fun _ =>
    keeps_bind F.toSteps (keeps_putValue F _ _ _ _ _) fun _ => keeps_huffAcSeq F _ _ _

theorem keeps_referencePut (F : WriteFrame R) (c : Fin 4) (dc : Int) {vs : List Int}
    (hvs : 1 + vs.length ≤ 64) : Keeps R (referencePut c dc vs) :=
  keeps_bind F.toSteps (keeps_get F.toSteps) fun _ =>
    keeps_ite (keeps_bind F.toSteps (keeps_qmDcPut F _ _) fun _ =>
      keeps_bind F.toSteps (keeps_update fun s => F.scan s _) fun _ =>
      keeps_qmAcPut F _ _ _ _ _ hvs)
      (keeps_ite (keeps_bind F.toSteps (keeps_update fun s => F.scan s _) fun _ =>
        keeps_residualHuffPut F _ _ _) (keeps_residualHuffPut F _ _ _))

theorem keeps_putStep (F : WriteFrame R) (c : Fin 4) : ∀ x, Keeps R (putStep c x)
  | .symbol _ _ _ => keeps_huffEncode F _ _ _
  | .bits _ _ => keeps_putRaw F _ _
  | .decision ctx d => by
    refine keeps_bind F.toSteps (keeps_get F.toSteps) fun s => ?_
    by_cases h : s.encoderReady ctx = true
    · rw [if_pos h]
      exact keeps_encodeBit F (State.encoderReady_iff.mp h).1 d
    · rw [if_neg h]
      exact keeps_throw F.toSteps _
  | .predDc _ => keeps_update fun s => State.residualSetDc_eq s c _ ▸ F.scan s _
  | .predDiff _ => keeps_update fun s => State.residualSetDiff_eq s c _ ▸ F.scan s _

theorem keeps_putSteps (F : WriteFrame R) (c : Fin 4) : ∀ xs, Keeps R (putSteps c xs)
  | [] => keeps_pure F.toSteps _
  | x :: xs => keeps_bind F.toSteps (keeps_putStep F c x) fun _ => keeps_putSteps F c xs

/-- A residual block written, whatever the coding (R550). -/
theorem keeps_residualPut (F : WriteFrame R) (rc : ResidualCoding) (c : Fin 4) (dc : Int)
    {vs : List Int} (hvs : 1 + vs.length ≤ 64) : Keeps R (residualPut rc c dc vs) := by
  refine keeps_bind F.toSteps (keeps_get F.toSteps) fun s => ?_
  cases rc
  · exact keeps_referencePut F c dc hvs
  · exact keeps_putSteps F c _

/-- `EncodeUnit` of the residual kinds (R554). -/
theorem keeps_encodeResidual (F : WriteFrame R) (rc : ResidualCoding) (c : Fin 4) (u : Block) :
    Keeps R (encodeResidual rc c u) :=
  keeps_bind F.toSteps (keeps_get F.toSteps) fun _ =>
    keeps_ite (keeps_throw F.toSteps _)
      (keeps_bind F.toSteps (keeps_update fun s => F.scan s _) fun _ =>
        keeps_residualPut F rc c _ (bandVals_length 0 _ (se := 63) (by omega) (by omega)))

/-- `EncodeUnit` (R411). -/
theorem keeps_encodeUnit (F : WriteFrame R) (rc : ResidualCoding) (c : Fin 4) (u : Block) :
    Keeps R (encodeUnit rc c u) := by
  refine keeps_bind F.toSteps (keeps_get F.toSteps) fun s => ?_
  cases s.cfg.kind
  · exact keeps_encodeSeqHuff F c u
  · exact keeps_encodeSeqAc F c u
  · exact keeps_encodeRefHuff F _ c u
  · exact keeps_encodeRefAc F c u
  · exact keeps_encodeLossless F c u
  · exact keeps_encodeResidual F rc c u
  · exact keeps_encodeResidual F rc c u
  · exact keeps_encodeResidual F rc c u
  · exact keeps_throw F.toSteps _

end Sys2Proof.Machine
end

