-- ==== Sys2Proof/Tests/Slice0.lean ====
section
/-!
SUPPORT. Tests of single steps, their expected results from the examples and tables of spec/; and for each
statement with hypotheses a witness that meets them.
-/
namespace Sys2Proof.Machine.Tests

-- One theorem after another: each would else hold a thread of its own while the kernel is busy.
set_option Elab.async false

/-- The state a command ends in; the same state if it does not answer a next state. -/
def after (i : Instr) (s : State) : State :=
  match exec i s with
  | .next t => t
  | .fault _ => s
  | .refused _ => s

/-- The command answers a next state. -/
def completes (i : Instr) (s : State) : Bool :=
  match exec i s with
  | .next _ => true
  | .fault _ => false
  | .refused _ => false

theorem next_after {i : Instr} {s : State} (h : completes i s = true) :
    exec i s = .next (after i s) := by
  unfold completes at h
  unfold after
  cases hx : exec i s with
  | next t => rfl
  | fault f => rw [hx] at h; cases h
  | refused r => rw [hx] at h; cases h

/-- The step answers a next state. -/
def goesOn (s : State) : Bool :=
  match step s with
  | .next _ => true
  | .fault _ => false
  | .refused _ => false

theorem step_next {s : State} (h : goesOn s = true) : ∃ t, step s = .next t := by
  unfold goesOn at h
  cases hx : step s with
  | next t => exact ⟨t, rfl⟩
  | fault f => rw [hx] at h; cases h
  | refused r => rw [hx] at h; cases h

/-- A stream with bytes to read. -/
def input (bytes : List Byte) : Stream := { inp := bytes, pos := 0, out := [], unseen := 0 }

/-- Reset, the PRIMARY input supplied. -/
def idle (bytes : List Byte) : State :=
  { State.reset with ports := { Ports.empty with primary := input bytes } }

/-- The channel open for reading PRIMARY. -/
def reading (mode : Stuff) (bytes : List Byte) : State :=
  { idle bytes with bc := BitChan.opened .read mode .primary }

/-- The channel open for writing PRIMARY, with `free` slots left and `wacc` pending. -/
def writing (mode : Stuff) (free : BitVec 4) (wacc : Byte) : State :=
  { State.reset with bc := { BitChan.opened .write mode .primary with free := free, wacc := wacc } }

/-- DEAD by a contract violation. -/
def dead : State := State.reset.raise .contractViolation

/-- The DC table of R351's example with the code of category 0 beside it, and an AC table with EOB. -/
def tables (s : State) : State :=
  { s with ports := { s.ports with
      dcTables := #v[[⟨3, 3, 5⟩, ⟨0, 2, 0⟩], [], [], []], acTables := #v[[⟨0, 2, 0⟩], [], [], []] } }

/-- The registers of a one-component scan: SCAN_CTRL, SCAN_BAND, RESTART_INTERVAL, and two rows of two MCUs of
one unit. -/
def scanCfg (ctrl band ri : Word) : CfgRegs :=
  { CfgRegs.reset with
    scanCtrl := ctrl, scanBand := band, scanNcomp := 1, restartInterval := ri
    mcuGeom := 0x00020002, mcuMap := 1 }

/-- A configured state with an input and one unit ready for component 0. -/
def ready (ctrl band ri : Word) (bytes : List Byte) (u : Block) : State :=
  { tables (idle bytes) with
    cfg := scanCfg ctrl band ri
    ports := { (tables (idle bytes)).ports with pending := #v[[u], [], [], []] } }

/-- A scan started by `i`, in its first row. -/
def inRow (i : Instr) (ctrl band ri : Word) (bytes : List Byte) (u : Block) : State :=
  after .epStartMcuRow (after i (ready ctrl band ri bytes u))

/-- A unit with one value, at natural index 0. -/
def unitOf (v : Word) : Block := (Vector.replicate 64 0).set 0 v

/-! ### Well-formed commands (R164, R174) -/

theorem test_wellformed_accepts : WellFormed (.bcGetBits 1) ∧ WellFormed (.bcPutBits 32) := by decide

theorem test_wellformed_refuses_getbits :
    ¬ WellFormed (.bcGetBits 0) ∧ ¬ WellFormed (.bcGetBits 33) := by decide

theorem test_wellformed_refuses_putbits :
    ¬ WellFormed (.bcPutBits 0) ∧ ¬ WellFormed (.bcPutBits 63) := by decide

/-! ### Decoding: one word per constructor, from the formats of R161–R169 and the rows of R171 -/

theorem test_decode_control :
    decode 0x00000000 = .ok .nop ∧ decode 0x04000000 = .ok .coreReset ∧
    decode 0x08000006 = .ok (.cfgWrite .scanNcomp) ∧ decode 0x0C000049 = .ok (.cfgRead .bcCtrl) :=
  ⟨rfl, rfl, rfl, rfl⟩

theorem test_decode_channel :
    decode 0x20000002 = .ok (.bcOpenRead .byte .aux) ∧
    decode 0x24000001 = .ok (.bcOpenWrite .bit .primary) ∧
    decode 0x28000001 = .ok (.bcGetBits 1) ∧ decode 0x2C000020 = .ok (.bcPutBits 32) ∧
    decode 0x30000000 = .ok .bcFlush ∧ decode 0x34000000 = .ok .bcSkipStuffing ∧
    decode 0x38000000 = .ok .bcFindMarker ∧ decode 0x3C000000 = .ok .bcGetByteZ :=
  ⟨rfl, rfl, rfl, rfl, rfl, rfl, rfl, rfl⟩

theorem test_decode_qm :
    decode 0x40000000 = .ok .qmInitEnc ∧ decode 0x44000000 = .ok .qmInitDec ∧
    decode 0x48000501 = .ok (.qmEncode 5 true) ∧ decode 0x4C050000 = .ok (.qmDecode 0x500) ∧
    decode 0x50000001 = .ok (.qmFlush true) :=
  ⟨rfl, rfl, rfl, rfl, rfl⟩

theorem test_decode_contexts :
    decode 0x6000051D = .ok (.ctxInit 5 14 true) ∧ decode 0x64000500 = .ok (.ctxRead 5) ∧
    decode 0x68000000 = .ok .ctxResetAll :=
  ⟨rfl, rfl, rfl⟩

theorem test_decode_huffman :
    decode 0x80000003 = .ok (.hufPut .dc 0 3) ∧ decode 0x84000600 = .ok (.hufGet .ac 2) ∧
    decode 0x880005F0 = .ok (.hufCount .ac 1 0xF0) :=
  ⟨rfl, rfl, rfl⟩

theorem test_decode_parser :
    decode 0xA0000000 = .ok .epStartParse ∧ decode 0xA4000000 = .ok .epStartWrite ∧
    decode 0xA8000000 = .ok .epStartMeasure ∧ decode 0xAC000000 = .ok .epStartMcuRow ∧
    decode 0xB0000000 = .ok .epParseMcu ∧ decode 0xB4000000 = .ok .epWriteMcu ∧
    decode 0xB8000000 = .ok .epFlush ∧ decode 0xBC000000 = .ok .epRestart ∧
    decode 0xC0000000 = .ok .epWriteFrameType :=
  ⟨rfl, rfl, rfl, rfl, rfl, rfl, rfl, rfl, rfl⟩

theorem test_decode_refuses :
    decode 0x10000000 = .error .reservedOpcode ∧ decode 0x00000001 = .error .mustBeZero ∧
    decode 0x28000000 = .error .bitCount ∧ decode 0x2C000021 = .error .bitCount ∧
    decode 0x0C000013 = .error .unassignedRegister :=
  ⟨rfl, rfl, rfl, rfl, rfl⟩

theorem test_table_word :
    decodeTableWord 32 0x28000001 = some (.bcGetBits 1) ∧ decodeTableWord 32 0x04000001 = none := by
  decide

/-- The command withFetchWord places is the one the next step runs: CFG_READ of ID (R204). -/
theorem test_fetch :
    (match step (State.reset.withFetchWord 32 0x0C000000) with
      | .next t => t.result
      | .fault _ => 0
      | .refused _ => 0) = 0x514D4543 := by decide

/-! ### Control (R201–R204, their examples) -/

theorem test_nop : (after .nop dead).reg .status = 0x00000255 := by decide

theorem test_coreReset : (after .coreReset dead).reg .status = 0x00000200 := by decide

theorem test_cfgWrite :
    (after (.cfgWrite .scanNcomp) { State.reset with operand := 0xFFFF0004 }).reg .scanNcomp = 4 := by
  decide

theorem test_cfgWrite_readOnly :
    (after (.cfgWrite .qmA) { State.reset with operand := 0x1234 }).reg .status = 0x00000255 := by
  decide

theorem test_cfgRead : (after (.cfgRead .bcCtrl) State.reset).result = 0x00080000 := by decide

/-! ### The BitChannel (R222–R238, their examples) -/

theorem test_openRead : (after (.bcOpenRead .byte .primary) State.reset).reg .bcCtrl = 0x00080040 := by
  decide

theorem test_openWrite : (after (.bcOpenWrite .bit .aux) State.reset).reg .bcCtrl = 0x00080380 := by
  decide

theorem test_getBits :
    (after (.bcGetBits 12) (reading .byte [0x12, 0xFF, 0x00, 0x34])).result = 0x12F ∧
    (after (.bcGetBits 12) (reading .byte [0x12, 0xFF, 0x00, 0x34])).bc.cnt = 4 ∧
    (after (.bcGetBits 12) (reading .byte [0x12, 0xFF, 0x00, 0x34])).ports.primary.pos = 3 := by
  decide +kernel

theorem test_getBits_marker :
    (match exec (.bcGetBits 9) (reading .byte [0x12, 0xFF, 0xD9]) with
      | .next t => t.status.err
      | .fault _ => .none
      | .refused _ => .none) = .unexpectedMarker := by decide +kernel

theorem test_putBits :
    (after (.bcPutBits 12) { writing .bit 8 0 with operand := 0xABC }).ports.primary.out = [0xAB] ∧
    (after (.bcPutBits 12) { writing .bit 8 0 with operand := 0xABC }).bc.wacc = 0xC := by
  decide +kernel

theorem test_putBits_stuffs :
    (after (.bcPutBits 8) { writing .byte 8 0 with operand := 0xFFFFFFFF }).ports.primary.out =
      [0xFF, 0x00] := by decide +kernel

theorem test_flush_byte : (after .bcFlush (writing .byte 5 5)).ports.primary.out = [0xBF] := by
  decide +kernel

theorem test_flush_bit : (after .bcFlush (writing .bit 4 0xC)).ports.primary.out = [0xC0] := by
  decide +kernel

/-- On FF 00 FF D1 after the data 0xFF was read (R230). -/
def afterFF : State :=
  { reading .byte [] with
    bc := { BitChan.opened .read .byte .primary with lastFF := true }
    ports := { Ports.empty with primary := { input [0xFF, 0x00, 0xFF, 0xD1] with pos := 2 } } }

theorem test_skipStuffing :
    (after .bcSkipStuffing afterFF).bc.marker = true ∧
    (after .bcSkipStuffing afterFF).ports.primary.pos = 2 := by decide +kernel

theorem test_findMarker :
    (after .bcFindMarker (reading .byte [0x00, 0xFF, 0xFF, 0xD5])).result = 0xFFD5 ∧
    (after .bcFindMarker (reading .byte [0x00, 0xFF, 0xFF, 0xD5])).ports.primary.pos = 2 := by
  decide +kernel

theorem test_findMarker_bit :
    (after .bcFindMarker (reading .bit [0x00, 0xFF, 0x7F, 0xFF, 0x00, 0xFF, 0x90])).result = 0xFF90 := by
  decide +kernel

theorem test_getByteZ : (after .bcGetByteZ (reading .byte [0xA0])).result = 0xA0 := by decide +kernel

/-- The state the host's actions and the command leave, one after another. -/
def afterHost (a : HostAction) (i : Instr) (s : State) : State :=
  match step { s with host := [a] } with
  | .next t => after i t
  | .fault _ => s
  | .refused _ => s

/-- 93 #24: bytes appended after the CORE saw the end are not found before the stream is opened again. -/
theorem test_append_after_eof :
    (afterHost (.appendIn .primary [0xFF, 0xD9]) .bcFindMarker (after .bcFindMarker
      (reading .byte [0x12]))).result = 0 ∧
    (after .bcFindMarker (afterHost (.appendIn .primary [0xFF, 0xD9]) (.bcOpenRead .byte .primary)
      (after .bcFindMarker (reading .byte [0x12])))).result = 0xFFD9 := by decide +kernel

/-! ### The QM-coder (R276–R284, their examples) -/

/-- R276's example state: an open write channel and a fresh code. -/
def encoding : State := after .qmInitEnc (writing .byte 8 0)

/-- A decoder on 40 (R283). -/
def decoding : State := after .qmInitDec (reading .byte [0x40])

theorem test_qmInitEnc : encoding.reg .qmCtrl = 0x1B ∧ encoding.reg .qmA = 0x10000 := by
  decide +kernel

theorem test_qmInitDec : decoding.qm.c = 0x40000000 ∧ decoding.qm.a = 0x10000 := by decide +kernel

theorem test_qmEncode : (after (.qmEncode 5 false) encoding).qm.a = 0xA5E3 := by decide +kernel

theorem test_qmEncode_lps :
    (after (.qmEncode 5 true) (after (.qmEncode 5 false) encoding)).qm.a = 0x978C ∧
    (after (.qmEncode 5 true) (after (.qmEncode 5 false) encoding)).cell 5 =
      { index := 1, mps := true, used := true } := by decide +kernel

theorem test_qmDecode : (after (.qmDecode 5) decoding).result = 0 := by decide +kernel

theorem test_qmFlush :
    (after (.qmFlush true) encoding).ports.primary.out = [] ∧
    (after (.qmFlush true) encoding).qm.qmode = .closed := by decide +kernel

/-- A code with two bytes held back, the zero of Z and B, and bits in C. -/
def pendingCode : State :=
  { encoding with qm := { encoding.qm with c := 0x800, ct := 8, bv := true, b := 0x12, z := 1 } }

/-- R710: what was pending when the channel was opened again is written to no stream, what C held is; R222: the registers
read as before. -/
theorem test_reopen_discards :
    (after (.qmFlush true) pendingCode).ports.primary.out = [0x00, 0x12, 0x20] ∧
    (after (.qmFlush true) (after (.bcOpenWrite .byte .aux) pendingCode)).ports.aux.out = [0x20] ∧
    (after (.bcOpenWrite .byte .aux) pendingCode).reg .qmCtrl = pendingCode.reg .qmCtrl ∧
    (after (.bcOpenWrite .byte .aux) pendingCode).reg .qmZ = 1 := by decide +kernel

/-! ### Contexts and Huffman (R331–R333, R351–R353, their examples) -/

theorem test_ctxInit : ((after (.ctxInit 5 14 true) State.reset).cell 5).word = 0x8E := by
  decide +kernel

theorem test_ctxRead : (after (.ctxRead 0x500) State.reset).result = 113 := by decide +kernel

theorem test_ctxResetAll :
    (after .ctxResetAll (after (.ctxInit 5 14 true) State.reset)).cell 5 =
      { index := 0, mps := false, used := false } := by decide +kernel

theorem test_hufPut :
    (after (.hufPut .dc 0 3) (tables (writing .byte 8 0))).bc.wacc = 5 ∧
    (after (.hufPut .dc 0 3) (tables (writing .byte 8 0))).bc.free = 5 := by decide +kernel

theorem test_hufGet :
    (after (.hufGet .dc 0) (tables (reading .byte [0xBF]))).result = 3 ∧
    (after (.hufGet .dc 0) (tables (reading .byte [0xBF]))).bc.cnt = 5 := by decide +kernel

theorem test_hufCount :
    (after (.hufCount .ac 1 0xF0) State.reset).ports.count .ac 1 0xF0 = 1 ∧
    (after (.hufCount .ac 1 0xF0) State.reset).ports.count .ac 0 0xF0 = 0 := by decide +kernel

/-! ### The entropy parser -/

/-- R381's example. -/
theorem test_startParse :
    (after .epStartParse (ready 0 0x3F00 0 [] zeroBlock)).reg .status = 0x00000201 ∧
    (after .epStartParse (ready 0 0x3F00 0 [] zeroBlock)).reg .bcCtrl = 0x00080040 := by
  decide +kernel

/-- R382 and R386 for SEQ_AC: bit stuffing, a fresh encoder. -/
theorem test_startWrite :
    (after .epStartWrite (ready 1 0x3F00 0 [] zeroBlock)).reg .status = 0x00000202 ∧
    (after .epStartWrite (ready 1 0x3F00 0 [] zeroBlock)).reg .bcCtrl = 0x00080180 ∧
    (after .epStartWrite (ready 1 0x3F00 0 [] zeroBlock)).reg .qmCtrl = 0x1B := by decide +kernel

/-- R383: nothing is opened. -/
theorem test_startMeasure :
    (after .epStartMeasure (ready 0 0x3F00 0 [] zeroBlock)).reg .status = 0x00000203 ∧
    (after .epStartMeasure (ready 0 0x3F00 0 [] zeroBlock)).reg .bcCtrl = 0x00080000 := by
  decide +kernel

/-- R384: SS > SE is refused. -/
theorem test_start_refuses :
    (after .epStartParse (ready 0 0x3E3F 0 [] zeroBlock)).reg .status = 0x00000255 := by
  decide +kernel

/-- R388's example. -/
theorem test_startMcuRow :
    (inRow .epStartWrite 0 0x3F00 0 [] zeroBlock).result = 1 ∧
    (inRow .epStartWrite 0 0x3F00 0 [] zeroBlock).reg .rowState = 0x00010000 := by decide +kernel

/-- R542 on the code 101 000 of R541's example: the sample -7. -/
theorem test_parseMcu :
    (after .epParseMcu (inRow .epStartParse 4 0 0 [0xA0] zeroBlock)).ports.released.map
      (fun p => p.2[0]) = [0xFFFFFFF9] := by decide +kernel

/-- R541's example: -7 is coded as 101 000. -/
theorem test_writeMcu :
    (after .epWriteMcu (inRow .epStartWrite 4 0 0 [] (unitOf 0xFFFFFFF9))).bc.wacc = 0x28 ∧
    (after .epWriteMcu (inRow .epStartWrite 4 0 0 [] (unitOf 0xFFFFFFF9))).bc.free = 2 := by
  decide +kernel

/-- R398's example: three bits 100 pending, PRED_DC[0] = 10. -/
def beforeRestart : State :=
  { inRow .epStartWrite 0 0x3F00 0 [] zeroBlock with
    bc := { BitChan.opened .write .byte .primary with free := 5, wacc := 4 }
    scan := { (inRow .epStartWrite 0 0x3F00 0 [] zeroBlock).scan with predDc := #v[10, 0, 0, 0] } }

theorem test_restart :
    (after .epRestart beforeRestart).ports.primary.out = [0x9F] ∧
    (after .epRestart beforeRestart).reg .bcCtrl = 0x00080080 ∧
    (after .epRestart beforeRestart).reg (.predDc 0) = 0 ∧
    (after .epRestart beforeRestart).reg .status = 0x00000302 := by decide +kernel

/-- R397 on the same state: the padded byte 9F, then FLUSHED. -/
theorem test_epFlush :
    (after .epFlush beforeRestart).ports.primary.out = [0x9F] ∧
    (after .epFlush beforeRestart).reg .status = 0x00000204 := by decide +kernel

/-- R410's example: extended sequential. -/
theorem test_writeFrameType :
    (after .epWriteFrameType (ready 0 0x3F00 0 [] zeroBlock)).result = 0xFFC1 ∧
    (after .epWriteFrameType (ready 0 0x3F00 0 [] zeroBlock)).ports.primary.out = [0xFF, 0xC1] := by
  decide +kernel

/-! ### Witnesses: states and operands that meet the hypotheses of each statement -/

/-- The states the witnesses share: a scan in MEASURE of SEQ_AC, and one in PARSE of a DC refinement with a
restart interval of 1, before its second MCU, on a given input. -/
def measuring : State := inRow .epStartMeasure 1 0x3F00 0 [] zeroBlock

/-- PARSE of REF_HUFF, DC, with RI = 1, one MCU parsed. -/
def atRestart (bytes : List Byte) : State :=
  after .epParseMcu { inRow .epStartParse 2 0x00010000 1 bytes zeroBlock with
    ports := { (inRow .epStartParse 2 0x00010000 1 bytes zeroBlock).ports with
      pending := #v[[zeroBlock, zeroBlock], [], [], []] } }

theorem reset_sound : State.reset.sound := by decide

theorem witness_EncodingsAreOneToOne :
    WellFormed (.bcGetBits 1) ∧ WellFormed (.bcPutBits 32) ∧ WellFormed (.cfgRead (.biasN 3)) ∧
    decode 0x2C000020 = .ok (.bcPutBits 32) := ⟨by decide, by decide, by decide, rfl⟩

theorem witness_ReservedOpcodesRaise :
    (opcode 0x10000000).toNat ∈ List.range' 0x04 4 ++ List.range' 0x15 3 ++ List.range' 0x1B 5 ++
      List.range' 0x23 5 ++ List.range' 0x31 15 ∧
    (opcode 0xFC000000).toNat ∈ List.range' 0x04 4 ++ List.range' 0x15 3 ++ List.range' 0x1B 5 ++
      List.range' 0x23 5 ++ List.range' 0x31 15 ∧
    State.reset.status.state ≠ .dead ∧ dead.status.state = .dead := by
  refine ⟨?_, ?_, by decide, by decide⟩
  · show 4 ∈ _; decide
  · show 63 ∈ _; decide

theorem witness_MalformedWordsRaise :
    malformed 0x00000001 ∧ (∃ e ∈ mustBeZero, (opcode 0x00000001).toNat = e.1) ∧
    (opcode 0x00000001).toNat ∈ [0x00, 0x01, 0x02, 0x03, 0x28, 0x29, 0x2A] ∧
    malformed 0x28000021 ∧ (∃ e ∈ mustBeZero, (opcode 0x28000021).toNat = e.1) ∧
    (opcode 0x28000021).toNat ∉ [0x00, 0x01, 0x02, 0x03, 0x28, 0x29, 0x2A] ∧
    State.reset.status.state ≠ .dead ∧ dead.status.state = .dead := by
  refine ⟨.inl ⟨(0x00, 0x03FFFFFF), by simp [mustBeZero], rfl, by decide⟩,
    ⟨(0x00, 0x03FFFFFF), by simp [mustBeZero], rfl⟩, ?_, .inr (.inl ⟨.inl rfl, .inr ?_⟩),
    ⟨(0x0A, 0x03FFFFC0), by simp [mustBeZero], rfl⟩, ?_, by decide, by decide⟩
  · show 0 ∈ _; decide
  · decide
  · show 10 ∉ _; decide

theorem witness_not_malformed (h : malformed 0x28000020) : False := by
  obtain ⟨e, he, h1, h2⟩ | ⟨-, h | h⟩ | ⟨h | h, -⟩ := h
  · have h1 : 10 = e.1 := h1
    simp [mustBeZero] at he
    obtain h | h | h | h | h | h | h | h | h | h | h | h | h | h | h | h | h | h | h | h | h | h | h |
      ⟨_, _, h⟩ := he <;> subst h <;> revert h1 h2 <;> try decide
    omega
  · revert h; decide
  · revert h; decide
  · cases h
  · cases h

theorem witness_StepRunsDecodedInstruction : decode 0x00000000 = .ok .nop := rfl

/-- The channel open for reading, the end of the data seen. -/
def atEnd (bytes : List Byte) : State :=
  { reading .byte bytes with
    bc := { BitChan.opened .read .byte .primary with eof := true }
    ports := { Ports.empty with primary := { input bytes with pos := bytes.length } } }

/-- EP_FLUSH of a parsed scan left its channel open. -/
def flushedScan : State := after .epFlush (inRow .epStartParse 0 0x3F00 0 [0x12, 0xFF, 0xD9] zeroBlock)

theorem witness_HostActions :
    (∃ t, step { State.reset with host := [.seekIn .aux 3] } = .next t) ∧
    (atEnd [0x12]).status.state ≠ .dead ∧ (atEnd [0x12]).bc.dir = .read ∧
    (atEnd [0x12]).bc.stream = .primary ∧ (atEnd [0x12]).bc.eof = true ∧
    flushedScan.status.state = .flushed ∧ flushedScan.bc.dir = .read :=
  ⟨⟨_, rfl⟩, by decide +kernel, by decide +kernel, by decide +kernel, by decide +kernel,
    by decide +kernel, by decide +kernel⟩

theorem witness_HostActions_setOut :
    (writing .byte 8 0).status.state ≠ .dead ∧ (writing .byte 8 0).status.state ≠ .flushed ∧
    (writing .byte 8 0).bc.dir = .write ∧ (writing .byte 8 0).bc.stream = .primary ∧
    (writing .byte 8 0).bc.stream ≠ .aux ∧ State.reset.bc.dir ≠ .write := by decide

theorem witness_StateGates :
    WellFormed .bcFlush ∧ dead.status.state = .dead ∧ acceptedCommand .bcFlush = false ∧
    completes .coreReset dead = true ∧ (after .coreReset dead).status.state ≠ .dead ∧
    measuring.status.state = .measure ∧ directCommand .bcFlush = true := by decide +kernel

theorem witness_CommandsOwnChecks :
    State.reset.status.state ≠ .dead ∧ State.reset.bc.dir ≠ .read ∧ State.reset.bc.dir ≠ .write ∧
    bitCountOk 1 = true ∧ bitCountOk 32 = true ∧ ctxValid (49 : BitVec 11).toNat = false ∧
    State.reset.qm.qmode ≠ .encoding ∧ State.reset.qm.qmode ≠ .decoding ∧
    113 < (114 : BitVec 7).toNat ∧ State.reset.status.state.active = false ∧
    measuring.status.state ≠ .dead ∧ measuring.status.rowActive = true ∧
    measuring.status.state ≠ .parse ∧ measuring.status.state.active = true ∧
    (inRow .epStartMeasure 5 0x3F00 0 [] zeroBlock).cfg.kind.isResidual = true ∧
    (inRow .epStartMeasure 5 0x3F00 0 [] zeroBlock).status.state ≠ .dead := by decide +kernel

theorem witness_CommandsRaiseOnlyTheirErrors :
    State.reset.sound ∧ State.reset.status.state ≠ .dead ∧
    exec .bcFlush State.reset = .next (after .bcFlush State.reset) ∧
    (after .bcFlush State.reset).status.state = .dead :=
  ⟨reset_sound, by decide, next_after (by decide), by decide⟩

theorem witness_CfgWriteStoresMaskedOperand :
    maskOf .scanCtrl = some 0x7FF ∧ State.reset.status.state.active = false ∧
    maskOf .operand = none ∧ measuring.status.state = .measure := by decide +kernel

theorem witness_OpensBindTheChannel : State.reset.quiet := by decide

theorem witness_GetBitsReturnsNextBits :
    (reading .byte [0x12, 0xFF, 0x00]).quiet ∧ (reading .byte [0x12, 0xFF, 0x00]).bc.dir = .read ∧
    (reading .byte [0x12, 0xFF, 0x00]).bc.readOk = true ∧ bitCountOk 16 = true ∧
    (16 : BitVec 6).toNat ≤ (reading .byte [0x12, 0xFF, 0x00]).chan.bits.length ∧
    (reading .byte [0x12, 0xFF, 0x00]).chan.bits.length < (17 : BitVec 6).toNat ∧
    bitCountOk 17 = true := by decide +kernel

theorem witness_PutBitsWritesOperand :
    (writing .bit 1 0).quiet ∧ (writing .bit 1 0).bc.dir = .write ∧ bitCountOk 32 = true ∧
    (writing .bit 1 0).bc.writeOk = true ∧ (writing .bit 1 0).chan.bc.free = 1 ∧
    (writing .bit 8 0).chan.bc.free ≠ 1 := by decide +kernel

theorem witness_FlushPadsThePartialByte :
    (writing .byte 8 0).quiet ∧ (writing .byte 8 0).bc.dir = .write ∧
    (writing .byte 8 0).bc.writeOk = true ∧ (writing .bit 1 0x7F).bc.writeOk = true := by
  decide +kernel

theorem witness_WrittenBitsReadBack : Stream.empty.out = [] := rfl

/-- `afterFF` with other bytes after the consumed pair. -/
def afterFFThen (mode : Stuff) (bytes : List Byte) : Chan :=
  { bc := { BitChan.opened .read mode .primary with lastFF := true }, st := input bytes }

theorem witness_SkipStuffingFillsOneByte :
    afterFF.quiet ∧ afterFF.bc.dir = .read ∧ (reading .byte []).quiet ∧
    ¬ ((reading .byte []).bc.lastFF = true ∧ (reading .byte []).bc.cnt = 0 ∧
      (reading .byte []).bc.marker = false ∧ (reading .byte []).bc.eof = false) ∧
    (afterFF.bc.lastFF = true ∧ afterFF.bc.cnt = 0 ∧ afterFF.bc.marker = false ∧
      afterFF.bc.eof = false) ∧
    (afterFFThen .byte []).st.seen[0]? = none ∧
    ((afterFFThen .byte [0xFF]).st.seen[0]? = some 0xFF ∧
      (afterFFThen .byte [0xFF]).st.seen[1]? = none) ∧
    (afterFF.chan.st.seen[2]? = some 0xFF ∧ afterFF.chan.st.seen[3]? = some 0xD1 ∧
      afterFF.chan.st.pos = 2 ∧ stuffedAfterFF .byte 0xD1 = false) ∧
    (stuffedAfterFF .byte 0x00 = true ∧ stuffedAfterFF .bit 0x7F = true ∧
      stuffedAfterFF .bit 0x80 = false) ∧
    ((afterFFThen .bit [0x7E]).st.seen[0]? = some 0x7E ∧ (0x7E : Byte) ≠ 0xFF) := by decide +kernel

theorem witness_FindMarkerFindsTheFirst :
    (reading .byte [0xFF, 0xFF, 0xD5]).quiet ∧ (reading .byte [0xFF, 0xFF, 0xD5]).bc.dir = .read ∧
    (reading .byte [0xFF, 0xFF, 0xD5]).chan.st.ok = true ∧
    markerAt .byte [0xFF, 0xFF, 0xD5] 1 0xD5 ∧
    (∀ q lo, 0 ≤ q → q < 1 → ¬ markerAt .byte [0xFF, 0xFF, 0xD5] q lo) ∧
    (∀ q lo, 0 ≤ q → ¬ markerAt .bit [] q lo) := by
  refine ⟨by decide, by decide, by decide +kernel, by decide, ?_, ?_⟩
  · intro q lo _ hq h
    obtain rfl : q = 0 := by omega
    obtain ⟨_, h2, h3, _⟩ := h
    exact h3 (Option.some.inj h2).symm
  · intro q lo _ h
    exact absurd h.1 (by simp)

theorem witness_GetByteZPadsWithZeros :
    (reading .bit []).quiet ∧ (reading .bit []).bc.dir = .read ∧
    (reading .bit []).bc.readOk = true := by decide

theorem witness_QmInitsSetTheRegisters :
    (writing .byte 8 0).quiet ∧ (writing .byte 8 0).bc.dir = .write ∧ (reading .byte []).quiet ∧
    (reading .byte []).bc.dir = .read ∧ (reading .byte []).bc.readOk = true := by decide

theorem witness_QmEncodeCompletes :
    encoding.quiet ∧ encoding.bc.dir = .write ∧ encoding.bc.writeOk = true ∧
    encoding.qm.qmode = .encoding ∧ encoding.qm.encOk = true ∧ bankOk encoding.ctx = true ∧
    encoding.qm.z.toNat + encoding.qm.st.toNat + 4 < 2 ^ 32 ∧
    ctxValid (0x500 : BitVec 11).toNat = true := by decide +kernel

theorem witness_QmDecodeCompletes :
    decoding.quiet ∧ decoding.bc.dir = .read ∧ decoding.bc.readOk = true ∧
    decoding.qm.qmode = .decoding ∧ decoding.qm.decOk = true ∧ bankOk decoding.ctx = true ∧
    ctxValid (48 : BitVec 11).toNat = true := by decide +kernel

theorem witness_QmFlushClosesTheCode :
    encoding.quiet ∧ encoding.bc.dir = .write ∧ encoding.bc.writeOk = true ∧
    encoding.qm.qmode = .encoding ∧ encoding.qm.encOk = true ∧
    encoding.qm.z.toNat + encoding.qm.st.toNat + 4 < 2 ^ 32 := by decide +kernel

theorem witness_ContextCommands :
    bankOk State.reset.ctx = true ∧ State.reset.quiet ∧ ctxValid (0x500 : BitVec 11).toNat = true ∧
    (113 : BitVec 7).toNat ≤ 113 ∧ measuring.status.state ≠ .dead ∧ bankOk measuring.ctx = true := by
  decide +kernel

theorem witness_HufPutWritesTheCode :
    (tables (writing .byte 8 0)).quiet ∧ (tables (writing .byte 8 0)).bc.dir = .write ∧
    hufLookup ((tables (writing .byte 8 0)).ports.table .dc 0) 3 = some (3, 5) ∧
    hufLookup ((tables (writing .byte 8 0)).ports.table .dc 0) 4 = none := by decide +kernel

theorem witness_HufGetReadsTheCode :
    (tables (reading .byte [0xBF])).quiet ∧ (tables (reading .byte [0xBF])).bc.dir = .read ∧
    (tables (reading .byte [0xBF])).bc.readOk = true ∧
    hufTableOk ((tables (reading .byte [0xBF])).ports.table .dc 0) = true ∧
    hufLookup ((tables (reading .byte [0xBF])).ports.table .dc 0) 3 = some (3, 5) ∧
    (tables (reading .byte [0xBF])).chan.bits.take 3 = bitsOf 3 5 := by decide +kernel

/-- Sixteen bits that are no code, and fewer bits that are none, ended by a marker or by the end of the data. -/
theorem witness_HufGetReadsTheCode_none :
    ∀ bytes ∈ [[0x40, 0x00], [0x40, 0xFF, 0xD9], ([0x40] : List Byte)],
      (tables (reading .byte bytes)).quiet ∧ (tables (reading .byte bytes)).bc.dir = .read ∧
      (tables (reading .byte bytes)).bc.readOk = true ∧
      ∀ len, 1 ≤ len → len ≤ 16 → len ≤ (tables (reading .byte bytes)).chan.bits.length →
        hufMatch ((tables (reading .byte bytes)).ports.table .dc 0) len
          (bitsVal ((tables (reading .byte bytes)).chan.bits.take len)) = none := by
  have h : ∀ bytes ∈ [[0x40, 0x00], [0x40, 0xFF, 0xD9], ([0x40] : List Byte)],
      ((tables (reading .byte bytes)).quiet ∧ (tables (reading .byte bytes)).bc.dir = .read ∧
        (tables (reading .byte bytes)).bc.readOk = true) ∧
      ∀ len ≤ 16, hufMatch ((tables (reading .byte bytes)).ports.table .dc 0) len
        (bitsVal ((tables (reading .byte bytes)).chan.bits.take len)) = none := by decide +kernel
  intro bytes hb
  exact ⟨(h bytes hb).1.1, (h bytes hb).1.2.1, (h bytes hb).1.2.2,
    fun len _ hl _ => (h bytes hb).2 len hl⟩

theorem witness_HufGetReadsTheCode_ends :
    16 ≤ (tables (reading .byte [0x40, 0x00])).chan.bits.length ∧
    (tables (reading .byte [0x40, 0xFF, 0xD9])).chan.bits.length < 16 ∧
    (tables (reading .byte [0x40, 0xFF, 0xD9])).chan.stopsAtMarker = true ∧
    (tables (reading .byte [0x40])).chan.bits.length < 16 ∧
    (tables (reading .byte [0x40])).chan.stopsAtMarker = false := by decide +kernel

theorem witness_HufCountAddsOne :
    State.reset.quiet ∧ countsOk State.reset.ports.counts = true := by decide

theorem witness_StartsValidateTheConfiguration :
    (Instr.epStartParse, ScanState.parse) ∈ [(Instr.epStartParse, ScanState.parse),
      (.epStartWrite, .write), (.epStartMeasure, .measure)] ∧
    State.reset.status.state.active = false ∧ measuring.status.state.active = true := by
  decide +kernel

theorem witness_scanHeaderLegal :
    scanHeaderLegal (scanCfg 0 0x3F00 0) ∧ scanHeaderLegal (scanCfg 4 0x0F000000 0) := by
  unfold scanHeaderLegal
  dsimp only
  refine ⟨⟨?_, ?_, ?_, ?_, ?_, ?_, ?_, ?_, ?_, ?_, ?_, ?_⟩, ⟨?_, ?_, ?_, ?_, ?_, ?_, ?_, ?_, ?_, ?_,
    ?_, ?_⟩⟩ <;> decide +kernel

theorem witness_not_scanHeaderLegal :
    ¬ scanHeaderLegal (scanCfg 0 0x3E3F 0) ∧ ¬ scanHeaderLegal (scanCfg 8 0x3F00 0) :=
  ⟨fun h => absurd h.2.2.2.2.2.2.2.1 (by decide +kernel), fun h => absurd h.1 (by decide +kernel)⟩

theorem witness_StartsResetAndOpen :
    (ready 0 0x3F00 0 [] zeroBlock).status.state.active = false ∧
    (ready 0 0x3F00 0 [] zeroBlock).cfg.valid = true ∧
    (ready 0 0x3F00 0 [] zeroBlock).cfg.kind.isQm = false ∧
    (ready 1 0x3F00 0 [] zeroBlock).cfg.valid = true ∧
    (ready 1 0x3F00 0 [] zeroBlock).cfg.kind.isQm = true := by decide +kernel

/-- A started scan with MCU_ROWS = 2, the row counter at `row`. -/
def betweenRows (row : BitVec 16) : State :=
  { after .epStartParse (ready 0 0x3F00 0 [] zeroBlock) with
    scan := { (after .epStartParse (ready 0 0x3F00 0 [] zeroBlock)).scan with row := row } }

/-- A started scan that searches for DNL, on a given input. -/
def dnlScan (bytes : List Byte) (found : Bool) : State :=
  { after .epStartParse (ready 0x100 0x3F00 0 bytes zeroBlock) with
    cfg := { scanCfg 0x100 0x3F00 0 with mcuGeom := 2 }
    status := { (after .epStartParse (ready 0x100 0x3F00 0 bytes zeroBlock)).status with
      dnlFound := found } }

theorem witness_StartMcuRowCountsOrParsesDnl_rows :
    (betweenRows 2).status.state.active = true ∧ (betweenRows 2).status.rowActive = false ∧
    (betweenRows 2).cfg.mcuRows ≠ 0 ∧ (betweenRows 2).cfg.mcuRows ≤ (betweenRows 2).scan.row.toNat ∧
    (betweenRows 1).status.state.active = true ∧ (betweenRows 1).status.rowActive = false ∧
    (betweenRows 1).cfg.mcuRows ≠ 0 ∧ (betweenRows 1).scan.row.toNat < (betweenRows 1).cfg.mcuRows ∧
    (dnlScan [] true).status.state = .parse ∧ (dnlScan [] true).cfg.dnlEnable = true ∧
    (dnlScan [] true).cfg.mcuRows = 0 ∧ (dnlScan [] true).status.dnlFound = true ∧
    (dnlScan [] true).status.rowActive = false := by decide +kernel

theorem witness_StartMcuRowCountsOrParsesDnl_dnl :
    (dnlScan [0xFF, 0xDC, 0, 4, 0, 1] false).status.state = .parse ∧
    (dnlScan [0xFF, 0xDC, 0, 4, 0, 1] false).status.rowActive = false ∧
    (dnlScan [0xFF, 0xDC, 0, 4, 0, 1] false).cfg.dnlEnable = true ∧
    (dnlScan [0xFF, 0xDC, 0, 4, 0, 1] false).cfg.mcuRows = 0 ∧
    (dnlScan [0xFF, 0xDC, 0, 4, 0, 1] false).status.dnlFound = false ∧
    (dnlScan [0xFF, 0xDC, 0, 4, 0, 1] false).bc.lastFF = false ∧
    (dnlScan [0xFF, 0xDC, 0, 4, 0, 1] false).chan.st.seen.drop
      (dnlScan [0xFF, 0xDC, 0, 4, 0, 1] false).chan.st.pos = [0xFF, 0xDC, 0, 4, 0, 1] ∧
    ((0 : Byte) ≠ 0 ∨ (1 : Byte) ≠ 0) ∧
    (dnlScan [0xFF, 0xDC, 0, 4, 0, 0] false).chan.st.seen = [0xFF, 0xDC, 0x00, 0x04, 0, 0] ∧
    (dnlScan [0xFF, 0xDC, 0, 5] false).chan.st.seen = [0xFF, 0xDC, 0, 5] ∧
    (dnlScan [0xFF, 0xDC, 0] false).chan.st.seen = [0xFF, 0xDC, 0] ∧
    (dnlScan [0xFF, 0xDC, 0, 4, 0] false).chan.st.seen = [0xFF, 0xDC, 0, 4, 0] ∧
    (dnlScan [0xFF] false).chan.st.seen = [0xFF] := by decide +kernel

/-- `dnlScan` in bit mode with a data 0xFF fully consumed: SkipStuffing takes the byte after it, or finds a
marker there. -/
def dnlScanFF (bytes : List Byte) : State :=
  { dnlScan bytes false with bc := { (dnlScan bytes false).bc with mode := .bit, lastFF := true } }

/-- What the DNL clauses of the statement ask of a scan whose LAST_FF is 1. -/
abbrev skipsToDnl (s : State) : Prop :=
  s.status.state = .parse ∧ s.status.rowActive = false ∧ s.cfg.dnlEnable = true ∧ s.cfg.mcuRows = 0 ∧
  s.status.dnlFound = false ∧ s.bc.lastFF = true ∧
  completes .bcSkipStuffing (outsideScan s) = true ∧
  after .bcSkipStuffing (outsideScan s) =
    (outsideScan s).setChan (after .bcSkipStuffing (outsideScan s)).chan ∧
  (after .bcSkipStuffing (outsideScan s)).chan.st.seen.drop
    (after .bcSkipStuffing (outsideScan s)).chan.st.pos = [0xFF, 0xDC, 0, 4, 0, 1]

theorem skipsToDnl.exec_eq {s : State} (h : skipsToDnl s) :
    exec .bcSkipStuffing (outsideScan s) =
      .next ((outsideScan s).setChan (after .bcSkipStuffing (outsideScan s)).chan) :=
  (next_after h.2.2.2.2.2.2.1).trans (congrArg _ h.2.2.2.2.2.2.2.1)

theorem witness_StartMcuRowCountsOrParsesDnl_lastFF :
    skipsToDnl (dnlScanFF [0x12, 0xFF, 0xDC, 0, 4, 0, 1]) ∧
    skipsToDnl (dnlScanFF [0xFF, 0xDC, 0, 4, 0, 1]) := by decide +kernel

/-- R388's DNL search after a data 0xFF: SkipStuffing takes the byte after it, then the segment is found. -/
theorem test_dnl_after_ff :
    (after .epStartMcuRow (dnlScanFF [0x12, 0xFF, 0xDC, 0, 4, 1, 2])).reg .frameHeight = 0x102 ∧
    (after .epStartMcuRow (dnlScanFF [0x12, 0xFF, 0xDC, 0, 4, 1, 2])).result = 0 := by decide +kernel

/-- A scan in PARSE whose segment is invalid. -/
def invalidSegment (ctrl band : Word) : State :=
  after .epStartMcuRow ((after .epStartParse (ready ctrl band 0 [] zeroBlock)).setSegValid false)

theorem witness_McuWithoutCoding :
    measuring.cfg.valid = true ∧ measuring.midSegment ∧ measuring.status.state = .measure ∧
    measuring.cfg.kind.isQm = true ∧
    (∀ s ∈ [invalidSegment 0 0x3F00, invalidSegment 0x10 0x0502, invalidSegment 2 0x00010000,
        invalidSegment 4 0],
      s.cfg.valid = true ∧ s.midSegment ∧ s.status.state = .parse ∧ s.status.segValid = false ∧
      s.cfg.kind.isResidual = false) ∧
    (invalidSegment 0 0x3F00).cfg.kind = .seqHuff ∧
    (invalidSegment 0 0x3F00).cfg.progressive = false ∧
    (invalidSegment 0x10 0x0502).cfg.progressive = true ∧
    (invalidSegment 2 0x00010000).cfg.kind = .refHuff ∧
    (invalidSegment 4 0).cfg.kind = .diffLossless := by decide +kernel

theorem witness_RefHuffDcBits_parse :
    (inRow .epStartParse 2 0x00010000 0 [0x80] zeroBlock).status.state = .parse ∧
    (inRow .epStartParse 2 0x00010000 0 [0x80] zeroBlock).status.segValid = true ∧
    (inRow .epStartParse 2 0x00010000 0 [0x80] zeroBlock).cfg.valid = true ∧
    (inRow .epStartParse 2 0x00010000 0 [0x80] zeroBlock).midSegment ∧
    (inRow .epStartParse 2 0x00010000 0 [0x80] zeroBlock).cfg.kind = .refHuff ∧
    (inRow .epStartParse 2 0x00010000 0 [0x80] zeroBlock).cfg.ss = 0 ∧
    (inRow .epStartParse 2 0x00010000 0 [0x80] zeroBlock).bc.dir = .read ∧
    (inRow .epStartParse 2 0x00010000 0 [0x80] zeroBlock).bc.readOk = true ∧
    (inRow .epStartParse 2 0x00010000 0 [0x80] zeroBlock).cfg.nblk ≤
      (inRow .epStartParse 2 0x00010000 0 [0x80] zeroBlock).chan.bits.length := by decide +kernel

theorem witness_RefHuffDcBits_write :
    (inRow .epStartWrite 2 0x00010000 0 [] zeroBlock).status.state = .write ∧
    (inRow .epStartWrite 2 0x00010000 0 [] zeroBlock).cfg.valid = true ∧
    (inRow .epStartWrite 2 0x00010000 0 [] zeroBlock).midSegment ∧
    (inRow .epStartWrite 2 0x00010000 0 [] zeroBlock).cfg.kind = .refHuff ∧
    (inRow .epStartWrite 2 0x00010000 0 [] zeroBlock).cfg.ss = 0 ∧
    (inRow .epStartWrite 2 0x00010000 0 [] zeroBlock).bc.dir = .write := by decide +kernel

theorem witness_RefHuffDcBits_measure :
    (inRow .epStartMeasure 2 0x00010000 0 [] zeroBlock).status.state = .measure ∧
    (inRow .epStartMeasure 2 0x00010000 0 [] zeroBlock).cfg.valid = true ∧
    (inRow .epStartMeasure 2 0x00010000 0 [] zeroBlock).midSegment ∧
    (inRow .epStartMeasure 2 0x00010000 0 [] zeroBlock).cfg.kind = .refHuff ∧
    (inRow .epStartMeasure 2 0x00010000 0 [] zeroBlock).cfg.ss = 0 ∧
    (inRow .epStartMeasure 2 0x00010000 0 [] zeroBlock).cfg.mcuUnits.getLast? = some 0 ∧
    (inRow .epStartWrite 2 0x00010000 0 [] zeroBlock).cfg.mcuUnits.getLast? = some 0 := by
  decide +kernel

/-- A state with other codes in its tables 0. -/
def withCodes (dc ac : HufTable) (s : State) : State :=
  { s with ports := { s.ports with dcTables := #v[dc, [], [], []], acTables := #v[ac, [], [], []] } }

/-- The next bits of a state are those of the items. -/
abbrev offers (s : State) (items : List UnitItem) : Prop :=
  ∃ bits ∈ itemBits s.ports items, s.chan.bits.take bits.length = bits

/-- A lossless scan whose unit is the sample -7. -/
def sample (i : Instr) : State := inRow i 4 0 0 [0xA0] (unitOf 0xFFFFFFF9)

theorem witness_LosslessSamples :
    (∀ i ∈ [Instr.epStartWrite, .epStartMeasure, .epStartParse],
      (sample i).cfg.kind = .diffLossless ∧ oneUnit (sample i) 0 (unitOf 0xFFFFFFF9)) ∧
    writesUnits (sample .epStartWrite) ∧ writesUnits (sample .epStartMeasure) ∧
    (unitOf 0xFFFFFFF9)[0].toInt / 2 ^ (sample .epStartWrite).cfg.al = -7 + 65536 * 0 ∧
    itemBits (sample .epStartWrite).ports (valueItems .dc 0 0 (-7)) = some [true, false, true,
      false, false, false] ∧
    itemBits (sample .epStartWrite).ports [.sym .dc 0 16] = none ∧
    readsUnits (sample .epStartParse) 0 ∧
    (sample .epStartParse).chan.bits.take 6 = [true, false, true, false, false, false] := by
  decide +kernel

/-- A lossless category 17, which has a code. -/
theorem witness_LosslessSamples_trap :
    readsUnits (withCodes [⟨17, 1, 1⟩] [] (sample .epStartParse)) 0 ∧
    offers (withCodes [⟨17, 1, 1⟩] [] (sample .epStartParse)) [.sym .dc 0 17] := by decide +kernel

/-- A sequential scan whose unit has the DC 7 and nothing else. -/
def dcOnly (i : Instr) : State := inRow i 0 0x3F00 0 [0xBC] (unitOf 7)

theorem witness_SequentialHuffmanBlocks :
    (∀ i ∈ [Instr.epStartWrite, .epStartMeasure, .epStartParse],
      (dcOnly i).cfg.kind = .seqHuff ∧ (dcOnly i).cfg.ss = 0 ∧ oneUnit (dcOnly i) 0 (unitOf 7)) ∧
    writesUnits (dcOnly .epStartWrite) ∧ writesUnits (dcOnly .epStartMeasure) ∧
    (7 : Int) = (unitOf 7)[0].toInt / 2 ^ (dcOnly .epStartWrite).cfg.al ∧
    (7 : Int) = 7 - (dcOnly .epStartWrite).scan.predDc[0].toInt ∧
    (bandPositions (dcOnly .epStartWrite).cfg).map (unitValue (dcOnly .epStartWrite).cfg (unitOf 7)) =
      List.replicate 63 0 ∧
    (∀ v ∈ (7 : Int) :: List.replicate 63 0, v.natAbs < 2 ^ 15) ∧
    (itemBits (dcOnly .epStartWrite).ports
      (blockItems (dcOnly .epStartWrite).cfg 0 7 (List.replicate 63 0))).isSome = true ∧
    itemBits (dcOnly .epStartWrite).ports
      (blockItems (dcOnly .epStartWrite).cfg 0 1 (List.replicate 63 0)) = none ∧
    readsUnits (dcOnly .epStartParse) 0 ∧
    itemBits (dcOnly .epStartParse).ports
      (blockItems (dcOnly .epStartParse).cfg 0 7 (List.replicate 63 0)) =
        some ((dcOnly .epStartParse).chan.bits.take 8) := by decide +kernel

/-- A block that ends in a refused AC symbol: the DC 7, three ZRLs up to k = 49, and a run of 15 past k = 63, or an
EOB1; and one with the DC category 16. -/
def badBlock : State :=
  withCodes [⟨3, 3, 5⟩] [⟨0xF0, 1, 0⟩, ⟨0xF1, 2, 2⟩, ⟨0x10, 2, 3⟩]
    (inRow .epStartParse 0 0x3F00 0 [0xBC, 0x40] (unitOf 7))

theorem witness_SequentialHuffmanBlocks_traps :
    readsUnits badBlock 0 ∧ badBlock.cfg.se = 63 ∧
    reaches 0 1 49 [] 3 (List.replicate 3 (.sym .ac 0 0xF0)) ∧ passesEnd 49 63 0xF1 ∧
    offers badBlock (valueItems .dc 0 0 7 ++ List.replicate 3 (.sym .ac 0 0xF0) ++ [.sym .ac 0 0xF1]) ∧
    offers (withCodes [⟨3, 3, 5⟩] [⟨0x10, 1, 0⟩] badBlock) (valueItems .dc 0 0 7 ++ [] ++ [.sym .ac 0 0x10]) ∧
    readsUnits (withCodes [⟨16, 1, 1⟩] [] badBlock) 0 ∧
    offers (withCodes [⟨16, 1, 1⟩] [] badBlock) [.sym .dc 0 16] := by
  refine ⟨by decide +kernel, by decide +kernel, ⟨?_, ?_, ?_, ?_⟩, ?_, ?_, ?_, ?_, ?_⟩ <;> decide +kernel

/-- R457: a run past k = 63 and an EOBn symbol are malformed. -/
theorem test_sequential_traps :
    (after .epParseMcu badBlock).status.err = .malformedStream ∧
    (after .epParseMcu (withCodes [⟨3, 3, 5⟩] [⟨0x10, 1, 0⟩] badBlock)).status.err = .malformedStream := by
  decide +kernel

/-- A progressive AC band 2..5 whose unit is zero in it, a run pending or going on. -/
def zeroBand (i : Instr) (run : BitVec 16) (bytes : List Byte) : State :=
  { inRow i 0x10 0x0502 0 bytes (unitOf 7) with
    scan := { (inRow i 0x10 0x0502 0 bytes (unitOf 7)).scan with eobrun := run } }

theorem witness_ProgressiveHuffmanBands :
    (∀ s ∈ [zeroBand .epStartWrite 0x7FFE [], zeroBand .epStartMeasure 0 [],
        zeroBand .epStartParse 1 [], zeroBand .epStartParse 0 [0x3F]],
      s.cfg.kind = .seqHuff ∧ s.cfg.progressive = true ∧ 0 < s.cfg.ss ∧ oneUnit s 0 (unitOf 7)) ∧
    writesUnits (zeroBand .epStartWrite 0x7FFE []) ∧ (zeroBand .epStartWrite 0x7FFE []).runOk = true ∧
    writesUnits (zeroBand .epStartMeasure 0 []) ∧ (zeroBand .epStartMeasure 0 []).runOk = true ∧
    (bandPositions (scanCfg 0x10 0x0502 0)).map (unitValue (scanCfg 0x10 0x0502 0) (unitOf 7)) =
      [0, 0, 0, 0] ∧
    readsUnits (zeroBand .epStartParse 1 []) 0 ∧ (zeroBand .epStartParse 1 []).scan.eobrun ≠ 0 ∧
    readsUnits (zeroBand .epStartParse 0 [0x3F]) 0 ∧
    (zeroBand .epStartParse 0 [0x3F]).scan.eobrun = 0 ∧
    itemBits (zeroBand .epStartParse 0 [0x3F]).ports (acItems 0 0 [0, 0, 0, 0] ++ runItems 0 1 []) =
      some ((zeroBand .epStartParse 0 [0x3F]).chan.bits.take 2) := by decide +kernel

/-- A run of 4 from k = 2 passes the end of the band 2..5. -/
theorem witness_ProgressiveHuffmanBands_trap :
    readsUnits (withCodes [] [⟨0x41, 1, 0⟩] (zeroBand .epStartParse 0 [0x3F])) 0 ∧
    reaches 0 (zeroBand .epStartParse 0 [0x3F]).cfg.ss 2 [] 0 [] ∧
    2 ≤ (zeroBand .epStartParse 0 [0x3F]).cfg.se ∧
    passesEnd 2 (zeroBand .epStartParse 0 [0x3F]).cfg.se 0x41 ∧
    offers (withCodes [] [⟨0x41, 1, 0⟩] (zeroBand .epStartParse 0 [0x3F])) ([] ++ [.sym .ac 0 0x41]) := by
  refine ⟨by decide +kernel, ⟨?_, ?_, ?_, ?_⟩, ?_, ?_, ?_⟩ <;> decide +kernel

/-- The unit of R504's example, 3, 1 and -2 at k = 1, 2 and 4, and what its first scan left, 2, 0 and -2. -/
def refUnit (a b : Int) : Block := setCoef (setCoef (setCoef zeroBlock 1 a) 2 b) 4 (-2)

/-- A refinement scan of the band 1..5, AH = 1, with the codes of R504's example. -/
def refScan (i : Instr) (kind : Word) (bytes : List Byte) (u : Block) : State :=
  { inRow i kind 0x00010501 0 bytes u with
    ports := { (inRow i kind 0x00010501 0 bytes u).ports with
      acTables := #v[[⟨0x00, 2, 0⟩, ⟨0x01, 2, 1⟩], [], [], []] } }

/-- R504's example with CORR_BITS_MAX = 1000: EP_FLUSH pads its bits to 71. -/
theorem test_refHuff_example :
    (match encodeRefHuff 1000 0 (refUnit 3 1) (refScan .epStartWrite 2 [] (refUnit 3 1)) with
      | .ok _ t => (after .epFlush t).ports.primary.out
      | .error _ _ => []) = [0x71] ∧
    (after .epParseMcu (refScan .epStartParse 2 [0x71] (refUnit 2 0))).ports.released =
      [(0, refUnit 3 1)] := by decide +kernel

theorem witness_RefHuffBands :
    (∀ s ∈ [refScan .epStartWrite 2 [] (refUnit 3 1), refScan .epStartMeasure 2 [] (refUnit 3 1)],
      s.cfg.kind = .refHuff ∧ 0 < s.cfg.ss ∧ oneUnit s 0 (refUnit 3 1) ∧ writesUnits s ∧
      s.runOk = true) ∧
    (refScan .epStartParse 2 [0x71] (refUnit 2 0)).cfg.kind = .refHuff ∧
    oneUnit (refScan .epStartParse 2 [0x71] (refUnit 2 0)) 0 (refUnit 2 0) ∧
    readsUnits (refScan .epStartParse 2 [0x71] (refUnit 2 0)) 0 ∧
    (refScan .epStartParse 2 [0x71] (refUnit 2 0)).scan.eobrun = 0 ∧
    (refHuffBand (scanCfg 2 0x00010501 0) 0 (refUnit 3 1)).2 = some [false] ∧
    itemBits (refScan .epStartParse 2 [0x71] (refUnit 2 0)).ports
      ((refHuffBand (scanCfg 2 0x00010501 0) 0 (refUnit 3 1)).1 ++ runItems 0 1 [false]) =
        some ((refScan .epStartParse 2 [0x71] (refUnit 2 0)).chan.bits.take 7) ∧
    (refHuffBand (scanCfg 2 0x00010501 0) 0 (refUnit 3 0)).1 = [] := by decide +kernel

/-- After the newly nonzero k = 2 of R504's example, a symbol of size 2, and one whose run of 2 the zeros at k = 3 and
5 do not end, past the correction bit of k = 4. -/
theorem witness_RefHuffBands_traps :
    [1, 2] ++ [3, 4, 5] = bandPositions (scanCfg 2 0x00010501 0) ∧
    refMagnitude 0 (refUnit 3 1) 2 = 1 ∧
    readsUnits (withCodes [] [⟨0x01, 2, 1⟩, ⟨0x02, 2, 2⟩, ⟨0x21, 2, 3⟩]
      (refScan .epStartParse 2 [0x78] (refUnit 2 0))) 0 ∧
    offers (withCodes [] [⟨0x01, 2, 1⟩, ⟨0x02, 2, 2⟩, ⟨0x21, 2, 3⟩]
        (refScan .epStartParse 2 [0x78] (refUnit 2 0)))
      (refHuffItems 0 0 (refUnit 3 1) 0 [] [1, 2] ++ [.sym .ac 0 0x02]) ∧
    ([3, 4, 5].filter fun k => decide (coef (refUnit 2 0) k = 0)).length ≤ (0x21 : Byte).toNat / 16 ∧
    ([3, 4, 5].filter fun k => decide (coef (refUnit 2 0) k ≠ 0)).length = [true].length ∧
    offers (withCodes [] [⟨0x01, 2, 1⟩, ⟨0x02, 2, 2⟩, ⟨0x21, 2, 3⟩]
        (refScan .epStartParse 2 [0x7F] (refUnit 2 0)))
      (refHuffItems 0 0 (refUnit 3 1) 0 [] [1, 2] ++ [.sym .ac 0 0x21] ++ [.bits 1 1] ++
        [true].map fun b => .bits 1 b.toNat) := by decide +kernel

theorem witness_refinesUnit :
    refinesUnit (scanCfg 2 0x00010501 0) (refUnit 2 0) (refUnit 3 1) ∧
    refinesUnit (scanCfg 2 0x00010501 0) (refUnit 2 0) (refUnit 3 0) := by decide +kernel

/-- A scan of SEQ_AC whose unit has the DC 5, R470's example, and the bytes that example gives. -/
def acScan (i : Instr) (bytes : List Byte) : State := inRow i 1 0x3F00 0 bytes (unitOf 5)

/-- R470's example: with EP_FLUSH the bytes are CD 80. -/
theorem test_seqAc_example :
    (after .epFlush (after .epWriteMcu (acScan .epStartWrite []))).ports.primary.out = [0xCD, 0x80] ∧
    (after .epParseMcu (acScan .epStartParse [0xCD, 0x80])).ports.released = [(0, unitOf 5)] := by
  decide +kernel

theorem witness_SequentialAcBlocks :
    (∀ s ∈ [acScan .epStartWrite [], acScan .epStartParse [0xCD, 0x80]],
      s.cfg.kind = .seqAc ∧ oneUnit s 0 (unitOf 5) ∧ s.sound) ∧
    (acScan .epStartWrite []).status.state = .write ∧
    (5 : Int) = (unitOf 5)[0].toInt / 2 ^ (acScan .epStartWrite []).cfg.al ∧
    (5 : Int) = 5 - (acScan .epStartWrite []).scan.predDc[0].toInt ∧
    (∀ k ∈ bandPositions (acScan .epStartWrite []).cfg,
      (unitValue (acScan .epStartWrite []).cfg (unitOf 5) k).natAbs ≤ 2 ^ 15) ∧
    (acScan .epStartParse [0xCD, 0x80]).status.state = .parse ∧
    (acScan .epStartParse [0xCD, 0x80]).status.segValid = true ∧
    (decodeAll (dcDecisions (acScan .epStartParse [0xCD, 0x80]) 0 5 ++
      bandDecisions (acScan .epStartParse [0xCD, 0x80]).cfg 0 (fun _ => 0) (List.range' 1 63))
      (outsideScan (acScan .epStartParse [0xCD, 0x80]))).isSome = true := by decide +kernel

/-- The bytes QM_ENCODE and QM_FLUSH write for decisions, from a fresh bank, in bit mode. -/
def codedBytes (ds : List (Nat × Bool)) : List Byte :=
  match encodeAll ds (after .qmInitEnc (after (.bcOpenWrite .bit .primary) State.reset)) with
  | some q => (after (.qmFlush true) q).ports.primary.out
  | none => []

/-- A QM scan that offers decisions. -/
abbrev offersDecisions (scan : List Byte → State) (ds : List (Nat × Bool)) : Prop :=
  (decodeAll ds (outsideScan (scan (codedBytes ds)))).isSome = true

/-- The decisions of a DC magnitude that does not end, from a zero difference before. -/
def endlessDc : List (Nat × Bool) :=
  (0, true) :: (1, false) :: endlessMagnitude 2 fun i => 20 + i

/-- The decisions of an AC magnitude at k = 1 that does not end, after a zero DC difference. -/
def endlessAc : List (Nat × Bool) :=
  [(0, false)] ++ [] ++ [(256, false)] ++ (257, true) :: (1280, false) ::
    endlessMagnitude 258 fun i => if i = 0 then 258 else 256 + 189 + (i - 1)

theorem witness_SequentialAcBlocks_traps :
    offersDecisions (acScan .epStartParse) endlessDc ∧ offersDecisions (acScan .epStartParse) endlessAc ∧
    offersDecisions (acScan .epStartParse) ([(0, false)] ++
      acDecisions (scanCfg 1 0x3F00 0) 0 (fun _ => 0) false (bandPositions (scanCfg 1 0x3F00 0))) ∧
    (bandPositions (scanCfg 1 0x3F00 0)).getLast?.map (fun _ => (0 : Int)) = some 0 := by decide +kernel

/-- R330: a fifteenth category bit is malformed. -/
theorem test_endless_magnitude :
    (after .epParseMcu (acScan .epStartParse (codedBytes endlessDc))).status.err = .malformedStream := by
  decide +kernel

/-- R521's example: with EP_FLUSH the byte is D8. -/
theorem test_refAc_example :
    (after .epFlush (after .epWriteMcu
      (refScan .epStartWrite 3 [] (refUnit 3 1)))).ports.primary.out = [0xD8] ∧
    (after .epParseMcu (refScan .epStartParse 3 [0xD8] (refUnit 2 0))).ports.released =
      [(0, refUnit 3 1)] := by decide +kernel

theorem witness_RefAcUnits :
    (refScan .epStartWrite 3 [] (refUnit 3 1)).cfg.kind = .refAc ∧
    oneUnit (refScan .epStartWrite 3 [] (refUnit 3 1)) 0 (refUnit 3 1) ∧
    (refScan .epStartWrite 3 [] (refUnit 3 1)).sound ∧
    (refScan .epStartWrite 3 [] (refUnit 3 1)).status.state = .write ∧
    0 < (refScan .epStartWrite 3 [] (refUnit 3 1)).cfg.ss ∧
    oneUnit (refScan .epStartParse 3 [0xD8] (refUnit 2 0)) 0 (refUnit 2 0) ∧
    (refScan .epStartParse 3 [0xD8] (refUnit 2 0)).sound ∧
    (refScan .epStartParse 3 [0xD8] (refUnit 2 0)).status.state = .parse ∧
    (refScan .epStartParse 3 [0xD8] (refUnit 2 0)).status.segValid = true ∧
    (decodeAll (refAcBand (scanCfg 3 0x00010501 0) 0 (refUnit 3 1))
      (outsideScan (refScan .epStartParse 3 [0xD8] (refUnit 2 0)))).isSome = true ∧
    (∀ i ∈ [Instr.epStartWrite, .epStartParse],
      (inRow i 3 0x00010000 0 [] zeroBlock).cfg.kind = .refAc ∧
      (inRow i 3 0x00010000 0 [] zeroBlock).cfg.ss = 0 ∧
      oneUnit (inRow i 3 0x00010000 0 [] zeroBlock) 0 zeroBlock ∧
      (inRow i 3 0x00010000 0 [] zeroBlock).sound) ∧
    (decodeAll [(1280, false)] (outsideScan (inRow .epStartParse 3 0x00010000 0 [] zeroBlock))).isSome =
      true := by decide +kernel

theorem witness_RefAcUnits_trap :
    refinesUnit (scanCfg 3 0x00010501 0) (refUnit 2 0) (refUnit 3 1) ∧
    (bandPositions (scanCfg 3 0x00010501 0)).getLast?.map (refMagnitude 0 (refUnit 3 1)) = some 0 ∧
    offersDecisions (fun bytes => refScan .epStartParse 3 bytes (refUnit 2 0))
      (refAcDecisions (scanCfg 3 0x00010501 0) 0 4 (refUnit 3 1) false
        (bandPositions (scanCfg 3 0x00010501 0))) := by decide +kernel

/-- Outside a scan, a residual kind configured. -/
def residualCfg (kind : Word) : State := { State.reset with cfg := scanCfg kind 0x3F00 0 }

/-- R65 and R66: a residual coding's writes of the predictors take effect in the kind that has them alone. -/
theorem test_residual_predictors :
    ((residualCfg 5).residualSetDc 1 9).scan.predDc = #v[0, 0, 0, 0] ∧
    ((residualCfg 6).residualSetDc 1 9).scan.predDc = #v[0, 0, 0, 0] ∧
    ((residualCfg 7).residualSetDc 1 9).scan.predDc = #v[0, 9, 0, 0] ∧
    ((residualCfg 5).residualSetDiff 1 9).scan.predDiff = #v[0, 9, 0, 0] ∧
    ((residualCfg 6).residualSetDiff 1 9).scan.predDiff = #v[0, 0, 0, 0] ∧
    ((residualCfg 7).residualSetDiff 1 9).scan.predDiff = #v[0, 0, 0, 0] := by decide +kernel

/-- R55 and R64: DIFFERENTIAL, BASELINE and FRAME_HEIGHT are not part of what a residual coding reads; the kind is. -/
theorem test_residual_view :
    (scanCfg 0xA5 0x3F00 0).forUnits = scanCfg 0x05 0x3F00 0 ∧
    { scanCfg 0x05 0x3F00 0 with frameHeight := 7 }.forUnits = scanCfg 0x05 0x3F00 0 ∧
    (scanCfg 0x205 0x3F00 0).forUnits.hadamard = true := by decide +kernel

/-- A residual scan of a kind, its unit zero but for the value 7, on a given AUX input. -/
def residualScan (i : Instr) (kind : Word) (bytes : List Byte) : State :=
  after .epStartMcuRow (after i { ready kind 0x3F00 0 [] (unitOf 7) with
    ports := { (ready kind 0x3F00 0 [] (unitOf 7)).ports with aux := input bytes } })

theorem witness_ResidualBlocks :
    (∀ s ∈ [residualScan .epStartWrite 5 [], residualScan .epStartWrite 6 [],
        residualScan .epStartMeasure 7 [], residualScan .epStartParse 5 [0xCF, 0xE0],
        residualScan .epStartParse 7 [0xBC]],
      s.cfg.kind.isResidual = true ∧ oneUnit s 0 (unitOf 7) ∧ s.sound ∧ s.cfg.hadamard = false ∧
      s.biasOffset 0 = 0 ∧ s.scan.predDc[0] = 0) ∧
    (residualScan .epStartWrite 5 []).cfg.kind = .residualAc ∧
    (residualScan .epStartWrite 5 []).status.state = .write ∧
    writesUnits (residualScan .epStartWrite 6 []) ∧ writesUnits (residualScan .epStartMeasure 7 []) ∧
    (residualScan .epStartMeasure 7 []).cfg.kind = .residualSeq ∧
    (∀ k, k < 64 → 1 ≤ k → coef (unitOf 7) k = 0) ∧
    (residualScan .epStartParse 5 [0xCF, 0xE0]).status.state = .parse ∧
    (decodeAll (dcDecisions (residualScan .epStartParse 5 [0xCF, 0xE0]) 0 7 ++
      bandDecisions (residualScan .epStartParse 5 [0xCF, 0xE0]).cfg 0 (fun _ => 0) (List.range' 1 63))
      (outsideScan (residualScan .epStartParse 5 [0xCF, 0xE0]))).isSome = true ∧
    (residualScan .epStartParse 7 [0xBC]).status.state = .parse ∧
    itemBits (residualScan .epStartParse 7 [0xBC]).ports
      (blockItems (residualScan .epStartParse 7 [0xBC]).cfg 0 7 (List.replicate 63 0)) =
        some ((residualScan .epStartParse 7 [0xBC]).chan.bits.take 8) := by decide +kernel

/-- A residual coding of the Huffman kinds that writes the DC as 32 raw bits, and no AC. -/
def rawCoding : BlockCoding where
  codable w _ vals := !w.cfg.kind.isQm && vals.all (· = 0)
  put w dc _ := if w.cfg.kind.isQm then [] else [.bits 32 (wrap32 dc).toNat]
  get w := if w.cfg.kind.isQm then .malformed
    else .bits 32 fun v => .done (BitVec.ofNat 32 v).toInt []
  putBackend w dc vals x hx := by
    cases h : w.cfg.kind.isQm
    · simp only [h] at hx
      obtain rfl := List.mem_singleton.mp hx
      rfl
    · simp [h] at hx
  getBackend w := by cases h : w.cfg.kind.isQm <;> simp [GetCode.inBackend]
  keepsDc w dc vals hc := by
    have hk : w.cfg.kind.isQm = false := by
      have := (Bool.and_eq_true_iff.mp hc).1
      simpa using this
    simp only [hk, Bool.false_eq_true, if_false]
    have h := takeBits_bitsOf (wrap32 dc).toNat [] 32 0
    rw [List.append_nil, Nat.mul_zero, Nat.zero_add, Nat.mod_eq_of_lt (wrap32 dc).isLt] at h
    change (match takeBits 32 0 ((bitsOf 32 (wrap32 dc).toNat).map .bit ++ []) with
      | some (v, rest) => (GetCode.done (BitVec.ofNat 32 v).toInt []).readBack rest (w.start 0)
      | none => none) = _
    rw [List.append_nil, h]
    have hw (x : Word) : wrap32 x.toInt = x := BitVec.ofInt_toInt
    simp [PutStep.leave, GetCode.readBack, ResidualView.start, hw]

/-- One of RESIDUAL_AC that writes whether the DC is 1, as one decision in the uniform context, and no AC. -/
def decisionCoding : BlockCoding where
  codable w dc _ := w.cfg.kind.isQm && decide (dc = 0 ∨ dc = 1)
  put w dc _ := if w.cfg.kind.isQm then [.decision 1280 (dc = 1)] else []
  get w := if w.cfg.kind.isQm then .decision 1280 fun d => .done d.toNat [] else .malformed
  putBackend w dc vals x hx := by
    cases h : w.cfg.kind.isQm
    · simp [h] at hx
    · simp only [h, if_true] at hx
      obtain rfl := List.mem_singleton.mp hx
      rfl
  getBackend w := by
    cases h : w.cfg.kind.isQm
    · simp [GetCode.inBackend]
    · simp only [if_true, GetCode.inBackend]
      exact ⟨trivial, by decide, fun _ => trivial⟩
  keepsDc w dc vals hc := by
    obtain ⟨hk, h⟩ := Bool.and_eq_true_iff.mp hc
    simp only [hk, if_true]
    obtain rfl | rfl := of_decide_eq_true h <;> rfl

/-- R553: reading back another DC than the one coded is no residual coding. -/
theorem test_readBack_refuses :
    (GetCode.bits 1 fun v => .done (v + 1) []).readBack (PutStep.items (.bits 1 1)) ⟨0, 0, 0⟩ ≠
      some ⟨1, 0, 0⟩ := by decide +kernel

theorem witness_ResidualBlocks_other :
    rawCoding.codable ((residualScan .epStartWrite 6 []).residualView 0) 7 (List.replicate 63 0) = true ∧
    (∃ us ∈ symbolItems ((rawCoding.put ((residualScan .epStartWrite 6 []).residualView 0) 7
        (List.replicate 63 0)).flatMap PutStep.items),
      offers (residualScan .epStartParse 6 [0, 0, 0, 7]) us) ∧
    (residualScan .epStartParse 6 [0, 0, 0, 7]).status.state = .parse ∧
    (residualScan .epStartParse 6 [0, 0, 0, 7]).cfg.kind.isResidual = true ∧
    oneUnit (residualScan .epStartParse 6 [0, 0, 0, 7]) 0 (unitOf 7) ∧
    (residualScan .epStartParse 6 [0, 0, 0, 7]).sound ∧
    decisionCoding.codable ((residualScan .epStartParse 5 [0xCF, 0xE0]).residualView 0) 0 [] = true ∧
    (encodeAll [(1280, true)] (outsideScan (residualScan .epStartWrite 5 []))).isSome = true ∧
    decisionCoding.codable ((residualScan .epStartWrite 5 []).residualView 0) 7 [] = false := by
  decide +kernel

/-- The state an outcome gives. -/
def stateOf : Host.Outcome State Fault Refusal → State
  | .next t => t
  | .fault _ | .refused _ => State.reset

/-- R550 and R553: by another coding the DC 7 goes to AUX and comes back, and B and N are equal on both sides. -/
theorem test_other_coding :
    (stateOf (writeMcuWith (.other rawCoding) (residualScan .epStartWrite 6 []))).ports.aux.out =
      [0, 0, 0, 7] ∧
    (stateOf (writeMcuWith (.other rawCoding) (residualScan .epStartWrite 6 []))).scan.biasB =
      #v[7, 0, 0, 0] ∧
    (stateOf (parseMcuWith (.other rawCoding) (residualScan .epStartParse 6 [0, 0, 0, 7]))).scan.biasB =
      #v[7, 0, 0, 0] ∧
    (stateOf (parseMcuWith (.other rawCoding) (residualScan .epStartParse 6 [0, 0, 0, 7]))).scan.biasN =
      #v[1, 0, 0, 0] := by decide +kernel

theorem witness_ResidualBlocks_traps :
    offersDecisions (residualScan .epStartParse 5) endlessDc ∧
    offersDecisions (residualScan .epStartParse 5) endlessAc ∧
    offers (withCodes [⟨16, 1, 1⟩] [] (residualScan .epStartParse 7 [0xBC])) [.sym .dc 0 16] ∧
    (residualScan .epStartParse 7 [0xBC]).cfg.kind ≠ .residualAc := by decide +kernel

theorem witness_McuCommandsCount :
    measuring.sound ∧ measuring.status.state.active = true ∧
    exec .epWriteMcu measuring = .next (after .epWriteMcu measuring) ∧
    (after .epWriteMcu measuring).status.state ≠ .dead :=
  ⟨by decide +kernel, by decide +kernel, next_after (by decide +kernel), by decide +kernel⟩

/-- An MCU of two units of component 0, the DC 7 and then `u`. -/
def twoUnits (i : Instr) (kind : Word) (u : Block) : State :=
  { inRow i kind 0x3F00 0 [0xBC, 0x00] zeroBlock with
    cfg := { (inRow i kind 0x3F00 0 [0xBC, 0x00] zeroBlock).cfg with mcuMap := 2 }
    ports := { (inRow i kind 0x3F00 0 [0xBC, 0x00] zeroBlock).ports with
      pending := #v[[unitOf 7, u], [], [], []] } }

/-- How the units of an MCU end: completed (`true`), or in an error. -/
def unitsEnd (run : State → Host.Outcome State Fault Refusal) (s : State) : Option Bool :=
  (unitsInOrder run s.cfg.mcuUnits s).map Sum.isLeft

theorem witness_McuCommandsCount_units :
    (∀ s ∈ [twoUnits .epStartWrite 0 (unitOf 7), twoUnits .epStartMeasure 0 (unitOf 8),
        twoUnits .epStartParse 0 zeroBlock, residualScan .epStartMeasure 7 []],
      s.cfg.valid = true ∧ s.midSegment) ∧
    (twoUnits .epStartWrite 0 (unitOf 7)).cfg.kind.isResidual = false ∧
    (residualScan .epStartMeasure 7 []).cfg.kind.isResidual = true ∧
    unitsEnd (exec .epWriteMcu) (twoUnits .epStartMeasure 0 (unitOf 8)) = some true ∧
    unitsEnd (exec .epWriteMcu) (twoUnits .epStartWrite 0 (unitOf 8)) = some false ∧
    unitsEnd (exec .epParseMcu) (twoUnits .epStartParse 0 zeroBlock) = some true ∧
    unitsEnd (writeMcuWith .reference) (residualScan .epStartMeasure 7 []) = some true := by
  decide +kernel

/-- R412: the second unit of a component is coded against the first one's DC: the bits 101 111 00 and then 00 00. -/
theorem test_two_units :
    (after .epWriteMcu (twoUnits .epStartWrite 0 (unitOf 7))).ports.primary.out = [0xBC] ∧
    (after .epWriteMcu (twoUnits .epStartWrite 0 (unitOf 7))).bc.free = 4 := by decide +kernel

/-- R402 on R398's example with a restart due: the padded byte 9F, then the marker, high byte first. -/
theorem test_write_restart :
    ((after .epWriteMcu { beforeRestart with
      cfg := { beforeRestart.cfg with restartInterval := 1 }
      scan := { beforeRestart.scan with mcusToGo := 0, nextRst := 5 } }).ports.primary.out.take 3) =
      [0x9F, 0xFF, 0xD5] := by decide +kernel

theorem witness_RestartMarkersAreExpected_found :
    (atRestart [0x80, 0xFF, 0xD0, 0x80]).sound ∧
    (atRestart [0x80, 0xFF, 0xD0, 0x80]).status.state = .parse ∧
    (atRestart [0x80, 0xFF, 0xD0, 0x80]).cfg.effRI ≠ 0 ∧
    (atRestart [0x80, 0xFF, 0xD0, 0x80]).scan.mcusToGo = 0 ∧
    (atRestart [0x80, 0xFF, 0xD0, 0x80]).chan.findMarker.1 =
      0xFFD0 + (atRestart [0x80, 0xFF, 0xD0, 0x80]).scan.nextRst.setWidth 16 ∧
    exec .epParseMcu (atRestart [0x80, 0xFF, 0xD0, 0x80]) =
      .next (after .epParseMcu (atRestart [0x80, 0xFF, 0xD0, 0x80])) ∧
    (after .epParseMcu (atRestart [0x80, 0xFF, 0xD0, 0x80])).status.state ≠ .dead :=
  ⟨by decide +kernel, by decide +kernel, by decide +kernel, by decide +kernel, by decide +kernel,
    next_after (by decide +kernel), by decide +kernel⟩

theorem witness_RestartMarkersAreExpected_missing :
    (atRestart [0x80]).sound ∧ (atRestart [0x80]).status.state = .parse ∧
    (atRestart [0x80]).cfg.effRI ≠ 0 ∧ (atRestart [0x80]).scan.mcusToGo = 0 ∧
    (atRestart [0x80]).chan.findMarker.1 ≠
      0xFFD0 + (atRestart [0x80]).scan.nextRst.setWidth 16 ∧
    exec .epParseMcu (atRestart [0x80]) = .next (after .epParseMcu (atRestart [0x80])) ∧
    (after .epParseMcu (atRestart [0x80])).status.state ≠ .dead :=
  ⟨by decide +kernel, by decide +kernel, by decide +kernel, by decide +kernel, by decide +kernel,
    next_after (by decide +kernel), by decide +kernel⟩

/-- A stale, the expected, an ahead and a corrupt marker, and one of no restart, after the first segment. -/
theorem witness_RestartMarkersAreExpected_clauses :
    (∀ bytes ∈ [[0x80, 0xFF, 0xD7, 0xFF, 0xD0], [0x80, 0xFF, 0xD1], [0x80, 0xFF, 0xD3], [0x80]],
      (atRestart bytes).status.state = .parse ∧ (atRestart bytes).status.rowActive = true ∧
      (atRestart bytes).scan.mcuInRow.toNat < (atRestart bytes).cfg.mcusPerRow ∧
      (atRestart bytes).cfg.effRI ≠ 0 ∧ (atRestart bytes).scan.mcusToGo = 0 ∧
      (atRestart bytes).bc.dir = .read ∧
      (atRestart bytes).bc.stream = (atRestart bytes).cfg.streamSel ∧
      (atRestart bytes).scan.nextRst = 0 ∧ (atRestart bytes).cfg.kind.isQm = false) ∧
    (skipStale 0 1 (atRestart [0x80, 0xFF, 0xD7, 0xFF, 0xD0]).chan).map (fun k => k.findMarker.1) =
      some (markerOf 0) ∧
    (skipStale 0 0 (atRestart [0x80, 0xFF, 0xD1]).chan).map (fun k => k.findMarker.1) =
      some (markerOf 1) ∧
    (skipStale 0 0 (atRestart [0x80, 0xFF, 0xD3]).chan).map (fun k => k.findMarker.1) =
      some (markerOf 3) ∧
    (skipStale 0 0 (atRestart [0x80]).chan).map (fun k => k.findMarker.1) = some 0 ∧
    (∀ i : BitVec 3, (0 : BitVec 16) ≠ markerOf i) := by decide +kernel

/-- The same for a QM kind: the expected marker after the first segment. -/
def atQmRestart : State :=
  { inRow .epStartParse 3 0x00010000 1 [0x80, 0xFF, 0xD0] zeroBlock with
    scan := { (inRow .epStartParse 3 0x00010000 1 [0x80, 0xFF, 0xD0] zeroBlock).scan with
      mcusToGo := 0 } }

theorem witness_RestartMarkersAreExpected_qm :
    atQmRestart.status.state = .parse ∧ atQmRestart.status.rowActive = true ∧
    atQmRestart.scan.mcuInRow.toNat < atQmRestart.cfg.mcusPerRow ∧ atQmRestart.cfg.effRI ≠ 0 ∧
    atQmRestart.scan.mcusToGo = 0 ∧ atQmRestart.bc.dir = .read ∧
    atQmRestart.bc.stream = atQmRestart.cfg.streamSel ∧ atQmRestart.cfg.kind.isQm = true ∧
    (skipStale 0 0 atQmRestart.chan).map (fun k => k.findMarker.1) = some (markerOf 0) := by
  decide +kernel

/-- A scan of SEQ_AC in WRITE. -/
def writingQm : State := inRow .epStartWrite 1 0x3F00 0 [] zeroBlock

theorem witness_FlushEndsTheScan :
    (dcOnly .epStartParse).status.state = .parse ∧
    endsWithRun (zeroBand .epStartWrite 1 []).cfg ∧
    (zeroBand .epStartWrite 1 []).status.state = .write ∧
    itemBits (zeroBand .epStartWrite 1 []).ports (runItems 0 1 []) = some [false, false] ∧
    itemBits (zeroBand .epStartWrite 2 []).ports (runItems 0 2 []) = none ∧
    endsWithRun (zeroBand .epStartMeasure 2 []).cfg ∧
    (zeroBand .epStartMeasure 2 []).status.state = .measure ∧
    itemBits (zeroBand .epStartMeasure 2 []).ports (runItems 0 2 []) = none ∧
    endsWithRun (zeroBand .epStartMeasure 1 []).cfg ∧
    (zeroBand .epStartMeasure 1 []).status.state = .measure ∧
    itemBits (zeroBand .epStartMeasure 1 []).ports (runItems 0 1 []) ≠ none ∧
    ¬ endsWithRun measuring.cfg ∧ measuring.status.state = .measure ∧
    ¬ endsWithRun (sample .epStartWrite).cfg ∧ (sample .epStartWrite).status.state = .write ∧
    (sample .epStartWrite).cfg.kind.isQm = false ∧
    writingQm.status.state = .write ∧ writingQm.cfg.kind.isQm = true ∧ writingQm.bc.dir = .write ∧
    writingQm.qm.qmode = .encoding ∧ writingQm.qm.encOk = true ∧ writingQm.bc.writeOk = true := by
  decide +kernel

/-- R397: in MEASURE too EP_FLUSH raises ContractViolation for a run whose symbol has no code, and ends the scan for
one that has a code. -/
theorem test_measured_run :
    (after .epFlush (zeroBand .epStartMeasure 2 [])).status.err = .contractViolation ∧
    (after .epFlush (zeroBand .epStartMeasure 1 [])).status.state = .flushed := by decide +kernel

theorem witness_RestartResetsTheSegment :
    beforeRestart.cfg.kind.isQm = false ∧ beforeRestart.cfg.kind.isResidual = false ∧
    beforeRestart.status.state = .write ∧ itemBits beforeRestart.ports [] = some [] ∧
    (zeroBand .epStartWrite 1 []).cfg.kind.isResidual = false ∧
    field (zeroBand .epStartWrite 1 []).cfg.scanCtrl 0 4 = 0 ∧
    itemBits (zeroBand .epStartWrite 1 []).ports (runItems 0 1 []) = some [false, false] ∧
    itemBits (zeroBand .epStartWrite 2 []).ports (runItems 0 2 []) = none ∧
    (dcOnly .epStartParse).cfg.kind.isQm = false ∧
    (dcOnly .epStartParse).cfg.kind.isResidual = false ∧
    (dcOnly .epStartParse).status.state = .parse ∧ (dcOnly .epStartParse).status.segValid = true ∧
    (acScan .epStartParse []).cfg.kind.isQm = true ∧
    (acScan .epStartParse []).cfg.kind.isResidual = false ∧
    (acScan .epStartParse []).status.state = .parse ∧
    (acScan .epStartParse []).status.segValid = true ∧
    (invalidSegment 0 0x3F00).status.state = .parse ∧
    (invalidSegment 0 0x3F00).status.segValid = false ∧
    writingQm.status.state = .write ∧ writingQm.cfg.kind.isQm = true ∧
    writingQm.cfg.kind.isResidual = false ∧ writingQm.bc.dir = .write ∧
    writingQm.qm.qmode = .encoding ∧ writingQm.qm.encOk = true ∧ writingQm.bc.writeOk = true ∧
    (zeroBand .epStartMeasure 2 []).status.state = .measure := by decide +kernel

/-- A segment of zero bands in WRITE or MEASURE that a restart ends, a run of n bands pending. -/
def runAtRestart (i : Instr) (n : BitVec 16) : State :=
  { inRow i 0x10 0x0502 1 [] (unitOf 7) with
    scan := { (inRow i 0x10 0x0502 1 [] (unitOf 7)).scan with mcusToGo := 0, eobrun := n } }

/-- The same of SEQ_AC in WRITE. -/
def qmAtRestart : State :=
  { inRow .epStartWrite 1 0x3F00 1 [] zeroBlock with
    scan := { (inRow .epStartWrite 1 0x3F00 1 [] zeroBlock).scan with mcusToGo := 0 } }

theorem witness_RestartResetsTheSegment_due :
    (∀ s ∈ [runAtRestart .epStartWrite 1, runAtRestart .epStartWrite 2, runAtRestart .epStartMeasure 2,
        qmAtRestart],
      restartDue s ∧ s.cfg.kind.isResidual = false ∧ s.bc.stream = s.cfg.streamSel) ∧
    itemBits (runAtRestart .epStartWrite 1).ports (runItems 0 1 []) = some [false, false] ∧
    itemBits (runAtRestart .epStartWrite 2).ports (runItems 0 2 []) = none ∧
    (runAtRestart .epStartMeasure 2).status.state = .measure ∧
    qmAtRestart.status.state = .write ∧ qmAtRestart.cfg.kind.isQm = true ∧ qmAtRestart.bc.dir = .write ∧
    qmAtRestart.qm.qmode = .encoding ∧ qmAtRestart.qm.encOk = true ∧ qmAtRestart.bc.writeOk = true := by
  decide +kernel

theorem witness_FrameTypeWritesTheMarker :
    State.reset.quiet ∧ field (scanCfg 0x44 0 0).scanCtrl 0 4 ≤ 4 ∧
    (scanCfg 0x44 0 0).hidden = true ∧ 5 ≤ field (scanCfg 7 0x3F00 0).scanCtrl 0 4 ∧
    field (scanCfg 7 0x3F00 0).scanCtrl 0 4 ≤ 7 ∧ (scanCfg 4 0 0).hidden = false ∧
    field (scanCfg 4 0 0).scanCtrl 0 4 ≤ 4 := by decide +kernel

/-- The bias registers of component 0. -/
def biased (n : Word) (b : Word) : State :=
  { State.reset with scan := { ScanRegs.reset with biasN := #v[n, 0, 0, 0], biasB := #v[b, 0, 0, 0] } }

theorem witness_BiasEstimatorHalvesAfter64 :
    (biased 64 192).scan.biasN[0].toNat ≤ 64 ∧
    -(2 ^ 31) ≤ (biased 64 192).scan.biasB[0].toInt + 3 ∧
    (biased 64 192).scan.biasB[0].toInt + 3 < 2 ^ 31 ∧ (biased 64 192).scan.biasN[0].toNat = 64 ∧
    (biased 63 192).scan.biasN[0].toNat < 64 := by decide +kernel

theorem witness_RangeCheckWritesNothing :
    (∀ p ∈ [(inRow .epStartWrite 0 0x3F00 0 [] (unitOf 32768), unitOf 32768),
        (inRow .epStartMeasure 0x10 0x0502 0 [] (setCoef zeroBlock 2 32768), setCoef zeroBlock 2 32768),
        (inRow .epStartWrite 1 0x3F00 0 [] (unitOf 32769), unitOf 32769)],
      p.1.cfg.valid = true ∧ p.1.midSegment ∧ p.1.mcuBlocks = [(0, p.2)] ∧
      (p.1.status.state = .write ∨ (p.1.status.state = .measure ∧ p.1.cfg.kind.isQm = false)) ∧
      (p.1.cfg.kind = .seqHuff ∨ p.1.cfg.kind = .seqAc) ∧ outOfRange p.1 0 p.2) ∧
    (residualScan .epStartWrite 5 []).cfg.valid = true ∧ (residualScan .epStartWrite 5 []).midSegment ∧
    (residualScan .epStartWrite 5 []).status.state = .write ∧
    (residualScan .epStartWrite 5 []).cfg.kind.isResidual = true := by decide +kernel

/-- A residual scan in WRITE whose unit has a DC out of range. -/
def residualBig : State :=
  { residualScan .epStartWrite 5 [] with
    ports := { (residualScan .epStartWrite 5 []).ports with pending := #v[[unitOf 32769], [], [], []] } }

theorem witness_RangeCheckWritesNothing_residual :
    residualBig.mcuBlocks = [(0, unitOf 32769)] ∧ residualBig.cfg.valid = true ∧
    residualBig.midSegment ∧ residualOutOfRange residualBig 0 (unitOf 32769) := by
  refine ⟨by decide +kernel, by decide +kernel, by decide +kernel, .inl ?_⟩
  decide +kernel

theorem witness_StateTransitions :
    exec .epFlush measuring = .next (after .epFlush measuring) := next_after (by decide +kernel)

theorem witness_RegisterWriters :
    exec .epRestart beforeRestart = .next (after .epRestart beforeRestart) ∧
    writesResult .epRestart = false ∧ (after .epRestart beforeRestart).status.state ≠ .dead :=
  ⟨next_after (by decide +kernel), by decide, by decide +kernel⟩

theorem witness_PortsOnlyGrow :
    exec .epWriteMcu measuring = .next (after .epWriteMcu measuring) ∧
    measuring.status.state = .measure := ⟨next_after (by decide +kernel), by decide +kernel⟩

/-- A hidden scan in PARSE. -/
def hiddenScan : State := inRow .epStartParse 0x42 0x00010000 0 [] zeroBlock

theorem witness_RoutedScansLeavePrimary :
    hiddenScan.status.state.active = true ∧ hiddenScan.channelOk = true ∧
    hiddenScan.cfg.hidden = true ∧ exec .epFlush hiddenScan = .next (after .epFlush hiddenScan) :=
  ⟨by decide +kernel, by decide +kernel, by decide +kernel, next_after (by decide +kernel)⟩

/-- The witness of the five statements that steps keep an invariant. -/
theorem witness_StepKeeps :
    (measuring.withFetchWord 32 0xB4000000).sound ∧
    ∃ t, step (measuring.withFetchWord 32 0xB4000000) = .next t :=
  ⟨by decide +kernel, step_next (by decide +kernel)⟩

theorem witness_SoundStatesNeverFault : measuring.sound := by decide +kernel

end Sys2Proof.Machine.Tests
end

section
/-!
PROOFS. A command word's step, and the words of the registers (R41, R44, R203, R204).
-/
namespace Sys2Proof.Machine

/-- The statements' table of masks is the machine's (R203). -/
theorem maskOf_eq (r : Reg) : maskOf r = writableMask r := by cases r <;> rfl

/-- A CFG_WRITE of an RW-config register outside a scan writes it (R203). -/
theorem execCfgWrite_of_mask {s : State} {r : Reg} {m : Word} (hm : writableMask r = some m)
    (ha : s.status.state.active = false) : execCfgWrite r s = .next (s.writeReg r) :=
  runCommand_ok (.inr rfl) (.inl rfl) (by simp [cfgWriteRefuses, hm, ha]) rfl

/-- A CFG_WRITE of another register or in a scan is refused (R44, R203). -/
theorem execCfgWrite_refused {s : State} {r : Reg}
    (h : writableMask r = none ∨ s.status.state.active = true) :
    execCfgWrite r s = .next (s.raise .contractViolation) :=
  runCommand_refuses (.inr rfl) (by simp [cfgWriteRefuses, h])

/-- A register just written reads what was written (R203). -/
theorem State.reg_writeReg_same {s : State} {r : Reg} {m : Word} (hm : writableMask r = some m) :
    (s.writeReg r).reg r = s.operand &&& m := by
  cases r <;> cases hm <;> simp [State.reg, writableMask, CfgRegs.put]

/-- A write of a register leaves every other one (R203). -/
theorem State.reg_writeReg_other (s : State) {r q : Reg} (h : q ≠ r) :
    (s.writeReg r).reg q = s.reg q := by
  cases r with
  | compCfg i =>
    cases q with
    | compCfg j =>
      have hij : i.val ≠ j.val := fun e => h (by rw [Fin.ext e])
      simp [State.reg, CfgRegs.put, hij]
    | _ => rfl
  | compCond i =>
    cases q with
    | compCond j =>
      have hij : i.val ≠ j.val := fun e => h (by rw [Fin.ext e])
      simp [State.reg, CfgRegs.put, hij]
    | _ => rfl
  | _ => cases q <;> simp_all [State.reg, CfgRegs.put]

/-- The value of two words side by side. -/
theorem toNat_append_eq {m n : Nat} (x : BitVec m) (y : BitVec n) :
    (x ++ y).toNat = y.toNat + 2 ^ n * x.toNat := by
  rw [BitVec.toNat_append, Nat.shiftLeft_eq, Nat.mul_comm, ← Nat.two_pow_add_eq_or_of_lt y.isLt,
    Nat.add_comm]

@[simp] theorem toNat_bit1 (b : Bool) : (bit1 b).toNat = b.toNat := by cases b <;> rfl

end Sys2Proof.Machine

open Sys2Proof Sys2Proof.Machine

/-- Settles O5: the step takes the word from the host's list, decodes it and runs the command. -/
theorem stepRunsDecodedInstruction : Obligations.StepRunsDecodedInstruction := by
  intro w i rest s h
  simp [step, fetch, perform, fetchWord, h]

/-- Settles O12: the write of an accepted command, register by register, and the refusals. -/
theorem cfgWriteStoresMaskedOperand : Obligations.CfgWriteStoresMaskedOperand := by
  intro s r
  constructor
  · intro m hm ha
    rw [maskOf_eq] at hm
    exact ⟨_, execCfgWrite_of_mask hm ha, State.reg_writeReg_same hm,
      fun q hq => State.reg_writeReg_other s hq, rfl⟩
  · intro h
    refine execCfgWrite_refused ?_
    rcases h with h | h | h | h
    · exact .inr (by rw [h]; rfl)
    · exact .inr (by rw [h]; rfl)
    · exact .inr (by rw [h]; rfl)
    · exact .inl (maskOf_eq r ▸ h)

/-- Settles O13: each word is a row of fields, and its value their sum (`toNat_append_eq`). -/
theorem registerWordsOfFields : Obligations.RegisterWordsOfFields := by
  intro s
  refine ⟨?_, by decide, by decide, by decide, by decide, by decide, by decide,
    ?_, ?_, ?_, ?_, ?_, ?_, ?_⟩
  · simp only [State.reg, Status.word, toNat_append_eq, toNat_bit1]
    simp
  · simp only [State.reg, ScanRegs.rstWord, toNat_append_eq]
    simp
  · exact toNat_append_eq _ _
  · exact BitVec.toNat_setWidth_of_le (by decide)
  · exact BitVec.toNat_ofNat _ _
  · exact BitVec.toNat_setWidth_of_le (by decide)
  · simp only [State.reg, QmRegs.ctrlWord, toNat_append_eq, toNat_bit1]
    simp
  · simp only [State.reg, BitChan.ctrlWord, toNat_append_eq, toNat_bit1]
    simp
end

section
/-!
PROOFS. What every command does to the state (R200, R411, R606, R607): a relation that holds of each part of a
command (reads and writes of the channel, units of the block port, changes of registers) holds between the state
before the command and the state after it.
-/
namespace Sys2Proof.Machine

/-- A relation that holds of every part of a command that leaves RESULT, OPERAND and the configuration: whatever
happens to the other registers and to the block port. -/
structure ScanFrame (R : State → State → Prop) : Prop extends ReadFrame R, WriteFrame R where
  regs : ∀ s t : State, t.operand = s.operand → t.result = s.result → t.cfg = s.cfg →
    t.ctx = s.ctx → t.ports = s.ports → R s t
  bank : ∀ (s : State) m, bankOk m = true → R s { s with ctx := m }
  block : ∀ (s : State) pending current released, R s { s with ports := { s.ports with
    pending := pending, current := current, released := released } }
  opened : ∀ (s : State) dir sel, R s { s with ports := s.ports.opened dir sel }
  marker : ∀ (s : State) sel w, R s (s.putMarker sel w)

/-- The same for a command that may write RESULT. -/
structure MachineFrame (R : State → State → Prop) : Prop extends ScanFrame R where
  result : ∀ (s : State) v, R s (s.setResult v)

variable {R : State → State → Prop} {s t : State}

/-! ### The changes of the state -/

namespace ScanFrame

theorem openChan (F : ScanFrame R) (s : State) (dir : Dir) (mode : Stuff) (sel : StreamSel) :
    R s (s.openChan dir mode sel) :=
  F.trans (F.opened s dir sel) (F.regs _ _ rfl rfl rfl rfl rfl)

theorem rebind (F : ScanFrame R) (s : State) (dir : Dir) (mode : Stuff) (sel : StreamSel) :
    R s (s.rebind dir mode sel) :=
  F.trans (F.openChan s dir mode sel) (F.regs _ _ rfl rfl rfl rfl rfl)

theorem openRead (F : ScanFrame R) (s : State) : R s s.openRead := by
  have h := F.openChan s .read s.cfg.stuffMode s.cfg.streamSel
  show R s (if s.cfg.kind.isQm then _ else _)
  split
  · exact F.trans h (F.decode _ _ (decStep_initDec _))
  · exact h

theorem openWrite (F : ScanFrame R) (s : State) : R s s.openWrite := by
  have h := F.openChan s .write s.cfg.stuffMode s.cfg.streamSel
  show R s (if s.cfg.kind.isQm then _ else _)
  split
  · exact F.trans h (F.regs _ _ rfl rfl rfl rfl rfl)
  · exact h

/-- `OpenCoder` (R386). -/
theorem openCoder (F : ScanFrame R) (s : State) : R s s.openCoder := by
  unfold State.openCoder
  split
  · exact F.openRead s
  · exact F.openWrite s
  all_goals exact F.refl s

/-- `Start` (R385). -/
theorem start (F : ScanFrame R) (s : State) (st : ScanState) : R s (s.started st).openCoder :=
  F.trans (F.bank s [] rfl) (F.trans (F.regs _ (s.started st) rfl rfl rfl rfl rfl) (F.openCoder _))

/-- `Restart` (R400). -/
theorem restart (F : ScanFrame R) (s : State) : R s s.restart := by
  have h : R s s.segmentReset := F.trans (F.bank s [] rfl) (F.regs _ _ rfl rfl rfl rfl rfl)
  unfold State.restart State.reopen
  split
  · exact h
  · exact F.trans h (F.openCoder _)

/-- `Request` (R128). -/
theorem request (F : ScanFrame R) (s : State) (c : Fin 4) : R s (s.request c).2 := by
  unfold State.request
  split
  · exact F.block s _ _ _
  · exact F.trans (F.block s _ _ _) (F.regs _ _ rfl rfl rfl rfl rfl)

theorem release (F : ScanFrame R) (s : State) (c : Fin 4) (u : Block) : R s (s.release c u) :=
  F.block s _ _ _

/-- A unit not released, after an error (R607 item 3). -/
theorem dropUnit (F : ScanFrame R) (s : State) : R s s.dropUnit :=
  F.trans (F.block s _ _ _) (F.regs _ _ rfl rfl rfl rfl rfl)

theorem raise (F : ScanFrame R) (s : State) (e : Err) : R s (s.raise e) :=
  F.regs _ _ rfl rfl rfl rfl rfl

end ScanFrame

/-- What an error during execution leaves (R607). -/
theorem MachineFrame.drawn (F : MachineFrame R) (s : State) : R s s.drawn :=
  F.trans (F.dropUnit s) <| F.trans (F.bank _ (drawBank s.draws) (bankOk_drawBank _)) <|
    F.trans (F.result _ (Config.freeResult s.draws)) (F.regs _ _ rfl rfl rfl rfl rfl)

/-- EP_WRITE_FRAME_TYPE (R410). -/
theorem MachineFrame.frameType (F : MachineFrame R) (s : State) : R s s.frameType := by
  have h : ∀ m, R s (s.putFrame m) := fun m => by
    unfold State.putFrame
    split
    · exact F.result _ _
    · exact F.trans (F.marker s _ _) (F.result _ _)
  unfold State.frameType
  split
  · exact h _
  · exact F.trans (h _) (F.regs _ _ rfl rfl rfl rfl rfl)

/-- The end of an MCU (R394, R395). -/
theorem MachineFrame.endMcu (F : MachineFrame R) (s : State) : R s s.endMcu := by
  show R s (if _ then _ else _)
  split
  · exact F.trans (F.result s 1) (F.regs _ _ rfl rfl rfl rfl rfl)
  · exact F.trans (F.result s 0) (F.regs _ _ rfl rfl rfl rfl rfl)

/-! ### The executions -/

/-- A procedure of the channel that reads. -/
theorem keeps_onChanVal {α : Type} (F : ReadFrame R) {f : Chan → α × Chan}
    (h : ∀ k, ReadStep k (f k).2) : Keeps R (onChanVal f) := fun s => F.read s _ (h s.chan)

theorem keeps_skipWord (F : ReadFrame R) : Keeps R skipWord :=
  keeps_update fun s => F.read s _ (readStep_skipWord s.chan)

theorem keeps_takeWord (F : ReadFrame R) : Keeps R takeWord := by
  refine keeps_bind F.toSteps (keeps_onChanVal F readStep_skipWord) fun w => ?_
  cases w with
  | some w => exact keeps_pure F.toSteps w
  | none => exact keeps_throw F.toSteps _

/-- `ParseDNL` (R389). -/
theorem keeps_parseDnl (F : ReadFrame R) (hdnl : ∀ u nl, R u (u.setDnl nl)) : Keeps R parseDnl :=
  keeps_bind F.toSteps (keeps_skipWord F) fun _ =>
    keeps_bind F.toSteps (keeps_takeWord F) fun _ =>
    keeps_ite (keeps_throw F.toSteps _) <| keeps_bind F.toSteps (keeps_takeWord F) fun _ =>
      keeps_ite (keeps_throw F.toSteps _) (keeps_update fun u => hdnl u _)

/-- EP_START_MCU_ROW (R388). -/
theorem keeps_startMcuRow (F : ReadFrame R) (hdnl : ∀ u nl, R u (u.setDnl nl))
    (hres : ∀ u v, R u (State.setResult u v)) (hrow : ∀ u, R u (State.nextRow u)) :
    Keeps R startMcuRow := by
  have hstart : Keeps R (update State.startRow) := keeps_update fun u => by
    unfold State.startRow
    split
    · exact hres u 0
    · exact hrow u
  exact keeps_bind F.toSteps (keeps_get F.toSteps) fun _ =>
    keeps_ite (keeps_ite (keeps_update fun u => hres u 0) <|
      keeps_bind F.toSteps (keeps_update fun u => F.read u _ (readStep_skipStuffing u.chan)) fun _ =>
      keeps_bind F.toSteps (keeps_get F.toSteps) fun _ =>
      keeps_ite (keeps_bind F.toSteps (keeps_parseDnl F hdnl) fun _ =>
        keeps_update fun u => hres u 0) hstart) hstart

namespace ScanFrame

theorem keeps_onCoder_qmFlush (F : ScanFrame R) (final : Bool) : Keeps R (onCoder (qmFlush final)) := by
  intro s
  have h := keeps_qmFlush final s.coder
  unfold onCoder
  cases hx : qmFlush final s.coder with
  | ok a k => rw [hx] at h; exact F.encode s k h
  | error e k => rw [hx] at h; exact F.encode s k h

theorem keeps_flush (F : ScanFrame R) : Keeps R (onChan Chan.flush) :=
  keeps_update fun s => F.write s _ (writeStep_flush s.chan)

/-- `FlushCoder` (R396). -/
theorem keeps_flushCoder (F : ScanFrame R) : Keeps R flushCoder := by
  have hflush : ∀ s : State, Keeps R (if s.status.state = .write then
      if s.cfg.kind.isQm then onCoder (qmFlush true) else onChan Chan.flush else pure ()) := fun s =>
    keeps_ite (keeps_ite (F.keeps_onCoder_qmFlush true) F.keeps_flush) (keeps_pure F.toSteps _)
  exact keeps_bind F.toSteps (keeps_get F.toSteps) fun s =>
    keeps_ite (keeps_bind F.toSteps (keeps_emitEobRun F.toWriteFrame) fun _ => hflush s)
      (hflush s)

theorem keeps_nextSegment (F : ScanFrame R) : Keeps R (update fun s => s.nextSegment.restart) :=
  keeps_update fun s => F.trans (F.scan s _) (F.restart s.nextSegment)

/-- `WriteRestart` (R402). -/
theorem keeps_writeRestart (F : ScanFrame R) : Keeps R writeRestart := by
  refine keeps_bind F.toSteps F.keeps_flushCoder fun _ =>
    keeps_bind F.toSteps (keeps_update fun s => ?_) fun _ => F.keeps_nextSegment
  split
  · exact F.marker s _ _
  · exact F.refl s

/-- `ReadRestart`'s search (R404). -/
theorem keeps_findRestart (F : ScanFrame R) (e : BitVec 3) :
    ∀ rounds first, Keeps R (findRestart e rounds first)
  | 0, _ => keeps_throw F.toSteps _
  | rounds + 1, first => by
    have hseg : ∀ v, Keeps R (update fun s => s.setSegValid v) := fun v =>
      keeps_update fun s => F.regs _ _ rfl rfl rfl rfl rfl
    have hskip := keeps_skipWord F.toReadFrame
    have hrest : ∀ m : BitVec 16, Keeps R
        (if m = rstMarker (e - 1) ∨ m = rstMarker (e - 2) then do
          skipWord
          findRestart e rounds false
        else do
          update fun s => s.setSegValid false
          if isRstMarker m = true ∧ m ≠ rstMarker (e + 1) ∧ m ≠ rstMarker (e + 2) then skipWord
          else pure ()) := fun m =>
      keeps_ite (keeps_bind F.toSteps hskip fun _ => F.keeps_findRestart e rounds false)
        (keeps_bind F.toSteps (hseg false) fun _ => keeps_ite hskip (keeps_pure F.toSteps _))
    exact keeps_bind F.toSteps (keeps_onChanVal F.toReadFrame readStep_findMarker) fun m =>
      keeps_ite (keeps_bind F.toSteps hskip fun _ => hseg true)
        (keeps_ite (keeps_bind F.toSteps (keeps_update fun s => F.regs _ _ rfl rfl rfl rfl rfl)
          fun _ => hrest m) (hrest m))

/-- `ReadRestart` (R404). -/
theorem keeps_readRestart (F : ScanFrame R) : Keeps R readRestart :=
  keeps_bind F.toSteps (keeps_get F.toSteps) fun _ =>
    keeps_bind F.toSteps (F.keeps_findRestart _ _ _) fun _ => F.keeps_nextSegment

/-- The restart cadence (R392, R393). -/
theorem keeps_beginMcu (F : ScanFrame R) (dir : McuDir) : Keeps R (beginMcu dir) := by
  have hcount : Keeps R (update State.countMcu) := keeps_update fun s => F.scan s _
  refine keeps_bind F.toSteps (keeps_get F.toSteps) fun _ =>
    keeps_ite (keeps_pure F.toSteps _) (keeps_ite ?_ hcount)
  cases dir with
  | read => exact keeps_bind F.toSteps F.keeps_readRestart fun _ => hcount
  | write => exact keeps_bind F.toSteps F.keeps_writeRestart fun _ => hcount

theorem keeps_neutral (F : ScanFrame R) (u : Block) : Keeps R (neutral u) := by
  refine keeps_bind F.toSteps (keeps_get F.toSteps) fun s => ?_
  cases s.cfg.kind with
  | seqHuff | seqAc | refHuff | refAc | diffLossless => exact keeps_pure F.toSteps _
  | residualAc | residualHuff | residualSeq | reserved => exact keeps_throw F.toSteps _

/-- A unit coded (R394). -/
theorem keeps_codeUnit (F : ScanFrame R) (rc : ResidualCoding) (dir : McuDir) (c : Fin 4) :
    Keeps R (codeUnit rc dir c) := by
  have hrel : ∀ v, Keeps R (update fun s => s.release c v) := fun v =>
    keeps_update fun s => F.release s c v
  refine keeps_bind F.toSteps (fun s => F.request s c) fun u =>
    keeps_bind F.toSteps (keeps_get F.toSteps) fun _ => ?_
  cases dir with
  | write =>
    exact keeps_ite (keeps_bind F.toSteps (keeps_pure F.toSteps _) hrel)
      (keeps_bind F.toSteps (keeps_encodeUnit F.toWriteFrame rc c u) fun _ =>
        keeps_bind F.toSteps (keeps_pure F.toSteps _) hrel)
  | read =>
    exact keeps_ite (keeps_bind F.toSteps (keeps_decodeUnit F.toReadFrame rc c u) hrel)
      (keeps_bind F.toSteps (F.keeps_neutral u) hrel)

theorem keeps_codeUnits (F : ScanFrame R) (rc : ResidualCoding) (dir : McuDir) :
    ∀ cs, Keeps R (codeUnits rc dir cs)
  | [] => keeps_pure F.toSteps _
  | c :: cs => keeps_bind F.toSteps (F.keeps_codeUnit rc dir c) fun _ => F.keeps_codeUnits rc dir cs

/-- EP_FLUSH (R397). -/
theorem keeps_epFlush (F : ScanFrame R) : Keeps R epFlush := by
  have hdone : Keeps R (update State.flushed) :=
    keeps_update fun s => F.regs _ _ rfl rfl rfl rfl rfl
  exact keeps_bind F.toSteps (keeps_get F.toSteps) fun _ => keeps_ite
    (keeps_bind F.toSteps (keeps_onChanVal F.toReadFrame readStep_findMarker) fun _ =>
      keeps_bind F.toSteps (keeps_update fun s => F.scan s _) fun _ => hdone)
    (keeps_bind F.toSteps F.keeps_flushCoder fun _ =>
      keeps_ite (keeps_bind F.toSteps (keeps_throw F.toSteps _) fun _ => hdone) hdone)

/-- EP_RESTART (R398). -/
theorem keeps_epRestart (F : ScanFrame R) : Keeps R epRestart := by
  have hdone : Keeps R (update State.restart) := keeps_update F.restart
  exact keeps_bind F.toSteps (keeps_get F.toSteps) fun _ => keeps_ite hdone
    (keeps_bind F.toSteps F.keeps_flushCoder fun _ => hdone)

end ScanFrame

/-- An MCU (R394). -/
theorem MachineFrame.keeps_mcu (F : MachineFrame R) (rc : ResidualCoding) (dir : McuDir) :
    Keeps R (mcu rc dir) :=
  keeps_bind F.toSteps (F.keeps_beginMcu dir) fun _ =>
    keeps_bind F.toSteps (keeps_get F.toSteps) fun _ =>
    keeps_bind F.toSteps (F.keeps_codeUnits rc dir _) fun _ => keeps_update F.endMcu

/-! ### The commands -/

/-- The relation holds of a command if it does of its execution, once its own checks passed. After an error
during execution it holds if it allows what R607 item 4 lets be any value. -/
theorem Steps.shell (F : Steps R) {k : Checks} {formed : Bool} {refuses : State → Bool} {body : Cmd Unit}
    (h : runCommand k formed refuses body s = .next t)
    (hraise : ∀ (u : State) e, R u (u.raise e)) (hdrop : ∀ u : State, R u u.dropUnit)
    (hd : t.status.state ≠ .dead ∨ ∀ u : State, R u u.drawn)
    (hb : refuses s = false → R s (finalState (body s))) : R s t := by
  rcases runCommand_next h with ⟨-, -, rfl⟩ | ⟨-, rfl⟩ | rfl | ⟨-, -, -, hr, hs⟩
  · exact F.refl _
  · exact hraise s _
  · exact hraise s _
  · have hb := hb hr
    rcases settle_next hs with he | ⟨e, u, he, rfl⟩ | ⟨e, u, he, rfl⟩ <;> rw [he] at hb
    · exact hb
    · rcases hd with hd | hd
      · exact absurd rfl hd
      · exact F.trans hb (F.trans (hd u) (hraise _ e))
    · exact F.trans hb (F.trans (hdrop u) (hraise _ e))

theorem ScanFrame.shell (F : ScanFrame R) {k : Checks} {formed : Bool} {refuses : State → Bool}
    {body : Cmd Unit} (h : runCommand k formed refuses body s = .next t)
    (hd : t.status.state ≠ .dead ∨ ∀ u : State, R u u.drawn)
    (hb : refuses s = false → R s (finalState (body s))) : R s t :=
  F.toSteps.shell h F.raise F.dropUnit hd hb

/-- The commands that do not write RESULT (R53). -/
theorem ScanFrame.exec_of_not_writesResult (F : ScanFrame R) {i : Instr} (hi : writesResult i = false)
    (hw : ∀ r, i = .cfgWrite r → R s (s.writeReg r))
    (hd : t.status.state ≠ .dead ∨ ∀ u : State, R u u.drawn) (h : exec i s = .next t) : R s t := by
  cases i with
  | nop => exact F.shell h hd fun _ => F.refl s
  | cfgWrite r => exact F.shell h hd fun _ => hw r rfl
  | bcOpenRead mode sel => exact F.shell h hd fun _ => F.rebind s .read mode sel
  | bcOpenWrite mode sel => exact F.shell h hd fun _ => F.rebind s .write mode sel
  | bcPutBits n => exact F.shell h hd fun _ => keeps_putBits F.toWriteFrame _ _ s
  | bcFlush => exact F.shell h hd fun _ => F.keeps_flush s
  | bcSkipStuffing =>
    exact F.shell h hd fun _ => F.read s _ (readStep_skipStuffing s.chan)
  | qmInitEnc => exact F.shell h hd fun _ => F.regs _ _ rfl rfl rfl rfl rfl
  | qmInitDec => exact F.shell h hd fun _ => F.decode s _ (decStep_initDec s.coder)
  | qmEncode ctx d =>
    refine F.shell h hd fun hr => keeps_encodeBit F.toWriteFrame ?_ d s
    simp only [encodeRefuses, Bool.or_eq_false_iff, Bool.not_eq_false'] at hr
    exact hr.1.1
  | qmFlush final => exact F.shell h hd fun _ => F.keeps_onCoder_qmFlush final s
  | ctxInit ctx index mps =>
    refine F.shell h hd fun hr => F.toReadFrame.cell s _ _ ?_
    simp only [ctxInitRefuses, Bool.or_eq_false_iff, Bool.not_eq_false'] at hr
    exact hr.1
  | ctxResetAll => exact F.shell h hd fun _ => F.bank s [] rfl
  | hufPut cls tbl sym => exact F.shell h hd fun _ => keeps_writeCode F.toWriteFrame cls tbl sym s
  | hufCount cls tbl sym => exact F.shell h hd fun _ => F.count s cls tbl sym
  | epStartParse => exact F.shell h hd fun _ => F.start s .parse
  | epStartWrite => exact F.shell h hd fun _ => F.start s .write
  | epStartMeasure => exact F.shell h hd fun _ => F.start s .measure
  | epFlush => exact F.shell h hd fun _ => F.keeps_epFlush s
  | epRestart => exact F.shell h hd fun _ => F.keeps_epRestart s
  | _ => cases hi

/-- A value returned to RESULT by an execution. -/
theorem MachineFrame.keeps_toResult (F : MachineFrame R) {α : Type} {x : Cmd α} (hx : Keeps R x)
    (f : α → Word) : Keeps R (do let v ← x; update fun s => s.setResult (f v)) :=
  keeps_bind F.toSteps hx fun _ => keeps_update fun s => F.result s _

/-- Every command. -/
theorem MachineFrame.exec (F : MachineFrame R) {i : Instr} (hreset : i = .coreReset → R s s.coreReset)
    (hw : ∀ r, i = .cfgWrite r → R s (s.writeReg r))
    (hdnl : i = .epStartMcuRow → ∀ u nl, R u (State.setDnl u nl)) (h : exec i s = .next t) : R s t := by
  have hd : t.status.state ≠ .dead ∨ ∀ u : State, R u u.drawn := .inr F.drawn
  cases i with
  | coreReset => exact F.shell h hd fun _ => hreset rfl
  | cfgRead r => exact F.shell h hd fun _ => F.result s _
  | bcGetBits n => exact F.shell h hd fun _ => F.keeps_toResult (keeps_getBits F.toReadFrame _) _ s
  | bcFindMarker =>
    exact F.shell h hd fun _ =>
      F.keeps_toResult (keeps_onChanVal F.toReadFrame readStep_findMarker) _ s
  | bcGetByteZ =>
    exact F.shell h hd fun _ =>
      F.keeps_toResult (keeps_onChanVal F.toReadFrame readStep_getByteZ) _ s
  | qmDecode ctx =>
    refine F.shell h hd fun hr => F.keeps_toResult (keeps_decodeBit F.toReadFrame ?_) _ s
    simp only [decodeRefuses, Bool.or_eq_false_iff, Bool.not_eq_false'] at hr
    exact hr.1.1
  | ctxRead ctx =>
    exact F.shell (show execCtxRead ctx s = .next t from h) hd fun _ => F.result s _
  | hufGet cls tbl =>
    exact F.shell h hd fun _ => F.keeps_toResult (keeps_huffGet F.toReadFrame cls tbl) _ s
  | epStartMcuRow =>
    refine F.shell h hd fun _ => keeps_startMcuRow F.toReadFrame (hdnl rfl) F.result (fun u => ?_) s
    exact F.trans (F.result u 1) (F.regs _ _ rfl rfl rfl rfl rfl)
  | epParseMcu => exact F.shell h hd fun _ => F.keeps_mcu _ .read s
  | epWriteMcu => exact F.shell h hd fun _ => F.keeps_mcu _ .write s
  | epWriteFrameType => exact F.shell h hd fun _ => F.frameType s
  | _ => exact F.exec_of_not_writesResult rfl hw hd h

end Sys2Proof.Machine
end

section
/-!
PROOFS. The form of the data (R43, R80, R121, R133, R134): every command and every action of the host keeps
it.
-/
namespace Sys2Proof.Machine

variable {s t : State}

/-! ### The parts of the form -/

theorem State.formOk_iff : s.formOk = true ↔
    s.cfg.masked = true ∧ bankOk s.ctx = true ∧ s.ports.ok = true := by
  simp only [State.formOk, Bool.and_eq_true, and_assoc]

theorem Stream.ok_iff {t : Stream} :
    t.ok = true ↔ t.pos ≤ t.inp.length ∧ t.unseen ≤ t.inp.length := by
  simp only [Stream.ok, Bool.and_eq_true, decide_eq_true_eq]

theorem Ports.ok_iff {p : Ports} : p.ok = true ↔
    (p.primary.ok = true ∧ p.aux.ok = true) ∧ countsOk p.counts = true ∧
      p.dcTables.toList.all hufTableOk = true ∧ p.acTables.toList.all hufTableOk = true := by
  simp only [Ports.ok, Bool.and_eq_true, and_assoc]

theorem Ports.ok_stream {p : Ports} (h : p.ok = true) (sel : StreamSel) : (p.stream sel).ok = true := by
  obtain ⟨⟨hp, ha⟩, -⟩ := Ports.ok_iff.mp h
  cases sel
  · exact hp
  · exact ha

/-- A stream within its input replaces one of the two. -/
theorem Ports.ok_setStream {p : Ports} (h : p.ok = true) (sel : StreamSel) {t : Stream} (ht : t.ok = true) :
    (p.setStream sel t).ok = true := by
  obtain ⟨⟨hp, ha⟩, hrest⟩ := Ports.ok_iff.mp h
  cases sel
  · exact Ports.ok_iff.mpr ⟨⟨ht, ha⟩, hrest⟩
  · exact Ports.ok_iff.mpr ⟨⟨hp, ht⟩, hrest⟩

/-- A property of every component stays where the component written has it. -/
theorem all_toList_set {α : Type} {n : Nat} {v : Vector α n} {p : α → Bool} (h : v.toList.all p = true)
    {x : α} (hx : p x = true) (i : Fin n) : (v.set i x).toList.all p = true := by
  rw [List.all_eq_true] at h ⊢
  intro y hy
  rw [Vector.toList_set] at hy
  rcases List.mem_or_eq_of_mem_set hy with hy | rfl
  · exact h y hy
  · exact hx

/-- A table the host may install keeps the ports' form (R133). -/
theorem Ports.ok_install {p : Ports} (h : p.ok = true) (cls : HufClass) (tbl : Fin 4) {table : HufTable}
    (ht : hufTableOk table = true) : (p.install cls tbl table).ok = true := by
  obtain ⟨hs, hc, hdc, hac⟩ := Ports.ok_iff.mp h
  cases cls
  · exact Ports.ok_iff.mpr ⟨hs, hc, all_toList_set hdc ht tbl, hac⟩
  · exact Ports.ok_iff.mpr ⟨hs, hc, hdc, all_toList_set hac ht tbl⟩

/-- A word under a mask has no bit outside it. -/
theorem within_and (v m : Word) : within (v &&& m) m = true := by
  simp [within, BitVec.and_assoc]

/-- FRAME_HEIGHT as a DNL segment gives it (R389). -/
theorem within_setWidth (nl : BitVec 16) : within (nl.setWidth 32) 0x0000FFFF = true := by
  rw [within, decide_eq_true_eq]
  apply BitVec.eq_of_toNat_eq
  rw [BitVec.toNat_and, BitVec.toNat_setWidth_of_le (by decide)]
  exact (Nat.and_two_pow_sub_one_eq_mod nl.toNat 16).trans (Nat.mod_eq_of_lt nl.isLt)

/-- A write under the mask keeps the reserved bits 0 (R43, R203). -/
theorem CfgRegs.masked_put {c : CfgRegs} (h : c.masked = true) (r : Reg) (v : Word) :
    (c.put r (v &&& (writableMask r).getD 0)).masked = true := by
  simp only [CfgRegs.masked, Bool.and_eq_true] at h ⊢
  cases r with
  | compCfg i => exact ⟨h.1, all_toList_set h.2 (within_and _ _) i⟩
  | _ => simp_all [CfgRegs.put, writableMask, within_and]

/-! ### The commands -/

/-- The form of the data is kept. -/
def KeepsForm (s t : State) : Prop := s.formOk = true → t.formOk = true

theorem keepsForm_ports {p : Ports} (h : s.ports.ok = true → p.ok = true) :
    KeepsForm s { s with ports := p } := fun hs => by
  obtain ⟨hc, hb, hp⟩ := State.formOk_iff.mp hs
  exact State.formOk_iff.mpr ⟨hc, hb, h hp⟩

/-- The form says nothing of the registers other than the configuration. -/
theorem keepsForm_regs (hc : t.cfg = s.cfg) (hx : t.ctx = s.ctx) (hp : t.ports = s.ports) :
    KeepsForm s t := fun hs => by
  rw [State.formOk_iff] at hs ⊢
  rwa [hc, hx, hp]

/-- A stream put back after a read or a write of it. -/
theorem keepsForm_setStream {q : Stream} (h : (s.ports.stream s.bc.stream).ok = true → q.ok = true) :
    KeepsForm s { s with ports := s.ports.setStream s.bc.stream q } :=
  keepsForm_ports fun hp => Ports.ok_setStream hp _ (h (Ports.ok_stream hp _))

theorem ReadStep.ok {k k' : Chan} (h : ReadStep k k') (hk : k.st.ok = true) : k'.st.ok = true := by
  rw [Stream.ok_iff] at hk ⊢
  rw [h.inp, h.unseen]
  exact ⟨h.pos hk.1, hk.2⟩

theorem WriteStep.ok {k k' : Chan} (h : WriteStep k k') (hk : k.st.ok = true) : k'.st.ok = true := by
  rw [Stream.ok_iff] at hk ⊢
  rwa [h.inp, h.unseen, h.pos]

/-- Every part of a command keeps the form of the data. -/
theorem machineFrame_keepsForm : MachineFrame KeepsForm where
  refl _ := id
  trans h g := g ∘ h
  read _ _ h := keepsForm_setStream h.ok
  decode _ _ h := keepsForm_setStream (ReadStep.ok h)
  write _ _ h := keepsForm_setStream h.ok
  encode _ _ h := keepsForm_setStream (WriteStep.ok h)
  cell s a x ha hs := by
    obtain ⟨hc, hb, hp⟩ := State.formOk_iff.mp hs
    exact State.formOk_iff.mpr ⟨hc, bankOk_set hb ha x, hp⟩
  scan _ _ := id
  count s cls tbl sym := keepsForm_ports fun hp => by
    obtain ⟨hs, hc, ht⟩ := Ports.ok_iff.mp hp
    exact Ports.ok_iff.mpr ⟨hs, countsOk_hufCount hc cls tbl sym, ht⟩
  regs _ _ _ _ hc hx hp := keepsForm_regs hc hx hp
  bank s m hm hs := by
    obtain ⟨hc, -, hp⟩ := State.formOk_iff.mp hs
    exact State.formOk_iff.mpr ⟨hc, hm, hp⟩
  block s _ _ _ := keepsForm_ports id
  opened s dir sel := keepsForm_ports fun hp => by
    cases dir with
    | read =>
      have hs := Stream.ok_iff.mp (Ports.ok_stream hp sel)
      exact Ports.ok_setStream hp sel (Stream.ok_iff.mpr ⟨hs.1, Nat.zero_le _⟩)
    | closed | write => exact hp
  marker s sel w := keepsForm_ports fun hp => Ports.ok_setStream hp sel (Ports.ok_stream hp sel)
  result _ _ := id

/-- A register written under its mask (R43, R203). -/
theorem keepsForm_writeReg (s : State) (r : Reg) : KeepsForm s (s.writeReg r) := fun hs => by
  obtain ⟨hc, hb, hp⟩ := State.formOk_iff.mp hs
  exact State.formOk_iff.mpr ⟨CfgRegs.masked_put hc r _, hb, hp⟩

/-- FRAME_HEIGHT written by a DNL segment (R389). -/
theorem keepsForm_setDnl (s : State) (nl : BitVec 16) : KeepsForm s (s.setDnl nl) := fun hs => by
  obtain ⟨hc, hb, hp⟩ := State.formOk_iff.mp hs
  refine State.formOk_iff.mpr ⟨?_, hb, hp⟩
  simp only [CfgRegs.masked, Bool.and_eq_true] at hc ⊢
  obtain ⟨⟨hregs, -⟩, hcomp⟩ := hc
  exact ⟨⟨hregs, within_setWidth nl⟩, hcomp⟩

theorem keepsForm_coreReset (s : State) : KeepsForm s s.coreReset := fun hs => by
  obtain ⟨-, -, hp⟩ := State.formOk_iff.mp hs
  exact State.formOk_iff.mpr ⟨(by decide : CfgRegs.reset.masked = true), rfl, hp⟩

theorem keepsForm_exec {i : Instr} (h : exec i s = .next t) : KeepsForm s t :=
  machineFrame_keepsForm.exec (fun _ => keepsForm_coreReset s) (fun r _ => keepsForm_writeReg s r)
    (fun _ => keepsForm_setDnl) h

/-! ### The step -/

/-- A command runs from the state in which its word was issued (R205). -/
theorem perform_run {a : HostAction} {i : Instr} (h : perform a s = .run i t) : t = s := by
  cases a with
  | exec w =>
    simp only [perform, fetchWord] at h
    split at h <;> cases h
    rfl
  | setOperand | clearCounts | supplyUnits => cases h
  | supplyIn | appendIn | seekIn | setOut =>
    simp only [perform, supplyInput, appendInput, seekInput, setOutput] at h
    split at h <;> cases h
  | installTable =>
    simp only [perform, installTable] at h
    repeat' split at h
    all_goals cases h

/-- Everything a step can do: nothing more to do, an action of the host that settles, or a command. -/
theorem step_next_cases (h : step s = .next t) :
    t = s ∨ ∃ a rest, perform a { s with host := rest } = .settled t ∨
      ∃ i, exec i { s with host := rest } = .next t := by
  unfold step fetch at h
  cases hh : s.host with
  | nil =>
    simp only [hh] at h
    exact .inl (Host.Outcome.next.inj h).symm
  | cons a rest =>
    simp only [hh] at h
    refine .inr ⟨a, rest, ?_⟩
    cases hp : perform a { s with host := rest } with
    | settled u =>
      simp only [hp] at h
      exact .inl (congrArg Fetched.settled (Host.Outcome.next.inj h))
    | refused r => simp only [hp, reduceCtorEq] at h
    | run i u =>
      simp only [hp] at h
      exact .inr ⟨i, perform_run hp ▸ h⟩

/-- Everything an action of the host that settles can do: a word that is no command, or OPERAND and the ports
changed, the ports within their form (R121, R133, R704). -/
theorem perform_settled {a : HostAction} (h : perform a s = .settled t) :
    (∃ w, t = s.illegal w) ∨
      ∃ v p, (s.ports.ok = true → p.ok = true) ∧ t = { s with operand := v, ports := p } := by
  cases a with
  | exec w =>
    simp only [perform, fetchWord] at h
    split at h <;> cases h
    exact .inl ⟨w, rfl⟩
  | setOperand v => cases h; exact .inr ⟨v, _, id, rfl⟩
  | clearCounts =>
    cases h
    refine .inr ⟨s.operand, _, fun hp => ?_, rfl⟩
    obtain ⟨hs, -, ht⟩ := Ports.ok_iff.mp hp
    exact Ports.ok_iff.mpr ⟨hs, countsOk_nil, ht⟩
  | supplyUnits c units =>
    cases h
    refine .inr ⟨s.operand, _, ?_, rfl⟩
    exact id
  | supplyIn sel bytes =>
    simp only [perform, supplyInput] at h
    split at h <;> cases h
    refine .inr ⟨s.operand, _, fun hp => Ports.ok_setStream hp sel (Stream.ok_iff.mpr ⟨?_, ?_⟩), rfl⟩
    · exact Nat.zero_le _
    · split <;> simp
  | appendIn sel bytes =>
    simp only [perform, appendInput] at h
    split at h <;> cases h
    refine .inr ⟨s.operand, _, fun hp => ?_, rfl⟩
    obtain ⟨hpos, hun⟩ := Stream.ok_iff.mp (Ports.ok_stream hp sel)
    refine Ports.ok_setStream hp sel (Stream.ok_iff.mpr ⟨?_, ?_⟩) <;>
      simp only [List.length_append]
    · omega
    · split <;> omega
  | seekIn sel pos =>
    simp only [perform, seekInput] at h
    split at h <;> cases h
    refine .inr ⟨s.operand, _, fun hp => ?_, rfl⟩
    obtain ⟨-, hun⟩ := Stream.ok_iff.mp (Ports.ok_stream hp sel)
    exact Ports.ok_setStream hp sel (Stream.ok_iff.mpr ⟨Nat.min_le_right _ _, hun⟩)
  | setOut sel bytes =>
    rcases setOutput_cases sel bytes s with he | he <;> cases he.symm.trans h
    refine .inr ⟨s.operand, _, ?_, rfl⟩
    exact fun hp => Ports.ok_setStream hp sel (Ports.ok_stream hp sel)
  | installTable cls tbl table =>
    simp only [perform, installTable] at h
    by_cases ht : hufTableOk table = true
    · simp only [ht, Bool.true_eq_false, if_false] at h
      split at h <;> cases h
      exact .inr ⟨s.operand, _, fun hp => Ports.ok_install hp cls tbl ht, rfl⟩
    · simp [ht] at h

end Sys2Proof.Machine

open Sys2Proof Sys2Proof.Machine

/-- Settles O55: a command keeps the form (`keepsForm_exec`), and so does what an action of the host changes, the
ports (`perform_settled`). -/
theorem stepKeepsForm : Obligations.StepKeepsForm := by
  intro s t hs h
  rcases step_next_cases h with rfl | ⟨a, rest, hp | ⟨i, hi⟩⟩
  · exact hs
  · rcases perform_settled hp with ⟨w, rfl⟩ | ⟨v, p, hok, rfl⟩
    · unfold State.illegal
      split <;> exact hs
    · exact keepsForm_ports hok hs
  · exact keepsForm_exec hi hs
end

section
/-!
PROOFS. Which commands write RESULT, OPERAND and the configuration registers (R44, R53, R54, R389).
-/
namespace Sys2Proof.Machine

variable {s t : State}

/-- What is made of OPERAND, RESULT and the configuration is kept by every part of a command but a write of
RESULT. -/
theorem scanFrame_eq {α : Type} (f : State → α)
    (hf : ∀ s t : State, t.operand = s.operand → t.result = s.result → t.cfg = s.cfg → f t = f s) :
    ScanFrame fun s t => f t = f s where
  refl _ := rfl
  trans h g := g.trans h
  read _ _ _ := hf _ _ rfl rfl rfl
  decode _ _ _ := hf _ _ rfl rfl rfl
  write _ _ _ := hf _ _ rfl rfl rfl
  encode _ _ _ := hf _ _ rfl rfl rfl
  cell _ _ _ _ := hf _ _ rfl rfl rfl
  scan _ _ := hf _ _ rfl rfl rfl
  count _ _ _ _ := hf _ _ rfl rfl rfl
  regs _ _ ho hr hc _ _ := hf _ _ ho hr hc
  bank _ _ _ := hf _ _ rfl rfl rfl
  block _ _ _ _ := hf _ _ rfl rfl rfl
  opened _ _ _ := hf _ _ rfl rfl rfl
  marker _ _ _ := hf _ _ rfl rfl rfl

/-- What is made of OPERAND and the configuration is kept by every part of a command. -/
theorem machineFrame_eq {α : Type} (f : State → α)
    (hf : ∀ s t : State, t.operand = s.operand → t.cfg = s.cfg → f t = f s) :
    MachineFrame fun s t => f t = f s where
  toScanFrame := scanFrame_eq f fun s t ho _ hc => hf s t ho hc
  result _ _ := hf _ _ rfl rfl

/-- RESULT is left by every command but those of R53, where it does not end in DEAD. -/
theorem exec_keeps_result {i : Instr} (hi : writesResult i = false) (hd : t.status.state ≠ .dead)
    (h : exec i s = .next t) : t.result = s.result :=
  (scanFrame_eq State.result fun _ _ _ hr _ => hr).exec_of_not_writesResult hi (fun _ _ => rfl)
    (.inl hd) h

/-- OPERAND is left by every command but CORE_RESET (R54). -/
theorem exec_keeps_operand {i : Instr} (hi : i ≠ .coreReset) (h : exec i s = .next t) :
    t.operand = s.operand :=
  (machineFrame_eq State.operand fun _ _ ho _ => ho).exec (fun h => absurd h hi) (fun _ _ => rfl)
    (fun _ _ _ => rfl) h

/-- The configuration is left by every command but CFG_WRITE, CORE_RESET and EP_START_MCU_ROW (R44). -/
theorem exec_keeps_cfg {i : Instr} (hi : i ≠ .coreReset) (hw : ∀ r, i ≠ .cfgWrite r)
    (hd : i ≠ .epStartMcuRow) (h : exec i s = .next t) : t.cfg = s.cfg :=
  (machineFrame_eq State.cfg fun _ _ _ hc => hc).exec (fun h => absurd h hi)
    (fun r h => absurd h (hw r)) (fun h => absurd h hd) h

/-! ### FRAME_HEIGHT (R389) -/

/-- The configuration is kept but for FRAME_HEIGHT, which a DNL segment found may write; and a segment found
stays found. -/
def KeepsButHeight (s t : State) : Prop :=
  (s.status.dnlFound = true → t.status.dnlFound = true) ∧
    (t.cfg = s.cfg ∨
      (t.status.dnlFound = true ∧ t.cfg = { s.cfg with frameHeight := t.cfg.frameHeight }))

theorem keepsButHeight_of_eq (hd : t.status.dnlFound = s.status.dnlFound) (hc : t.cfg = s.cfg) :
    KeepsButHeight s t := ⟨hd.trans, .inl hc⟩

theorem keepsButHeight_trans {u : State} (h : KeepsButHeight s t) (g : KeepsButHeight t u) :
    KeepsButHeight s u := by
  obtain ⟨hd, hc⟩ := h
  obtain ⟨hd', hc'⟩ := g
  refine ⟨hd' ∘ hd, ?_⟩
  rcases hc with hc | ⟨hf, hc⟩ <;> rcases hc' with hc' | ⟨hf', hc'⟩
  · exact .inl (hc'.trans hc)
  · exact .inr ⟨hf', hc ▸ hc'⟩
  · exact .inr ⟨hd' hf, by rw [hc', ← hc]⟩
  · exact .inr ⟨hf', by rw [hc', hc]⟩

theorem readFrame_keepsButHeight : ReadFrame KeepsButHeight where
  refl _ := keepsButHeight_of_eq rfl rfl
  trans := keepsButHeight_trans
  read _ _ _ := keepsButHeight_of_eq rfl rfl
  decode _ _ _ := keepsButHeight_of_eq rfl rfl
  cell _ _ _ _ := keepsButHeight_of_eq rfl rfl
  scan _ _ := keepsButHeight_of_eq rfl rfl

/-- EP_START_MCU_ROW that looks for no DNL marker (R388). -/
theorem startMcuRow_of_not_dnlWanted (h : s.dnlWanted = false) : startMcuRow s = .ok () s.startRow := by
  show (if s.dnlWanted = true then _ else update State.startRow) s = _
  rw [if_neg (by simp [h])]
  rfl

theorem State.startRow_cfg (s : State) : s.startRow.cfg = s.cfg := by
  unfold State.startRow
  split <;> rfl

/-- EP_START_MCU_ROW writes FRAME_HEIGHT only where it looks for a DNL marker, in PARSE, and finds it (R388,
R389). -/
theorem exec_epStartMcuRow_cfg (h : exec .epStartMcuRow s = .next t) :
    t.cfg = s.cfg ∨ (s.status.state = .parse ∧ t.status.dnlFound = true ∧
      t.cfg = { s.cfg with frameHeight := t.cfg.frameHeight }) := by
  cases hw : s.dnlWanted with
  | false =>
    have F := machineFrame_eq State.cfg fun _ _ _ hc => hc
    refine .inl (F.shell h (.inr F.drawn) fun _ => ?_)
    rw [startMcuRow_of_not_dnlWanted hw]
    exact s.startRow_cfg
  | true =>
    have hk : KeepsButHeight s t := readFrame_keepsButHeight.shell h
      (fun _ _ => keepsButHeight_of_eq rfl rfl) (fun _ => keepsButHeight_of_eq rfl rfl)
      (.inr fun _ => keepsButHeight_of_eq rfl rfl) fun _ =>
        keeps_startMcuRow readFrame_keepsButHeight (fun _ _ => ⟨fun _ => rfl, .inr ⟨rfl, rfl⟩⟩)
          (fun _ _ => keepsButHeight_of_eq rfl rfl) (fun _ => keepsButHeight_of_eq rfl rfl) s
    simp only [State.dnlWanted, Bool.and_eq_true, decide_eq_true_eq] at hw
    exact hk.2.imp_right fun hf => ⟨hw.1.1, hf⟩

end Sys2Proof.Machine

open Sys2Proof Sys2Proof.Machine

/-- Settles O51: what every command keeps, and the one command that may write FRAME_HEIGHT. -/
theorem registerWriters : Obligations.RegisterWriters := by
  intro i s t h
  refine ⟨fun hi hd => exec_keeps_result hi hd h, fun hi => exec_keeps_operand hi h, fun hi hw => ?_⟩
  by_cases hd : i = .epStartMcuRow
  · subst hd
    exact (exec_epStartMcuRow_cfg h).imp_right fun hf => ⟨rfl, hf⟩
  · exact .inl (exec_keeps_cfg hi hw hd h)
end

section
/-!
PROOFS. How executions end (R600, R601, R607): from which states they complete in which states, and what holds
of an execution that ends early; with the errors of the channel's and the coder's procedures.
-/
namespace Sys2Proof.Machine

/-- The end of an execution: completed in a state with `Q`, or ended early as `E` says. -/
def Ends {σ α : Type} (E : Exc → σ → Prop) (Q : σ → Prop) : EStateM.Result Exc σ α → Prop
  | .ok _ t => Q t
  | .error e t => E e t

/-- From every state with `P` the execution ends in a state with `Q`, or early as `E` says. -/
def Triple {σ α : Type} (E : Exc → σ → Prop) (P : σ → Prop) (x : EStateM Exc σ α) (Q : σ → Prop) :
    Prop :=
  ∀ s, P s → Ends E Q (x s)

/-- An error that ends a scan: every one but InvalidRestartMarker, which only warns (R600, R608). -/
def Err.fatal (e : Err) : Bool := decide (e ≠ .none) && decide (e ≠ .invalidRestartMarker)

/-- An early end with a fatal error, or one of the model's own stops. -/
def Exc.fatal : Exc → Bool
  | .raise e | .raiseKept e => e.fatal
  | .stop _ => true

section
variable {σ α β : Type} {E : Exc → σ → Prop} {P M Q : σ → Prop}

theorem triple_pure (a : α) : Triple E P (pure a : EStateM Exc σ α) P := fun _ h => h

theorem triple_throw {e : Exc} (h : ∀ s, P s → E e s) : Triple E P (throw e : EStateM Exc σ α) Q := h

theorem triple_bind {x : EStateM Exc σ α} {f : α → EStateM Exc σ β} (hx : Triple E P x M)
    (hf : ∀ a, Triple E M (f a) Q) : Triple E P (x >>= f) Q := by
  intro s hs
  have h := hx s hs
  show Ends E Q (EStateM.bind x f s)
  unfold EStateM.bind
  cases hxs : x s with
  | ok a t => rw [hxs] at h; exact hf a t h
  | error e t => rw [hxs] at h; exact h

/-- A read of the state: what follows may use that the state read has `P`. -/
theorem triple_get {f : σ → EStateM Exc σ β} (h : ∀ s, P s → Triple E P (f s) Q) :
    Triple E P (get >>= f) Q := fun s hs => h s hs s hs

/-- A read of the state, where what follows turns on more of the state read than `P`. -/
theorem triple_get_eq {f : σ → EStateM Exc σ β} (h : ∀ s, P s → Triple E (fun t => t = s) (f s) Q) :
    Triple E P (get >>= f) Q := fun s hs => h s hs s rfl

theorem triple_ite {c : Prop} [Decidable c] {x y : EStateM Exc σ α} (hx : c → Triple E P x Q)
    (hy : ¬ c → Triple E P y Q) : Triple E P (if c then x else y) Q := by
  split
  · exact hx ‹_›
  · exact hy ‹_›

theorem triple_mono {x : EStateM Exc σ α} {P' Q' : σ → Prop} (h : Triple E P x Q)
    (hP : ∀ s, P' s → P s) (hQ : ∀ s, Q s → Q' s) : Triple E P' x Q' := by
  intro s hs
  have h := h s (hP s hs)
  cases hx : x s with
  | ok a t => rw [hx] at h; exact hQ t h
  | error e t => rw [hx] at h; exact h

end

/-! ### The channel and the coder -/

/-- An execution that ends early only with fatal errors. -/
abbrev EndsFatal {σ α : Type} (x : EStateM Exc σ α) : Prop :=
  Triple (fun e _ => e.fatal = true) (fun _ => True) x fun _ => True

/-- `GetBits` meets a marker or the end of the data (R228). -/
theorem endsFatal_getBitsLoop (n : Nat) : ∀ rounds, EndsFatal (getBitsLoop rounds n)
  | 0 => fun _ _ => rfl
  | rounds + 1 => fun k _ => by
    unfold getBitsLoop
    split
    · split
      · rfl
      · split
        · rfl
        · exact endsFatal_getBitsLoop n rounds k.fill trivial
    · trivial

theorem endsFatal_chanGetBits (n : Nat) : EndsFatal (chanGetBits n) :=
  triple_ite (fun _ => triple_bind (endsFatal_getBitsLoop _ 6) fun _ =>
    triple_bind (endsFatal_getBitsLoop _ 6) fun _ => triple_pure _)
    fun _ => endsFatal_getBitsLoop n 6

/-- `ByteOut` raises Internal (R279). -/
theorem endsFatal_byteOut : EndsFatal byteOut := by
  intro k _
  unfold byteOut
  simp only
  split
  · split
    · rfl
    · trivial
  · split <;> trivial

theorem endsFatal_renormE : ∀ rounds, EndsFatal (renormE rounds)
  | 0 => fun _ _ => rfl
  | rounds + 1 => fun k _ => by
    have hb := endsFatal_byteOut { k with qm := k.qm.shift } trivial
    unfold renormE
    simp only
    split
    · cases hx : byteOut { k with qm := k.qm.shift } with
      | error e t => rw [hx] at hb; exact hb
      | ok a t =>
        simp only
        split
        · trivial
        · exact endsFatal_renormE rounds _ trivial
    · split
      · trivial
      · exact endsFatal_renormE rounds _ trivial

theorem endsFatal_renormD : ∀ rounds, EndsFatal (renormD rounds)
  | 0 => fun _ _ => rfl
  | rounds + 1 => fun k _ => by
    unfold renormD
    simp only
    split <;> split
    · trivial
    · exact endsFatal_renormD rounds _ trivial
    · trivial
    · exact endsFatal_renormD rounds _ trivial

/-- A renormalisation with the cell's new value after it (R277, R284). -/
theorem endsFatal_then {α : Type} {x : EStateM Exc Coder Unit} (h : EndsFatal x) (k : Coder) (a : α) :
    Ends (fun e _ => e.fatal = true) (fun _ => True)
      (match x k with | .ok _ k1 => .ok a k1 | .error e k1 => .error e k1) := by
  have h := h k trivial
  cases hx : x k with
  | ok b t => trivial
  | error e t => rw [hx] at h; exact h

theorem endsFatal_encodeDecision (c : CtxCell) (d : Bool) : EndsFatal (encodeDecision c d) := by
  intro k _
  unfold encodeDecision
  simp only
  split
  · split
    · exact endsFatal_then (endsFatal_renormE 16) _ _
    · trivial
  · exact endsFatal_then (endsFatal_renormE 16) _ _

theorem endsFatal_decodeDecision (c : CtxCell) : EndsFatal (decodeDecision c) := by
  intro k _
  unfold decodeDecision
  simp only
  split
  · split
    · exact endsFatal_then (endsFatal_renormD 16) _ _
    · trivial
  · exact endsFatal_then (endsFatal_renormD 16) _ _

theorem endsFatal_qmFlush (final : Bool) : EndsFatal (qmFlush final) := by
  have hm : ∀ f, EndsFatal (modify f : EStateM Exc Coder PUnit) := fun _ _ _ => trivial
  exact triple_bind (hm _) fun _ => triple_bind endsFatal_byteOut fun _ =>
    triple_bind (hm _) fun _ => triple_bind endsFatal_byteOut fun _ => hm _

end Sys2Proof.Machine
end

section
/-!
PROOFS. What coding a unit leaves of the scan (R65, R66, R411, R550): STATUS, the configuration, the counters of
the scan, and the predictors its kind does not have, whatever the residual coding. The errors it raises are fatal.
The frames of Sys2Proof/Laws/Units.lean let a unit write every scan register; the predictors need to know which.
-/
namespace Sys2Proof.Machine

/-- The kinds with PRED_DC (R65). -/
def Kind.hasPredDc (k : Kind) : Bool := decide (k = .seqHuff ∨ k = .seqAc ∨ k = .residualSeq)

/-- The kinds with PRED_DIFF (R66). -/
def Kind.hasPredDiff (k : Kind) : Bool := decide (k = .seqAc ∨ k = .residualAc)

/-- An execution that ended early: the error is fatal, and RST_WARN is as R52 has it. -/
def Raised (e : Exc) (t : State) : Prop := e.fatal = true ∧ t.status.warnOk = true

/-- An execution of a command: from `P` to `Q`, or early as `Raised` says. -/
abbrev Runs {α : Type} (P : State → Prop) (x : Cmd α) (Q : State → Prop) : Prop := Triple Raised P x Q

theorem triple_update {P Q : State → Prop} {f : State → State} (h : ∀ s, P s → Q (f s)) :
    Runs P (update f) Q := h

/-- A property of states in one configuration that speaks of STATUS, the configuration, the counters of the scan
and the predictors its kind does not have. -/
structure CodingInv (cfg : CfgRegs) (P : State → Prop) : Prop where
  cfg_eq : ∀ {s}, P s → s.cfg = cfg
  warn : ∀ {s}, P s → s.status.warnOk = true
  regs : ∀ {s t : State}, P s → t.status = s.status → t.cfg = s.cfg →
    t.scan.mcusToGo = s.scan.mcusToGo → t.scan.mcuInRow = s.scan.mcuInRow →
    t.scan.predDc = s.scan.predDc → t.scan.predDiff = s.scan.predDiff → P t
  predDc : cfg.kind.hasPredDc = true → ∀ {s} c v, P s → P (s.setPredDc c v)
  predDiff : cfg.kind.hasPredDiff = true → ∀ {s} c v, P s → P (s.setPredDiff c v)

variable {cfg : CfgRegs} {P Q : State → Prop}

namespace CodingInv

/-! ### Parts of an execution -/

theorem runs_throw {α : Type} (F : CodingInv cfg P) {e : Exc} (he : e.fatal = true := by rfl) :
    Runs P (throw e : Cmd α) Q := triple_throw fun _ h => ⟨he, F.warn h⟩

/-- A change of the state that leaves what the property speaks of. -/
theorem runs_regs (F : CodingInv cfg P) {f : State → State}
    (hs : ∀ s, (f s).status = s.status := by intro s; rfl)
    (hc : ∀ s, (f s).cfg = s.cfg := by intro s; rfl)
    (hg : ∀ s, (f s).scan.mcusToGo = s.scan.mcusToGo := by intro s; rfl)
    (hr : ∀ s, (f s).scan.mcuInRow = s.scan.mcuInRow := by intro s; rfl)
    (hp : ∀ s, (f s).scan.predDc = s.scan.predDc := by intro s; rfl)
    (hd : ∀ s, (f s).scan.predDiff = s.scan.predDiff := by intro s; rfl) : Runs P (update f) P :=
  fun s h => F.regs h (hs s) (hc s) (hg s) (hr s) (hp s) (hd s)

theorem runs_onChanE {α : Type} (F : CodingInv cfg P) {x : EStateM Exc Chan α} (hx : EndsFatal x) :
    Runs P (onChanE x) P := by
  intro s h
  have hx := hx s.chan trivial
  unfold onChanE
  cases he : x s.chan with
  | ok a k => exact F.regs h rfl rfl rfl rfl rfl rfl
  | error e k => rw [he] at hx; exact ⟨hx, F.warn (s := s) h⟩

theorem runs_onCoder {α : Type} (F : CodingInv cfg P) {x : EStateM Exc Coder α} (hx : EndsFatal x) :
    Runs P (onCoder x) P := by
  intro s h
  have hx := hx s.coder trivial
  unfold onCoder
  cases he : x s.coder with
  | ok a k => exact F.regs h rfl rfl rfl rfl rfl rfl
  | error e k => rw [he] at hx; exact ⟨hx, F.warn (s := s) h⟩

theorem runs_onChanVal {α : Type} (F : CodingInv cfg P) (f : Chan → α × Chan) : Runs P (onChanVal f) P :=
  fun _ h => F.regs h rfl rfl rfl rfl rfl rfl

theorem runs_onChan (F : CodingInv cfg P) (f : Chan → Chan) : Runs P (onChan f) P := F.runs_regs

/-! ### Reading -/

theorem runs_getBits (F : CodingInv cfg P) (n : Nat) : Runs P (getBits n) P :=
  F.runs_onChanE (endsFatal_chanGetBits n)

theorem runs_decodeBit (F : CodingInv cfg P) (a : Nat) : Runs P (decodeBit a) P :=
  triple_get fun _ _ => triple_bind (F.runs_onCoder (endsFatal_decodeDecision _)) fun _ =>
    triple_bind F.runs_regs fun _ => triple_pure _

theorem runs_huffGetLoop (F : CodingInv cfg P) (cls : HufClass) (tbl : Fin 4) :
    ∀ rounds len code, Runs P (huffGetLoop cls tbl rounds len code) P
  | 0, _, _ => F.runs_throw
  | rounds + 1, len, code => by
    refine triple_bind (F.runs_getBits 1) fun b => triple_get fun s _ => ?_
    cases hufMatch (s.ports.table cls tbl) (len + 1) (2 * code + b) with
    | some sym => exact triple_pure sym
    | none => exact F.runs_huffGetLoop cls tbl rounds _ _

theorem runs_huffGet (F : CodingInv cfg P) (cls : HufClass) (tbl : Fin 4) : Runs P (huffGet cls tbl) P :=
  F.runs_huffGetLoop cls tbl 16 0 0

theorem runs_getValue (F : CodingInv cfg P) (n : Nat) : Runs P (getValue n) P :=
  triple_ite (fun _ => triple_pure _) fun _ => triple_bind (F.runs_getBits n) fun _ => triple_pure _

theorem runs_decodeCategory (F : CodingInv cfg P) (X : Nat → Nat) :
    ∀ rounds i, Runs P (decodeCategory X rounds i) P
  | 0, _ => F.runs_throw
  | rounds + 1, i => triple_bind (F.runs_decodeBit _) fun _ =>
      triple_ite (fun _ => F.runs_decodeCategory X rounds (i + 1)) fun _ => triple_pure _

theorem runs_decodeLowBits (F : CodingInv cfg P) (a : Nat) : ∀ n sz, Runs P (decodeLowBits a n sz) P
  | 0, _ => triple_pure _
  | n + 1, _ => triple_bind (F.runs_decodeBit a) fun _ => F.runs_decodeLowBits a n _

theorem runs_decodeMagnitude (F : CodingInv cfg P) (first : Nat) (X M : Nat → Nat) :
    Runs P (decodeMagnitude first X M) P :=
  triple_bind (F.runs_decodeBit first) fun _ => triple_ite
    (fun _ => triple_bind (F.runs_decodeCategory X 15 0) fun i => F.runs_decodeLowBits (M i) i 1)
    fun _ => triple_pure _

theorem runs_getDc (F : CodingInv cfg P) (t : Fin 4) : Runs P (getDc t) P :=
  triple_bind (F.runs_huffGet _ _) fun _ => triple_ite (fun _ => F.runs_throw) fun _ => F.runs_getValue _

theorem runs_applyDc (F : CodingInv cfg P) (hk : cfg.kind.hasPredDc = true) (c : Fin 4) (diff : Int)
    (u : Block) : Runs P (applyDc c diff u) P :=
  triple_bind (triple_update fun _ h => F.predDc hk c _ h) fun _ => triple_get fun _ _ => triple_pure _

theorem runs_huffAcSeqGet (F : CodingInv cfg P) (t : Fin 4) :
    ∀ rounds k u, Runs P (huffAcSeqGet t rounds k u) P
  | 0, _, _ => triple_pure _
  | rounds + 1, k, u => triple_ite (fun _ => triple_pure _) fun _ =>
      triple_bind (F.runs_huffGet _ _) fun _ => triple_ite
        (fun _ => triple_ite (fun _ => F.runs_throw) fun _ =>
          triple_bind (F.runs_getValue _) fun _ => F.runs_huffAcSeqGet t rounds _ _)
        fun _ => triple_ite
          (fun _ => triple_ite (fun _ => F.runs_throw) fun _ => F.runs_huffAcSeqGet t rounds _ _)
          fun _ => triple_ite (fun _ => triple_pure _) fun _ => F.runs_throw

theorem runs_eobRunLength (F : CodingInv cfg P) (r : Nat) : Runs P (eobRunLength r) P :=
  triple_ite (fun _ => triple_pure _) fun _ => triple_bind (F.runs_getBits r) fun _ => triple_pure _

theorem runs_huffAcFirstLoop (F : CodingInv cfg P) (t : Fin 4) (al se : Nat) :
    ∀ rounds k u, Runs P (huffAcFirstLoop t al se rounds k u) P
  | 0, _, _ => triple_pure _
  | rounds + 1, k, u => triple_ite (fun _ => triple_pure _) fun _ =>
      triple_bind (F.runs_huffGet _ _) fun _ => triple_ite
        (fun _ => triple_ite (fun _ => F.runs_throw) fun _ =>
          triple_bind (F.runs_getValue _) fun _ => F.runs_huffAcFirstLoop t al se rounds _ _)
        fun _ => triple_ite
          (fun _ => triple_ite (fun _ => F.runs_throw) fun _ => F.runs_huffAcFirstLoop t al se rounds _ _)
          fun _ => triple_bind (F.runs_eobRunLength _) fun _ => triple_bind F.runs_regs fun _ => triple_pure _

theorem runs_huffAcFirstGet (F : CodingInv cfg P) (t : Fin 4) (u : Block) : Runs P (huffAcFirstGet t u) P :=
  triple_get fun _ _ => triple_ite (fun _ => triple_bind F.runs_regs fun _ => triple_pure _)
    fun _ => F.runs_huffAcFirstLoop t _ _ _ _ _

/-- `DecodeUnit` of SEQ_HUFF (R454). -/
theorem runs_decodeSeqHuff (F : CodingInv cfg P) (hk : cfg.kind = .seqHuff) (c : Fin 4) (u : Block) :
    Runs P (decodeSeqHuff c u) P := by
  refine triple_get fun s _ => ?_
  have hac : ∀ u1, Runs P (if 0 < s.cfg.se then
      if s.cfg.progressive then huffAcFirstGet (s.cfg.actbl c) u1
      else huffAcSeqGet (s.cfg.actbl c) 64 1 u1 else pure u1) P := fun u1 =>
    triple_ite (fun _ => triple_ite (fun _ => F.runs_huffAcFirstGet _ _) fun _ => F.runs_huffAcSeqGet _ _ _ _)
      fun _ => triple_pure _
  exact triple_ite (fun _ => triple_bind (F.runs_getDc _) fun _ =>
      triple_bind (F.runs_applyDc (by rw [hk]; rfl) c _ _) hac)
    fun _ => triple_bind (triple_pure _) hac

theorem runs_qmDcGet (F : CodingInv cfg P) (c : Fin 4) : Runs P (qmDcGet c) P :=
  triple_get fun _ _ => triple_bind (F.runs_decodeBit _) fun _ => triple_ite
    (fun _ => triple_bind (F.runs_decodeBit _) fun _ => triple_bind (F.runs_decodeMagnitude _ _ _) fun _ =>
      triple_pure _)
    fun _ => triple_pure _

theorem runs_qmAcValueGet (F : CodingInv cfg P) (t : Fin 4) (kx k : Nat) : Runs P (qmAcValueGet t kx k) P :=
  triple_bind (F.runs_decodeBit _) fun _ => triple_bind (F.runs_decodeMagnitude _ _ _) fun _ => triple_pure _

theorem runs_qmAcGet (F : CodingInv cfg P) (t : Fin 4) (kx al : Nat) :
    ∀ ks inRun u, Runs P (qmAcGet t kx al ks inRun u) P
  | [], _, _ => triple_ite (fun _ => F.runs_throw) fun _ => triple_pure _
  | k :: rest, inRun, u => by
    have hval : ∀ b : Bool, Runs P (if b then do
          let v ← qmAcValueGet t kx k
          qmAcGet t kx al rest false (setCoef u k (v * 2 ^ al))
        else qmAcGet t kx al rest true u) P := fun b =>
      triple_ite (fun _ => triple_bind (F.runs_qmAcValueGet t kx k) fun _ => F.runs_qmAcGet t kx al rest _ _)
        fun _ => F.runs_qmAcGet t kx al rest _ _
    have heob : ∀ eob : Bool, Runs P (if eob then pure u else do
        let b ← decodeBit (acS0 t k)
        if b then do
          let v ← qmAcValueGet t kx k
          qmAcGet t kx al rest false (setCoef u k (v * 2 ^ al))
        else qmAcGet t kx al rest true u) P := fun _ =>
      triple_ite (fun _ => triple_pure _) fun _ => triple_bind (F.runs_decodeBit _) hval
    exact triple_ite (fun _ => triple_bind (triple_pure _) heob)
      fun _ => triple_bind (F.runs_decodeBit _) heob

/-- `DecodeUnit` of SEQ_AC (R475). -/
theorem runs_decodeSeqAc (F : CodingInv cfg P) (hk : cfg.kind = .seqAc) (c : Fin 4) (u : Block) :
    Runs P (decodeSeqAc c u) P := by
  refine triple_get fun s _ => ?_
  have hac : ∀ u1, Runs P (if 0 < s.cfg.se then
      qmAcGet (s.cfg.actbl c) (s.cfg.kx c) s.cfg.al (band s.cfg.ks s.cfg.se) false
        (clearBand u1 s.cfg.ks s.cfg.se) else pure u1) P := fun u1 =>
    triple_ite (fun _ => F.runs_qmAcGet _ _ _ _ _ _) fun _ => triple_pure _
  exact triple_ite (fun _ => triple_bind (F.runs_qmDcGet c) fun _ =>
      triple_bind (triple_update fun _ h => F.predDiff (by rw [hk]; rfl) c _ h) fun _ =>
      triple_bind (F.runs_applyDc (by rw [hk]; rfl) c _ _) hac)
    fun _ => triple_bind (triple_pure _) hac

theorem runs_correct (F : CodingInv cfg P) (al k : Nat) (u : Block) : Runs P (correct al k u) P :=
  triple_ite (fun _ => triple_pure _) fun _ => triple_bind (F.runs_getBits 1) fun _ => triple_pure _

theorem runs_correctAll (F : CodingInv cfg P) (al : Nat) : ∀ ks u, Runs P (correctAll al ks u) P
  | [], _ => triple_pure _
  | k :: rest, u => triple_bind (F.runs_correct al k u) fun _ => F.runs_correctAll al rest _

theorem runs_refWalk (F : CodingInv cfg P) (al : Nat) : ∀ ks r u, Runs P (refWalk al ks r u) P
  | [], _, _ => F.runs_throw
  | k :: rest, _, u => triple_ite
      (fun _ => triple_ite (fun _ => triple_pure _) fun _ => F.runs_refWalk al rest _ _)
      fun _ => triple_bind (F.runs_correct al k u) fun _ => F.runs_refWalk al rest _ _

theorem runs_refNew (F : CodingInv cfg P) (al s : Nat) : Runs P (refNew al s) P :=
  triple_ite (fun _ => F.runs_throw) fun _ => triple_bind (F.runs_getBits 1) fun _ => triple_pure _

theorem runs_refHuffLoop (F : CodingInv cfg P) (t : Fin 4) (al : Nat) :
    ∀ rounds ks u, Runs P (refHuffLoop t al rounds ks u) P
  | 0, _, _ => triple_pure _
  | _ + 1, [], _ => triple_pure _
  | rounds + 1, k :: rest, u => by
    refine triple_bind (F.runs_huffGet _ _) fun rs => ?_
    have hplace : ∀ nv : Int, Runs P (do
        let w ← refWalk al (k :: rest) (rs.toNat / 16) u
        refHuffLoop t al rounds (refPlace nv w.1 w.2).1 (refPlace nv w.1 w.2).2) P := fun _ =>
      triple_bind (F.runs_refWalk _ _ _ _) fun _ => F.runs_refHuffLoop t al rounds _ _
    exact triple_ite
      (fun _ => triple_bind (F.runs_eobRunLength _) fun _ => triple_bind F.runs_regs fun _ => triple_pure _)
      fun _ => triple_ite (fun _ => triple_bind (F.runs_refNew al _) hplace)
        fun _ => triple_bind (triple_pure _) hplace

theorem runs_refHuffAcGet (F : CodingInv cfg P) (t : Fin 4) (al : Nat) (ks : List Nat) (u : Block) :
    Runs P (refHuffAcGet t al ks u) P := by
  refine triple_get fun s _ => ?_
  have hend : ∀ w : List Nat × Block, Runs P (do
      let s1 ← get
      if s1.scan.eobrun = 0 then pure w.2
      else do
        let u1 ← correctAll al w.1 w.2
        update fun s => s.setEobrun (s.scan.eobrun.toNat - 1)
        pure u1) P := fun _ =>
    triple_get fun _ _ => triple_ite (fun _ => triple_pure _) fun _ =>
      triple_bind (F.runs_correctAll al _ _) fun _ => triple_bind F.runs_regs fun _ => triple_pure _
  exact triple_ite (fun _ => triple_bind (F.runs_refHuffLoop t al _ _ _) hend)
    fun _ => triple_bind (triple_pure _) hend

/-- `DecodeUnit` of REF_HUFF (R506). -/
theorem runs_decodeRefHuff (F : CodingInv cfg P) (c : Fin 4) (u : Block) : Runs P (decodeRefHuff c u) P :=
  triple_get fun _ _ => triple_ite
    (fun _ => triple_bind (F.runs_getBits 1) fun _ => triple_pure _)
    fun _ => F.runs_refHuffAcGet _ _ _ _

theorem runs_refAcGet (F : CodingInv cfg P) (t : Fin 4) (al eobx : Nat) :
    ∀ ks inRun u, Runs P (refAcGet t al eobx ks inRun u) P
  | [], _, _ => triple_ite (fun _ => F.runs_throw) fun _ => triple_pure _
  | k :: rest, inRun, u => by
    have hk : ∀ eob : Bool, Runs P (if eob then pure u
        else if coef u k ≠ 0 then do
          let b ← decodeBit (acSp t k)
          refAcGet t al eobx rest false (if b then setCoef u k (magOr (coef u k) al) else u)
        else do
          let b ← decodeBit (acS0 t k)
          if b then do
            let neg ← decodeBit uniformCtx
            refAcGet t al eobx rest false (setCoef u k (if neg then -(2 ^ al) else 2 ^ al))
          else refAcGet t al eobx rest true u) P := fun _ =>
      triple_ite (fun _ => triple_pure _) fun _ => triple_ite
        (fun _ => triple_bind (F.runs_decodeBit _) fun _ => F.runs_refAcGet t al eobx rest _ _)
        fun _ => triple_bind (F.runs_decodeBit _) fun _ => triple_ite
          (fun _ => triple_bind (F.runs_decodeBit _) fun _ => F.runs_refAcGet t al eobx rest _ _)
          fun _ => F.runs_refAcGet t al eobx rest _ _
    exact triple_ite (fun _ => triple_bind (F.runs_decodeBit _) hk)
      fun _ => triple_bind (triple_pure _) hk

/-- `DecodeUnit` of REF_AC (R522). -/
theorem runs_decodeRefAc (F : CodingInv cfg P) (c : Fin 4) (u : Block) : Runs P (decodeRefAc c u) P :=
  triple_get fun _ _ => triple_ite
    (fun _ => triple_bind (F.runs_decodeBit _) fun _ => triple_pure _)
    fun _ => F.runs_refAcGet _ _ _ _ _ _

/-- `DecodeUnit` of DIFF_LOSSLESS (R542). -/
theorem runs_decodeLossless (F : CodingInv cfg P) (c : Fin 4) (u : Block) : Runs P (decodeLossless c u) P :=
  triple_get fun _ _ => triple_bind (F.runs_huffGet _ _) fun _ => triple_ite (fun _ => F.runs_throw)
    fun _ => triple_ite (fun _ => triple_bind (triple_pure _) fun _ => triple_pure _)
      fun _ => triple_bind (F.runs_getValue _) fun _ => triple_pure _

/-- The reference coding read: it writes the predictor its kind has (R555). -/
theorem runs_referenceGet (F : CodingInv cfg P) (c : Fin 4) : Runs P (referenceGet c) P := by
  refine triple_get fun s hs => ?_
  rw [F.cfg_eq hs]
  refine triple_ite (fun hk => ?_) fun _ => triple_ite (fun hk => ?_) fun _ => ?_
  · exact triple_bind (F.runs_qmDcGet c) fun _ =>
      triple_bind (triple_update fun _ h => F.predDiff (by rw [hk]; rfl) c _ h) fun _ =>
      triple_bind (F.runs_qmAcGet _ _ _ _ _ _) fun _ => triple_pure _
  · exact triple_bind (F.runs_getDc _) fun _ =>
      triple_bind (triple_update fun _ h => F.predDc (by rw [hk]; rfl) c _ h) fun _ =>
      triple_get fun _ _ => triple_bind (F.runs_huffAcSeqGet _ _ _ _) fun _ => triple_pure _
  · exact triple_bind (F.runs_getDc _) fun _ =>
      triple_bind (F.runs_huffAcSeqGet _ _ _ _) fun _ => triple_pure _

/-- PRED_DC written by a residual coding, in whatever kind (R65, R556). -/
theorem runs_residualSetDc (F : CodingInv cfg P) (c : Fin 4) (v : Int) :
    Runs P (update fun t => t.residualSetDc c v) P := fun s hs => by
  show P (if s.cfg.kind = .residualSeq then _ else _)
  split
  next hk => exact F.predDc (by rw [← F.cfg_eq hs, hk]; rfl) c v hs
  next => exact hs

/-- PRED_DIFF written by a residual coding, in whatever kind (R66, R556). -/
theorem runs_residualSetDiff (F : CodingInv cfg P) (c : Fin 4) (v : Int) :
    Runs P (update fun t => t.residualSetDiff c v) P := fun s hs => by
  show P (if s.cfg.kind = .residualAc then _ else _)
  split
  next hk => exact F.predDiff (by rw [← F.cfg_eq hs, hk]; rfl) c v hs
  next => exact hs

theorem runs_getSteps (F : CodingInv cfg P) (c : Fin 4) : ∀ g, Runs P (getSteps c g) P
  | .done _ _ => triple_pure _
  | .malformed => F.runs_throw
  | .symbol _ _ next => triple_bind (F.runs_huffGet _ _) fun v => F.runs_getSteps c (next v)
  | .bits _ next => triple_bind (F.runs_getBits _) fun v => F.runs_getSteps c (next v)
  | .decision _ next => triple_get fun _ _ => triple_ite
      (fun _ => triple_bind (F.runs_decodeBit _) fun d => F.runs_getSteps c (next d))
      fun _ => F.runs_throw
  | .predDc v next => triple_bind (F.runs_residualSetDc c v) fun _ => F.runs_getSteps c next
  | .predDiff v next => triple_bind (F.runs_residualSetDiff c v) fun _ => F.runs_getSteps c next

theorem runs_residualGet (F : CodingInv cfg P) (rc : ResidualCoding) (c : Fin 4) :
    Runs P (residualGet rc c) P := by
  refine triple_get fun s _ => ?_
  cases rc with
  | reference => exact F.runs_referenceGet c
  | other k => exact F.runs_getSteps c _

/-- `DecodeUnit` of the residual kinds (R555). -/
theorem runs_decodeResidual (F : CodingInv cfg P) (rc : ResidualCoding) (c : Fin 4) :
    Runs P (decodeResidual rc c) P :=
  triple_bind (F.runs_residualGet rc c) fun _ => triple_get fun _ _ =>
    triple_bind F.runs_regs fun _ => triple_pure _

/-- `DecodeUnit` (R411). -/
theorem runs_decodeUnit (F : CodingInv cfg P) (rc : ResidualCoding) (c : Fin 4) (u : Block) :
    Runs P (decodeUnit rc c u) P := by
  refine triple_get fun s hs => ?_
  rw [F.cfg_eq hs]
  cases hk : cfg.kind with
  | seqHuff => exact F.runs_decodeSeqHuff hk c u
  | seqAc => exact F.runs_decodeSeqAc hk c u
  | refHuff => exact F.runs_decodeRefHuff c u
  | refAc => exact F.runs_decodeRefAc c u
  | diffLossless => exact F.runs_decodeLossless c u
  | residualAc | residualHuff | residualSeq => exact F.runs_decodeResidual rc c
  | reserved => exact F.runs_throw

/-! ### Writing -/

theorem runs_putBits (F : CodingInv cfg P) (n v : Nat) : Runs P (putBits n v) P := F.runs_onChan _

theorem runs_encodeBit (F : CodingInv cfg P) (a : Nat) (d : Bool) : Runs P (encodeBit a d) P :=
  triple_get fun _ _ => triple_bind (F.runs_onCoder (endsFatal_encodeDecision _ d)) fun _ => F.runs_regs

theorem runs_writeCode (F : CodingInv cfg P) (cls : HufClass) (tbl : Fin 4) (sym : Byte) :
    Runs P (writeCode cls tbl sym) P := by
  refine triple_get fun s _ => ?_
  cases hufLookup (s.ports.table cls tbl) sym with
  | some lc => exact F.runs_putBits _ _
  | none => exact F.runs_throw

theorem runs_huffEncode (F : CodingInv cfg P) (cls : HufClass) (tbl : Fin 4) (sym : Byte) :
    Runs P (huffEncode cls tbl sym) P :=
  triple_get fun _ _ => triple_ite (fun _ => F.runs_regs) fun _ => F.runs_writeCode cls tbl sym

theorem runs_putRaw (F : CodingInv cfg P) (n v : Nat) : Runs P (putRaw n v) P :=
  triple_get fun _ _ => triple_ite (fun _ => triple_pure _) fun _ => F.runs_putBits _ _

theorem runs_putRawBits (F : CodingInv cfg P) : ∀ bs, Runs P (putRawBits bs) P
  | [] => triple_pure _
  | _ :: bs => triple_bind (F.runs_putRaw _ _) fun _ => F.runs_putRawBits bs

theorem runs_putValue (F : CodingInv cfg P) (cls : HufClass) (tbl : Fin 4) (sym : Byte) (v : Int)
    (n : Nat) : Runs P (putValue cls tbl sym v n) P :=
  triple_bind (F.runs_huffEncode _ _ _) fun _ => F.runs_putRaw _ _

theorem runs_repeat {x : Cmd Unit} (hx : Runs P x P) : ∀ n, Runs P (repeatCmd n x) P
  | 0 => triple_pure _
  | n + 1 => triple_bind hx fun _ => runs_repeat hx n

theorem runs_encodeCategory (F : CodingInv cfg P) (sz : Nat) (X : Nat → Nat) :
    ∀ rounds i, Runs P (encodeCategory sz X rounds i) P
  | 0, _ => F.runs_throw
  | rounds + 1, i => triple_ite
      (fun _ => triple_bind (F.runs_encodeBit _ _) fun _ => F.runs_encodeCategory sz X rounds (i + 1))
      fun _ => triple_bind (F.runs_encodeBit _ _) fun _ => triple_pure _

theorem runs_encodeLowBits (F : CodingInv cfg P) (sz a : Nat) : ∀ n, Runs P (encodeLowBits sz a n) P
  | 0 => triple_pure _
  | n + 1 => triple_bind (F.runs_encodeBit a _) fun _ => F.runs_encodeLowBits sz a n

theorem runs_encodeMagnitude (F : CodingInv cfg P) (sz first : Nat) (X M : Nat → Nat) :
    Runs P (encodeMagnitude sz first X M) P :=
  triple_ite (fun _ => F.runs_encodeBit _ _) fun _ => triple_ite (fun _ => F.runs_throw) fun _ =>
    triple_bind (F.runs_encodeBit _ _) fun _ => triple_bind (F.runs_encodeCategory sz X 16 0) fun i =>
      F.runs_encodeLowBits sz (M i) i

theorem runs_rangeCheck (F : CodingInv cfg P) (p : Int → Bool) (vs : List Int) :
    Runs P (rangeCheck p vs) P := triple_ite (fun _ => triple_pure _) fun _ => F.runs_throw

/-- `EmitEOBRun` (R462). -/
theorem runs_emitEobRun (F : CodingInv cfg P) : Runs P emitEobRun P :=
  triple_get fun _ _ => triple_ite (fun _ => triple_pure _) fun _ =>
    triple_bind (F.runs_huffEncode _ _ _) fun _ => triple_bind (F.runs_putRaw _ _) fun _ =>
    triple_bind F.runs_regs fun _ => triple_bind (F.runs_putRawBits _) fun _ => F.runs_regs

theorem runs_huffAcValue (F : CodingInv cfg P) (t : Fin 4) (r : Nat) (v : Int) :
    Runs P (huffAcValue t r v) P :=
  triple_bind (runs_repeat (F.runs_huffEncode _ _ _) _) fun _ => F.runs_putValue _ _ _ _ _

theorem runs_huffAcSeq (F : CodingInv cfg P) (t : Fin 4) : ∀ vs r, Runs P (huffAcSeq t vs r) P
  | [], _ => triple_ite (fun _ => F.runs_huffEncode _ _ _) fun _ => triple_pure _
  | _ :: vs, _ => triple_ite (fun _ => F.runs_huffAcSeq t vs _) fun _ =>
      triple_bind (F.runs_huffAcValue t _ _) fun _ => F.runs_huffAcSeq t vs _

theorem runs_huffAcFirstEnd (F : CodingInv cfg P) : Runs P huffAcFirstEnd P :=
  triple_bind F.runs_regs fun _ => triple_get fun _ _ =>
    triple_ite (fun _ => F.runs_emitEobRun) fun _ => triple_pure _

theorem runs_huffAcFirst (F : CodingInv cfg P) (t : Fin 4) : ∀ vs r, Runs P (huffAcFirst t vs r) P
  | [], _ => triple_ite (fun _ => F.runs_huffAcFirstEnd) fun _ => triple_pure _
  | _ :: vs, _ => triple_ite (fun _ => F.runs_huffAcFirst t vs _) fun _ =>
      triple_bind F.runs_emitEobRun fun _ => triple_bind (F.runs_huffAcValue t _ _) fun _ =>
        F.runs_huffAcFirst t vs _

/-- `EncodeUnit` of SEQ_HUFF (R453). -/
theorem runs_encodeSeqHuff (F : CodingInv cfg P) (hk : cfg.kind = .seqHuff) (c : Fin 4) (u : Block) :
    Runs P (encodeSeqHuff c u) P := by
  refine triple_get fun s _ => ?_
  have hac : Runs P (if 0 < s.cfg.se then
      if s.cfg.progressive then huffAcFirst (s.cfg.actbl c) (bandVals s.cfg.al u s.cfg.ks s.cfg.se) 0
      else huffAcSeq (s.cfg.actbl c) (bandVals s.cfg.al u s.cfg.ks s.cfg.se) 0 else pure ()) P :=
    triple_ite (fun _ => triple_ite (fun _ => F.runs_huffAcFirst _ _ _) fun _ => F.runs_huffAcSeq _ _ _)
      fun _ => triple_pure _
  exact triple_bind (F.runs_rangeCheck _ _) fun _ => triple_bind F.runs_regs fun _ => triple_ite
    (fun _ => triple_bind (F.runs_putValue _ _ _ _ _) fun _ =>
      triple_bind (triple_update fun _ h => F.predDc (by rw [hk]; rfl) c _ h) fun _ => hac)
    fun _ => hac

theorem runs_qmDcPut (F : CodingInv cfg P) (c : Fin 4) (diff : Int) : Runs P (qmDcPut c diff) P := by
  have hmag : ∀ (s : State) neg first, Runs P (do
      encodeBit (s.dcClass c + 1) neg
      encodeMagnitude (diff.natAbs - 1) first (dcX (s.cfg.dctbl c)) (dcM (s.cfg.dctbl c))) P :=
    fun _ _ _ => triple_bind (F.runs_encodeBit _ _) fun _ => F.runs_encodeMagnitude _ _ _ _
  exact triple_get fun s _ => triple_ite (fun _ => F.runs_encodeBit _ _) fun _ =>
    triple_bind (F.runs_encodeBit _ _) fun _ => triple_ite (fun _ => hmag s _ _) fun _ => hmag s _ _

theorem runs_qmAcPut (F : CodingInv cfg P) (t : Fin 4) (kx : Nat) :
    ∀ vs k inRun, Runs P (qmAcPut t kx vs k inRun) P
  | [], _, _ => triple_pure _
  | v :: vs, k, inRun => by
    have hval : Runs P (if v = 0 then do
          encodeBit (acS0 t k) false
          qmAcPut t kx vs (k + 1) true
        else do
          encodeBit (acS0 t k) true
          qmAcValue t kx k v
          qmAcPut t kx vs (k + 1) false) P :=
      triple_ite (fun _ => triple_bind (F.runs_encodeBit _ _) fun _ => F.runs_qmAcPut t kx vs _ _)
        fun _ => triple_bind (F.runs_encodeBit _ _) fun _ =>
          triple_bind (triple_bind (F.runs_encodeBit _ _) fun _ => F.runs_encodeMagnitude _ _ _ _)
            fun _ => F.runs_qmAcPut t kx vs _ _
    exact triple_ite (fun _ => F.runs_encodeBit _ _) fun _ =>
      triple_ite (fun _ => hval) fun _ => triple_bind (F.runs_encodeBit _ _) fun _ => hval

/-- `EncodeUnit` of SEQ_AC (R474). -/
theorem runs_encodeSeqAc (F : CodingInv cfg P) (hk : cfg.kind = .seqAc) (c : Fin 4) (u : Block) :
    Runs P (encodeSeqAc c u) P := by
  refine triple_get fun s _ => ?_
  have hac : Runs P (if 0 < s.cfg.se then qmAcPut (s.cfg.actbl c) (s.cfg.kx c)
      (bandVals s.cfg.al u s.cfg.ks s.cfg.se) s.cfg.ks false else pure ()) P :=
    triple_ite (fun _ => F.runs_qmAcPut _ _ _ _ _) fun _ => triple_pure _
  exact triple_bind (F.runs_rangeCheck _ _) fun _ => triple_ite
    (fun _ => triple_bind (F.runs_qmDcPut c _) fun _ => triple_bind (triple_update fun _ h =>
      F.predDiff (by rw [hk]; rfl) c _ (F.predDc (by rw [hk]; rfl) c _ h)) fun _ => hac)
    fun _ => hac

theorem runs_refZrls (F : CodingInv cfg P) (t : Fin 4) : ∀ n br, Runs P (refZrls t n br) P
  | 0, _ => triple_pure _
  | n + 1, _ => triple_bind F.runs_emitEobRun fun _ => triple_bind (F.runs_huffEncode _ _ _) fun _ =>
      triple_bind (F.runs_putRawBits _) fun _ => F.runs_refZrls t n []

theorem runs_refHuffEnd (F : CodingInv cfg P) (m : Nat) (br : List Bool) : Runs P (refHuffEnd m br) P :=
  triple_bind F.runs_regs fun _ => triple_get fun _ _ =>
    triple_ite (fun _ => F.runs_emitEobRun) fun _ => triple_pure _

theorem runs_refHuffAc (F : CodingInv cfg P) (m : Nat) (t : Fin 4) (al eob : Nat) (u : Block) :
    ∀ ks r br, Runs P (refHuffAc m t al eob u ks r br) P
  | [], _, _ => triple_ite (fun _ => F.runs_refHuffEnd m _) fun _ => triple_pure _
  | _ :: rest, _, _ => triple_ite (fun _ => F.runs_refHuffAc m t al eob u rest _ _) fun _ =>
      triple_bind (F.runs_refZrls t _ _) fun _ => triple_ite
        (fun _ => F.runs_refHuffAc m t al eob u rest _ _) fun _ =>
        triple_bind F.runs_emitEobRun fun _ => triple_bind (F.runs_huffEncode _ _ _) fun _ =>
        triple_bind (F.runs_putRaw _ _) fun _ => triple_bind (F.runs_putRawBits _) fun _ =>
        F.runs_refHuffAc m t al eob u rest _ _

/-- `EncodeUnit` of REF_HUFF (R504). -/
theorem runs_encodeRefHuff (F : CodingInv cfg P) (m : Nat) (c : Fin 4) (u : Block) :
    Runs P (encodeRefHuff m c u) P :=
  triple_get fun _ _ => triple_bind F.runs_regs fun _ => triple_ite (fun _ => F.runs_putRaw _ _)
    fun _ => F.runs_refHuffAc m _ _ _ u _ _ _

theorem runs_refAcPut (F : CodingInv cfg P) (t : Fin 4) (al eobx : Nat) (u : Block) :
    ∀ ks inRun, Runs P (refAcPut t al eobx u ks inRun) P
  | [], _ => triple_pure _
  | k :: rest, inRun => by
    have hval : Runs P (if 2 ≤ refTerm al u k then do
          encodeBit (acSp t k) ((refTerm al u k).testBit 0)
          refAcPut t al eobx u rest false
        else if refTerm al u k = 1 then do
          encodeBit (acS0 t k) true
          encodeBit uniformCtx (decide (coef u k < 0))
          refAcPut t al eobx u rest false
        else do
          encodeBit (acS0 t k) false
          refAcPut t al eobx u rest true) P :=
      triple_ite (fun _ => triple_bind (F.runs_encodeBit _ _) fun _ => F.runs_refAcPut t al eobx u rest _)
        fun _ => triple_ite
          (fun _ => triple_bind (F.runs_encodeBit _ _) fun _ => triple_bind (F.runs_encodeBit _ _) fun _ =>
            F.runs_refAcPut t al eobx u rest _)
          fun _ => triple_bind (F.runs_encodeBit _ _) fun _ => F.runs_refAcPut t al eobx u rest _
    exact triple_ite (fun _ => F.runs_encodeBit _ _) fun _ =>
      triple_ite (fun _ => triple_bind (F.runs_encodeBit _ _) fun _ => hval) fun _ => hval

/-- `EncodeUnit` of REF_AC (R521). -/
theorem runs_encodeRefAc (F : CodingInv cfg P) (c : Fin 4) (u : Block) : Runs P (encodeRefAc c u) P :=
  triple_get fun _ _ => triple_ite (fun _ => F.runs_encodeBit _ _) fun _ => F.runs_refAcPut _ _ _ _ _ _

/-- `EncodeUnit` of DIFF_LOSSLESS (R541). -/
theorem runs_encodeLossless (F : CodingInv cfg P) (c : Fin 4) (u : Block) :
    Runs P (encodeLossless c u) P :=
  triple_get fun _ _ => triple_ite (fun _ => F.runs_huffEncode _ _ _) fun _ => F.runs_putValue _ _ _ _ _

theorem runs_residualHuffPut (F : CodingInv cfg P) (c : Fin 4) (dc : Int) (vs : List Int) :
    Runs P (residualHuffPut c dc vs) P :=
  triple_get fun _ _ => triple_bind (F.runs_putValue _ _ _ _ _) fun _ => F.runs_huffAcSeq _ _ _

/-- The reference coding written: it writes the predictor its kind has (R554). -/
theorem runs_referencePut (F : CodingInv cfg P) (c : Fin 4) (dc : Int) (vs : List Int) :
    Runs P (referencePut c dc vs) P := by
  refine triple_get fun s hs => ?_
  rw [F.cfg_eq hs]
  refine triple_ite (fun hk => ?_) fun _ => triple_ite (fun hk => ?_) fun _ => ?_
  · exact triple_bind (F.runs_qmDcPut c dc) fun _ =>
      triple_bind (triple_update fun _ h => F.predDiff (by rw [hk]; rfl) c _ h) fun _ =>
      F.runs_qmAcPut _ _ _ _ _
  · exact triple_bind (triple_update fun _ h => F.predDc (by rw [hk]; rfl) c _ h) fun _ =>
      F.runs_residualHuffPut c _ _
  · exact F.runs_residualHuffPut c _ _

theorem runs_putStep (F : CodingInv cfg P) (c : Fin 4) : ∀ x, Runs P (putStep c x) P
  | .symbol _ _ _ => F.runs_huffEncode _ _ _
  | .bits _ _ => F.runs_putRaw _ _
  | .decision _ _ => triple_get fun _ _ =>
      triple_ite (fun _ => F.runs_encodeBit _ _) fun _ => F.runs_throw
  | .predDc v => F.runs_residualSetDc c v
  | .predDiff v => F.runs_residualSetDiff c v

theorem runs_putSteps (F : CodingInv cfg P) (c : Fin 4) : ∀ xs, Runs P (putSteps c xs) P
  | [] => triple_pure _
  | x :: xs => triple_bind (F.runs_putStep c x) fun _ => F.runs_putSteps c xs

theorem runs_residualPut (F : CodingInv cfg P) (rc : ResidualCoding) (c : Fin 4) (dc : Int)
    (vs : List Int) : Runs P (residualPut rc c dc vs) P := by
  refine triple_get fun s _ => ?_
  cases rc with
  | reference => exact F.runs_referencePut c dc vs
  | other k => exact F.runs_putSteps c _

/-- `EncodeUnit` of the residual kinds (R554). -/
theorem runs_encodeResidual (F : CodingInv cfg P) (rc : ResidualCoding) (c : Fin 4) (u : Block) :
    Runs P (encodeResidual rc c u) P :=
  triple_get fun _ _ => triple_ite (fun _ => F.runs_throw) fun _ =>
    triple_bind F.runs_regs fun _ => F.runs_residualPut rc c _ _

/-- `EncodeUnit` (R411). -/
theorem runs_encodeUnit (F : CodingInv cfg P) (rc : ResidualCoding) (c : Fin 4) (u : Block) :
    Runs P (encodeUnit rc c u) P := by
  refine triple_get fun s hs => ?_
  rw [F.cfg_eq hs]
  cases hk : cfg.kind with
  | seqHuff => exact F.runs_encodeSeqHuff hk c u
  | seqAc => exact F.runs_encodeSeqAc hk c u
  | refHuff => exact F.runs_encodeRefHuff _ c u
  | refAc => exact F.runs_encodeRefAc c u
  | diffLossless => exact F.runs_encodeLossless c u
  | residualAc | residualHuff | residualSeq => exact F.runs_encodeResidual rc c u
  | reserved => exact F.runs_throw

/-! ### The units of an MCU, and the end of a segment -/

theorem runs_neutral (F : CodingInv cfg P) (u : Block) : Runs P (neutral u) P := by
  refine triple_get fun s _ => ?_
  cases s.cfg.kind with
  | seqHuff | seqAc | refHuff | refAc | diffLossless => exact triple_pure _
  | residualAc | residualHuff | residualSeq | reserved => exact F.runs_throw

theorem runs_request (F : CodingInv cfg P) (c : Fin 4) : Runs P (request c) P := fun s hs => by
  show P (s.request c).2
  unfold State.request
  split <;> exact F.regs hs rfl rfl rfl rfl rfl rfl

/-- A unit coded (R394). -/
theorem runs_codeUnit (F : CodingInv cfg P) (rc : ResidualCoding) (dir : McuDir) (c : Fin 4) :
    Runs P (codeUnit rc dir c) P := by
  have hrel : ∀ v, Runs P (update fun s => s.release c v) P := fun v => F.runs_regs
  refine triple_bind (F.runs_request c) fun u => triple_get fun _ _ => ?_
  cases dir with
  | write =>
    exact triple_ite (fun _ => triple_bind (triple_pure _) hrel) fun _ =>
      triple_bind (F.runs_encodeUnit rc c u) fun _ => triple_bind (triple_pure _) hrel
  | read =>
    exact triple_ite (fun _ => triple_bind (F.runs_decodeUnit rc c u) hrel) fun _ =>
      triple_bind (F.runs_neutral u) hrel

theorem runs_codeUnits (F : CodingInv cfg P) (rc : ResidualCoding) (dir : McuDir) :
    ∀ cs, Runs P (codeUnits rc dir cs) P
  | [] => triple_pure _
  | c :: cs => triple_bind (F.runs_codeUnit rc dir c) fun _ => F.runs_codeUnits rc dir cs

/-- `FlushCoder` (R396). -/
theorem runs_flushCoder (F : CodingInv cfg P) : Runs P flushCoder P := by
  have hflush : ∀ s : State, Runs P (if s.status.state = .write then
      if s.cfg.kind.isQm then onCoder (qmFlush true) else onChan Chan.flush else pure ()) P := fun s =>
    triple_ite (fun _ => triple_ite (fun _ => F.runs_onCoder (endsFatal_qmFlush true))
      fun _ => F.runs_onChan _) fun _ => triple_pure _
  exact triple_get fun s _ => triple_ite (fun _ => triple_bind F.runs_emitEobRun fun _ => hflush s)
    fun _ => hflush s

end CodingInv
end Sys2Proof.Machine
end

section
/-!
PROOFS. The invariants of the scan protocol (R48, R50, R52, R65, R66, R413): every command and every action of the
host keeps them.
-/
namespace Sys2Proof.Machine

variable {s t : State}

/-! ### The invariant in and out of a scan -/

theorem State.protocolOk_iff : s.protocolOk = true ↔ s.status.errOk = true ∧ s.status.warnOk = true ∧
    s.rowOk = true ∧ s.scanOk = true ∧ s.predOk = true := by
  simp only [State.protocolOk, Bool.and_eq_true, and_assoc]

/-- The invariant speaks of STATUS, the scan registers and the configuration. -/
theorem State.protocolOk_congr (hs : t.status = s.status) (hr : t.scan = s.scan) (hc : t.cfg = s.cfg) :
    t.protocolOk = s.protocolOk := by
  simp only [State.protocolOk, State.rowOk, State.scanOk, State.predOk, hs, hr, hc]

/-- Out of a scan it speaks of STATUS alone. -/
theorem State.protocolOk_of_inactive (ha : s.status.state.active = false) (hs : t.status = s.status)
    (h : s.protocolOk = true) : t.protocolOk = true := by
  simp only [State.protocolOk, State.rowOk, State.scanOk, State.predOk, hs, ha, Bool.not_false,
    Bool.true_or, Bool.false_and, Bool.and_true] at h ⊢
  exact h

/-- An error taken (R603): whatever else the state holds. -/
theorem State.protocolOk_raise (hw : s.status.warnOk = true) {e : Err} (he : e.fatal = true) :
    (s.raise e).protocolOk = true := by
  simp only [Err.fatal, Bool.and_eq_true, decide_eq_true_eq] at he
  refine State.protocolOk_iff.mpr ⟨?_, hw, rfl, rfl, rfl⟩
  simp [Status.errOk, State.raise, he.1, he.2]

/-- What a command's execution must do to keep the invariant: an error keeps it by itself (R603, R607). -/
theorem protocolOk_shell {k : Checks} {formed : Bool} {refuses : State → Bool} {body : Cmd Unit}
    (h : runCommand k formed refuses body s = .next t) (hs : s.protocolOk = true)
    (hb : (k.direct = true → s.status.state.active = false) → refuses s = false →
      Ends Raised (fun u => u.protocolOk = true) (body s)) : t.protocolOk = true := by
  have hw : s.status.warnOk = true := (State.protocolOk_iff.mp hs).2.1
  rcases runCommand_next h with ⟨-, -, rfl⟩ | ⟨-, rfl⟩ | rfl | ⟨-, ha, -, hr, hx⟩
  · exact hs
  · exact State.protocolOk_raise hw rfl
  · exact State.protocolOk_raise hw rfl
  · have hb := hb ha hr
    rcases settle_next hx with he | ⟨e, u, he, rfl⟩ | ⟨e, u, he, rfl⟩ <;> rw [he] at hb
    · exact hb
    · exact State.protocolOk_raise (s := u.drawn) hb.2 hb.1
    · exact State.protocolOk_raise (s := u.dropUnit) hb.2 hb.1

/-! ### Between a command's start and its end -/

/-- A state that a command out of a scan leads to: STATUS and the configuration are as they were. -/
def AtRest (s₀ s : State) : Prop := s.status = s₀.status ∧ s.cfg = s₀.cfg

theorem codingInv_atRest {s₀ : State} (h : s₀.protocolOk = true) : CodingInv s₀.cfg (AtRest s₀) where
  cfg_eq hs := hs.2
  warn hs := hs.1 ▸ (State.protocolOk_iff.mp h).2.1
  regs hs ht hc _ _ _ _ := ⟨ht.trans hs.1, hc.trans hs.2⟩
  predDc _ _ _ _ hs := hs
  predDiff _ _ _ _ hs := hs

/-- A state in a scan in the configuration `cfg` and the parser state `st`: the invariant's parts there. -/
structure InScan (cfg : CfgRegs) (st : ScanState) (s : State) : Prop where
  active : st.active = true
  valid : cfg.valid = true
  cfg_eq : s.cfg = cfg
  state_eq : s.status.state = st
  err : s.status.err = .none
  warn : s.status.warnOk = true
  row : s.status.rowActive = false ∨ s.scan.mcuInRow.toNat < cfg.mcusPerRow
  toGo : s.scan.mcusToGo.toNat ≤ cfg.effRI
  seg : s.status.segValid = true ∨ (st = .parse ∧ cfg.kind.isResidual = false)
  predDc : cfg.kind.hasPredDc = true ∨ s.scan.predDc = ScanRegs.reset.predDc
  predDiff : cfg.kind.hasPredDiff = true ∨ s.scan.predDiff = ScanRegs.reset.predDiff

theorem State.predOk_eq (s : State) : s.predOk = (!s.status.state.active ||
    ((s.cfg.kind.hasPredDc || decide (s.scan.predDc = ScanRegs.reset.predDc)) &&
      (s.cfg.kind.hasPredDiff || decide (s.scan.predDiff = ScanRegs.reset.predDiff)))) := rfl

/-- In a scan the invariant is `InScan`. -/
theorem State.protocolOk_iff_inScan (ha : s.status.state.active = true) :
    s.protocolOk = true ↔ InScan s.cfg s.status.state s := by
  have hd : s.status.state ≠ .dead := by intro h; rw [h] at ha; cases ha
  simp only [State.protocolOk_iff, Status.errOk, State.rowOk, State.scanOk, State.predOk_eq, ha, hd]
  simp only [decide_false, ne_eq, decide_not, Bool.false_beq, Bool.not_not, Bool.and_eq_true,
    decide_eq_true_eq, Bool.not_eq_eq_eq_not, Bool.not_true, decide_eq_false_iff_not, Bool.false_or,
    Bool.true_and, Bool.or_eq_true]
  constructor
  · rintro ⟨⟨he, -⟩, hw, hr, ⟨⟨hv, hg⟩, hseg⟩, hdc, hdiff⟩
    exact ⟨ha, hv, rfl, rfl, he, hw, hr, hg, hseg, hdc, hdiff⟩
  · intro h
    exact ⟨⟨h.err, by simp [h.err]⟩, h.warn, h.row, ⟨⟨h.valid, h.toGo⟩, h.seg⟩, h.predDc, h.predDiff⟩

variable {cfg : CfgRegs} {st : ScanState}

theorem InScan.protocolOk (h : InScan cfg st s) : s.protocolOk = true := by
  obtain rfl := h.cfg_eq
  obtain rfl := h.state_eq
  exact (State.protocolOk_iff_inScan h.active).mpr h

/-- Coding a unit stays in the scan. -/
theorem codingInv_inScan : CodingInv cfg (InScan cfg st) where
  cfg_eq h := h.cfg_eq
  warn h := h.warn
  regs h hs hc hg hr hp hd :=
    { h with
      cfg_eq := hc.trans h.cfg_eq
      state_eq := hs ▸ h.state_eq
      err := hs ▸ h.err
      warn := hs ▸ h.warn
      row := by rw [hs, hr]; exact h.row
      toGo := hg ▸ h.toGo
      seg := hs ▸ h.seg
      predDc := hp ▸ h.predDc
      predDiff := hd ▸ h.predDiff }
  predDc hk _ _ _ h := { h with predDc := .inl hk }
  predDiff hk _ _ _ h := { h with predDiff := .inl hk }

/-! ### Starts and restarts (R385, R386, R400) -/

/-- `OpenCoder` changes the coder and the channel (R386). -/
theorem State.openCoder_regs (s : State) :
    s.openCoder.status = s.status ∧ s.openCoder.cfg = s.cfg ∧ s.openCoder.scan = s.scan := by
  have hread : s.openRead.status = s.status ∧ s.openRead.cfg = s.cfg ∧ s.openRead.scan = s.scan := by
    unfold State.openRead
    simp only
    split <;> simp
  have hwrite : s.openWrite.status = s.status ∧ s.openWrite.cfg = s.cfg ∧ s.openWrite.scan = s.scan := by
    unfold State.openWrite
    simp only
    split <;> simp
  unfold State.openCoder
  split
  · exact hread
  · exact hwrite
  all_goals exact ⟨rfl, rfl, rfl⟩

theorem InScan.openCoder (h : InScan cfg st s) : InScan cfg st s.openCoder := by
  obtain ⟨hs, hc, hr⟩ := s.openCoder_regs
  exact codingInv_inScan.regs h hs hc (by rw [hr]) (by rw [hr]) (by rw [hr]) (by rw [hr])

/-- A start with a valid configuration (R385). -/
theorem inScan_started (s : State) (ha : st.active = true) (hv : s.cfg.valid = true) :
    InScan s.cfg st (s.started st) where
  active := ha
  valid := hv
  cfg_eq := rfl
  state_eq := rfl
  err := rfl
  warn := rfl
  row := .inl rfl
  toGo := Nat.mod_le _ _
  seg := .inl rfl
  predDc := .inr rfl
  predDiff := .inr rfl

theorem InScan.restart (h : InScan cfg st s) : InScan cfg st s.restart := by
  have hr : InScan cfg st s.segmentReset := { h with predDc := .inr rfl, predDiff := .inr rfl }
  unfold State.restart State.reopen
  split
  · exact hr
  · exact hr.openCoder

theorem InScan.nextSegment (h : InScan cfg st s) : InScan cfg st s.nextSegment :=
  { h with toGo := h.cfg_eq ▸ Nat.mod_le _ _ }

theorem CfgRegs.effRI_lt (c : CfgRegs) : c.effRI < 2 ^ 16 := by
  unfold CfgRegs.effRI
  split
  · decide
  · exact Nat.mod_lt _ (by decide)

theorem CfgRegs.not_residual_of_effRI (h : cfg.effRI ≠ 0) : cfg.kind.isResidual = false := by
  unfold CfgRegs.effRI CfgRegs.routed at h
  cases hr : cfg.kind.isResidual
  · rfl
  · simp [hr] at h

/-- A segment begun: MCUs may be counted down (R402, R404). -/
def Counting (cfg : CfgRegs) (st : ScanState) (s : State) : Prop :=
  InScan cfg st s ∧ s.scan.mcusToGo ≠ 0

theorem State.restart_mcusToGo (s : State) : s.restart.scan.mcusToGo = s.scan.mcusToGo := by
  unfold State.restart State.reopen
  split
  · rfl
  · rw [(s.segmentReset.openCoder_regs).2.2]
    rfl

theorem runs_nextSegment (hri : cfg.effRI ≠ 0) :
    Runs (InScan cfg st) (update fun s => s.nextSegment.restart) (Counting cfg st) := by
  intro s h
  refine ⟨h.nextSegment.restart, fun h0 => hri ?_⟩
  rw [State.restart_mcusToGo, State.nextSegment_scan, h.cfg_eq] at h0
  have h0' : cfg.effRI % 2 ^ 16 = 0 := congrArg BitVec.toNat h0
  rwa [Nat.mod_eq_of_lt cfg.effRI_lt] at h0'

/-- `WriteRestart` (R402). -/
theorem runs_writeRestart (hri : cfg.effRI ≠ 0) : Runs (InScan cfg st) writeRestart (Counting cfg st) := by
  refine triple_bind codingInv_inScan.runs_flushCoder fun _ =>
    triple_bind (M := InScan cfg st) (triple_update fun s h => ?_) fun _ => runs_nextSegment hri
  split
  · exact codingInv_inScan.regs h rfl rfl rfl rfl rfl rfl
  · exact h

theorem Status.warnOk_warn (t : Status) : t.warn.warnOk = true := by
  have h : t.warn.rstErrCnt ≠ 0 := by
    unfold Status.warn
    simp only
    split
    · decide
    · bv_omega
  show (true == decide (t.warn.rstErrCnt ≠ 0)) = true
  rw [decide_eq_true h]
  rfl

theorem runs_skipWord {P : State → Prop} (F : CodingInv cfg P) : Runs P skipWord P := F.runs_onChan _

/-- `ReadRestart`'s search: it says whether the segment is valid, and warns (R404, R608). -/
theorem runs_findRestart (hk : cfg.kind.isResidual = false) (e : BitVec 3) :
    ∀ rounds first, Runs (InScan cfg .parse) (findRestart e rounds first) (InScan cfg .parse)
  | 0, _ => codingInv_inScan.runs_throw
  | rounds + 1, first => by
    have hskip : Runs (InScan cfg .parse) skipWord (InScan cfg .parse) := runs_skipWord codingInv_inScan
    have hseg : ∀ v, Runs (InScan cfg .parse) (update fun s => s.setSegValid v) (InScan cfg .parse) :=
      fun v s h => { h with seg := .inr ⟨rfl, hk⟩ }
    have hwarn : Runs (InScan cfg .parse) (update State.warn) (InScan cfg .parse) :=
      fun s h => { h with warn := s.status.warnOk_warn }
    have hrest : ∀ m : BitVec 16, Runs (InScan cfg .parse)
        (if m = rstMarker (e - 1) ∨ m = rstMarker (e - 2) then do
          skipWord
          findRestart e rounds false
        else do
          update fun s => s.setSegValid false
          if isRstMarker m = true ∧ m ≠ rstMarker (e + 1) ∧ m ≠ rstMarker (e + 2) then skipWord
          else pure ()) (InScan cfg .parse) := fun m => triple_ite
      (fun _ => triple_bind hskip fun _ => runs_findRestart hk e rounds false)
      fun _ => triple_bind (hseg false) fun _ => triple_ite (fun _ => hskip) fun _ => triple_pure _
    exact triple_bind (codingInv_inScan.runs_onChanVal _) fun m =>
      triple_ite (fun _ => triple_bind hskip fun _ => hseg true) fun _ =>
        triple_ite (fun _ => triple_bind hwarn fun _ => hrest m) fun _ => hrest m

/-- `ReadRestart` (R404). -/
theorem runs_readRestart (hri : cfg.effRI ≠ 0) :
    Runs (InScan cfg .parse) readRestart (Counting cfg .parse) :=
  triple_get fun _ _ => triple_bind (runs_findRestart (CfgRegs.not_residual_of_effRI hri) _ _ _) fun _ =>
    runs_nextSegment hri

/-! ### MCUs (R392-R395) -/

/-- Which parser states code MCUs in a direction (R390, R391). -/
def McuDir.codes : McuDir → ScanState → Prop
  | .read, st => st = .parse
  | .write, _ => True

/-- An MCU counted down (R392, R393). -/
theorem InScan.countMcu (h : InScan cfg st s) (h0 : s.scan.mcusToGo ≠ 0) : InScan cfg st s.countMcu := by
  refine { h with toGo := Nat.le_trans ?_ h.toGo }
  show (s.scan.mcusToGo - 1).toNat ≤ s.scan.mcusToGo.toNat
  bv_omega

/-- The restart cadence (R392, R393). -/
theorem runs_beginMcu {dir : McuDir} (hd : dir.codes st) :
    Runs (InScan cfg st) (beginMcu dir) (InScan cfg st) := by
  have hcount : Runs (Counting cfg st) (update State.countMcu) (InScan cfg st) :=
    fun s h => h.1.countMcu h.2
  refine triple_get_eq fun s h => triple_ite (fun _ => ?_) fun hri => triple_ite (fun _ => ?_) fun h0 => ?_
  · exact triple_mono (triple_pure _) (fun _ => id) fun t ht => ht ▸ h
  · rw [h.cfg_eq] at hri
    have hin : ∀ t, t = s → InScan cfg st t := fun t ht => ht ▸ h
    cases dir with
    | read =>
      obtain rfl : st = .parse := hd
      exact triple_bind (triple_mono (runs_readRestart hri) hin fun _ => id) fun _ => hcount
    | write => exact triple_bind (triple_mono (runs_writeRestart hri) hin fun _ => id) fun _ => hcount
  · exact triple_mono hcount (fun t ht => ht ▸ ⟨h, h0⟩) fun _ => id

/-- The end of an MCU: the next place of the row, or the row's end (R394, R395). -/
theorem InScan.endMcu (h : InScan cfg st s) : InScan cfg st s.endMcu := by
  show InScan cfg st (if (s.scan.mcuInRow + 1).toNat < s.cfg.mcusPerRow then _ else _)
  split
  next hn => exact { h with row := .inr (h.cfg_eq ▸ hn) }
  next => exact { h with row := .inl rfl }

/-- An MCU (R394). -/
theorem runs_mcu (rc : ResidualCoding) {dir : McuDir} (hd : dir.codes st) :
    Runs (InScan cfg st) (mcu rc dir) (InScan cfg st) :=
  triple_bind (runs_beginMcu hd) fun _ => triple_get fun _ _ =>
    triple_bind (codingInv_inScan.runs_codeUnits rc dir _) fun _ => triple_update fun _ h => h.endMcu

/-! ### The end of a scan (R397, R398) -/

theorem InScan.protocolOk_flushed (h : InScan cfg st s) : s.flushed.protocolOk = true := by
  refine State.protocolOk_iff.mpr ⟨?_, h.warn, rfl, rfl, rfl⟩
  simp [Status.errOk, h.err]

/-- EP_FLUSH (R397). -/
theorem runs_epFlush : Runs (InScan cfg st) epFlush fun t => t.protocolOk = true := by
  have F : CodingInv cfg (InScan cfg st) := codingInv_inScan
  have hdone : Runs (InScan cfg st) (update State.flushed) fun t => t.protocolOk = true :=
    fun _ h => h.protocolOk_flushed
  exact triple_get fun _ _ => triple_ite
    (fun _ => triple_bind (F.runs_onChanVal _) fun _ => triple_bind F.runs_regs fun _ => hdone)
    fun _ => triple_bind F.runs_flushCoder fun _ =>
      triple_ite (fun _ => triple_bind (M := InScan cfg st) F.runs_throw fun _ => hdone) fun _ => hdone

/-- EP_RESTART (R398). -/
theorem runs_epRestart : Runs (InScan cfg st) epRestart (InScan cfg st) := by
  have hdone : Runs (InScan cfg st) (update State.restart) (InScan cfg st) := fun _ h => h.restart
  exact triple_get fun _ _ => triple_ite (fun _ => hdone) fun _ =>
    triple_bind codingInv_inScan.runs_flushCoder fun _ => hdone

/-! ### Rows (R388, R389) -/

/-- A state of a scan in which the invariant holds. -/
def Scanning (s : State) : Prop := s.status.state.active = true ∧ s.protocolOk = true

theorem Scanning.congr (h : Scanning s) (hs : t.status = s.status) (hr : t.scan = s.scan)
    (hc : t.cfg = s.cfg) : Scanning t :=
  ⟨hs ▸ h.1, (State.protocolOk_congr hs hr hc).trans h.2⟩

theorem Scanning.raised (h : Scanning s) {e : Exc} (he : e.fatal = true) : Raised e s :=
  ⟨he, (State.protocolOk_iff.mp h.2).2.1⟩

/-- FRAME_HEIGHT and DNL_FOUND are no part of the invariant. -/
theorem Scanning.setDnl (h : Scanning s) (nl : BitVec 16) : Scanning (s.setDnl nl) := h

theorem CfgRegs.mcusPerRow_pos (h : cfg.valid = true) : 0 < cfg.mcusPerRow := by
  simp only [CfgRegs.valid, Bool.and_eq_true, decide_eq_true_eq] at h
  omega

/-- A row begun is not full (R388). -/
theorem Scanning.nextRow (h : Scanning s) : Scanning s.nextRow := by
  have hs := (State.protocolOk_iff_inScan h.1).mp h.2
  have hn : InScan s.cfg s.status.state s.nextRow := { hs with row := .inr (CfgRegs.mcusPerRow_pos hs.valid) }
  exact ⟨h.1, hn.protocolOk⟩

theorem runs_takeWord : Runs Scanning takeWord Scanning := by
  refine triple_bind (M := Scanning) (fun s h => h.congr rfl rfl rfl) fun w => ?_
  cases w with
  | some w => exact triple_pure w
  | none => exact triple_throw fun _ h => h.raised rfl

/-- `ParseDNL` (R389). -/
theorem runs_parseDnl : Runs Scanning parseDnl Scanning := by
  have hthrow : Runs Scanning (throw (.raise .malformedStream) : Cmd Unit) Scanning :=
    triple_throw fun _ h => h.raised rfl
  exact triple_bind (M := Scanning) (triple_update fun s h => h.congr rfl rfl rfl) fun _ =>
    triple_bind runs_takeWord fun _ => triple_ite (fun _ => hthrow) fun _ =>
    triple_bind runs_takeWord fun _ => triple_ite (fun _ => hthrow) fun _ => fun _ h => h.setDnl _

/-- EP_START_MCU_ROW (R388). -/
theorem runs_startMcuRow : Runs Scanning startMcuRow Scanning := by
  have hres : Runs Scanning (update fun s => s.setResult 0) Scanning := fun s h => h.congr rfl rfl rfl
  have hstart : Runs Scanning (update State.startRow) Scanning := triple_update fun s h => by
    unfold State.startRow
    split
    · exact h.congr rfl rfl rfl
    · exact h.nextRow
  exact triple_get fun _ _ => triple_ite
    (fun _ => triple_ite (fun _ => hres) fun _ =>
      triple_bind (M := Scanning) (triple_update fun s h => h.congr rfl rfl rfl) fun _ =>
      triple_get fun _ _ => triple_ite (fun _ => triple_bind runs_parseDnl fun _ => hres) fun _ => hstart)
    fun _ => hstart

/-! ### The commands -/

/-- A command out of a scan whose execution leaves STATUS and the configuration. -/
theorem protocolOk_direct {refuses : State → Bool} {formed : Bool} {body : Cmd Unit}
    (h : runCommand .directly formed refuses body s = .next t) (hs : s.protocolOk = true)
    (hb : Runs (AtRest s) body (AtRest s)) : t.protocolOk = true :=
  protocolOk_shell h hs fun ha _ => triple_mono hb (fun _ => id)
    (fun _ hu => State.protocolOk_of_inactive (ha rfl) hu.1 hs) s ⟨rfl, rfl⟩

/-- A start (R381–R385). -/
theorem protocolOk_start {st : ScanState} (hst : st.active = true)
    (h : runCommand .always true startRefuses (update fun s => (s.started st).openCoder) s = .next t)
    (hs : s.protocolOk = true) : t.protocolOk = true :=
  protocolOk_shell h hs fun _ hr => by
    simp only [startRefuses, Bool.or_eq_false_iff, Bool.not_eq_false'] at hr
    exact (inScan_started s hst hr.2).openCoder.protocolOk

/-- A command of a scan whose execution leads from the scan to states with the invariant. -/
theorem protocolOk_scan {refuses : State → Bool} {body : Cmd Unit}
    (h : runCommand .live true refuses body s = .next t) (hs : s.protocolOk = true)
    (ha : refuses s = false → s.status.state.active = true)
    (hb : refuses s = false → Runs (InScan s.cfg s.status.state) body fun u => u.protocolOk = true) :
    t.protocolOk = true :=
  protocolOk_shell h hs fun _ hr => hb hr s ((State.protocolOk_iff_inScan (ha hr)).mp hs)

theorem State.frameType_regs (s : State) :
    s.frameType.status = s.status ∧ s.frameType.scan = s.scan ∧ s.frameType.cfg = s.cfg := by
  have hput : ∀ m, (s.putFrame m).status = s.status ∧ (s.putFrame m).scan = s.scan ∧
      (s.putFrame m).cfg = s.cfg := fun m => by
    unfold State.putFrame
    split <;> simp
  unfold State.frameType
  split
  · exact hput _
  · exact hput _

/-- A value returned to RESULT by an execution out of a scan. -/
theorem runs_toResult {P : State → Prop} (F : CodingInv cfg P) {α : Type} {x : Cmd α} (hx : Runs P x P)
    (f : α → Word) : Runs P (do let v ← x; update fun s => s.setResult (f v)) P :=
  triple_bind hx fun _ => F.runs_regs

/-- Every command keeps the invariants of the scan protocol. -/
theorem protocolOk_exec {i : Instr} (hs : s.protocolOk = true) (h : exec i s = .next t) :
    t.protocolOk = true := by
  have F : CodingInv s.cfg (AtRest s) := codingInv_atRest hs
  cases i with
  | nop => exact protocolOk_shell h hs fun _ _ => hs
  | coreReset =>
    exact protocolOk_shell h hs fun _ _ => (by decide : State.reset.protocolOk = true)
  | cfgWrite r =>
    refine protocolOk_shell h hs fun _ hr => ?_
    simp only [cfgWriteRefuses, Bool.or_eq_false_iff] at hr
    exact State.protocolOk_of_inactive (t := s.writeReg r) hr.2 rfl hs
  | cfgRead r => exact protocolOk_shell h hs fun _ _ => hs
  | bcOpenRead mode sel => exact protocolOk_direct h hs F.runs_regs
  | bcOpenWrite mode sel => exact protocolOk_direct h hs F.runs_regs
  | bcGetBits n => exact protocolOk_direct h hs (runs_toResult F (F.runs_getBits _) _)
  | bcPutBits n => exact protocolOk_direct h hs (F.runs_putBits _ _)
  | bcFlush => exact protocolOk_direct h hs (F.runs_onChan _)
  | bcSkipStuffing => exact protocolOk_direct h hs (F.runs_onChan _)
  | bcFindMarker => exact protocolOk_direct h hs (runs_toResult F (F.runs_onChanVal _) _)
  | bcGetByteZ => exact protocolOk_direct h hs (runs_toResult F (F.runs_onChanVal _) _)
  | qmInitEnc => exact protocolOk_direct h hs F.runs_regs
  | qmInitDec => exact protocolOk_direct h hs F.runs_regs
  | qmEncode ctx d => exact protocolOk_direct h hs (F.runs_encodeBit _ d)
  | qmDecode ctx => exact protocolOk_direct h hs (runs_toResult F (F.runs_decodeBit _) _)
  | qmFlush final => exact protocolOk_direct h hs (F.runs_onCoder (endsFatal_qmFlush final))
  | ctxInit ctx index mps => exact protocolOk_direct h hs F.runs_regs
  | ctxRead ctx =>
    exact protocolOk_shell (show execCtxRead ctx s = .next t from h) hs fun _ _ => hs
  | ctxResetAll => exact protocolOk_direct h hs F.runs_regs
  | hufPut cls tbl sym => exact protocolOk_direct h hs (F.runs_writeCode cls tbl sym)
  | hufGet cls tbl => exact protocolOk_direct h hs (runs_toResult F (F.runs_huffGet cls tbl) _)
  | hufCount cls tbl sym => exact protocolOk_direct h hs F.runs_regs
  | epStartParse => exact protocolOk_start rfl h hs
  | epStartWrite => exact protocolOk_start rfl h hs
  | epStartMeasure => exact protocolOk_start rfl h hs
  | epStartMcuRow =>
    refine protocolOk_shell h hs fun _ hr => ?_
    simp only [rowRefuses, Bool.or_eq_false_iff, Bool.not_eq_false'] at hr
    exact triple_mono runs_startMcuRow (fun _ => id) (fun _ hu => hu.2) s ⟨hr.1, hs⟩
  | epParseMcu =>
    have hst : parseMcuRefuses s = false → s.status.state = .parse := fun hr => by
      simp only [parseMcuRefuses, Bool.or_eq_false_iff, decide_eq_false_iff_not, Decidable.not_not] at hr
      exact hr.1
    exact protocolOk_scan h hs (fun hr => by rw [hst hr]; rfl) fun hr =>
      triple_mono (runs_mcu _ (dir := .read) (hst hr)) (fun _ => id) fun _ hu => hu.protocolOk
  | epWriteMcu =>
    have hst : writeMcuRefuses s = false → s.status.state.active = true := fun hr => by
      simp only [writeMcuRefuses, Bool.or_eq_false_iff, Bool.not_eq_false', Bool.or_eq_true,
        decide_eq_true_eq] at hr
      rcases hr.1 with hw | hm
      · rw [hw]; rfl
      · rw [hm]; rfl
    exact protocolOk_scan h hs hst fun _ =>
      triple_mono (runs_mcu _ (dir := .write) trivial) (fun _ => id) fun _ hu => hu.protocolOk
  | epFlush =>
    exact protocolOk_scan h hs (fun hr => by simpa [noScan] using hr) fun _ => runs_epFlush
  | epRestart =>
    refine protocolOk_scan h hs (fun hr => ?_) fun _ =>
      triple_mono runs_epRestart (fun _ => id) fun _ hu => hu.protocolOk
    simp only [restartRefuses, noScan, Bool.or_eq_false_iff, Bool.not_eq_false'] at hr
    exact hr.1
  | epWriteFrameType =>
    obtain ⟨h1, h2, h3⟩ := s.frameType_regs
    exact protocolOk_shell h hs fun _ _ => (State.protocolOk_congr h1 h2 h3).trans hs

end Sys2Proof.Machine

open Sys2Proof Sys2Proof.Machine

/-- Settles O56: a command keeps the invariants (`protocolOk_exec`), and an action of the host changes nothing
they speak of, but by the error of a word that is no command. -/
theorem stepKeepsProtocol : Obligations.StepKeepsProtocol := by
  intro s t hs h
  have hp : s.protocolOk = true := hs.2.1
  rcases step_next_cases h with rfl | ⟨a, rest, hset | ⟨i, hi⟩⟩
  · exact hp
  · rcases perform_settled hset with ⟨w, rfl⟩ | ⟨v, p, -, rfl⟩
    · unfold State.illegal
      split
      · exact hp
      · exact State.protocolOk_raise (State.protocolOk_iff.mp hp).2.1 rfl
    · exact hp
  · exact protocolOk_exec (s := { s with host := rest }) hp hi
end

section
/-!
PROOFS. Command words: decoding inverts encoding, and what the decoder answers on every word (R160–R174).
-/
namespace Sys2Proof

open Laws.Encoding (opcodeOf opcode_append)

/-! ### Checks and fields of a word written from a format (R161–R169, R172) -/

/-- The opcode field of a command's word is the opcode of its row (R160, R171). -/
theorem opcode_encode (i : Instr) : opcode (encode i) = opcodeOf i := by
  cases i <;> exact opcode_append _ _

section
variable {op n : BitVec 6} {reg sym ms : BitVec 8} {ctx : BitVec 11} {index mi : BitVec 7} {b mb : Bool}
  {cls : HufClass} {tbl : Fin 4} {r : Except DecodeError Instr}

/-- A row's check passes if the opcode is the row's and no must-be-zero bit, of those in `m`, is 1 (R172). -/
theorem checked_append {low m : BitVec 26} (h : low &&& m = 0) :
    checked (op ++ low) (BitVec.allOnes 6 ++ m) (op ++ 0#26) r = r :=
  if_pos (by rw [BitVec.and_append, BitVec.and_allOnes, h]; rfl)

theorem checked_wordReg : checked (wordReg op reg) 0xFFFFFF00 (op ++ 0#26) r = r :=
  checked_append (m := BitVec.allOnes 18 ++ 0#8) (by rw [BitVec.and_append, BitVec.zero_and, BitVec.and_zero]; rfl)

theorem checked_wordCount : checked (wordCount op n) 0xFFFFFFC0 (op ++ 0#26) r = r :=
  checked_append (m := BitVec.allOnes 20 ++ 0#6) (by rw [BitVec.and_append, BitVec.zero_and, BitVec.and_zero]; rfl)

/-- `mi` and `mb` are the bits of INDEX and of bit 0 that the row's mask checks. -/
theorem checked_wordCtx (hi : index &&& mi = 0) (hb : (b && mb) = false) :
    checked (wordCtx op ctx index b)
      (BitVec.allOnes 6 ++ (BitVec.allOnes 7 ++ (0#11 ++ (mi ++ BitVec.ofBool mb)))) (op ++ 0#26) r = r := by
  refine checked_append ?_
  iterate 3 rw [BitVec.and_append]
  rw [BitVec.zero_and, BitVec.and_zero, hi, BitVec.ofBool_and_ofBool, hb]
  rfl

/-- `ms` are the bits of SYMBOL that the row's mask checks. -/
theorem checked_wordHuf (hs : sym &&& ms = 0) :
    checked (wordHuf op cls tbl sym)
      (BitVec.allOnes 6 ++ (BitVec.allOnes 15 ++ (0#1 ++ (0#2 ++ ms)))) (op ++ 0#26) r = r := by
  refine checked_append ?_
  iterate 3 rw [BitVec.and_append]
  rw [BitVec.zero_and, BitVec.and_zero, BitVec.and_zero, hs]
  rfl

end

@[simp] theorem symOf_wordReg (op : BitVec 6) (reg : BitVec 8) : symOf (wordReg op reg) = reg := by
  unfold symOf wordReg
  rw [BitVec.extractLsb'_append_eq_of_add_le, BitVec.extractLsb'_append_eq_right]
  decide

theorem count_wordCount (op n : BitVec 6) : (wordCount op n).extractLsb' 0 6 = n := by
  unfold wordCount
  rw [BitVec.extractLsb'_append_eq_of_add_le, BitVec.extractLsb'_append_eq_right]
  decide

section
variable (op : BitVec 6) (ctx : BitVec 11) (index : BitVec 7) (b : Bool)

@[simp] theorem ctxOf_wordCtx : ctxOf (wordCtx op ctx index b) = ctx := by
  unfold ctxOf wordCtx
  rw [BitVec.extractLsb'_append_eq_of_add_le, BitVec.extractLsb'_append_eq_of_add_le,
    BitVec.extractLsb'_append_eq_left] <;> decide

theorem index_wordCtx : (wordCtx op ctx index b).extractLsb' 1 7 = index := by
  unfold wordCtx
  rw [BitVec.extractLsb'_append_eq_of_add_le, BitVec.extractLsb'_append_eq_of_add_le,
    BitVec.extractLsb'_append_eq_of_add_le, BitVec.extractLsb'_append_eq_left] <;> decide

@[simp] theorem bitOf_wordCtx : bitOf (wordCtx op ctx index b) 0 = b := by
  unfold bitOf wordCtx
  iterate 4 rw [BitVec.getLsbD_append]
  simp

end

section
variable (op : BitVec 6) (cls : HufClass) (tbl : Fin 4) (sym : Byte)

@[simp] theorem bitOf_wordHuf : bitOf (wordHuf op cls tbl sym) 10 = cls.toBool := by
  unfold bitOf wordHuf
  iterate 4 rw [BitVec.getLsbD_append]
  simp

@[simp] theorem tblOf_wordHuf : tblOf (wordHuf op cls tbl sym) = tbl := by
  unfold tblOf wordHuf
  rw [BitVec.extractLsb'_append_eq_of_add_le, BitVec.extractLsb'_append_eq_of_add_le,
    BitVec.extractLsb'_append_eq_of_add_le, BitVec.extractLsb'_append_eq_left] <;> decide

@[simp] theorem symOf_wordHuf : symOf (wordHuf op cls tbl sym) = sym := by
  unfold symOf wordHuf
  rw [BitVec.extractLsb'_append_eq_of_add_le, BitVec.extractLsb'_append_eq_of_add_le,
    BitVec.extractLsb'_append_eq_of_add_le, BitVec.extractLsb'_append_eq_right] <;> decide

end

/-! ### The codes of the enumerations (R84, R163, R169) -/

@[simp] theorem Stuff.toBool_ofBool (b : Bool) : (Stuff.ofBool b).toBool = b := by cases b <;> rfl

@[simp] theorem StreamSel.toBool_ofBool (b : Bool) : (StreamSel.ofBool b).toBool = b := by
  cases b <;> rfl

@[simp] theorem HufClass.toBool_ofBool (b : Bool) : (HufClass.ofBool b).toBool = b := by
  cases b <;> rfl

@[simp] theorem HufClass.ofBool_toBool (c : HufClass) : HufClass.ofBool c.toBool = c := by
  cases c <;> rfl

@[simp] theorem Reg.ofNumber_number (r : Reg) : Reg.ofNumber r.number = some r := by
  cases r with
  | compCfg i | compCond i | predDc i | predDiff i | biasB i | biasN i => revert i; decide
  | _ => rfl

theorem Reg.number_of_mem_ofNumber : ∀ n, ∀ r ∈ Reg.ofNumber n, r.number = n := by decide

/-- The numbers that name a register are those R84 assigns. -/
theorem Reg.ofNumber_isSome : ∀ n, (Reg.ofNumber n).isSome = true ↔ n.toNat ∈ assignedNumbers := by decide

/-! ### Decoding a command's word (R172) -/

/-- Decoding the word of a well-formed command gives the command back (R172). -/
theorem decode_encode {i : Instr} (h : WellFormed i) : decode (encode i) = .ok i := by
  unfold decode
  rw [opcode_encode]
  cases i with
  | nop | coreReset | bcFlush | bcSkipStuffing | bcFindMarker | bcGetByteZ | qmInitEnc | qmInitDec
  | ctxResetAll | epStartParse | epStartWrite | epStartMeasure | epStartMcuRow | epParseMcu
  | epWriteMcu | epFlush | epRestart | epWriteFrameType => rfl
  | cfgWrite r | cfgRead r => exact checked_wordReg.trans (by simp [withReg, encode])
  | bcOpenRead m t | bcOpenWrite m t => cases m <;> cases t <;> rfl
  | bcGetBits n | bcPutBits n =>
    refine checked_wordCount.trans ?_
    rw [encode, count_wordCount]
    exact if_pos h
  | qmEncode ctx d =>
    exact (checked_wordCtx (mi := 127) (mb := false) rfl (Bool.and_false d)).trans (by simp [encode])
  | qmDecode ctx | ctxRead ctx =>
    exact (checked_wordCtx (mi := 127) (mb := true) rfl rfl).trans (by simp [encode])
  | qmFlush final => cases final <;> rfl
  | ctxInit ctx index mps =>
    refine (checked_wordCtx (mi := 0) (mb := false) BitVec.and_zero (Bool.and_false mps)).trans ?_
    simp [encode, index_wordCtx]
  | hufPut cls tbl sym | hufCount cls tbl sym =>
    exact (checked_wordHuf (ms := 0) BitVec.and_zero).trans (by simp [encode])
  | hufGet cls tbl => exact (checked_wordHuf (ms := 255) rfl).trans (by simp [encode])

/-! ### A word put together again from its fields (R161–R169) -/

/-- The bits of a word that a mask checks to be 0 are 0, slice by slice. -/
theorem slice_eq_zero {w z : Word} {s n : Nat} (h : w &&& z = 0)
    (hz : z.extractLsb' s n = BitVec.allOnes n) : w.extractLsb' s n = 0#n := by
  have hs := congrArg (BitVec.extractLsb' s n) h
  rw [BitVec.extractLsb'_and, hz, BitVec.and_allOnes] at hs
  exact hs.trans BitVec.extractLsb'_zero

theorem ofBool_bitOf (w : Word) (k : Nat) : BitVec.ofBool (bitOf w k) = w.extractLsb' k 1 := by
  ext i hi
  obtain rfl : i = 0 := by omega
  simp [bitOf]

theorem bitOf_eq_false {w z : Word} {k : Nat} (h : w &&& z = 0)
    (hz : z.extractLsb' k 1 = BitVec.allOnes 1) : bitOf w k = false := by
  have hk := ofBool_bitOf w k
  rw [slice_eq_zero h hz] at hk
  cases hb : bitOf w k with
  | false => rfl
  | true => rw [hb] at hk; cases hk

section
variable {w : Word} {op : BitVec 6} (hop : opcode w = op)
include hop

theorem wordLow_eq {b1 b0 : Bool} (hz : w.extractLsb' 2 24 = 0#24) (h1 : bitOf w 1 = b1)
    (h0 : bitOf w 0 = b0) : wordLow op b1 b0 = w := by
  subst hop h1 h0
  rw [wordLow, ofBool_bitOf, ofBool_bitOf, ← hz, opcode]
  iterate 3 rw [BitVec.extractLsb'_append_extractLsb'_eq_extractLsb' (by decide)]
  exact BitVec.extractLsb'_eq_self

theorem wordReg_eq {reg : BitVec 8} (hz : w.extractLsb' 8 18 = 0#18) (hr : symOf w = reg) :
    wordReg op reg = w := by
  subst hop hr
  rw [wordReg, ← hz, opcode, symOf]
  iterate 2 rw [BitVec.extractLsb'_append_extractLsb'_eq_extractLsb' (by decide)]
  exact BitVec.extractLsb'_eq_self

theorem wordCount_eq (hz : w.extractLsb' 6 20 = 0#20) :
    wordCount op (w.extractLsb' 0 6) = w := by
  subst hop
  rw [wordCount, ← hz, opcode]
  iterate 2 rw [BitVec.extractLsb'_append_extractLsb'_eq_extractLsb' (by decide)]
  exact BitVec.extractLsb'_eq_self

theorem wordCtx_eq {index : BitVec 7} {b : Bool} (hz : w.extractLsb' 19 7 = 0#7)
    (hi : w.extractLsb' 1 7 = index) (hb : bitOf w 0 = b) :
    wordCtx op (ctxOf w) index b = w := by
  subst hop hi hb
  rw [wordCtx, ofBool_bitOf, ← hz, opcode, ctxOf]
  iterate 4 rw [BitVec.extractLsb'_append_extractLsb'_eq_extractLsb' (by decide)]
  exact BitVec.extractLsb'_eq_self

theorem wordHuf_eq {sym : Byte} (hz : w.extractLsb' 11 15 = 0#15) (hs : symOf w = sym) :
    wordHuf op (.ofBool (bitOf w 10)) (tblOf w) sym = w := by
  subst hop hs
  rw [wordHuf, HufClass.toBool_ofBool, ofBool_bitOf, ← hz, opcode, tblOf, symOf]
  show _ ++ (_ ++ (_ ++ (w.extractLsb' 8 2 ++ _))) = w
  iterate 4 rw [BitVec.extractLsb'_append_extractLsb'_eq_extractLsb' (by decide)]
  exact BitVec.extractLsb'_eq_self

end

/-! ### What the decoder answers (R172–R174) -/

/-- The faults of R174 that are in a field: a bit count outside 1 to 32, an unassigned register. -/
abbrev fieldFault (w : Word) : Prop :=
  (((opcode w).toNat = 0x0A ∨ (opcode w).toNat = 0x0B) ∧ (w.toNat % 64 = 0 ∨ 32 < w.toNat % 64)) ∨
  (((opcode w).toNat = 0x02 ∨ (opcode w).toNat = 0x03) ∧ w.toNat % 256 ∉ assignedNumbers)

/-- `r` is right for a word `w` of the row whose must-be-zero bits are `z`: it is a command unless a field is
at fault, and the command is the one `w` stands for. -/
structure RowAnswer (w z : Word) (r : Except DecodeError Instr) : Prop where
  ok_iff : (∃ i, r = .ok i) ↔ ¬ fieldFault w
  inverts : w &&& z = 0 → ∀ i, r = .ok i → encode i = w ∧ WellFormed i

/-- The answers of the decoder on a word: no row of R171 has its opcode (R173), or one has, and then its
must-be-zero bits are checked before the fields (R172, R174). -/
inductive Decoded (w : Word) : Except DecodeError Instr → Prop where
  | reserved (h : ∀ e ∈ mustBeZero, (opcode w).toNat ≠ e.1) : Decoded w (.error .reservedOpcode)
  | row {z : Word} {r : Except DecodeError Instr} (he : ((opcode w).toNat, z) ∈ mustBeZero)
      (h : RowAnswer w z r) : Decoded w (if w &&& z = 0 then r else .error .mustBeZero)

theorem mustBeZero_unique : ∀ e ∈ mustBeZero, ∀ f ∈ mustBeZero, e.1 = f.1 → e = f := by decide

/-- The opcodes of the rows are those R173 does not reserve. -/
theorem opcode_of_mustBeZero : ∀ e ∈ mustBeZero, e.1 ≤ 0x03 ∨ (0x08 ≤ e.1 ∧ e.1 ≤ 0x14) ∨
    (0x18 ≤ e.1 ∧ e.1 ≤ 0x1A) ∨ (0x20 ≤ e.1 ∧ e.1 ≤ 0x22) ∨ (0x28 ≤ e.1 ∧ e.1 ≤ 0x30) := by decide

/-- The row of R171 with opcode `op` and must-be-zero bits `z` has the mask and the match the decoder checks. -/
abbrev IsRow (op : BitVec 6) (z mask mtch : Word) : Prop :=
  (op.toNat, z) ∈ mustBeZero ∧ z = 0#6 ++ z.setWidth 26 ∧
    mask = BitVec.allOnes 6 ++ z.setWidth 26 ∧ mtch = op ++ 0#26

/-- The check of a row's mask is the check of its must-be-zero bits, the opcode being the row's. -/
theorem checked_eq_ite {w mask mtch z : Word} (hrow : IsRow (opcode w) z mask mtch)
    (r : Except DecodeError Instr) :
    checked w mask mtch r = if w &&& z = 0 then r else .error .mustBeZero := by
  obtain ⟨-, hz, hmask, hmtch⟩ := hrow
  have hw : w = opcode w ++ w.extractLsb' 0 26 :=
    (BitVec.extractLsb'_append_extractLsb' (w := 6) (len := 26)).symm
  have hm : w &&& mask = opcode w ++ (w.extractLsb' 0 26 &&& z.setWidth 26) := by
    rw [hmask]
    conv => lhs; rw [hw]
    rw [BitVec.and_append, BitVec.and_allOnes]
  have h0 : w &&& z = 0#6 ++ (w.extractLsb' 0 26 &&& z.setWidth 26) := by
    conv => lhs; rw [hw, hz]
    rw [BitVec.and_append, BitVec.and_zero]
  have hiff : w &&& mask = mtch ↔ w &&& z = 0 := by
    rw [hm, h0, hmtch]
    exact (BitVec.append_right_inj _).trans (BitVec.append_right_inj (0#6) (t₂ := 0#26)).symm
  simp only [checked, hiff]

/-- A row of the decoder, its mask written as the must-be-zero bits (R171, R172). -/
theorem Decoded.of_checked {w mask mtch z : Word} {n : Nat} {r : Except DecodeError Instr}
    (hop : (opcode w).toNat = n) (hrow : IsRow (BitVec.ofNat 6 n) z mask mtch)
    (h : opcode w = BitVec.ofNat 6 n → RowAnswer w z r) : Decoded w (checked w mask mtch r) := by
  have hn : opcode w = BitVec.ofNat 6 n := by rw [← hop, BitVec.ofNat_toNat, BitVec.setWidth_eq]
  rw [checked_eq_ite (hn ▸ hrow)]
  exact .row (hn ▸ hrow.1) (h hn)

/-- The opcodes of the formats with a field that can be at fault, R and B. -/
abbrev formatRB : List Nat := [0x02, 0x03, 0x0A, 0x0B]

theorem not_fieldFault {w : Word} {op : BitVec 6} (hop : opcode w = op) (h : op.toNat ∉ formatRB) :
    ¬ fieldFault w := by
  subst hop
  simp only [formatRB, List.mem_cons, List.not_mem_nil, or_false, not_or] at h
  rintro (⟨ha, -⟩ | ⟨ha, -⟩) <;> omega

/-- A row whose fields cannot be at fault. -/
theorem RowAnswer.ok {w z : Word} {op : BitVec 6} {i : Instr} (hop : opcode w = op) (hf : op.toNat ∉ formatRB)
    (hw : WellFormed i) (he : w &&& z = 0 → encode i = w) : RowAnswer w z (.ok i) where
  ok_iff := iff_of_true ⟨i, rfl⟩ (not_fieldFault hop hf)
  inverts hz _ hi := by cases hi; exact ⟨he hz, hw⟩

/-- A row of format R (R162). -/
theorem RowAnswer.withReg {w : Word} {op : BitVec 6} {i : Reg → Instr} (hop : opcode w = op)
    (hf : op = 0x02 ∨ op = 0x03) (hw : ∀ r, WellFormed (i r))
    (he : ∀ r, encode (i r) = wordReg op r.number) :
    RowAnswer w 0x03FFFF00 (withReg (symOf w) i) where
  ok_iff := by
    have hs : (symOf w).toNat = w.toNat % 256 := BitVec.extractLsb'_toNat 0 8 w
    subst hop
    have hb : fieldFault w ↔ ¬ (Reg.ofNumber (symOf w)).isSome = true := by
      rw [Reg.ofNumber_isSome, hs]
      rcases hf with hf | hf <;> simp [fieldFault, hf]
    rw [hb, Classical.not_not, Sys2Proof.withReg]
    cases Reg.ofNumber (symOf w) <;> simp
  inverts hz j hj := by
    rw [Sys2Proof.withReg] at hj
    split at hj
    next r hr =>
      cases hj
      have hn : symOf w = r.number := (Reg.number_of_mem_ofNumber _ r hr).symm
      exact ⟨(he r).trans (wordReg_eq hop (slice_eq_zero hz rfl) hn), hw r⟩
    next => cases hj

/-- A row of format B (R164). -/
theorem RowAnswer.withCount {w : Word} {op : BitVec 6} {i : BitVec 6 → Instr} (hop : opcode w = op)
    (hf : op = 0x0A ∨ op = 0x0B) (hw : ∀ n, (i n).wellFormed = bitCountOk n)
    (he : ∀ n, encode (i n) = wordCount op n) :
    RowAnswer w 0x03FFFFC0 (withCount (w.extractLsb' 0 6) i) where
  ok_iff := by
    have hs : (w.extractLsb' 0 6).toNat = w.toNat % 64 := BitVec.extractLsb'_toNat 0 6 w
    subst hop
    have hb : fieldFault w ↔ ¬ bitCountOk (w.extractLsb' 0 6) = true := by
      rcases hf with hf | hf <;> simp [fieldFault, hf, bitCountOk, hs] <;> omega
    rw [hb, Classical.not_not, Sys2Proof.withCount]
    split <;> simp [*]
  inverts hz j hj := by
    rw [Sys2Proof.withCount] at hj
    split at hj
    next hc =>
      cases hj
      exact ⟨(he _).trans (wordCount_eq hop (slice_eq_zero hz rfl)), (hw _).trans hc⟩
    next => cases hj

/-- A row whose word is its opcode alone (R161). -/
theorem Decoded.command {w mask mtch : Word} {n : Nat} {i : Instr}
    (hop : (opcode w).toNat = n) (hrow : IsRow (BitVec.ofNat 6 n) 0x03FFFFFF mask mtch)
    (hf : (BitVec.ofNat 6 n).toNat ∉ formatRB)
    (hw : WellFormed i) (hi : encode i = wordLow (BitVec.ofNat 6 n) false false) :
    Decoded w (checked w mask mtch (.ok i)) :=
  .of_checked hop hrow fun h => .ok h hf hw fun hz =>
    hi.trans (wordLow_eq h (slice_eq_zero hz rfl) (bitOf_eq_false hz rfl) (bitOf_eq_false hz rfl))

/-- What the decoder answers on a word (R172–R174). -/
theorem decoded_decode (w : Word) : Decoded w (decode w) := by
  unfold decode
  split
  -- the rows of formats N, R, B, F, QE, QC, O, CI, H and HG, and no row
  case h_1 hop | h_2 hop | h_9 hop | h_10 hop | h_11 hop | h_12 hop | h_13 hop | h_14 hop | h_20 hop
      | h_24 hop | h_25 hop | h_26 hop | h_27 hop | h_28 hop | h_29 hop | h_30 hop | h_31 hop | h_32 hop =>
    exact .command hop (by decide) (by decide) rfl rfl
  case h_3 hop | h_4 hop =>
    exact .of_checked hop (by decide) fun h => .withReg h (by decide) (fun _ => rfl) fun _ => rfl
  case h_7 hop | h_8 hop =>
    exact .of_checked hop (by decide) fun h => .withCount h (by decide) (fun _ => rfl) fun _ => rfl
  case h_5 hop | h_6 hop =>
    exact .of_checked (z := 0x03FFFFFC) hop (by decide) fun h => .ok h (by decide) rfl fun hz =>
      wordLow_eq h (slice_eq_zero hz rfl) (StreamSel.toBool_ofBool _).symm (Stuff.toBool_ofBool _).symm
  case h_15 hop =>
    exact .of_checked (z := 0x03F800FE) hop (by decide) fun h => .ok h (by decide) rfl fun hz =>
      wordCtx_eq h (slice_eq_zero hz rfl) (slice_eq_zero hz rfl) rfl
  case h_16 hop | h_19 hop =>
    exact .of_checked (z := 0x03F800FF) hop (by decide) fun h => .ok h (by decide) rfl fun hz =>
      wordCtx_eq h (slice_eq_zero hz rfl) (slice_eq_zero hz rfl) (bitOf_eq_false hz rfl)
  case h_17 hop =>
    exact .of_checked (z := 0x03FFFFFE) hop (by decide) fun h => .ok h (by decide) rfl fun hz =>
      wordLow_eq h (slice_eq_zero hz rfl) (bitOf_eq_false hz rfl) rfl
  case h_18 hop =>
    exact .of_checked (z := 0x03F80000) hop (by decide) fun h => .ok h (by decide) rfl fun hz =>
      wordCtx_eq h (slice_eq_zero hz rfl) rfl rfl
  case h_21 hop | h_23 hop =>
    exact .of_checked (z := 0x03FFF800) hop (by decide) fun h => .ok h (by decide) rfl fun hz =>
      wordHuf_eq h (slice_eq_zero hz rfl) rfl
  case h_22 hop =>
    exact .of_checked (z := 0x03FFF8FF) hop (by decide) fun h => .ok h (by decide) rfl fun hz =>
      wordHuf_eq h (slice_eq_zero hz rfl) (slice_eq_zero hz rfl)
  case h_33 =>
    refine .reserved fun e he hop => ?_
    have ho := opcode_of_mustBeZero e he
    simp only [imp_false] at *
    omega

/-- A word that decodes has an assigned opcode, and is the word of its command, which is well-formed
(R171, R172, R174). -/
theorem Decoded.of_ok {w : Word} {i : Instr} (h : Decoded w (.ok i)) :
    (∃ e ∈ mustBeZero, (opcode w).toNat = e.1) ∧ encode i = w ∧ WellFormed i := by
  generalize hd : Except.ok i = d at h
  cases h with
  | reserved => cases hd
  | row he hr =>
    split at hd
    next hz => exact ⟨⟨_, he, rfl⟩, hr.inverts hz i hd.symm⟩
    next => cases hd

/-- A word with an assigned opcode decodes if nothing of R174 is wrong with it. -/
theorem Decoded.ok_iff {w : Word} {d : Except DecodeError Instr} (h : Decoded w d)
    (ha : ∃ e ∈ mustBeZero, (opcode w).toNat = e.1) : (∃ i, d = .ok i) ↔ ¬ malformed w := by
  cases h with
  | reserved h =>
    obtain ⟨e, he, hop⟩ := ha
    exact absurd hop (h e he)
  | @row z r he hr =>
    have hm : malformed w ↔ ¬ w &&& z = 0 ∨ fieldFault w := by
      refine or_congr_left ⟨?_, fun hz => ⟨_, he, rfl, hz⟩⟩
      rintro ⟨e, hmem, hop, hz⟩
      rwa [mustBeZero_unique e hmem _ he hop.symm] at hz
    rw [hm, not_or, Classical.not_not, ← hr.ok_iff]
    by_cases hz : w &&& z = 0
    · simp only [hz, if_true, true_and]
    · simp only [hz, if_false, false_and, iff_false, not_exists]
      nofun

end Sys2Proof

namespace Sys2Proof.Machine

/-- The opcodes DEAD accepts, listed (R604). -/
theorem acceptedInDead_iff (op : BitVec 6) :
    acceptedInDead op = true ↔ op.toNat ∈ [0x00, 0x01, 0x02, 0x03, 0x28, 0x29, 0x2A] := by
  revert op; decide

/-! ### The step of a word that is no command (R604, R606) -/

section
variable {w : Word} {s : State} {rest : List HostAction}

/-- A word that does not decode raises IllegalCommand or is ignored, and nothing else (R604, R606). -/
theorem step_of_not_ok (h : ¬ ∃ i, decode w = .ok i) :
    step { s with host := .exec w :: rest } = .next (State.illegal { s with host := rest } w) := by
  simp only [step, fetch, perform, fetchWord]
  cases hd : decode w with
  | ok i => exact absurd ⟨i, hd⟩ h
  | error e => rfl

theorem State.illegal_raises (h : s.status.state ≠ .dead ∨ acceptedInDead (opcode w) = true) :
    s.illegal w = s.raise .illegalCommand := if_neg fun ⟨hd, ha⟩ => by simp [hd, ha] at h

theorem State.illegal_ignored (hd : s.status.state = .dead) (ha : ¬ acceptedInDead (opcode w) = true) :
    s.illegal w = s := if_pos ⟨hd, Bool.not_eq_true _ ▸ ha⟩

end

end Sys2Proof.Machine

open Sys2Proof Sys2Proof.Machine

/-- Settles O2: a command's word through its own format (`decode_encode`), and a word that decodes through its
row of the decoder (`decoded_decode`). -/
theorem encodingsAreOneToOne : Obligations.EncodingsAreOneToOne :=
  ⟨fun _ => decode_encode, fun w _ h => (h ▸ decoded_decode w).of_ok.2⟩

/-- Settles O3: the word does not decode, its opcode being that of no row (`opcode_of_mustBeZero`), and DEAD
accepts none of these opcodes. -/
theorem reservedOpcodesRaise : Obligations.ReservedOpcodesRaise := by
  intro w rest s hop
  simp only [List.mem_append, List.mem_range'_1] at hop
  have hdec : ¬ ∃ i, decode w = .ok i := by
    rintro ⟨i, hi⟩
    obtain ⟨⟨e, he, heq⟩, -⟩ := (hi ▸ decoded_decode w).of_ok
    have ho := opcode_of_mustBeZero e he
    omega
  have hacc : ¬ acceptedInDead (opcode w) = true := by
    simp only [acceptedInDead, Bool.or_eq_true, Bool.and_eq_true, decide_eq_true_eq]
    omega
  rw [step_of_not_ok hdec]
  exact ⟨fun hs => congrArg _ (State.illegal_raises (.inl hs)),
    fun hs => congrArg _ (State.illegal_ignored hs hacc)⟩

/-- Settles O4: a word with an assigned opcode decodes exactly if it has no fault (`Decoded.ok_iff`), and the step
of one that does not is `step_of_not_ok`. -/
theorem malformedWordsRaise : Obligations.MalformedWordsRaise := by
  intro w rest s ha
  have hok := (decoded_decode w).ok_iff ha
  refine ⟨fun hm => ?_, hok.mpr⟩
  rw [step_of_not_ok fun h => hok.mp h hm, ← acceptedInDead_iff]
  exact ⟨fun hs => congrArg _ (State.illegal_raises hs),
    fun ⟨hs, hacc⟩ => congrArg _ (State.illegal_ignored hs hacc)⟩

/-- Settles O1: the decoder run on each word. -/
theorem sampleWordsDecode : Obligations.SampleWordsDecode :=
  ⟨rfl, rfl, rfl, rfl, rfl, rfl, rfl, rfl, rfl, rfl, rfl, rfl, rfl⟩
end

section
/-!
PROOFS. The control commands that no check holds back (R200–R204).
-/
namespace Sys2Proof.Machine

/-- A command that DEAD and a scan accept and that has no check of its own makes its change in every state
(R200, R604–R606). -/
theorem runCommand_always (f : State → State) (s : State) :
    runCommand .always true noCheck (update f) s = .next (f s) :=
  runCommand_ok (.inr rfl) (.inl rfl) rfl (update_run f s)

theorem exec_nop (s : State) : exec .nop s = .next s :=
  runCommand_always id s

theorem exec_coreReset (s : State) : exec .coreReset s = .next s.coreReset :=
  runCommand_always State.coreReset s

theorem exec_cfgRead (r : Reg) (s : State) : exec (.cfgRead r) s = .next (s.setResult (s.reg r)) :=
  runCommand_always (fun s => s.setResult (s.reg r)) s

end Sys2Proof.Machine

open Sys2Proof Sys2Proof.Machine

/-- Settles O10: each of the three commands makes its change in every state (`runCommand_always`), and the change
is the one the statement writes out. -/
theorem controlCommands : Obligations.ControlCommands :=
  fun s => ⟨exec_nop s, exec_coreReset s, fun r => exec_cfgRead r s⟩
end

section
/-!
PROOFS. The context commands (R327, R331–R333) and the shell of a direct command outside a scan (R605).
-/
namespace Sys2Proof.Machine

theorem State.quiet.not_dead {s : State} (h : s.quiet) : s.status.state ≠ .dead := by
  rcases h with h | h <;> simp [h]

theorem State.quiet.not_active {s : State} (h : s.quiet) : s.status.state.active = false := by
  rcases h with h | h <;> rw [h] <;> rfl

/-- A direct command that only changes the state makes its change outside scans when its own checks pass
(R605, R606). -/
theorem runCommand_directly {s : State} {refuses : State → Bool} (h : s.quiet) (hr : refuses s = false)
    (f : State → State) : runCommand .directly true refuses (update f) s = .next (f s) :=
  runCommand_ok (.inl h.not_dead) (.inr h.not_active) hr (update_run f s)

theorem exec_ctxInit {s : State} (h : s.quiet) {ctx : BitVec 11} {index : BitVec 7} (mps : Bool)
    (hc : ctxValid ctx.toNat = true) (hi : index.toNat ≤ 113) :
    exec (.ctxInit ctx index mps) s = .next (s.setCell ctx.toNat (initCell index mps)) :=
  runCommand_directly h (by simp [ctxInitRefuses, hc, hi]) (·.setCell ctx.toNat (initCell index mps))

theorem exec_ctxRead {s : State} (h : s.status.state ≠ .dead) {ctx : BitVec 11}
    (hc : ctxValid ctx.toNat = true) :
    exec (.ctxRead ctx) s = .next (s.setResult (s.cell ctx.toNat).word) :=
  show execCtxRead ctx s = _ from
    runCommand_ok (.inl h) (.inl rfl) (by simp [hc]) (update_run _ s)

theorem exec_ctxResetAll {s : State} (h : s.quiet) : exec .ctxResetAll s = .next s.resetContexts :=
  runCommand_directly h rfl State.resetContexts

/-- An INDEX that CTX_INIT accepts is the INDEX of the cell it writes (R331). -/
theorem initCell_index {index : BitVec 7} (h : index.toNat ≤ 113) (mps : Bool) :
    (initCell index mps).index.val = index.toNat :=
  Nat.mod_eq_of_lt (Nat.lt_succ_of_le h)

/-- The bits of the word CTX_READ returns lie side by side: it is the sum of its fields (R332). -/
theorem CtxCell.word_eq_ofNat (x : CtxCell) :
    x.word = BitVec.ofNat 32 (x.index.val + 2 ^ 7 * x.mps.toNat + 2 ^ 8 * x.used.toNat) := by
  have hi : x.index.val < 128 := Nat.lt_trans x.index.isLt (by decide)
  have hm := Bool.toNat_lt x.mps
  have hu := Bool.toNat_lt x.used
  apply BitVec.eq_of_toNat_eq
  simp only [CtxCell.word, toNat_append_eq, toNat_bit1, BitVec.toNat_ofNat]
  omega

/-- Every cell of an empty bank has its reset value (R327, R333). -/
theorem State.cell_resetContexts (s : State) (a : Nat) : s.resetContexts.cell a = cellReset a := rfl

end Sys2Proof.Machine

open Sys2Proof Sys2Proof.Machine

/-- Settles O26: what each command answers (`exec_ctxInit`, `exec_ctxRead`, `exec_ctxResetAll`), read through the
rules of a cell just written, of the other cells and of the emptied bank. -/
theorem contextCommands : Obligations.ContextCommands := by
  intro s hb
  refine ⟨fun hq ctx index mps hc hi => ?_, fun hd ctx hc => ?_, fun hq => ?_⟩
  · have hcell := State.cell_setCell_same hb ctx.toNat (initCell index mps)
    refine ⟨_, exec_ctxInit hq mps hc hi, ?_, ?_, ?_, fun a ha => State.cell_setCell_other s ha _, rfl⟩
    · rw [hcell, initCell_index hi]
    · rw [hcell]; rfl
    · rw [hcell]; rfl
  · rw [exec_ctxRead hd hc, CtxCell.word_eq_ofNat]
  · exact ⟨_, exec_ctxResetAll hq, s.cell_resetContexts, rfl⟩
end

section
/-!
PROOFS. Categories and extra bits (R356, R357), and the counters of the symbols (R134, R353).
-/
namespace Sys2Proof.Machine

/-! ### Categories and extra bits -/

/-- The magnitude fits the category (R356). -/
theorem natAbs_lt_two_pow_category (v : Int) : v.natAbs < 2 ^ category v := by
  by_cases hv : v = 0
  · subst hv
    exact Nat.two_pow_pos _
  · simpa [category, hv] using Nat.lt_log2_self

/-- No width below the category holds the magnitude (R356). -/
theorem category_le {v : Int} {s : Nat} (h : v.natAbs < 2 ^ s) : category v ≤ s := by
  by_cases hv : v = 0
  · simp [category, hv]
  · simp only [category, hv, if_false]
    exact (Nat.log2_lt (Int.natAbs_ne_zero.mpr hv)).mpr h

/-- A category above 0 is one above a width that the magnitude does not fit. -/
theorem category_cases (v : Int) :
    (v = 0 ∧ category v = 0) ∨ ∃ n, category v = n + 1 ∧ 2 ^ n ≤ v.natAbs := by
  by_cases hv : v = 0
  · exact .inl ⟨hv, by simp [category, hv]⟩
  · refine .inr ⟨v.natAbs.log2, by simp [category, hv], ?_⟩
    exact Nat.log2_self_le (Int.natAbs_ne_zero.mpr hv)

/-- The extra bits of a value fit its category, and `Extend` gives the value back (R357). -/
theorem extend_extraBits (v : Int) : extraBits v (category v) < 2 ^ category v ∧
    extend (extraBits v (category v)) (category v) = v := by
  have hlt := natAbs_lt_two_pow_category v
  rcases category_cases v with ⟨rfl, hc⟩ | ⟨n, hc, hle⟩
  · rw [hc]; decide
  · rw [hc] at hlt ⊢
    have hpow : (2 : Nat) ^ (n + 1) = 2 * 2 ^ n := Nat.pow_succ'
    have hcast : ((2 ^ n : Nat) : Int) = 2 ^ n := Int.natCast_pow 2 n
    have hcast' : (2 : Int) ^ (n + 1) = 2 * 2 ^ n := by rw [Int.pow_succ, Int.mul_comm]
    simp only [extraBits, extend, Nat.add_one_ne_zero, if_false, Nat.add_sub_cancel, hpow, hcast'] at hlt ⊢
    generalize (2 : Nat) ^ n = m at *
    generalize (2 : Int) ^ n = p at *
    by_cases hv : 0 < v
    · simp only [hv, if_true]
      have hb : m ≤ v.toNat := by omega
      simp only [hb, if_true]
      omega
    · simp only [hv, if_false]
      have hb : ¬ m ≤ (v + 2 * p - 1).toNat := by omega
      simp only [hb, if_false]
      omega

/-! ### Counters -/

/-- Different symbols have different counters (R134). -/
theorem countKey_injective {cls cls' : HufClass} {tbl tbl' : Fin 4} {sym sym' : Byte}
    (h : countKey cls' tbl' sym' = countKey cls tbl sym) : (cls', tbl', sym') = (cls, tbl, sym) := by
  have ht := tbl.isLt
  have ht' := tbl'.isLt
  have hs := sym.isLt
  have hs' := sym'.isLt
  have key : cls' = cls ∧ tbl'.val = tbl.val ∧ sym'.toNat = sym.toNat := by
    cases cls <;> cases cls' <;> simp only [countKey, reduceCtorEq, true_and] at h ⊢ <;> omega
  obtain ⟨hc, ht, hs⟩ := key
  rw [hc, Fin.ext ht, BitVec.eq_of_toNat_eq hs]

/-- Every other counter after a count of a symbol (R134). -/
theorem Ports.count_hufCount_other (p : Ports) {cls cls' : HufClass} {tbl tbl' : Fin 4} {sym sym' : Byte}
    (h : (cls', tbl', sym') ≠ (cls, tbl, sym)) :
    (p.hufCount cls tbl sym).count cls' tbl' sym' = p.count cls' tbl' sym' :=
  sparseGet_set_other _ (fun e => h (countKey_injective e)) _ _

theorem exec_hufCount {s : State} (h : s.quiet) (cls : HufClass) (tbl : Fin 4) (sym : Byte) :
    exec (.hufCount cls tbl sym) s = .next { s with ports := s.ports.hufCount cls tbl sym } :=
  runCommand_directly h rfl fun s => { s with ports := s.ports.hufCount cls tbl sym }

end Sys2Proof.Machine

open Sys2Proof Sys2Proof.Machine

/-- Settles O30: the category is one above the logarithm of the magnitude, so the magnitude is at least half the
power of two above it, which is the bound `Extend` tells the signs apart by. -/
theorem extendInvertsExtraBits : Obligations.ExtendInvertsExtraBits :=
  fun v => ⟨natAbs_lt_two_pow_category v, fun _ => category_le, extend_extraBits v⟩

/-- Settles O29: the counter written is read back, and no other symbol has its key. -/
theorem hufCountAddsOne : Obligations.HufCountAddsOne := fun s cls tbl sym hq hc =>
  ⟨_, exec_hufCount hq cls tbl sym, Ports.count_hufCount_same hc cls tbl sym,
    fun _ _ _ h => Ports.count_hufCount_other s.ports h, rfl⟩
end

section
/-!
PROOFS. HUF_PUT (R351).
-/
namespace Sys2Proof.Machine

/-- `PutBits` puts the bits of its value one after another (R236). -/
theorem putBits_eq_foldl : ∀ (n v : Nat) (k : Chan), Chan.putBits n v k = (bitsOf n v).foldl Chan.putBit k
  | 0, _, _ => rfl
  | n + 1, v, k => putBits_eq_foldl n v (k.putBit (v.testBit n))

theorem writeCode_of_some {s : State} {cls : HufClass} {tbl : Fin 4} {sym : Byte} {len code : Nat}
    (h : hufLookup (s.ports.table cls tbl) sym = some (len, code)) :
    writeCode cls tbl sym s = .ok () (s.setChan ((bitsOf len code).foldl Chan.putBit s.chan)) := by
  rw [← putBits_eq_foldl, writeCode, bind_of_ok (x := get) rfl, h]
  rfl

theorem writeCode_of_none {s : State} {cls : HufClass} {tbl : Fin 4} {sym : Byte}
    (h : hufLookup (s.ports.table cls tbl) sym = none) :
    writeCode cls tbl sym s = .error (.raise .contractViolation) s := by
  rw [writeCode, bind_of_ok (x := get) rfl, h]
  rfl

/-- A direct command outside a scan that its own checks accept is its execution (R605, R606). -/
theorem runCommand_quiet {s : State} {refuses : State → Bool} {body : Cmd Unit} (h : s.quiet)
    (hr : refuses s = false) : runCommand .directly true refuses body s = settle (body s) :=
  runCommand_body (.inl h.not_dead) (.inr h.not_active) hr

theorem exec_hufPut {s : State} (h : s.quiet) (hw : s.bc.dir = .write) (cls : HufClass) (tbl : Fin 4)
    (sym : Byte) : exec (.hufPut cls tbl sym) s = settle (writeCode cls tbl sym s) :=
  runCommand_quiet h (by simp [notWriting, hw])

end Sys2Proof.Machine

open Sys2Proof Sys2Proof.Machine

/-- Settles O27: the command is its execution (`exec_hufPut`), which is `PutBits` of the code, or the throw of a
ContractViolation in the state the command began in. -/
theorem hufPutWritesTheCode : Obligations.HufPutWritesTheCode := by
  intro s cls tbl sym hq hw
  rw [exec_hufPut hq hw]
  refine ⟨fun len code h => ?_, fun h => ?_⟩
  · rw [writeCode_of_some h]
    rfl
  · rw [writeCode_of_none h]
    exact ⟨_, rfl, rfl, rfl, rfl, rfl, rfl⟩
end

section
/-!
PROOFS. Huffman tables (R133, R714 H-3).
-/
namespace Sys2Proof.Machine

/-- Two entries are apart where they differ in their symbols and neither code begins the other. -/
theorem HufEntry.apart_iff {e f : HufEntry} :
    e.apart f = true ↔ e.sym ≠ f.sym ∧ e.prefixOf f = false ∧ f.prefixOf e = false := by
  simp [HufEntry.apart, and_assoc]

theorem HufEntry.apart_comm {e f : HufEntry} : e.apart f = true ↔ f.apart e = true := by
  rw [HufEntry.apart_iff, HufEntry.apart_iff, ne_comm, and_comm (a := e.prefixOf f = false)]

/-- A code begins itself. -/
theorem HufEntry.prefixOf_of_eq {e f : HufEntry} (hl : e.len = f.len) (hc : e.code = f.code) :
    e.prefixOf f = true := by
  simp [HufEntry.prefixOf, hl, hc]

theorem hufTableOk_cons {e : HufEntry} {t : HufTable} : hufTableOk (e :: t) = true ↔
    e.legal = true ∧ (∀ f ∈ t, e.apart f = true) ∧ hufTableOk t = true := by
  simp [hufTableOk, and_assoc]

/-- The codes of a table have legal lengths and values (R133). -/
theorem legal_of_mem_hufTable {e : HufEntry} : ∀ {t : HufTable}, hufTableOk t = true → e ∈ t →
    1 ≤ e.len ∧ e.len ≤ 16 ∧ e.code < 2 ^ e.len
  | f :: t, h, he => by
    obtain ⟨hf, -, ht⟩ := hufTableOk_cons.mp h
    rcases List.mem_cons.mp he with rfl | he
    · simpa [HufEntry.legal, and_assoc] using hf
    · exact legal_of_mem_hufTable ht he

/-- Two entries of a table are the same, or apart (R714 H-3). -/
theorem apart_of_mem_hufTable {e f : HufEntry} : ∀ {t : HufTable}, hufTableOk t = true → e ∈ t → f ∈ t →
    e = f ∨ e.apart f = true
  | g :: t, h, he, hf => by
    obtain ⟨-, hg, ht⟩ := hufTableOk_cons.mp h
    rcases List.mem_cons.mp he with rfl | he' <;> rcases List.mem_cons.mp hf with rfl | hf'
    · exact .inl rfl
    · exact .inr (hg f hf')
    · exact .inr (HufEntry.apart_comm.mp (hg e he'))
    · exact apart_of_mem_hufTable ht he' hf'

theorem mem_of_hufLookup {sym : Byte} {len code : Nat} : ∀ {t : HufTable},
    hufLookup t sym = some (len, code) → ⟨sym, len, code⟩ ∈ t
  | e :: t, h => by
    unfold hufLookup at h
    split at h
    · rename_i he
      cases h
      exact he ▸ List.mem_cons_self
    · exact List.mem_cons_of_mem e (mem_of_hufLookup h)

theorem mem_of_hufMatch {sym : Byte} {len code : Nat} : ∀ {t : HufTable},
    hufMatch t len code = some sym → ⟨sym, len, code⟩ ∈ t
  | e :: t, h => by
    unfold hufMatch at h
    split at h
    · rename_i he
      cases h
      exact he.1 ▸ he.2 ▸ List.mem_cons_self
    · exact List.mem_cons_of_mem e (mem_of_hufMatch h)

/-- `HufLookup` finds the entry of a symbol: no entry before it has the symbol (R133). -/
theorem hufLookup_eq_some_iff {sym : Byte} {len code : Nat} {t : HufTable} (h : hufTableOk t = true) :
    hufLookup t sym = some (len, code) ↔ ⟨sym, len, code⟩ ∈ t := by
  refine ⟨mem_of_hufLookup, fun hm => ?_⟩
  induction t with
  | nil => cases hm
  | cons e t ih =>
    obtain ⟨-, he, ht⟩ := hufTableOk_cons.mp h
    rcases List.mem_cons.mp hm with rfl | hm
    · simp [hufLookup]
    · have hsym : e.sym ≠ sym := (HufEntry.apart_iff.mp (he _ hm)).1
      simpa only [hufLookup, hsym, if_false] using ih ht hm

/-- `HufMatch` finds the entry of a code: no entry before it has the code (R133). -/
theorem hufMatch_eq_some_iff {sym : Byte} {len code : Nat} {t : HufTable} (h : hufTableOk t = true) :
    hufMatch t len code = some sym ↔ ⟨sym, len, code⟩ ∈ t := by
  refine ⟨mem_of_hufMatch, fun hm => ?_⟩
  induction t with
  | nil => cases hm
  | cons e t ih =>
    obtain ⟨-, he, ht⟩ := hufTableOk_cons.mp h
    rcases List.mem_cons.mp hm with rfl | hm
    · simp [hufMatch]
    · obtain ⟨-, hp, -⟩ := HufEntry.apart_iff.mp (he _ hm)
      have hcode : ¬ (e.len = len ∧ e.code = code) := fun ⟨hl, hc⟩ =>
        Bool.false_ne_true (hp.symm.trans (HufEntry.prefixOf_of_eq hl hc))
      simpa only [hufMatch, hcode, if_false] using ih ht hm

/-- The first bits of a code, fewer than it has, are no code (R133, R714 H-3). -/
theorem hufMatch_eq_none_of_shorter {sym : Byte} {len code m : Nat} {t : HufTable} (h : hufTableOk t = true)
    (hl : hufLookup t sym = some (len, code)) (hm : m < len) :
    hufMatch t m (code / 2 ^ (len - m)) = none := by
  rw [Option.eq_none_iff_forall_ne_some]
  intro sym' hs
  have hpre : (⟨sym', m, code / 2 ^ (len - m)⟩ : HufEntry).prefixOf ⟨sym, len, code⟩ = true := by
    simp [HufEntry.prefixOf, Nat.le_of_lt hm]
  rcases apart_of_mem_hufTable h (mem_of_hufMatch hs) (mem_of_hufLookup hl) with he | ha
  · exact Nat.ne_of_lt hm (congrArg HufEntry.len he)
  · exact Bool.false_ne_true ((HufEntry.apart_iff.mp ha).2.1.symm.trans hpre)

end Sys2Proof.Machine
end

section
/-!
PROOFS. The value of bits, and what reading a channel takes from the bits it has left (R224–R229).
-/
namespace Sys2Proof.Machine

/-! ### Bits and their value -/

@[simp] theorem length_bitsOf : ∀ n v, (bitsOf n v).length = n
  | 0, _ => rfl
  | n + 1, v => congrArg (· + 1) (length_bitsOf n v)

/-- The bits of a value are those of its high part and those of its low part. -/
theorem bitsOf_add (n v : Nat) : ∀ m, bitsOf (m + n) v = bitsOf m (v / 2 ^ n) ++ bitsOf n v
  | 0 => by simp [bitsOf]
  | m + 1 => by
    rw [Nat.add_right_comm]
    simp only [bitsOf, bitsOf_add n v m, Nat.testBit_div_two_pow, List.cons_append]

theorem bitsOf_congr {v w : Nat} : ∀ {n}, (∀ i < n, v.testBit i = w.testBit i) → bitsOf n v = bitsOf n w
  | 0, _ => rfl
  | n + 1, h => by
    simp only [bitsOf, h n n.lt_succ_self, bitsOf_congr fun i hi => h i (Nat.lt_succ_of_lt hi)]

@[simp] theorem bitsOf_mod_two_pow (n v : Nat) : bitsOf n (v % 2 ^ n) = bitsOf n v :=
  bitsOf_congr fun i hi => by simp [Nat.testBit_mod_two_pow, hi]

theorem bitsVal_concat (bits : List Bool) (b : Bool) : bitsVal (bits ++ [b]) = 2 * bitsVal bits + b.toNat := by
  simp [bitsVal]

@[simp] theorem bitsVal_bitsOf (v : Nat) : ∀ n, bitsVal (bitsOf n v) = v % 2 ^ n
  | 0 => by simp [bitsOf, bitsVal, Nat.mod_one]
  | n + 1 => by
    have hlow : bitsOf 1 v = [v.testBit 0] := rfl
    have hmod : v % 2 ^ (n + 1) = 2 * (v / 2 % 2 ^ n) + v % 2 := by
      rw [Nat.pow_succ', Nat.mod_mul, Nat.add_comm]
    rw [bitsOf_add 1 v n, hlow, bitsVal_concat, bitsVal_bitsOf (v / 2 ^ 1) n, hmod, Nat.pow_one]
    have : v.testBit 0 = decide (v % 2 = 1) := Nat.testBit_zero v
    rcases Nat.mod_two_eq_zero_or_one v with h | h <;> simp [h]

/-- The first bits of a value are those of its high part. -/
theorem take_bitsOf {m n : Nat} (h : m ≤ n) (v : Nat) : (bitsOf n v).take m = bitsOf m (v / 2 ^ (n - m)) := by
  obtain ⟨d, rfl⟩ := Nat.exists_eq_add_of_le h
  rw [bitsOf_add d v m, List.take_left' (length_bitsOf ..), Nat.add_sub_cancel_left]

/-- The other bits of a value are those of its low part. -/
theorem drop_bitsOf {m n : Nat} (h : m ≤ n) (v : Nat) : (bitsOf n v).drop m = bitsOf (n - m) v := by
  obtain ⟨d, rfl⟩ := Nat.exists_eq_add_of_le h
  rw [bitsOf_add d v m, List.drop_left' (length_bitsOf ..), Nat.add_sub_cancel_left]

/-! ### The buffer -/

/-- The buffer holds CNT bits (R233). -/
def BitChan.holds (b : BitChan) : Prop := b.rbuf.toNat < 2 ^ b.cnt.toNat

theorem BitChan.readOk_iff {b : BitChan} : b.readOk = true ↔ b.cnt.toNat ≤ 8 ∧ b.holds := by
  simp [BitChan.readOk, BitChan.holds]

/-- The bits in the buffer. -/
def BitChan.buffered (b : BitChan) : List Bool := bitsOf b.cnt.toNat b.rbuf.toNat

/-- A marker or the end of the data was met (R227). -/
abbrev BitChan.stopped (b : BitChan) : Prop := b.marker = true ∨ b.eof = true

/-- What `Push` leaves, where the buffer has room (R225). -/
theorem BitChan.push_buffer {b : BitChan} {v n : Nat} (hb : b.holds) (hv : v < 2 ^ n)
    (hn : b.cnt.toNat + n ≤ 32) :
    (b.push v n).cnt.toNat = b.cnt.toNat + n ∧ (b.push v n).holds ∧
      (b.push v n).buffered = b.buffered ++ bitsOf n v := by
  have hcnt : (b.push v n).cnt.toNat = b.cnt.toNat + n := by
    simp only [BitChan.push, BitVec.toNat_add, BitVec.toNat_ofNat]
    omega
  have hlt : b.rbuf.toNat * 2 ^ n + v < 2 ^ (b.cnt.toNat + n) := by
    have : (b.rbuf.toNat + 1) * 2 ^ n ≤ 2 ^ b.cnt.toNat * 2 ^ n := Nat.mul_le_mul_right _ hb
    rw [Nat.add_mul, Nat.one_mul] at this
    rw [Nat.pow_add]
    omega
  have hbuf : (b.push v n).rbuf.toNat = b.rbuf.toNat * 2 ^ n + v := by
    simp only [BitChan.push, BitVec.toNat_ofNat]
    exact Nat.mod_eq_of_lt (Nat.lt_of_lt_of_le hlt (Nat.pow_le_pow_right (by decide) hn))
  refine ⟨hcnt, ?_, ?_⟩
  · simpa only [BitChan.holds, hcnt, hbuf] using hlt
  · have hhigh : (b.rbuf.toNat * 2 ^ n + v) / 2 ^ n = b.rbuf.toNat := by
      rw [Nat.mul_comm, Nat.mul_add_div (Nat.two_pow_pos _), Nat.div_eq_of_lt hv, Nat.add_zero]
    have hlow : bitsOf n (b.rbuf.toNat * 2 ^ n + v) = bitsOf n v := by
      rw [← bitsOf_mod_two_pow n (_ + v), Nat.mul_comm, Nat.mul_add_mod, bitsOf_mod_two_pow]
    rw [BitChan.buffered, hcnt, hbuf, bitsOf_add, hhigh, hlow, BitChan.buffered]

/-- Taking the oldest bits of the buffer (R228). -/
theorem BitChan.take_buffer {b : BitChan} {n : Nat} (hn : n ≤ b.cnt.toNat) :
    (b.take n).1 = bitsVal (b.buffered.take n) ∧ (b.take n).2.cnt.toNat = b.cnt.toNat - n ∧
      (b.take n).2.holds ∧ (b.take n).2.buffered = b.buffered.drop n := by
  have hc := b.cnt.isLt
  have hcnt : (b.take n).2.cnt.toNat = b.cnt.toNat - n := by
    simp only [BitChan.take, BitVec.toNat_ofNat]
    exact Nat.mod_eq_of_lt (by omega)
  have hmod : b.rbuf.toNat % 2 ^ (b.cnt.toNat - n) < 2 ^ (b.cnt.toNat - n) := Nat.mod_lt _ (Nat.two_pow_pos _)
  have hbuf : (b.take n).2.rbuf.toNat = b.rbuf.toNat % 2 ^ (b.cnt.toNat - n) := by
    simp only [BitChan.take, BitVec.toNat_ofNat]
    exact Nat.mod_eq_of_lt (Nat.lt_of_le_of_lt (Nat.mod_le _ _) b.rbuf.isLt)
  refine ⟨?_, hcnt, ?_, ?_⟩
  · rw [BitChan.buffered, take_bitsOf hn, bitsVal_bitsOf]
    rfl
  · simpa only [BitChan.holds, hcnt, hbuf] using hmod
  · rw [BitChan.buffered, BitChan.buffered, drop_bitsOf hn, hcnt, hbuf, bitsOf_mod_two_pow]

/-! ### The unread bytes -/

section
variable {t : Stream} {b c : Byte} {rest : List Byte}

/-- The unread bytes from a position further on. -/
theorem Stream.drop_seen_add {l : List Byte} (h : t.seen.drop t.pos = l) (d : Nat) :
    t.seen.drop (t.pos + d) = l.drop d := by
  rw [← List.drop_drop, h]

/-- The seen byte that is so many bytes after the position. -/
theorem Stream.getElem?_seen_add {l : List Byte} (h : t.seen.drop t.pos = l) (d : Nat) :
    t.seen[t.pos + d]? = l[d]? := by
  rw [← List.getElem?_drop, h]

theorem Stream.get_of_nil (h : t.seen.drop t.pos = []) : t.get = (none, t) := by
  have h0 : t.seen[t.pos]? = none := Stream.getElem?_seen_add h 0
  rw [Stream.get, h0]

theorem Stream.get_of_cons (h : t.seen.drop t.pos = b :: rest) : t.get = (some b, { t with pos := t.pos + 1 }) := by
  have h0 : t.seen[t.pos]? = some b := Stream.getElem?_seen_add h 0
  rw [Stream.get, h0]

theorem Stream.peekWord_of_singleton (h : t.seen.drop t.pos = [b]) : t.peekWord = none := by
  have h1 : t.seen[t.pos + 1]? = none := Stream.getElem?_seen_add h 1
  simp [Stream.peekWord, h1]

theorem Stream.peekWord_of_cons (h : t.seen.drop t.pos = b :: c :: rest) : t.peekWord = some (b ++ c) := by
  have h0 : t.seen[t.pos]? = some b := Stream.getElem?_seen_add h 0
  have h1 : t.seen[t.pos + 1]? = some c := Stream.getElem?_seen_add h 1
  rw [Stream.peekWord, h0, h1]

/-- `LastUnDo` takes back the byte just read (R126). -/
@[simp] theorem Stream.lastUnDo_get (t : Stream) : ({ t with pos := t.pos + 1 } : Stream).lastUnDo = t := rfl

end

/-! ### `Fill` -/

/-- A word of a 0xFF and a byte is stuffed data as the byte says (R224). -/
theorem isStuffed_append (mode : Stuff) (c : Byte) :
    isStuffed mode (255#8 ++ c) = stuffedAfterFF mode c := by
  have hw : (255#8 ++ c).toNat = c.toNat + 2 ^ 8 * 255 := toNat_append_eq _ _
  cases mode with
  | byte =>
    simp only [isStuffed, stuffedAfterFF, decide_eq_decide, ← BitVec.toNat_inj, hw, BitVec.ofNat_eq_ofNat,
      BitVec.toNat_ofNat]
    omega
  | bit =>
    simp only [isStuffed, stuffedAfterFF, decide_eq_decide, hw]
    omega

/-- The bits of a byte that is no 0xFF: the first is dropped in bit mode after a 0xFF (R226). -/
theorem dataBits_cons {mode : Stuff} {ff : Bool} {b : Byte} (hb : b ≠ 255#8) (rest : List Byte) :
    dataBits mode ff (b :: rest) =
      bitsOf (if mode = .bit ∧ ff = true then 7 else 8) b.toNat ++ dataBits mode false rest := by
  rw [dataBits.eq_def]
  simp only [BitVec.ofNat_eq_ofNat, hb, if_false]
  split <;> rfl

/-- The bits of a stuffed 0xFF; in byte mode the byte after it is dropped (R224). -/
theorem dataBits_stuffed {mode : Stuff} {c : Byte} (hs : stuffedAfterFF mode c = true) (ff : Bool)
    (rest : List Byte) : dataBits mode ff (255#8 :: c :: rest) =
      bitsOf 8 0xFF ++ dataBits mode true ((c :: rest).drop (if mode = .byte then 1 else 0)) := by
  cases mode <;> simp [dataBits, hs]

theorem endsAtMarker_cons {b : Byte} (hb : b ≠ 255#8) (mode : Stuff) (rest : List Byte) :
    endsAtMarker mode (b :: rest) = endsAtMarker mode rest := by
  rw [endsAtMarker.eq_def]
  simp only [BitVec.ofNat_eq_ofNat, hb, if_false]

theorem endsAtMarker_stuffed {mode : Stuff} {c : Byte} (hs : stuffedAfterFF mode c = true)
    (rest : List Byte) : endsAtMarker mode (255#8 :: c :: rest) =
      endsAtMarker mode ((c :: rest).drop (if mode = .byte then 1 else 0)) := by
  cases mode <;> simp [endsAtMarker, hs]

/-- What one `Fill` does to the channel `k` (R226, R227): the end of the data or a marker sets its flag, and all the
data bits were buffered; data are pushed, 8 bits or 7, and are the first of the data bits. -/
inductive Chan.FillCase (k : Chan) : Chan → Prop
  | eof (hdata : dataBits k.bc.mode k.bc.lastFF (k.st.seen.drop k.st.pos) = [])
      (hend : endsAtMarker k.bc.mode (k.st.seen.drop k.st.pos) = false) :
      FillCase k { k with bc := { k.bc with eof := true } }
  | marker (hdata : dataBits k.bc.mode k.bc.lastFF (k.st.seen.drop k.st.pos) = [])
      (hend : endsAtMarker k.bc.mode (k.st.seen.drop k.st.pos) = true) :
      FillCase k { k with bc := { k.bc with marker := true } }
  | push (v n : Nat) (ff : Bool) (d : Nat) (hn : 7 ≤ n) (hn' : n ≤ 8) (hv : v < 2 ^ n)
      (hdata : dataBits k.bc.mode k.bc.lastFF (k.st.seen.drop k.st.pos) =
        bitsOf n v ++ dataBits k.bc.mode ff (k.st.seen.drop (k.st.pos + d)))
      (hend : endsAtMarker k.bc.mode (k.st.seen.drop k.st.pos) =
        endsAtMarker k.bc.mode (k.st.seen.drop (k.st.pos + d))) :
      FillCase k { bc := { k.bc.push v n with lastFF := ff }, st := { k.st with pos := k.st.pos + d } }

/-- `Fill` at the end of what is seen (R227). -/
theorem Chan.fillCase_nil {k : Chan} (hu : k.st.seen.drop k.st.pos = []) : k.FillCase k.fill := by
  have hfill : k.fill = { k with bc := { k.bc with eof := true } } := by
    rw [Chan.fill, Stream.get_of_nil hu]
  rw [hfill]
  exact .eof (by simp [hu, dataBits]) (by simp [hu, endsAtMarker])

/-- `Fill` at a 0xFF: the byte after it says whether the two are data or a marker (R224, R226, R227). -/
theorem Chan.fillCase_ff {k : Chan} {rest : List Byte} (hu : k.st.seen.drop k.st.pos = 255#8 :: rest) :
    k.FillCase k.fill := by
  have hget := Stream.get_of_cons hu
  cases rest with
  | nil =>
    have hfill : k.fill = { k with bc := { k.bc with eof := true } } := by
      simp [Chan.fill, hget, Stream.peekWord_of_singleton hu]
    rw [hfill]
    exact .eof (by simp [hu, dataBits]) (by simp [hu, endsAtMarker])
  | cons c rest =>
    have hpeek := Stream.peekWord_of_cons hu
    cases hs : stuffedAfterFF k.bc.mode c with
    | false =>
      have hfill : k.fill = { k with bc := { k.bc with marker := true } } := by
        simp [Chan.fill, hget, hpeek, isStuffed_append, hs]
      rw [hfill]
      exact .marker (by simp [hu, dataBits, hs]) (by simp [hu, endsAtMarker, hs])
    | true =>
      have hfill : k.fill = ⟨{ k.bc.push 0xFF 8 with lastFF := true },
          { k.st with pos := k.st.pos + ((if k.bc.mode = .byte then 1 else 0) + 1) }⟩ := by
        have hs' := isStuffed_append k.bc.mode c ▸ hs
        cases hm : k.bc.mode <;> rw [hm] at hs' <;>
          simp [Chan.fill, Stream.getWord, hget, hpeek, hs', hm]
      rw [hfill]
      exact .push _ _ _ _ (by decide) (by decide) (by decide)
        (by rw [Stream.drop_seen_add hu, hu, dataBits_stuffed hs, List.drop_succ_cons])
        (by rw [Stream.drop_seen_add hu, hu, endsAtMarker_stuffed hs, List.drop_succ_cons])

/-- `Fill` at another byte: 7 bits of it in bit mode after a 0xFF, and all 8 otherwise (R226). -/
theorem Chan.fillCase_byte {k : Chan} {b : Byte} {rest : List Byte} (hu : k.st.seen.drop k.st.pos = b :: rest)
    (hb : b ≠ 255#8) : k.FillCase k.fill := by
  have hget := Stream.get_of_cons hu
  have hrest : k.st.seen.drop (k.st.pos + 1) = rest := Stream.drop_seen_add hu 1
  have hends : endsAtMarker k.bc.mode (k.st.seen.drop k.st.pos) =
      endsAtMarker k.bc.mode (k.st.seen.drop (k.st.pos + 1)) := by
    rw [hrest, hu, endsAtMarker_cons hb]
  by_cases h7 : k.bc.mode = .bit ∧ k.bc.lastFF = true
  · have hfill : k.fill = ⟨{ k.bc.push (b.toNat % 2 ^ 7) 7 with lastFF := false },
        { k.st with pos := k.st.pos + 1 }⟩ := by
      simp [Chan.fill, hget, hb, h7]
    rw [hfill]
    refine .push _ _ _ _ (by decide) (by decide) (Nat.mod_lt _ (by decide)) ?_ hends
    rw [hrest, hu, dataBits_cons hb, if_pos h7, bitsOf_mod_two_pow]
  · have hfill : k.fill = ⟨{ k.bc.push b.toNat 8 with lastFF := false },
        { k.st with pos := k.st.pos + 1 }⟩ := by
      simp [Chan.fill, hget, hb, h7]
    rw [hfill]
    refine .push _ _ _ _ (by decide) (by decide) b.isLt ?_ hends
    rw [hrest, hu, dataBits_cons hb, if_neg h7]

theorem Chan.fillCase (k : Chan) : k.FillCase k.fill := by
  cases hu : k.st.seen.drop k.st.pos with
  | nil => exact Chan.fillCase_nil hu
  | cons b rest =>
    by_cases hb : b = 255#8
    · exact Chan.fillCase_ff (hb ▸ hu)
    · exact Chan.fillCase_byte hu hb

/-- A read moves the position only forward, and leaves the write side. -/
structure Chan.Forward (k k' : Chan) : Prop where
  pos : k.st.pos ≤ k'.st.pos
  free : k'.bc.free = k.bc.free
  wacc : k'.bc.wacc = k.bc.wacc

theorem steps_forward : Steps Chan.Forward where
  refl _ := ⟨Nat.le_refl _, rfl, rfl⟩
  trans h g := ⟨Nat.le_trans h.pos g.pos, g.free.trans h.free, g.wacc.trans h.wacc⟩

theorem Chan.FillCase.forward {k k' : Chan} (h : k.FillCase k') : k.Forward k' := by
  cases h with
  | eof => exact ⟨Nat.le_refl _, rfl, rfl⟩
  | marker => exact ⟨Nat.le_refl _, rfl, rfl⟩
  | push => exact ⟨Nat.le_add_right _ _, rfl, rfl⟩

/-- A read leaves what it says if it leaves the buffer within its invariant. -/
theorem ReadStep.readOnly {k k' : Chan} (h : ReadStep k k') (hf : k.Forward k')
    (hb : k'.bc.readOk = true) : k.ReadOnly k' :=
  ⟨h.inp, h.unseen, h.out, hf.pos, h.dir, h.mode, h.stream, hf.free, hf.wacc, hb⟩

theorem Chan.ReadOnly.trans {k k' k'' : Chan} (h : k.ReadOnly k') (g : k'.ReadOnly k'') : k.ReadOnly k'' :=
  ⟨g.inp.trans h.inp, g.unseen.trans h.unseen, g.out.trans h.out, Nat.le_trans h.pos g.pos, g.dir.trans h.dir,
    g.mode.trans h.mode, g.stream.trans h.stream, g.free.trans h.free, g.wacc.trans h.wacc, g.buffer⟩

/-! ### The bits left -/

theorem Chan.bits_of_stopped {k : Chan} (h : k.bc.stopped) : k.bits = k.bc.buffered := by
  rw [Chan.bits, if_pos h, List.append_nil, BitChan.buffered]

theorem Chan.bits_of_running {k : Chan} (h : ¬ k.bc.stopped) :
    k.bits = k.bc.buffered ++ dataBits k.bc.mode k.bc.lastFF (k.st.seen.drop k.st.pos) := by
  rw [Chan.bits, if_neg h, BitChan.buffered]

theorem Chan.stopsAtMarker_of_running {k : Chan} (h : ¬ k.bc.stopped) :
    k.stopsAtMarker = endsAtMarker k.bc.mode (k.st.seen.drop k.st.pos) := by
  simp only [BitChan.stopped, not_or, Bool.not_eq_true] at h
  simp [Chan.stopsAtMarker, h]

theorem Chan.cnt_le_length_bits (k : Chan) : k.bc.cnt.toNat ≤ k.bits.length := by
  simp [Chan.bits]

/-- What a `Fill` keeps of a channel with room that has met no end: the bits left and what ends them. It adds at
least 7 bits to the buffer or meets the end (R226–R228). -/
structure Chan.Filled (k k' : Chan) : Prop where
  holds : k'.bc.holds
  bits : k'.bits = k.bits
  stops : k'.stopsAtMarker = k.stopsAtMarker
  room : k'.bc.cnt.toNat ≤ k.bc.cnt.toNat + 8
  progress : k'.bc.stopped ∨ k.bc.cnt.toNat + 7 ≤ k'.bc.cnt.toNat

theorem Chan.FillCase.filled {k k' : Chan} (h : k.FillCase k') (hk : k.bc.holds) (hs : ¬ k.bc.stopped)
    (hc : k.bc.cnt.toNat ≤ 24) : k.Filled k' := by
  have hbits := Chan.bits_of_running hs
  have hends := Chan.stopsAtMarker_of_running hs
  cases h with
  | eof hdata hend =>
    have hstop : ({ k.bc with eof := true } : BitChan).stopped := .inr rfl
    have hmark : k.bc.marker = false := Bool.eq_false_iff.mpr fun h => hs (.inl h)
    refine ⟨hk, ?_, ?_, Nat.le_add_right _ _, .inl hstop⟩
    · rw [hbits, hdata, List.append_nil, Chan.bits_of_stopped (k := ⟨_, k.st⟩) hstop]
      rfl
    · rw [hends, hend, Chan.stopsAtMarker, hmark]
      rfl
  | marker hdata hend =>
    have hstop : ({ k.bc with marker := true } : BitChan).stopped := .inl rfl
    refine ⟨hk, ?_, ?_, Nat.le_add_right _ _, .inl hstop⟩
    · rw [hbits, hdata, List.append_nil, Chan.bits_of_stopped (k := ⟨_, k.st⟩) hstop]
      rfl
    · rw [hends, hend]
      rfl
  | push v n ff d hn hn' hv hdata hend =>
    obtain ⟨hcnt, hholds, hbuf⟩ := BitChan.push_buffer hk hv (by omega)
    have hrun : ¬ ({ k.bc.push v n with lastFF := ff } : BitChan).stopped := hs
    refine ⟨hholds, ?_, ?_, ?_, .inr ?_⟩
    · rw [hbits, hdata, Chan.bits_of_running (k := ⟨_, _⟩) hrun, ← List.append_assoc, ← hbuf]
      rfl
    · rw [hends, hend, Chan.stopsAtMarker_of_running (k := ⟨_, _⟩) hrun]
      rfl
    · show (k.bc.push v n).cnt.toNat ≤ _
      omega
    · show _ ≤ (k.bc.push v n).cnt.toNat
      omega

/-! ### `GetBits` -/

/-- The error of a read that finds too few bits (R228). -/
def Chan.shortErr (k : Chan) : Err := if k.stopsAtMarker then .unexpectedMarker else .unexpectedEndOfStream

theorem getBitsLoop_of_stopped {k : Chan} {n : Nat} (hn : k.bc.cnt.toNat < n) (hs : k.bc.stopped)
    (rounds : Nat) : getBitsLoop (rounds + 1) n k = .error (.raise k.shortErr) k := by
  cases hm : k.bc.marker with
  | true => simp [getBitsLoop, hn, hm, Chan.shortErr, Chan.stopsAtMarker]
  | false =>
    have he : k.bc.eof = true := hs.resolve_left (by simp [hm])
    simp [getBitsLoop, hn, hm, he, Chan.shortErr, Chan.stopsAtMarker]

theorem getBitsLoop_of_running {k : Chan} {n : Nat} (hn : k.bc.cnt.toNat < n) (hs : ¬ k.bc.stopped)
    (rounds : Nat) : getBitsLoop (rounds + 1) n k = getBitsLoop rounds n k.fill := by
  simp only [BitChan.stopped, not_or, Bool.not_eq_true] at hs
  simp [getBitsLoop, hn, hs]

theorem getBitsLoop_of_buffered {k : Chan} {n : Nat} (hn : n ≤ k.bc.cnt.toNat) (rounds : Nat) :
    getBitsLoop (rounds + 1) n k = .ok (k.bc.take n).1 { k with bc := (k.bc.take n).2 } := by
  simp [getBitsLoop, Nat.not_lt.mpr hn]

/-- Reading bits that are in the buffer: their value is read, and the others are left. -/
theorem Chan.take_bits {k : Chan} {n : Nat} (hn : n ≤ k.bc.cnt.toNat) :
    (k.bc.take n).1 = bitsVal (k.bits.take n) ∧
      ({ k with bc := (k.bc.take n).2 } : Chan).bits = k.bits.drop n := by
  obtain ⟨hval, -, -, hbuf⟩ := BitChan.take_buffer hn
  have hlen : n ≤ k.bc.buffered.length := by simpa [BitChan.buffered] using hn
  by_cases hs : k.bc.stopped
  · have hs' : (k.bc.take n).2.stopped := hs
    rw [Chan.bits_of_stopped hs, Chan.bits_of_stopped (k := ⟨_, k.st⟩) hs']
    exact ⟨hval, hbuf⟩
  · have hs' : ¬ (k.bc.take n).2.stopped := hs
    rw [Chan.bits_of_running hs, List.take_append_of_le_length hlen, List.drop_append_of_le_length hlen,
      Chan.bits_of_running (k := ⟨_, k.st⟩) hs', ← hbuf]
    exact ⟨hval, rfl⟩

/-- A channel from which `GetBits` of n bits may start its fill loop with so many rounds left (R228). -/
structure Chan.Filling (k : Chan) (n rounds : Nat) : Prop where
  holds : k.bc.holds
  room : k.bc.cnt.toNat ≤ n + 8
  rounds : k.bc.stopped ∨ n ≤ k.bc.cnt.toNat + 7 * rounds

/-- A round that fills leaves one round less to do. -/
theorem Chan.Filling.fill {k : Chan} {n rounds : Nat} (h : k.Filling n rounds) (hn : n ≤ 24)
    (hc : k.bc.cnt.toNat < n) (hs : ¬ k.bc.stopped) :
    ∃ r, rounds = r + 1 ∧ k.fill.Filling n r ∧ k.Filled k.fill := by
  have hf := k.fillCase.filled h.holds hs (by omega)
  have hr := h.rounds.resolve_left hs
  have hroom := hf.room
  obtain ⟨r, rfl⟩ := Nat.exists_eq_succ_of_ne_zero (n := rounds) (by omega)
  exact ⟨r, rfl, ⟨hf.holds, by omega, hf.progress.imp_right (by omega)⟩, hf⟩

/-- With enough bits left the loop reads the next of them. -/
theorem getBitsLoop_ok {n : Nat} (hn : n ≤ 24) : ∀ (rounds : Nat) {k : Chan}, k.Filling n rounds →
    n ≤ k.bits.length →
    ∃ k', getBitsLoop (rounds + 1) n k = .ok (bitsVal (k.bits.take n)) k' ∧ k'.bits = k.bits.drop n ∧
      k'.stopsAtMarker = k.stopsAtMarker ∧ k'.bc.readOk = true := by
  intro rounds
  induction rounds using Nat.strongRecOn with
  | _ rounds ih =>
    intro k h hlen
    by_cases hc : n ≤ k.bc.cnt.toNat
    · obtain ⟨-, hcnt, hholds, -⟩ := BitChan.take_buffer hc
      obtain ⟨hval, hbits⟩ := Chan.take_bits hc
      have hroom := h.room
      exact ⟨_, hval ▸ getBitsLoop_of_buffered hc rounds, hbits, rfl,
        BitChan.readOk_iff.mpr ⟨Nat.le_trans (Nat.le_of_eq hcnt) (by omega), hholds⟩⟩
    · have hs : ¬ k.bc.stopped := fun hs => hc (by simpa [Chan.bits_of_stopped hs, BitChan.buffered] using hlen)
      obtain ⟨r, rfl, hfill, hf⟩ := h.fill hn (Nat.lt_of_not_le hc) hs
      rw [getBitsLoop_of_running (Nat.lt_of_not_le hc) hs, ← hf.bits, ← hf.stops]
      exact ih r r.lt_succ_self hfill (hf.bits ▸ hlen)

/-- With too few bits left the loop meets what ends them. -/
theorem getBitsLoop_short {n : Nat} (hn : n ≤ 24) : ∀ (rounds : Nat) {k : Chan}, k.Filling n rounds →
    k.bits.length < n → ∃ k', getBitsLoop (rounds + 1) n k = .error (.raise k.shortErr) k' := by
  intro rounds
  induction rounds using Nat.strongRecOn with
  | _ rounds ih =>
    intro k h hlen
    have hc := Nat.lt_of_le_of_lt (Chan.cnt_le_length_bits k) hlen
    by_cases hs : k.bc.stopped
    · exact ⟨k, getBitsLoop_of_stopped hc hs rounds⟩
    · obtain ⟨r, rfl, hfill, hf⟩ := h.fill hn hc hs
      rw [getBitsLoop_of_running hc hs, Chan.shortErr, ← hf.stops]
      exact ih r r.lt_succ_self hfill (hf.bits ▸ hlen)

/-- A channel between commands may start the fill loop: six rounds are enough (R228, R233). -/
theorem filling_of_readOk {k : Chan} {n : Nat} (h : k.bc.readOk = true) (hn : n ≤ 24) : k.Filling n 5 := by
  obtain ⟨hcnt, hholds⟩ := BitChan.readOk_iff.mp h
  exact ⟨hholds, by omega, .inr (by omega)⟩

theorem keeps_forward_getBitsLoop (n : Nat) : ∀ rounds, Keeps Chan.Forward (getBitsLoop rounds n)
  | 0 => fun k => steps_forward.refl k
  | rounds + 1 => fun k => by
    by_cases hc : n ≤ k.bc.cnt.toNat
    · rw [getBitsLoop_of_buffered hc]
      exact ⟨Nat.le_refl _, rfl, rfl⟩
    · by_cases hs : k.bc.stopped
      · rw [getBitsLoop_of_stopped (Nat.lt_of_not_le hc) hs]
        exact steps_forward.refl k
      · rw [getBitsLoop_of_running (Nat.lt_of_not_le hc) hs]
        exact steps_forward.trans k.fillCase.forward (keeps_forward_getBitsLoop n rounds k.fill)

/-! ### The channel in the state -/

/-- A channel put back where it was bound is the channel of the state (R127). -/
theorem State.setChan_chan {s : State} {k : Chan} (h : k.bc.stream = s.bc.stream) : (s.setChan k).chan = k := by
  simp only [State.chan, State.setChan_bc, State.setChan_ports, h]
  cases s.bc.stream <;> rfl

/-- Putting a channel back twice, the stream as it was bound (R127). -/
theorem State.setChan_setChan {s : State} {k : Chan} (h : k.bc.stream = s.bc.stream) (k' : Chan) :
    (s.setChan k).setChan k' = s.setChan k' := by
  simp only [State.setChan, h]
  cases s.bc.stream <;> rfl

theorem getBits_of_le {n : Nat} (hn : n ≤ 24) (s : State) : getBits n s = onChanE (getBitsLoop 6 n) s := by
  rw [getBits, chanGetBits, if_neg (Nat.not_lt.mpr hn)]

/-- `GetBits` of at most 24 bits, with enough bits left: it reads the next of them (R228). -/
theorem getBits_ok {s : State} {n : Nat} (hn : n ≤ 24) (hr : s.bc.readOk = true)
    (hlen : n ≤ s.chan.bits.length) :
    ∃ k, getBits n s = .ok (bitsVal (s.chan.bits.take n)) (s.setChan k) ∧ k.bits = s.chan.bits.drop n ∧
      k.stopsAtMarker = s.chan.stopsAtMarker ∧ s.chan.ReadOnly k := by
  obtain ⟨k, hrun, hbits, hstops, hok⟩ := getBitsLoop_ok hn 5 (filling_of_readOk (k := s.chan) hr hn) hlen
  have hread := keeps_getBitsLoop n 6 s.chan
  have hfwd := keeps_forward_getBitsLoop n 6 s.chan
  rw [hrun] at hread hfwd
  refine ⟨k, ?_, hbits, hstops, hread.readOnly hfwd hok⟩
  rw [getBits_of_le hn, onChanE, hrun]

/-- `GetBits` of at most 24 bits, with too few bits left: the error of what ends them (R228). -/
theorem getBits_short {s : State} {n : Nat} (hn : n ≤ 24) (hr : s.bc.readOk = true)
    (hlen : s.chan.bits.length < n) : ∃ u, getBits n s = .error (.raise s.chan.shortErr) u := by
  obtain ⟨k, hrun⟩ := getBitsLoop_short hn 5 (filling_of_readOk (k := s.chan) hr hn) hlen
  exact ⟨s.setChan k, by rw [getBits_of_le hn, onChanE, hrun]⟩

end Sys2Proof.Machine
end

section
/-!
PROOFS. HUF_GET (R352).
-/
namespace Sys2Proof.Machine

/-! ### Codes as bits -/

/-- The symbol whose code is these bits (R133). -/
def matchBits (t : HufTable) (bits : List Bool) : Option Byte := hufMatch t bits.length (bitsVal bits)

/-- The bits of a symbol's code are its code, and no fewer of them are a code (R133). -/
theorem matchBits_bitsOf {t : HufTable} (h : hufTableOk t = true) {sym : Byte} {len code : Nat}
    (hl : hufLookup t sym = some (len, code)) : matchBits t (bitsOf len code) = some sym ∧
      ∀ m < len, matchBits t ((bitsOf len code).take m) = none := by
  have hmem := mem_of_hufLookup hl
  obtain ⟨-, -, hcode⟩ := legal_of_mem_hufTable h hmem
  refine ⟨?_, fun m hm => ?_⟩
  · rw [matchBits, length_bitsOf, bitsVal_bitsOf, Nat.mod_eq_of_lt hcode]
    exact (hufMatch_eq_some_iff h).mpr hmem
  · have hlt : code / 2 ^ (len - m) < 2 ^ m := by
      rw [Nat.div_lt_iff_lt_mul (Nat.two_pow_pos _), ← Nat.pow_add, Nat.add_sub_cancel' (Nat.le_of_lt hm)]
      exact hcode
    rw [matchBits, take_bitsOf (Nat.le_of_lt hm), length_bitsOf, bitsVal_bitsOf, Nat.mod_eq_of_lt hlt]
    exact hufMatch_eq_none_of_shorter h hl hm

/-! ### The loop of `HuffGet` -/

/-- An execution whose first part ends early. -/
theorem bind_of_error {σ α β : Type} {x : EStateM Exc σ α} {f : α → EStateM Exc σ β} {s u : σ} {e : Exc}
    (h : x s = .error e u) : (x >>= f) s = .error e u := by
  show EStateM.bind x f s = _
  unfold EStateM.bind
  rw [h]

@[simp] theorem Ports.table_setStream (p : Ports) (sel : StreamSel) (t : Stream) (cls : HufClass) (tbl : Fin 4) :
    (p.setStream sel t).table cls tbl = p.table cls tbl := by
  cases sel <;> rfl

section
variable {s : State} (cls : HufClass) (tbl : Fin 4)

/-- One bit read in the loop of `HuffGet`: the code so far is the bits `pre` and this one. -/
theorem huffGetLoop_cons (hr : s.bc.readOk = true) {b : Bool} {rest : List Bool}
    (hb : s.chan.bits = b :: rest) (rounds : Nat) (pre : List Bool) :
    ∃ k, k.bits = rest ∧ k.stopsAtMarker = s.chan.stopsAtMarker ∧ s.chan.ReadOnly k ∧
      huffGetLoop cls tbl (rounds + 1) pre.length (bitsVal pre) s =
        match matchBits (s.ports.table cls tbl) (pre ++ [b]) with
        | some sym => .ok sym (s.setChan k)
        | none => huffGetLoop cls tbl rounds (pre ++ [b]).length (bitsVal (pre ++ [b])) (s.setChan k) := by
  obtain ⟨k, hrun, hbits, hstops, hro⟩ := getBits_ok (s := s) (n := 1) (by decide) hr (by simp [hb])
  rw [hb] at hrun hbits
  have hval : 2 * bitsVal pre + bitsVal ((b :: rest).take 1) = bitsVal (pre ++ [b]) := by
    rw [bitsVal_concat]
    simp [bitsVal]
  refine ⟨k, hbits, hstops, hro, ?_⟩
  rw [huffGetLoop, bind_of_ok hrun, bind_of_ok (x := get) rfl, State.setChan_ports, Ports.table_setStream, hval,
    matchBits, List.length_append, List.length_singleton]
  cases hufMatch (s.ports.table cls tbl) (pre.length + 1) (bitsVal (pre ++ [b])) <;> rfl

/-- No bit is left to the loop of `HuffGet`. -/
theorem huffGetLoop_nil (hr : s.bc.readOk = true) (hb : s.chan.bits = []) (rounds len code : Nat) :
    ∃ u, huffGetLoop cls tbl (rounds + 1) len code s = .error (.raise s.chan.shortErr) u := by
  obtain ⟨u, hu⟩ := getBits_short (s := s) (n := 1) (by decide) hr (by simp [hb])
  exact ⟨u, by rw [huffGetLoop, bind_of_error hu]⟩

/-- The next bits complete a code and no fewer of them do: the loop returns its symbol and has read them. -/
theorem huffGetLoop_match {sym : Byte} {rest : List Bool} : ∀ (bits pre : List Bool) (rounds : Nat) {s : State},
    s.bc.readOk = true → s.chan.bits = bits ++ rest → 0 < bits.length → bits.length ≤ rounds →
    (∀ m, 0 < m → m < bits.length → matchBits (s.ports.table cls tbl) (pre ++ bits.take m) = none) →
    matchBits (s.ports.table cls tbl) (pre ++ bits) = some sym →
    ∃ k, huffGetLoop cls tbl rounds pre.length (bitsVal pre) s = .ok sym (s.setChan k) ∧ k.bits = rest ∧
      s.chan.ReadOnly k := by
  intro bits
  induction bits with
  | nil => exact fun _ _ _ _ _ h => absurd h (Nat.lt_irrefl 0)
  | cons b bits ih =>
    intro pre rounds s hr hb _ hrounds hnone hsome
    obtain ⟨rounds, rfl⟩ := Nat.exists_eq_succ_of_ne_zero (Nat.ne_zero_of_lt hrounds)
    obtain ⟨k, hbits, -, hro, hrun⟩ := huffGetLoop_cons cls tbl hr hb rounds pre
    cases bits with
    | nil => exact ⟨k, by rw [hrun, hsome], hbits, hro⟩
    | cons c bits =>
      have hchan := State.setChan_chan (s := s) hro.stream
      have hfirst : matchBits (s.ports.table cls tbl) (pre ++ [b]) = none :=
        hnone 1 Nat.one_pos (by simp)
      obtain ⟨k', hrun', hbits', hro'⟩ := ih (pre ++ [b]) rounds (s := s.setChan k) hro.buffer
        (by rw [hchan, hbits]; rfl) (by simp) (Nat.le_of_succ_le_succ hrounds)
        (fun m _ hm => by simpa using hnone (m + 1) m.succ_pos (Nat.succ_lt_succ hm))
        (by simpa using hsome)
      refine ⟨k', ?_, hbits', hro.trans (hchan ▸ hro')⟩
      rw [hrun, hfirst, hrun', State.setChan_setChan hro.stream]

/-- None of the next bits are a code: the loop ends in the error of the bits left to it. -/
theorem huffGetLoop_noMatch : ∀ (rounds : Nat) (pre : List Bool) {s : State}, s.bc.readOk = true →
    (∀ m, 0 < m → m ≤ rounds → m ≤ s.chan.bits.length →
      matchBits (s.ports.table cls tbl) (pre ++ s.chan.bits.take m) = none) →
    ∃ u, huffGetLoop cls tbl rounds pre.length (bitsVal pre) s =
      .error (.raise (if rounds ≤ s.chan.bits.length then .malformedStream else s.chan.shortErr)) u := by
  intro rounds
  induction rounds with
  | zero => exact fun _ s _ _ => ⟨s, by rw [if_pos (Nat.zero_le _)]; rfl⟩
  | succ rounds ih =>
    intro pre s hr hnone
    cases hb : s.chan.bits with
    | nil =>
      simpa using huffGetLoop_nil cls tbl hr hb rounds pre.length (bitsVal pre)
    | cons b rest =>
      rw [hb] at hnone
      obtain ⟨k, hbits, hstops, hro, hrun⟩ := huffGetLoop_cons cls tbl hr hb rounds pre
      have hchan := State.setChan_chan (s := s) hro.stream
      have hfirst : matchBits (s.ports.table cls tbl) (pre ++ [b]) = none :=
        hnone 1 Nat.one_pos (by simp) (by simp)
      obtain ⟨u, hu⟩ := ih (pre ++ [b]) (s := s.setChan k) hro.buffer fun m _ hm hlen => by
        rw [hchan, hbits] at hlen ⊢
        simpa using hnone (m + 1) m.succ_pos (Nat.succ_le_succ hm) (Nat.succ_le_succ hlen)
      refine ⟨u, ?_⟩
      rw [hrun, hfirst]
      simpa [hchan, hbits, Chan.shortErr, hstops] using hu

end

/-! ### What an error in a read leaves -/

/-- What a read leaves, even one that ends in an error (R603, R607). -/
def State.keptByReads (s : State) :
    Status × CfgRegs × Word × (List Byte × List Byte) × (List Byte × List Byte) × List (Nat × Nat) :=
  (s.status, s.cfg, s.operand, (s.ports.primary.out, s.ports.aux.out), (s.ports.primary.inp, s.ports.aux.inp),
    s.ports.counts)

theorem State.keptByReads_of_setStream {s t : State} {q : Stream} {sel : StreamSel} (hs : t.status = s.status)
    (hc : t.cfg = s.cfg) (hop : t.operand = s.operand) (hp : t.ports = s.ports.setStream sel q)
    (ho : q.out = (s.ports.stream sel).out) (hi : q.inp = (s.ports.stream sel).inp) :
    t.keptByReads = s.keptByReads := by
  simp only [State.keptByReads, hs, hc, hop, hp]
  cases sel <;> simp only [Ports.setStream, Ports.stream] at ho hi ⊢ <;> rw [ho, hi]

theorem readFrame_keptByReads : ReadFrame fun s t => t.keptByReads = s.keptByReads where
  refl _ := rfl
  trans h g := g.trans h
  read _ _ h := State.keptByReads_of_setStream rfl rfl rfl rfl h.out h.inp
  decode _ _ h := State.keptByReads_of_setStream rfl rfl rfl rfl h.out h.inp
  cell _ _ _ _ := rfl
  scan _ _ := rfl

/-- A direct command that reads and throws an error fails as R603 and R607 say. -/
theorem failsReading_of_error {s u : State} {e : Err} {r : EStateM.Result Exc State Unit}
    (he : r = .error (.raise e) u) (hu : u.keptByReads = s.keptByReads) : failsReading (settle r) s e := by
  simp only [State.keptByReads, Prod.mk.injEq] at hu
  obtain ⟨hs, hc, hop, ⟨hpo, hao⟩, ⟨hpi, hai⟩, hcount⟩ := hu
  subst he
  exact ⟨_, rfl, congrArg (fun t : Status => { t with state := .dead, err := e }) hs, hc, hop, hpo, hao, hpi, hai,
    hcount⟩

/-! ### The command -/

/-- The execution of HUF_GET: the symbol read goes to RESULT (R352). -/
def hufGetBody (cls : HufClass) (tbl : Fin 4) : Cmd Unit := do
  let sym ← huffGet cls tbl
  update fun s => s.setResult (sym.setWidth 32)

theorem exec_hufGet {s : State} (h : s.quiet) (hd : s.bc.dir = .read) (cls : HufClass) (tbl : Fin 4) :
    exec (.hufGet cls tbl) s = settle (hufGetBody cls tbl s) :=
  runCommand_quiet h (by simp [notReading, hd])

/-- HUF_GET where the next bits are the code of a symbol (R352). -/
theorem exec_hufGet_match {s : State} {cls : HufClass} {tbl : Fin 4} {sym : Byte} {len code : Nat} (hq : s.quiet)
    (hd : s.bc.dir = .read) (hr : s.bc.readOk = true) (ht : hufTableOk (s.ports.table cls tbl) = true)
    (hl : hufLookup (s.ports.table cls tbl) sym = some (len, code))
    (hbits : s.chan.bits.take len = bitsOf len code) :
    ∃ k, exec (.hufGet cls tbl) s = .next ((s.setChan k).setResult (sym.setWidth 32)) ∧
      k.bits = s.chan.bits.drop len ∧ s.chan.ReadOnly k := by
  obtain ⟨hpos, hle, -⟩ := legal_of_mem_hufTable ht (mem_of_hufLookup hl)
  obtain ⟨hsome, hnone⟩ := matchBits_bitsOf ht hl
  obtain ⟨k, hrun, hk, hro⟩ := huffGetLoop_match cls tbl (bitsOf len code) [] 16 hr
    (hbits ▸ (List.take_append_drop len s.chan.bits).symm) ((length_bitsOf len code).symm ▸ hpos)
    ((length_bitsOf len code).symm ▸ hle) (fun m _ hm => hnone m (length_bitsOf len code ▸ hm)) hsome
  have hget : huffGet cls tbl s = .ok sym (s.setChan k) := hrun
  refine ⟨k, ?_, hk, hro⟩
  rw [exec_hufGet hq hd, hufGetBody, bind_of_ok hget]
  rfl

/-- HUF_GET where none of the next bits are a code (R352, R228). -/
theorem exec_hufGet_noMatch {s : State} {cls : HufClass} {tbl : Fin 4} (hq : s.quiet) (hd : s.bc.dir = .read)
    (hr : s.bc.readOk = true)
    (hnone : ∀ len, 1 ≤ len → len ≤ 16 → len ≤ s.chan.bits.length →
      matchBits (s.ports.table cls tbl) (s.chan.bits.take len) = none) :
    failsReading (exec (.hufGet cls tbl) s) s
      (if 16 ≤ s.chan.bits.length then .malformedStream else s.chan.shortErr) := by
  obtain ⟨u, hu⟩ := huffGetLoop_noMatch cls tbl 16 [] hr hnone
  have hget : huffGet cls tbl s = .error _ u := hu
  have hkept := keeps_huffGet readFrame_keptByReads cls tbl s
  rw [hget] at hkept
  rw [exec_hufGet hq hd]
  exact failsReading_of_error (bind_of_error hget) hkept

end Sys2Proof.Machine

open Sys2Proof Sys2Proof.Machine

/-- Settles O28: `HuffGet` reads the next bits one by one (`huffGetLoop_cons`). In a table the host may install no code
begins another, so the bits of a code are the first of them to match; where none match, the loop ends with its sixteen
bits or with the bits left. `HufLookup` and `HufMatch` both say which entries the table has. -/
theorem hufGetReadsTheCode : Obligations.HufGetReadsTheCode := by
  refine ⟨fun s cls tbl sym len code hq hd hr ht hl hbits => exec_hufGet_match hq hd hr ht hl hbits,
    fun s cls tbl hq hd hr hnone => ?_, fun t sym len code ht => ?_⟩
  · have hfail := exec_hufGet_noMatch hq hd hr fun len h1 h16 hlen => by
      simpa [matchBits, hlen] using hnone len h1 h16 hlen
    exact ⟨fun h => by rwa [if_pos h] at hfail, fun h => by rwa [if_neg (Nat.not_le.mpr h)] at hfail⟩
  · rw [hufLookup_eq_some_iff ht, hufMatch_eq_some_iff ht]
end
